-- ==== Sys2Proof/Word.lean ====
section
/-! DEFINITION. The two words of the CPE: the command word and the table word.

Every other quantity of the spec is a non-negative integer with explicit masks (00_scope.md R10), so it is a `Nat`
whose range the invariant `Legal` states, or a `BitVec` where its width is fixed by a rule. -/

namespace Sys2Proof

/-- A command word `CMD`, 32 bits (30_encoding.md R70). -/
abbrev CmdWord := BitVec 32

/-- One word of the entropy table, 64 bits (10_state.md R24). -/
abbrev TableWord := BitVec 64

end Sys2Proof
end

