-- ==== Sys2Proof/Syntax.lean ====
section
/-! DEFINITION. The 29 commands of 30_encoding.md R76, one constructor each, with operands already decoded. -/

namespace Sys2Proof

/-- The configuration registers of 10_state.md R30 (writable) and R31 (read-only). -/
inductive CfgReg where
  | w | depth | hdepth | n | mode | paranoia | retryMax | cchk | foldSel | cidx
  | whS1 | whS2 | whS3 | rhash | rtog | idx0 | idx1 | idx2 | idx3
  | tbytes | bitSize | bitIndexMask | wmax | dmax | hdmax | nmax | tmaxBytes | xw
deriving DecidableEq, Repr

/-- The fields of a generator instance (10_state.md R26); `vec` carries the `ELEM` field. -/
inductive GenField where
  | vec (elem : BitVec 8)
  | index | mult | add | lag | carry | variant
deriving DecidableEq, Repr

/-- The fields of a hash instance (10_state.md R29); `vec` carries the `ELEM` field. -/
inductive HashField where
  | vec (elem : BitVec 8)
  | idx | variant
deriving DecidableEq, Repr

/-- One command. The operand that travels on `DIN` is not part of the word (30_encoding.md R70), so not of the term:
the state's port `din` holds it. -/
inductive Instr where
  | nop
  | reset
  | rdstat
  | rdres
  | wrcfg (reg : CfgReg)
  | rdcfg (reg : CfgReg)
  | tsize
  | tload (widx : BitVec 24)
  | tread (widx : BitVec 24)
  | bitstr (width : BitVec 12)
  | fold (width : BitVec 12)
  | folda (alg : BitVec 2) (width : BitVec 12)
  | hwr (inst : BitVec 8) (field : HashField)
  | hrd (inst : BitVec 8) (field : HashField)
  | hupd (inst : BitVec 8) (nbytes : BitVec 12)
  | hdig (inst : BitVec 8)
  | hstep (inst : BitVec 8)
  | hnext (inst : BitVec 8) (steps : BitVec 4) (width : BitVec 12)
  | gwr (inst : BitVec 8) (field : GenField)
  | grd (inst : BitVec 8) (field : GenField)
  | gstep (inst : BitVec 8)
  | gspin (inst : BitVec 8)
  | gnext (inst : BitVec 8) (steps : BitVec 4) (width : BitVec 12)
  | cnext (steps : BitVec 4) (width : BitVec 12)
  | enc (steps : BitVec 4)
  | dec (steps : BitVec 4)
  | whnext (width : BitVec 12)
  | randint (width : BitVec 12)
  | nrv (inst : BitVec 8) (width : BitVec 12)
deriving DecidableEq, Repr

end Sys2Proof
end

