-- ==== Sys2Proof/WellFormed.lean ====
section
/-! DEFINITION. Which terms of `Instr` are commands: the "further conditions" of 30_encoding.md R76 that the types of
`Instr` do not already enforce. -/

namespace Sys2Proof

/-- The registers `WRCFG` may name (10_state.md R30); the others are read-only (R31). -/
def CfgReg.writable : CfgReg → Bool
  | .tbytes | .bitSize | .bitIndexMask | .wmax | .dmax | .hdmax | .nmax | .tmaxBytes | .xw => false
  | .w | .depth | .hdepth | .n | .mode | .paranoia | .retryMax | .cchk | .foldSel | .cidx => true
  | .whS1 | .whS2 | .whS3 | .rhash | .rtog | .idx0 | .idx1 | .idx2 | .idx3 => true

/-- `STEPS != 0` for `HNEXT`, `GNEXT`, `CNEXT`, `ENC`, `DEC`, and a writable register for `WRCFG` (30_encoding.md R76). -/
def Instr.wellFormed : Instr → Bool
  | .wrcfg reg => reg.writable
  | .hnext _ steps _ => steps != 0
  | .gnext _ steps _ => steps != 0
  | .cnext steps _ => steps != 0
  | .enc steps => steps != 0
  | .dec steps => steps != 0
  | .nop | .reset | .rdstat | .rdres | .rdcfg _ | .tsize | .tload _ | .tread _ | .bitstr _ | .fold _ => true
  | .folda _ _ | .hwr _ _ | .hrd _ _ | .hupd _ _ | .hdig _ | .hstep _ | .gwr _ _ | .grd _ _ | .gstep _ => true
  | .gspin _ | .whnext _ | .randint _ | .nrv _ _ => true

end Sys2Proof
end

