-- ==== Sys2Proof/Decode.lean ====
section
/-! DEFINITION. Decoding and encoding of command words (30_encoding.md R70 to R77), and the opcode map of R76 as a
table. -/

namespace Sys2Proof

/-! Fields of the four formats (R70 to R74). -/

/-- `OPC`, bits 31:24 of every format (R70). -/
def opcOf (c : CmdWord) : BitVec 8 := c.extractLsb' 24 8
/-- `INST`, bits 23:16 of formats N and R (R72, R73). -/
def instOf (c : CmdWord) : BitVec 8 := c.extractLsb' 16 8
/-- `STEPS`, bits 15:12 of format N (R72). -/
def stepsOf (c : CmdWord) : BitVec 4 := c.extractLsb' 12 4
/-- `WIDTH`, bits 11:0 of format N (R72). -/
def widthOf (c : CmdWord) : BitVec 12 := c.extractLsb' 0 12
/-- `REG`, bits 15:8 of format R (R73). -/
def regOf (c : CmdWord) : BitVec 8 := c.extractLsb' 8 8
/-- `ELEM`, bits 7:0 of format R (R73). -/
def elemOf (c : CmdWord) : BitVec 8 := c.extractLsb' 0 8
/-- `WIDX`, bits 23:0 of format T (R74); the must-be-zero field of format Z (R71). -/
def widxOf (c : CmdWord) : BitVec 24 := c.extractLsb' 0 24

/-- Why a word is illegal (R77). Every reason raises the one fault `E_ILLEGAL` (60_exceptions.md R171). -/
inductive DecodeError where
  | reservedOpcode
  | mustBeZero
  | stepsZero
  | widthNotEight
  | noSuchRegister
  | readOnlyRegister
  | elemOnScalar
  | noSuchFoldAlgorithm
deriving DecidableEq, Repr

/-- The decoder's answer: a command, or the reason there is none. -/
abbrev Decoded := Except DecodeError Instr

/-- One legality condition: the reason when it fails. -/
def need (ok : Bool) (why : DecodeError) (rest : Decoded) : Decoded :=
  if ok then rest else .error why

/-- Register numbers of 10_state.md R30 and R31. -/
def CfgReg.number : CfgReg → BitVec 8
  | .w => 0x00 | .depth => 0x01 | .hdepth => 0x02 | .n => 0x03 | .mode => 0x04 | .paranoia => 0x05
  | .retryMax => 0x06 | .cchk => 0x07 | .foldSel => 0x08 | .cidx => 0x09 | .whS1 => 0x0A | .whS2 => 0x0B
  | .whS3 => 0x0C | .rhash => 0x0D | .rtog => 0x0E | .idx0 => 0x10 | .idx1 => 0x11 | .idx2 => 0x12
  | .idx3 => 0x13 | .tbytes => 0x20 | .bitSize => 0x21 | .bitIndexMask => 0x22 | .wmax => 0x30
  | .dmax => 0x31 | .hdmax => 0x32 | .nmax => 0x33 | .tmaxBytes => 0x34 | .xw => 0x35

/-- The register a number names; the other numbers are reserved (R77). -/
def CfgReg.ofNumber (r : BitVec 8) : Option CfgReg :=
  match r.toNat with
  | 0x00 => some .w | 0x01 => some .depth | 0x02 => some .hdepth | 0x03 => some .n | 0x04 => some .mode
  | 0x05 => some .paranoia | 0x06 => some .retryMax | 0x07 => some .cchk | 0x08 => some .foldSel
  | 0x09 => some .cidx | 0x0A => some .whS1 | 0x0B => some .whS2 | 0x0C => some .whS3 | 0x0D => some .rhash
  | 0x0E => some .rtog | 0x10 => some .idx0 | 0x11 => some .idx1 | 0x12 => some .idx2 | 0x13 => some .idx3
  | 0x20 => some .tbytes | 0x21 => some .bitSize | 0x22 => some .bitIndexMask | 0x30 => some .wmax
  | 0x31 => some .dmax | 0x32 => some .hdmax | 0x33 => some .nmax | 0x34 => some .tmaxBytes | 0x35 => some .xw
  | _ => none

/-- A scalar field of an instance: `ELEM` must be 0 (R73, R77). -/
def scalarField {α : Type} (elem : BitVec 8) (field : α) : Except DecodeError α :=
  if elem = 0 then .ok field else .error .elemOnScalar

/-- The generator field `REG` names (10_state.md R26); 7 to 255 are reserved (R77). -/
def genFieldOf (reg elem : BitVec 8) : Except DecodeError GenField :=
  match reg.toNat with
  | 0 => .ok (.vec elem)
  | 1 => scalarField elem .index
  | 2 => scalarField elem .mult
  | 3 => scalarField elem .add
  | 4 => scalarField elem .lag
  | 5 => scalarField elem .carry
  | 6 => scalarField elem .variant
  | _ => .error .noSuchRegister

/-- The hash field `REG` names (10_state.md R29); 3 to 255 are reserved (R77). -/
def hashFieldOf (reg elem : BitVec 8) : Except DecodeError HashField :=
  match reg.toNat with
  | 0 => .ok (.vec elem)
  | 1 => scalarField elem .idx
  | 2 => scalarField elem .variant
  | _ => .error .noSuchRegister

/-- Format Z: bits 23:0 must be 0 (R71). -/
def decodeZ (c : CmdWord) (i : Instr) : Decoded := need (widxOf c == 0) .mustBeZero (.ok i)

/-- Format N with `INST` and `STEPS` both 0 (R72). -/
def decodeWidth (c : CmdWord) (i : BitVec 12 → Instr) : Decoded :=
  need (instOf c == 0 && stepsOf c == 0) .mustBeZero (.ok (i (widthOf c)))

/-- Format N with `STEPS` and `WIDTH` both 0 (R72). -/
def decodeInst (c : CmdWord) (i : BitVec 8 → Instr) : Decoded :=
  need (stepsOf c == 0 && widthOf c == 0) .mustBeZero (.ok (i (instOf c)))

/-- Format N with `STEPS` 0 (R72). -/
def decodeInstWidth (c : CmdWord) (i : BitVec 8 → BitVec 12 → Instr) : Decoded :=
  need (stepsOf c == 0) .mustBeZero (.ok (i (instOf c) (widthOf c)))

/-- Format N with `STEPS != 0` (R72, R76). -/
def decodeNext (c : CmdWord) (i : BitVec 8 → BitVec 4 → BitVec 12 → Instr) : Decoded :=
  need (stepsOf c != 0) .stepsZero (.ok (i (instOf c) (stepsOf c) (widthOf c)))

/-- `ENC` and `DEC`: `INST` 0, `WIDTH` 8, `STEPS != 0` (R76). -/
def decodeByte (c : CmdWord) (i : BitVec 4 → Instr) : Decoded :=
  need (instOf c == 0) .mustBeZero <| need (widthOf c == 8) .widthNotEight <|
    need (stepsOf c != 0) .stepsZero (.ok (i (stepsOf c)))

/-- `WRCFG` and `RDCFG`: `INST` and `ELEM` 0, `REG` the number of a register (R73, R76). -/
def decodeCfg (c : CmdWord) (i : CfgReg → Decoded) : Decoded :=
  need (instOf c == 0 && elemOf c == 0) .mustBeZero <|
    match CfgReg.ofNumber (regOf c) with
    | some r => i r
    | none => .error .noSuchRegister

/-- The command a word is, or why it is illegal (R76, R77). -/
def decode (c : CmdWord) : Decoded :=
  match (opcOf c).toNat with
  | 0x00 => decodeZ c .nop
  | 0x01 => decodeZ c .reset
  | 0x02 => decodeZ c .rdstat
  | 0x03 => decodeZ c .rdres
  | 0x04 => decodeCfg c fun r => need r.writable .readOnlyRegister (.ok (.wrcfg r))
  | 0x05 => decodeCfg c fun r => .ok (.rdcfg r)
  | 0x10 => decodeZ c .tsize
  | 0x11 => .ok (.tload (widxOf c))
  | 0x12 => .ok (.tread (widxOf c))
  | 0x13 => decodeWidth c .bitstr
  | 0x18 => decodeWidth c .fold
  | 0x19 => need (c.extractLsb' 18 6 == 0) .noSuchFoldAlgorithm <|
      need (stepsOf c == 0) .mustBeZero (.ok (.folda (c.extractLsb' 16 2) (widthOf c)))
  | 0x20 => (hashFieldOf (regOf c) (elemOf c)).map (.hwr (instOf c))
  | 0x21 => (hashFieldOf (regOf c) (elemOf c)).map (.hrd (instOf c))
  | 0x22 => decodeInstWidth c .hupd
  | 0x23 => decodeInst c .hdig
  | 0x24 => decodeInst c .hstep
  | 0x25 => decodeNext c .hnext
  | 0x30 => (genFieldOf (regOf c) (elemOf c)).map (.gwr (instOf c))
  | 0x31 => (genFieldOf (regOf c) (elemOf c)).map (.grd (instOf c))
  | 0x32 => decodeInst c .gstep
  | 0x33 => decodeInst c .gspin
  | 0x34 => decodeNext c .gnext
  | 0x40 => need (instOf c == 0) .mustBeZero <|
      need (stepsOf c != 0) .stepsZero (.ok (.cnext (stepsOf c) (widthOf c)))
  | 0x41 => decodeByte c .enc
  | 0x42 => decodeByte c .dec
  | 0x50 => decodeWidth c .whnext
  | 0x51 => decodeWidth c .randint
  | 0x52 => decodeInstWidth c .nrv
  | _ => .error .reservedOpcode

/-! Encoding. -/

/-- The opcode byte of a command (R76). -/
def Instr.opcode : Instr → BitVec 8
  | .nop => 0x00 | .reset => 0x01 | .rdstat => 0x02 | .rdres => 0x03 | .wrcfg _ => 0x04 | .rdcfg _ => 0x05
  | .tsize => 0x10 | .tload _ => 0x11 | .tread _ => 0x12 | .bitstr _ => 0x13
  | .fold _ => 0x18 | .folda _ _ => 0x19
  | .hwr _ _ => 0x20 | .hrd _ _ => 0x21 | .hupd _ _ => 0x22 | .hdig _ => 0x23 | .hstep _ => 0x24 | .hnext _ _ _ => 0x25
  | .gwr _ _ => 0x30 | .grd _ _ => 0x31 | .gstep _ => 0x32 | .gspin _ => 0x33 | .gnext _ _ _ => 0x34
  | .cnext _ _ => 0x40 | .enc _ => 0x41 | .dec _ => 0x42
  | .whnext _ => 0x50 | .randint _ => 0x51 | .nrv _ _ => 0x52

/-- Format N (R72). -/
def wordN (opc inst : BitVec 8) (steps : BitVec 4) (width : BitVec 12) : CmdWord := opc ++ inst ++ steps ++ width
/-- Format R (R73). -/
def wordR (opc inst reg elem : BitVec 8) : CmdWord := opc ++ inst ++ reg ++ elem
/-- Format T (R74), and format Z with `widx` 0 (R71). -/
def wordT (opc : BitVec 8) (widx : BitVec 24) : CmdWord := opc ++ widx

/-- `REG` of a generator field (10_state.md R26). -/
def GenField.number : GenField → BitVec 8
  | .vec _ => 0 | .index => 1 | .mult => 2 | .add => 3 | .lag => 4 | .carry => 5 | .variant => 6

/-- `ELEM` of a generator field: the element of `vec`, else 0 (R73). -/
def GenField.elem : GenField → BitVec 8
  | .vec e => e
  | .index | .mult | .add | .lag | .carry | .variant => 0

/-- `REG` of a hash field (10_state.md R29). -/
def HashField.number : HashField → BitVec 8
  | .vec _ => 0 | .idx => 1 | .variant => 2

/-- `ELEM` of a hash field: the element of `vec`, else 0 (R73). -/
def HashField.elem : HashField → BitVec 8
  | .vec e => e
  | .idx | .variant => 0

/-- The word of a command (R71 to R76). -/
def encode (i : Instr) : CmdWord :=
  match i with
  | .nop | .reset | .rdstat | .rdres | .tsize => wordT i.opcode 0
  | .wrcfg r => wordR i.opcode 0 r.number 0
  | .rdcfg r => wordR i.opcode 0 r.number 0
  | .tload x => wordT i.opcode x
  | .tread x => wordT i.opcode x
  | .bitstr b => wordN i.opcode 0 0 b
  | .fold b => wordN i.opcode 0 0 b
  | .folda a b => wordN i.opcode (a.setWidth 8) 0 b
  | .hwr h f => wordR i.opcode h f.number f.elem
  | .hrd h f => wordR i.opcode h f.number f.elem
  | .hupd h l => wordN i.opcode h 0 l
  | .hdig h => wordN i.opcode h 0 0
  | .hstep h => wordN i.opcode h 0 0
  | .hnext h t b => wordN i.opcode h t b
  | .gwr g f => wordR i.opcode g f.number f.elem
  | .grd g f => wordR i.opcode g f.number f.elem
  | .gstep g => wordN i.opcode g 0 0
  | .gspin g => wordN i.opcode g 0 0
  | .gnext g t b => wordN i.opcode g t b
  | .cnext t b => wordN i.opcode 0 t b
  | .enc t => wordN i.opcode 0 t 8
  | .dec t => wordN i.opcode 0 t 8
  | .whnext b => wordN i.opcode 0 0 b
  | .randint b => wordN i.opcode 0 0 b
  | .nrv h b => wordN i.opcode h 0 b

/-! The opcode map of R76 as rows of match, mask and further condition, written independently of `decode`. -/

/-- The column "further conditions for a legal word" of R76. -/
inductive Further where
  | none
  | writableReg
  | anyReg
  | hashField
  | genField
  | stepsNonzero
deriving DecidableEq, Repr

/-- Whether a word meets a further condition; the register numbers are those of 10_state.md R30 and R31. -/
def Further.holds (f : Further) (c : CmdWord) : Bool :=
  match f with
  | .none => true
  | .writableReg => (regOf c).toNat ≤ 0x0E || (0x10 ≤ (regOf c).toNat && (regOf c).toNat ≤ 0x13)
  | .anyReg => (regOf c).toNat ≤ 0x0E || (0x10 ≤ (regOf c).toNat && (regOf c).toNat ≤ 0x13) ||
      (0x20 ≤ (regOf c).toNat && (regOf c).toNat ≤ 0x22) || (0x30 ≤ (regOf c).toNat && (regOf c).toNat ≤ 0x35)
  | .hashField => (regOf c).toNat ≤ 2 && ((regOf c).toNat == 0 || elemOf c == 0)
  | .genField => (regOf c).toNat ≤ 6 && ((regOf c).toNat == 0 || elemOf c == 0)
  | .stepsNonzero => stepsOf c != 0

/-- One row of R76. -/
structure OpcodeRow where
  mnemonic : String
  fixed : CmdWord
  mask : CmdWord
  further : Further
deriving DecidableEq, Repr

/-- The rows of R76, in its order. -/
def opcodeTable : List OpcodeRow :=
  [⟨"NOP", 0x00000000, 0xFFFFFFFF, .none⟩, ⟨"RESET", 0x01000000, 0xFFFFFFFF, .none⟩,
   ⟨"RDSTAT", 0x02000000, 0xFFFFFFFF, .none⟩, ⟨"RDRES", 0x03000000, 0xFFFFFFFF, .none⟩,
   ⟨"WRCFG", 0x04000000, 0xFFFF00FF, .writableReg⟩, ⟨"RDCFG", 0x05000000, 0xFFFF00FF, .anyReg⟩,
   ⟨"TSIZE", 0x10000000, 0xFFFFFFFF, .none⟩, ⟨"TLOAD", 0x11000000, 0xFF000000, .none⟩,
   ⟨"TREAD", 0x12000000, 0xFF000000, .none⟩, ⟨"BITSTR", 0x13000000, 0xFFFFF000, .none⟩] ++
  [⟨"FOLD", 0x18000000, 0xFFFFF000, .none⟩, ⟨"FOLDA", 0x19000000, 0xFFFCF000, .none⟩,
   ⟨"HWR", 0x20000000, 0xFF000000, .hashField⟩, ⟨"HRD", 0x21000000, 0xFF000000, .hashField⟩,
   ⟨"HUPD", 0x22000000, 0xFF00F000, .none⟩, ⟨"HDIG", 0x23000000, 0xFF00FFFF, .none⟩,
   ⟨"HSTEP", 0x24000000, 0xFF00FFFF, .none⟩, ⟨"HNEXT", 0x25000000, 0xFF000000, .stepsNonzero⟩] ++
  [⟨"GWR", 0x30000000, 0xFF000000, .genField⟩, ⟨"GRD", 0x31000000, 0xFF000000, .genField⟩,
   ⟨"GSTEP", 0x32000000, 0xFF00FFFF, .none⟩, ⟨"GSPIN", 0x33000000, 0xFF00FFFF, .none⟩,
   ⟨"GNEXT", 0x34000000, 0xFF000000, .stepsNonzero⟩, ⟨"CNEXT", 0x40000000, 0xFFFF0000, .stepsNonzero⟩,
   ⟨"ENC", 0x41000008, 0xFFFF0FFF, .stepsNonzero⟩, ⟨"DEC", 0x42000008, 0xFFFF0FFF, .stepsNonzero⟩,
   ⟨"WHNEXT", 0x50000000, 0xFFFFF000, .none⟩, ⟨"RANDINT", 0x51000000, 0xFFFFF000, .none⟩,
   ⟨"NRV", 0x52000000, 0xFF00F000, .none⟩]

/-- Whether a word is the command of a row: its fixed bits match and its further condition holds (R76, R77). -/
def OpcodeRow.accepts (r : OpcodeRow) (c : CmdWord) : Bool := c &&& r.mask == r.fixed && r.further.holds c

/-- Legality by the opcode map alone (R77). -/
def legalWord (c : CmdWord) : Bool := opcodeTable.any fun r => r.accepts c

/-- The host's question: the command of the table word whose low `nbits` bits are `w`, every higher bit 0. -/
def decodeTableWord (nbits w : Nat) : Option Instr :=
  match decode (BitVec.ofNat 32 (w % 2 ^ nbits)) with
  | .ok i => some i
  | .error _ => none

end Sys2Proof
end

