-- ==== Sys2Proof/Config.lean ====
section
/-! DEFINITION. What an implementation fixes: the synthesis parameters of 00_scope.md R7, and the one free value. -/

namespace Sys2Proof

/-- The synthesis parameters, fixed for one instance of the block (00_scope.md R7). They are arguments of the model
(93_implementation_defined.md U8), held in the state because `RDCFG` reads them (10_state.md R31); no step changes them. -/
structure Params where
  wmax : Nat
  dmax : Nat
  hdmax : Nat
  nmax : Nat
  tmaxBytes : Nat
deriving DecidableEq, Repr

/-- The constraints of 00_scope.md R7; `TMAX_BYTES` is a power of two `2^k` with `12 <= k <= 27`. -/
structure Params.Legal (p : Params) : Prop where
  wmax_ge : 64 ≤ p.wmax
  dmax_ge : 1 ≤ p.dmax
  dmax_le : p.dmax ≤ 256
  hdmax_ge : 1 ≤ p.hdmax
  hdmax_le : p.hdmax ≤ 256
  nmax_ge : 2 ≤ p.nmax
  nmax_le : p.nmax ≤ 256
  tmax_pow : ∃ k, 12 ≤ k ∧ k ≤ 27 ∧ p.tmaxBytes = 2 ^ k

/-- DESIGN CHOICE (log entry 3), unsafe. The instance `State.reset` describes: the parameter values
95_test_vectors.md uses. The spec fixes none. -/
def Params.ofVectors : Params :=
  { wmax := 1024, dmax := 64, hdmax := 64, nmax := 16, tmaxBytes := 65536 }

/-- FREE VALUE (log entry 9), safe. What a read of a bit field wider than `XW` bits gives, from the exact field and its
width: 20_memory.md R53 states a value only for fields of at most `XW` bits, and no port is wider (10_state.md R22). -/
opaque Config.overwideField : (exact width : Nat) → Nat

end Sys2Proof
end

