-- ==== Sys2Proof/Machine/State.lean ====
section
/-! DEFINITION. The state of one CPE instance with its command port (10_state.md R20 to R37), the reasons a step can
stop, and the state after reset.

Quantities the spec calls integers with a legal range (R10, R30) are `Nat`; the invariant `Legal` of Safety.lean states
the ranges. Registers of a width that a rule fixes once and for all are `BitVec`. -/

namespace Sys2Proof.Machine

/-- Which recurrence a generator runs: 0 LCG, 1 MCG, 2 MWC, 3 LFIB, 4 FSR (10_state.md R26). -/
inductive GenVariant where
  | lcg | mcg | mwc | lfib | fsr
deriving DecidableEq, Repr

/-- Which update rule a hash runs: 0 HASH0, 1 HASH1; HASH2 cannot be selected (10_state.md R29, 42_hash.md R114). -/
inductive HashVariant where
  | hash0 | hash1
deriving DecidableEq, Repr

/-- `MODE`: 0 composite of generators, 1 composite of hashes (10_state.md R30). -/
inductive Mode where
  | generators | hashes
deriving DecidableEq, Repr

/-- One base generator instance `G[i]` (10_state.md R26): `DMAX` elements, `DEPTH` of them used. -/
structure Gen where
  vec : List Nat
  index : Nat
  mult : Nat
  add : Nat
  lag : BitVec 16
  carry : Nat
  variant : GenVariant
deriving DecidableEq, Repr

/-- One hash instance `H[i]` (10_state.md R29): `HDMAX` elements, `HDEPTH` of them used. -/
structure Hash where
  vec : List Nat
  idx : Nat
  variant : HashVariant
deriving DecidableEq, Repr

/-- A written word of the entropy table under its word index (10_state.md R24). The table is never addressed by byte
(20_memory.md R52), so its cell is the 64-bit word (log entry 6). -/
abbrev TableCell := Nat × TableWord

/-- The entropy table: the words with `TV[i] = 1`, indices strictly rising. An unlisted word has `TV[i] = 0` and no
value, and reading it raises `E_UNINIT` (20_memory.md R59, log entry 5). -/
abbrev Table := List TableCell

/-- One CPE instance and its command port. -/
structure State where
  /-- The host's `(CMD, DIN)` pairs still to be presented (R21, 70_reset_and_hazards.md R210; log entry 1). -/
  pending : List (CmdWord × Nat)
  /-- Port `CMD`: the word last presented (R22; log entry 8). -/
  cmd : CmdWord
  /-- Port `DIN`: the operand last presented (R22; log entry 8). -/
  din : Nat
  /-- Port `DOUT`: the result last driven (R22; log entry 8). -/
  dout : Nat
  /-- The result latch `RES` (R22). -/
  res : Nat
  /-- `STATUS.FAULT` (R23). -/
  fault : Bool
  /-- `STATUS.FCODE` (R23). -/
  fcode : BitVec 4
  /-- `STATUS.FOPC` (R23). -/
  fopc : BitVec 8
  /-- `STATUS.RCNT` (R23). -/
  rcnt : BitVec 8
  /-- `TBYTES` (R24). -/
  tbytes : Nat
  /-- `T` and `TV` (R24). -/
  table : Table
  /-- `FOLD_SEL` (R25). -/
  foldSel : BitVec 2
  /-- `W`, the shared integer width (R30; above 16 bits only when `WMAX` is, log entry 15). -/
  w : Nat
  /-- `DEPTH` (R30). -/
  depth : Nat
  /-- `HDEPTH` (R30). -/
  hdepth : Nat
  /-- `N` (R30). -/
  n : Nat
  /-- `MODE` (R30). -/
  mode : Mode
  /-- `PARANOIA` (R30). -/
  paranoia : Nat
  /-- `RETRY_MAX` (R30). -/
  retryMax : BitVec 8
  /-- `CCHK` (R30). -/
  cchk : Bool
  /-- `CIDX` (R21, R30). -/
  cidx : Nat
  /-- `G[0 .. NMAX-1]` (R26). -/
  gens : List Gen
  /-- `H[0 .. NMAX-1]` (R29). -/
  hashes : List Hash
  /-- `WH_S1` (R33). -/
  whS1 : Nat
  /-- `WH_S2` (R33). -/
  whS2 : Nat
  /-- `WH_S3` (R33). -/
  whS3 : Nat
  /-- `RHASH` (R34). -/
  rhash : BitVec 64
  /-- `RTOG` (R34). -/
  rtog : Bool
  /-- `IDX0` (R34). -/
  idx0 : BitVec 32
  /-- `IDX1` (R34). -/
  idx1 : BitVec 32
  /-- `IDX2` (R34). -/
  idx2 : BitVec 32
  /-- `IDX3` (R34). -/
  idx3 : BitVec 32
  /-- The synthesis parameters `RDCFG` reads at 0x30 to 0x35 (R31; log entry 3). -/
  params : Params
deriving DecidableEq, Repr

/-- The machine never stops with a fault of this type: every fault the spec names is recorded in `STATUS` and the block
goes on (60_exceptions.md R172, R174), so it is a next state. -/
inductive Fault where
deriving DecidableEq, Repr

/-- Why the model gives a command no meaning. -/
inductive Refusal where
  /-- An arm of `exec` without a meaning. No arm answers it: safe. -/
  | notModelled (mnemonic : String)
  /-- Raised by the command port alone, in `command`: the operand presented does not fit the `XW` bits of `DIN`, which
  cannot happen on the hardware (10_state.md R22, 93_implementation_defined.md U7; log entry 2): safe. -/
  | dinBeyondPort
deriving DecidableEq, Repr

/-- What one step answers. -/
abbrev Result := Host.Outcome State Fault Refusal

/-- A generator instance after reset or an instance clear (10_state.md R32, R37). -/
def Gen.cleared (dmax : Nat) : Gen :=
  { vec := List.replicate dmax 0, index := 0, mult := 0, add := 0, lag := 0, carry := 0, variant := .lcg }

/-- A hash instance after reset or an instance clear (10_state.md R32, R37). -/
def Hash.cleared (hdmax : Nat) : Hash :=
  { vec := List.replicate hdmax 0, idx := 0, variant := .hash0 }

/-- The state after reset of the instance with the given synthesis parameters (10_state.md R37), nothing pending and
the ports at 0 (log entry 8). -/
def State.resetOf (p : Params) : State :=
  { pending := [], cmd := 0, din := 0, dout := 0, res := 0,
    fault := false, fcode := 0, fopc := 0, rcnt := 0,
    tbytes := 4096, table := [], foldSel := 0,
    w := 64, depth := 1, hdepth := 1, n := 2, mode := .generators,
    paranoia := 1, retryMax := 8, cchk := true, cidx := 0,
    gens := List.replicate p.nmax (Gen.cleared p.dmax),
    hashes := List.replicate p.nmax (Hash.cleared p.hdmax),
    whS1 := 1, whS2 := 1, whS3 := 1, rhash := 0, rtog := false,
    idx0 := 0, idx1 := 0, idx2 := 0, idx3 := 0, params := p }

/-- The machine right after reset, for the instance of log entry 3. -/
def State.reset : State := State.resetOf Params.ofVectors

end Sys2Proof.Machine
end

