-- ==== Sys2Proof/Machine/Bits.lean ====
section
/-! DEFINITION. The operators of 00_scope.md R11 and R12 on exact integers. -/

namespace Sys2Proof.Machine

/-- `mask(k)` (R12). -/
def mask (k : Nat) : Nat := 2 ^ k - 1

/-- `bit(v, i)`, bit 0 least significant (R11). -/
def bitAt (v i : Nat) : Nat := (v >>> i) &&& 1

/-- `ceil(a / b)` (R12). -/
def ceilDiv (a b : Nat) : Nat := (a + b - 1) / b

/-- `rotl1_k(x)` for `x < 2^k` (R12). -/
def rotl1 (k x : Nat) : Nat := ((x <<< 1) &&& mask k) ||| (x >>> (k - 1))

/-- `rotr1_k(x)` for `x < 2^k` (R12). -/
def rotr1 (k x : Nat) : Nat := (x >>> 1) ||| ((x &&& 1) <<< (k - 1))

/-- `rotl1_64` on the 64-bit register `RHASH` (R12, 45_bootstrap_draw.md R153). -/
def rotl1Word (x : BitVec 64) : BitVec 64 := (x <<< 1) ||| (x >>> 63)

/-- `rotr_64(x, s)` for `s < 64` (R12). -/
def rotrWord (x : BitVec 64) (s : Nat) : BitVec 64 := (x >>> s) ||| (x <<< (64 - s))

/-- Whether `v` is a power of two, by the test of 40_table.md R91 and 44_composite.md R143 (`v != 0` is tested there
separately). -/
def onePower (v : Nat) : Bool := v &&& (v - 1) == 0

end Sys2Proof.Machine
end

