-- ==== Sys2Proof/Machine/Flags.lean ====
section
/-! DEFINITION. `STATUS` (10_state.md R23), the fault codes (60_exceptions.md R171), the retry count and the
degenerate-output test (43_generators.md R132). -/

namespace Sys2Proof.Machine

/-- The five causes of 60_exceptions.md R171. -/
inductive FaultCode where
  | illegal | config | operand | integrity | uninit
deriving DecidableEq, Repr

/-- `FCODE` of a cause (60_exceptions.md R171). -/
def FaultCode.code : FaultCode → BitVec 4
  | .illegal => 1
  | .config => 2
  | .operand => 3
  | .integrity => 4
  | .uninit => 5

/-- The word `STATUS`: reserved bits read 0 (10_state.md R23). -/
def statusWord (s : State) : BitVec 32 :=
  (0 : BitVec 8) ++ s.rcnt ++ s.fopc ++ s.fcode ++ (0 : BitVec 3) ++ BitVec.ofBool s.fault

/-- `RCNT <- min(retries, 255)` (43_generators.md R133, 42_hash.md R117, 44_composite.md R142). -/
def recordRetries (retries : Nat) (s : State) : State :=
  { s with rcnt := BitVec.ofNat 8 (min retries 255) }

/-- A result of width `bw` is degenerate when it is 0 or all ones (43_generators.md R132). -/
def degenerate (bw r : Nat) : Bool := r == 0 || r == mask bw

end Sys2Proof.Machine
end

