-- ==== Sys2Proof/Machine/Ops.lean ====
section
/-! DEFINITION. The named operations over ports, latch, faults, table and instances: taking a fault and leaving it
(60_exceptions.md R172, R174, R178), driving a result (10_state.md R22), reading and writing the entropy table
(20_memory.md R50 to R59), and the instance arrays (10_state.md R26, R29, R32). -/

namespace Sys2Proof.Machine

/-! Ports and latch. -/

/-- `XW`, the width of `DIN`, `DOUT`, `RES` and every accumulator (00_scope.md R7). -/
def xw (s : State) : Nat := 15 * s.params.wmax

/-- A command and its operand on the ports (10_state.md R22). -/
def present (c : CmdWord) (d : Nat) (s : State) : State := { s with cmd := c, din := d }

/-- A command that returns no value: `DOUT <- 0`, `RES` unchanged (10_state.md R22). -/
def noValue (s : State) : State := { s with dout := 0 }

/-- A command that returns `v`: `DOUT <- v; RES <- DOUT` (10_state.md R22). -/
def returnValue (v : Nat) (s : State) : State := { s with dout := v, res := v }

/-- `DOUT <- v` with `RES` left alone, which only `RDSTAT` does (10_state.md R22, 46_system.md R162). -/
def driveOnly (v : Nat) (s : State) : State := { s with dout := v }

/-! Faults. -/

/-- Taking a fault (60_exceptions.md R172): the first fault is recorded with the opcode byte of the presented word,
`DOUT` is 0 and `RES` unchanged. -/
def enterFault (c : FaultCode) (s : State) : State :=
  if s.fault then noValue s
  else noValue { s with fcode := c.code, fopc := s.cmd.extractLsb' 24 8, fault := true }

/-- A command that raises `c` now. -/
def raiseFault (c : FaultCode) (s : State) : Result := .next (enterFault c s)

/-- The refusal of a faulted block (60_exceptions.md R174): `DOUT <- 0` and no state changes. -/
def refuseCommand (s : State) : State := { s with dout := 0 }

/-- Every command but `RESET` and `RDSTAT` is refused while `STATUS.FAULT = 1` (60_exceptions.md R174, 30_encoding.md
R78). -/
def unlessFaulted (s : State) (body : Result) : Result :=
  if s.fault then .next (refuseCommand s) else body

/-- Return from a fault, which is `RESET` and nothing else (60_exceptions.md R178): every piece of state takes its reset
value (10_state.md R37). The synthesis parameters are fixed (00_scope.md R7); the host's list and the two input ports
are the host's (log entry 8). -/
def resetBlock (s : State) : State :=
  { State.resetOf s.params with pending := s.pending, cmd := s.cmd, din := s.din }

/-! Sub-operations (00_scope.md R14): a value with the state reached, or a fault with the state reached before it
(60_exceptions.md R173, log entry 7). -/

/-- What a sub-operation answers. -/
inductive Sub (α : Type) where
  | ok (v : α) (s : State)
  | raised (c : FaultCode) (s : State)
deriving DecidableEq, Repr

/-- One sub-operation after another; a fault ends the calling command (00_scope.md R14). -/
def Sub.bind {α β : Type} (r : Sub α) (k : α → State → Sub β) : Sub β :=
  match r with
  | .ok v s => k v s
  | .raised c s => .raised c s

/-- A command whose body returns a value. -/
def Sub.answer (r : Sub Nat) : Result :=
  match r with
  | .ok v s => .next (returnValue v s)
  | .raised c s => raiseFault c s

/-- A command whose body returns no value. -/
def Sub.finish (r : Sub Unit) : Result :=
  match r with
  | .ok _ s => .next (noValue s)
  | .raised c s => raiseFault c s

/-- A check of a register write: raise `c` when `bad`, else the write (60_exceptions.md R173: checks precede writes). -/
def checkedWrite (bad : Bool) (c : FaultCode) (before after : State) : Sub Unit :=
  if bad then .raised c before else .ok () after

/-! The entropy table. -/

/-- `WORDS` (10_state.md R24). -/
def words (s : State) : Nat := s.tbytes / 8
/-- `BIT_SIZE` (10_state.md R24). -/
def bitSize (s : State) : Nat := 8 * s.tbytes
/-- `BIT_INDEX_MASK` (10_state.md R24). -/
def bitIndexMask (s : State) : Nat := bitSize s - 1

/-- Word `i` of the table, `none` when `TV[i] = 0` (20_memory.md R59). This is what an unlisted index reads as. -/
def Table.read : Table → Nat → Option TableWord
  | [], _ => none
  | (j, v) :: rest, i => if j = i then some v else Table.read rest i

/-- `T[i] <- v; TV[i] <- 1` (40_table.md R92), keeping the indices strictly rising. -/
def Table.write : Table → Nat → TableWord → Table
  | [], i, v => [(i, v)]
  | (j, x) :: rest, i, v =>
    if i < j then (i, v) :: (j, x) :: rest
    else if i = j then (i, v) :: rest
    else (j, x) :: Table.write rest i v

/-- Strictly rising indices from `lo` on, all below `bound`. -/
def Table.risingFrom (lo bound : Nat) : Table → Bool
  | [] => true
  | (j, _) :: rest => decide (lo ≤ j) && decide (j < bound) && Table.risingFrom (j + 1) bound rest

/-- The canonical form: indices strictly rising and below `WORDS`. An unlisted word reads as unwritten and a listed one
never does, so no entry equals what an unlisted index reads as. -/
def Table.wf (bound : Nat) (t : Table) : Bool := Table.risingFrom 0 bound t

/-- `T[WIDX] <- v` of the state (40_table.md R92). -/
def storeWord (i : Nat) (v : TableWord) (s : State) : State := { s with table := Table.write s.table i v }

/-- `TBYTES <- bytes` and every `TV[i] <- 0` (40_table.md R91). -/
def resizeTable (bytes : Nat) (s : State) : State := { s with tbytes := bytes, table := [] }

/-- The concatenation `T[wi] || T[wi+1] || ...` of `count` words, indices modulo `WORDS`, `none` when one of them is
unwritten (20_memory.md R54). -/
def concatWords (t : Table) (nwords : Nat) : (count wi acc : Nat) → Option Nat
  | 0, _, acc => some acc
  | count + 1, wi, acc =>
    match Table.read t (wi % nwords) with
    | none => none
    | some v => concatWords t nwords count (wi + 1) ((acc <<< 64) ||| v.toNat)

/-- `BitRead(b, n)` in the word form of 20_memory.md R54, exact for every `n`; `none` is `E_UNINIT`. -/
def bitReadExact (s : State) (b n : Nat) : Option Nat :=
  let b0 := b &&& bitIndexMask s
  let wi := b0 >>> 6
  let o := b0 &&& 63
  let nw := ceilDiv (o + n) 64
  match concatWords s.table (words s) nw wi 0 with
  | none => none
  | some cat => some ((cat >>> (64 * nw - o - n)) &&& mask n)

/-- `BitRead(b, n)` (20_memory.md R53). R53 gives a value for `n <= XW`; a wider field, which only an instance with
`WMAX < 273` can be asked for, is a free value of `XW` bits (log entry 9). -/
def bitRead (s : State) (b n : Nat) : Option Nat :=
  match bitReadExact s b n with
  | none => none
  | some v => some (if n ≤ xw s then v else Config.overwideField v n % 2 ^ xw s)

/-- `BitRead` as a sub-operation: it writes no state and may raise `E_UNINIT` (20_memory.md R53). -/
def readField (s : State) (b n : Nat) : Sub Nat :=
  match bitRead s b n with
  | none => .raised .uninit s
  | some v => .ok v s

/-- Bit `k` of the table's bit string `S`, `none` when its word is unwritten (20_memory.md R52). -/
def stringBit (s : State) (k : Nat) : Option Nat :=
  match Table.read s.table (k / 64) with
  | none => none
  | some v => some (bitAt v.toNat (63 - k % 64))

/-- `BitRead(b, n)` bit by bit, the first bit most significant, as 20_memory.md R53 writes it: `acc` holds the bits read
so far and `k` the index of the next one. -/
def bitReadByBits (s : State) : (n k acc : Nat) → Option Nat
  | 0, _, acc => some acc
  | n + 1, k, acc =>
    match stringBit s (k &&& bitIndexMask s) with
    | none => none
    | some b => bitReadByBits s n (k + 1) (2 * acc + b)

/-! Instances. -/

/-- `G[i]`. -/
def genAt (s : State) (i : Nat) : Gen := s.gens.getD i (Gen.cleared s.params.dmax)
/-- `H[i]`. -/
def hashAt (s : State) (i : Nat) : Hash := s.hashes.getD i (Hash.cleared s.params.hdmax)
/-- `G[i] <- g`. -/
def setGen (i : Nat) (g : Gen) (s : State) : State := { s with gens := s.gens.set i g }
/-- `H[i] <- h`. -/
def setHash (i : Nat) (h : Hash) (s : State) : State := { s with hashes := s.hashes.set i h }
/-- `FOLD_SEL <- sel`. -/
def setFoldSel (sel : BitVec 2) (s : State) : State := { s with foldSel := sel }

/-- Element `j` of a vector. -/
def slot (vec : List Nat) (j : Nat) : Nat := vec.getD j 0

/-- `InstanceClear()` (10_state.md R32). -/
def clearInstances (s : State) : State :=
  { s with
    gens := List.replicate s.params.nmax (Gen.cleared s.params.dmax)
    hashes := List.replicate s.params.nmax (Hash.cleared s.params.hdmax)
    cidx := 0 }

end Sys2Proof.Machine
end

