-- ==== Sys2Proof/Machine/Operands.lean ====
section
/-! DEFINITION. The operand forms: configuration registers (10_state.md R30, R31), generator fields (R26) and hash
fields (R29), each read and written with the checks of its rule. -/

namespace Sys2Proof.Machine

/-! Numbers of the named values. -/

/-- `MODE` as `RDCFG` reads it. -/
def Mode.number : Mode → Nat
  | .generators => 0
  | .hashes => 1

/-- `MODE` of an operand already checked to be 0 or 1. -/
def Mode.ofNumber (v : Nat) : Mode := if v = 0 then .generators else .hashes

/-- `variant` of a generator as `GRD` reads it (10_state.md R26). -/
def GenVariant.number : GenVariant → Nat
  | .lcg => 0
  | .mcg => 1
  | .mwc => 2
  | .lfib => 3
  | .fsr => 4

/-- The generator variant of a number, none above 4 (43_generators.md R134). -/
def GenVariant.ofNumber : Nat → Option GenVariant
  | 0 => some .lcg
  | 1 => some .mcg
  | 2 => some .mwc
  | 3 => some .lfib
  | 4 => some .fsr
  | _ => none

/-- `variant` of a hash as `HRD` reads it (10_state.md R29). -/
def HashVariant.number : HashVariant → Nat
  | .hash0 => 0
  | .hash1 => 1

/-- The hash variant of a number, none above 1: HASH2 has no rule (42_hash.md R114, R118; log entry 10). -/
def HashVariant.ofNumber : Nat → Option HashVariant
  | 0 => some .hash0
  | 1 => some .hash1
  | _ => none

/-! Configuration registers. -/

/-- The value of a configuration register (46_system.md R165). -/
def readCfg (r : CfgReg) (s : State) : Nat :=
  match r with
  | .w => s.w
  | .depth => s.depth
  | .hdepth => s.hdepth
  | .n => s.n
  | .mode => s.mode.number
  | .paranoia => s.paranoia
  | .retryMax => s.retryMax.toNat
  | .cchk => s.cchk.toNat
  | .foldSel => s.foldSel.toNat
  | .cidx => s.cidx
  | .whS1 => s.whS1
  | .whS2 => s.whS2
  | .whS3 => s.whS3
  | .rhash => s.rhash.toNat
  | .rtog => s.rtog.toNat
  | .idx0 => s.idx0.toNat
  | .idx1 => s.idx1.toNat
  | .idx2 => s.idx2.toNat
  | .idx3 => s.idx3.toNat
  | .tbytes => s.tbytes
  | .bitSize => bitSize s
  | .bitIndexMask => bitIndexMask s
  | .wmax => s.params.wmax
  | .dmax => s.params.dmax
  | .hdmax => s.params.hdmax
  | .nmax => s.params.nmax
  | .tmaxBytes => s.params.tmaxBytes
  | .xw => xw s

/-- A write of `v` to a configuration register with its check (46_system.md R164). A read-only register is a reserved
encoding (10_state.md R31), which decoding refuses; on the ill-formed term the answer is the same fault (log entry 11). R30 gives `W` 16 bits and the legal range `8 .. WMAX`, which
disagree when `WMAX` is 65536 or more: DESIGN CHOICE, the range check of R164 alone decides, and `W` then holds a value of
more than 16 bits (log entry 15). -/
def writeCfg (r : CfgReg) (v : Nat) (s : State) : Sub Unit :=
  match r with
  | .w => checkedWrite (v < 8 || s.params.wmax < v) .config s (clearInstances { s with w := v })
  | .depth => checkedWrite (v < 1 || s.params.dmax < v) .config s (clearInstances { s with depth := v })
  | .hdepth => checkedWrite (v < 1 || s.params.hdmax < v) .config s (clearInstances { s with hdepth := v })
  | .n => checkedWrite (v < 2 || s.params.nmax < v) .config s (clearInstances { s with n := v })
  | .mode => checkedWrite (1 < v) .config s (clearInstances { s with mode := Mode.ofNumber v })
  | .paranoia => checkedWrite (v < 1 || 4 < v) .config s { s with paranoia := v }
  | .retryMax => checkedWrite (255 < v) .config s { s with retryMax := BitVec.ofNat 8 v }
  | .cchk => checkedWrite (1 < v) .config s { s with cchk := v == 1 }
  | .foldSel => checkedWrite (3 < v) .operand s { s with foldSel := BitVec.ofNat 2 v }
  | .cidx => checkedWrite (s.n - 2 < v) .operand s { s with cidx := v }
  | .whS1 => checkedWrite (v < 1 || 30268 < v) .config s { s with whS1 := v }
  | .whS2 => checkedWrite (v < 1 || 30306 < v) .config s { s with whS2 := v }
  | .whS3 => checkedWrite (v < 1 || 30322 < v) .config s { s with whS3 := v }
  | .rhash => checkedWrite (2 ^ 64 ≤ v) .operand s { s with rhash := BitVec.ofNat 64 v }
  | .rtog => checkedWrite (1 < v) .operand s { s with rtog := v == 1 }
  | .idx0 => checkedWrite (2 ^ 32 ≤ v) .operand s { s with idx0 := BitVec.ofNat 32 v }
  | .idx1 => checkedWrite (2 ^ 32 ≤ v) .operand s { s with idx1 := BitVec.ofNat 32 v }
  | .idx2 => checkedWrite (2 ^ 32 ≤ v) .operand s { s with idx2 := BitVec.ofNat 32 v }
  | .idx3 => checkedWrite (2 ^ 32 ≤ v) .operand s { s with idx3 := BitVec.ofNat 32 v }
  | .tbytes | .bitSize | .bitIndexMask | .wmax | .dmax | .hdmax | .nmax | .tmaxBytes | .xw => .raised .illegal s

/-! Instance fields. The instance number is checked first (43_generators.md R134, R135; 42_hash.md R118, R119). -/

/-- The value of field `f` of `G[i]` (43_generators.md R135). -/
def readGenField (i : Nat) (f : GenField) (s : State) : Sub Nat :=
  if s.params.nmax ≤ i then .raised .operand s
  else
    match f with
    | .vec e => if s.depth ≤ e.toNat then .raised .operand s else .ok (slot (genAt s i).vec e.toNat) s
    | .index => .ok (genAt s i).index s
    | .mult => .ok (genAt s i).mult s
    | .add => .ok (genAt s i).add s
    | .lag => .ok (genAt s i).lag.toNat s
    | .carry => .ok (genAt s i).carry s
    | .variant => .ok (genAt s i).variant.number s

/-- `G[i].f <- v` with the checks of 43_generators.md R134. -/
def writeGenField (i : Nat) (f : GenField) (v : Nat) (s : State) : Sub Unit :=
  if s.params.nmax ≤ i then .raised .operand s
  else
    match f with
    | .vec e =>
      if s.depth ≤ e.toNat then .raised .operand s
      else checkedWrite (2 ^ s.w ≤ v) .operand s (setGen i { genAt s i with vec := (genAt s i).vec.set e.toNat v } s)
    | .index => checkedWrite (s.depth ≤ v) .operand s (setGen i { genAt s i with index := v } s)
    | .mult => checkedWrite (2 ^ s.w ≤ v) .operand s (setGen i { genAt s i with mult := v } s)
    | .add => checkedWrite (2 ^ s.w ≤ v) .operand s (setGen i { genAt s i with add := v } s)
    | .lag => checkedWrite (2 ^ 16 ≤ v) .operand s (setGen i { genAt s i with lag := BitVec.ofNat 16 v } s)
    | .carry => checkedWrite (2 ^ s.w ≤ v) .operand s (setGen i { genAt s i with carry := v } s)
    | .variant =>
      match GenVariant.ofNumber v with
      | none => .raised .config s
      | some x => .ok () (setGen i { genAt s i with variant := x } s)

/-- The value of field `f` of `H[i]` (42_hash.md R119). -/
def readHashField (i : Nat) (f : HashField) (s : State) : Sub Nat :=
  if s.params.nmax ≤ i then .raised .operand s
  else
    match f with
    | .vec e => if s.hdepth ≤ e.toNat then .raised .operand s else .ok (slot (hashAt s i).vec e.toNat) s
    | .idx => .ok (hashAt s i).idx s
    | .variant => .ok (hashAt s i).variant.number s

/-- `H[i].f <- v` with the checks of 42_hash.md R118. -/
def writeHashField (i : Nat) (f : HashField) (v : Nat) (s : State) : Sub Unit :=
  if s.params.nmax ≤ i then .raised .operand s
  else
    match f with
    | .vec e =>
      if s.hdepth ≤ e.toNat then .raised .operand s
      else checkedWrite (2 ^ s.w ≤ v) .operand s (setHash i { hashAt s i with vec := (hashAt s i).vec.set e.toNat v } s)
    | .idx => checkedWrite (s.hdepth ≤ v) .operand s (setHash i { hashAt s i with idx := v } s)
    | .variant =>
      match HashVariant.ofNumber v with
      | none => .raised .config s
      | some x => .ok () (setHash i { hashAt s i with variant := x } s)

end Sys2Proof.Machine
end

