-- ==== Sys2Proof/Machine/FoldUnit.lean ====
section
/-! DEFINITION. The fold unit and its commands FOLD, FOLDA (41_fold.md R100 to R108). -/

namespace Sys2Proof.Machine

/-- The loop of `FoldAlg` (41_fold.md R102): `v` is what is left of the value, `acc` the accumulator, `c` the chunk
width. `fuel` bounds the number of chunks; every chunk removes at least one bit of `v`. -/
def foldLoop (shrink addmode : Bool) (w : Nat) : (fuel v acc c : Nat) → Nat
  | 0, _, acc, _ => acc
  | fuel + 1, v, acc, c =>
    if v = 0 then acc
    else
      let ch := v &&& mask c
      let acc' := if addmode && acc &&& 1 == 1 then (acc + ch) &&& mask w else acc ^^^ ch
      foldLoop shrink addmode w fuel (v >>> c) acc' (if shrink && decide (4 < c) then c - 1 else c)

/-- `FoldAlg(a, v, w)` (41_fold.md R102 to R106): 0 XOR, 1 XOR shrinking, 2 XOR/ADD, 3 XOR/ADD shrinking. A value of
`b` bits has at most `b` chunks. -/
def foldAlg (a : BitVec 2) (v w : Nat) : Nat :=
  if v < 2 ^ w then v
  else foldLoop (a == 1 || a == 3) (a == 2 || a == 3) w (v.log2 + 1) v 0 w

/-- `Fold(v, w)` with the selector `sel` (41_fold.md R101): the result and the selector afterwards, advanced modulo 4
only when the value is reduced. -/
def fold (sel : BitVec 2) (v w : Nat) : Nat × BitVec 2 :=
  if v < 2 ^ w then (v, sel) else (foldAlg sel v w, sel + 1)

/-- `Fold` on the state's selector `FOLD_SEL`, shared by every unit (10_state.md R25). -/
def foldState (v w : Nat) (s : State) : Sub Nat :=
  .ok (fold s.foldSel v w).1 (setFoldSel (fold s.foldSel v w).2 s)

/-- `FOLD value, target_width` (41_fold.md R107). -/
def execFold (width : BitVec 12) (s : State) : Result :=
  unlessFaulted s <|
    if width = 0 then raiseFault .operand s
    else (foldState s.din width.toNat s).answer

/-- `FOLDA alg, value, target_width` (41_fold.md R108). -/
def execFolda (alg : BitVec 2) (width : BitVec 12) (s : State) : Result :=
  unlessFaulted s <|
    if width = 0 then raiseFault .operand s
    else .next (returnValue (foldAlg alg s.din width.toNat) s)

end Sys2Proof.Machine
end

