-- ==== Sys2Proof/Machine/Draw.lean ====
section
/-! DEFINITION. The `next` contract shared by generators and hashes (43_generators.md R132, R133; 42_hash.md R117):
accumulate raw steps, fold, and draw again on a degenerate result. -/

namespace Sys2Proof.Machine

/-- `repeat k times: acc = (acc << W) | raw step`, first raw step most significant (43_generators.md R133). -/
def accumulate {ι : Type} (raw : ι → Nat × ι) (w : Nat) : (k acc : Nat) → ι → Nat × ι
  | 0, acc, x => (acc, x)
  | k + 1, acc, x =>
    let r := raw x
    accumulate raw w k ((acc <<< w) ||| r.1) r.2

/-- One draw: the folded value, the instance and the fold selector afterwards. -/
structure DrawOnce (ι : Type) where
  value : Nat
  inst : ι
  sel : BitVec 2

/-- One pass of the loop of 43_generators.md R133: `steps` raw steps and one fold. -/
def drawOnce {ι : Type} (raw : ι → Nat × ι) (w bw steps : Nat) (x : ι) (sel : BitVec 2) : DrawOnce ι :=
  let a := accumulate raw w steps 0 x
  let f := fold sel a.1 bw
  { value := f.1, inst := a.2, sel := f.2 }

/-- How the loop ends: `value` is `none` when every draw was degenerate; `retries` is the count `RCNT` takes. -/
structure DrawEnd (ι : Type) where
  value : Option Nat
  retries : Nat
  inst : ι
  sel : BitVec 2

/-- The loop of 43_generators.md R133 with `left` retries left of `RETRY_MAX`; nothing is rolled back (R132). -/
def drawLoop {ι : Type} (raw : ι → Nat × ι) (w bw steps : Nat) : (left retries : Nat) → ι → BitVec 2 → DrawEnd ι
  | 0, retries, x, sel =>
    let d := drawOnce raw w bw steps x sel
    { value := if degenerate bw d.value then none else some d.value, retries := retries, inst := d.inst, sel := d.sel }
  | left + 1, retries, x, sel =>
    let d := drawOnce raw w bw steps x sel
    if degenerate bw d.value then drawLoop raw w bw steps left (retries + 1) d.inst d.sel
    else { value := some d.value, retries := retries, inst := d.inst, sel := d.sel }

/-- The end of a `next`: only a top call writes `RCNT`, before returning and before raising (43_generators.md R133). -/
def endNext (top : Bool) (value : Option Nat) (retries : Nat) (s : State) : Sub Nat :=
  let s' := if top then recordRetries retries s else s
  match value with
  | some r => .ok r s'
  | none => .raised .integrity s'

end Sys2Proof.Machine
end

