-- ==== Sys2Proof/Machine/Hashes.lean ====
section
/-! DEFINITION. The hash kernels and the commands HWR, HRD, HUPD, HDIG, HSTEP, HNEXT (42_hash.md R110 to R123). -/

namespace Sys2Proof.Machine

/-- `HDigest`: XOR of the `HDEPTH` used slots (42_hash.md R111). -/
def hashDigest (hdepth : Nat) (h : Hash) : Nat := (h.vec.take hdepth).foldl (· ^^^ ·) 0

/-- What step `k` of the walk does to a slot `x` (42_hash.md R112): bit `k` of the byte chooses left or right, an odd
`k` adds the bit lost at the boundary. -/
def shiftSlot (w b k x : Nat) : Nat :=
  if bitAt b k = 1 then
    ((x <<< 1) &&& mask w) + (if k % 2 = 1 then x >>> (w - 1) else 0)
  else
    (x >>> 1) + (if k % 2 = 1 then (x &&& 1) <<< (w - 1) else 0)

/-- A walk of `count` steps over the slots after the cursor `p`, step `k` on the current value of slot
`(p + 1 + k) mod HDEPTH` (42_hash.md R112, R113). -/
def walkSlots (hdepth p : Nat) (f : (k x : Nat) → Nat) (count : Nat) (vec : List Nat) : List Nat :=
  (List.range count).foldl
    (fun v k => v.set ((p + 1 + k) % hdepth) (f k (slot v ((p + 1 + k) % hdepth)))) vec

/-- What the big walk of HASH1 does to a slot: a rotation by the bits of the digest `d` (42_hash.md R113). -/
def rotateSlot (w d k x : Nat) : Nat :=
  if bitAt d (k % w) = 1 then rotl1 w x else rotr1 w x

/-- The injection of 42_hash.md R113: the erased slot receives the old digest, then every slot rotates. -/
def injectDigest (w hdepth p d : Nat) (vec : List Nat) : List Nat :=
  walkSlots hdepth p (rotateSlot w d) hdepth (vec.set p (slot vec p ^^^ d))

/-- `HUpdByte(i, B)` (42_hash.md R112, R113); the digest is taken before anything is changed. -/
def hashByte (w hdepth b : Nat) (h : Hash) : Hash :=
  let p := h.idx
  let d := hashDigest hdepth h
  let v0 := h.vec.set p ((slot h.vec p * b) &&& mask w)
  let v1 := walkSlots hdepth p (shiftSlot w b) 8 v0
  let v2 := if h.variant = .hash1 ∧ b = 0 then injectDigest w hdepth p d v1 else v1
  { h with vec := v2, idx := (p + 1) % hdepth }

/-- `HUpd(i, v, L)`: `L` bytes, least significant first (42_hash.md R115, 20_memory.md R60). -/
def hashBytes (w hdepth : Nat) : (count v : Nat) → Hash → Hash
  | 0, _, h => h
  | count + 1, v, h => hashBytes w hdepth count (v >>> 8) (hashByte w hdepth (v &&& 0xFF) h)

/-- `HStep(i)`: the hash is fed the low byte of its own digest (42_hash.md R116). -/
def hashStep (w hdepth : Nat) (h : Hash) : Nat × Hash :=
  let h' := hashByte w hdepth (hashDigest hdepth h &&& 0xFF) h
  (hashDigest hdepth h', h')

/-- `HNext(i, bw, steps, top)` (42_hash.md R117). -/
def hashNext (i bw steps : Nat) (top : Bool) (s : State) : Sub Nat :=
  let e := drawLoop (hashStep s.w s.hdepth) s.w bw steps s.retryMax.toNat 0 (hashAt s i) s.foldSel
  endNext top e.value e.retries (setFoldSel e.sel (setHash i e.inst s))

/-- `HWR h<i>, field, value` (42_hash.md R118). -/
def execHwr (inst : BitVec 8) (field : HashField) (s : State) : Result :=
  unlessFaulted s (writeHashField inst.toNat field s.din s).finish

/-- `HRD h<i>, field` (42_hash.md R119). -/
def execHrd (inst : BitVec 8) (field : HashField) (s : State) : Result :=
  unlessFaulted s (readHashField inst.toNat field s).answer

/-- `HUPD h<i>, value, nbytes` (42_hash.md R120). -/
def execHupd (inst : BitVec 8) (nbytes : BitVec 12) (s : State) : Result :=
  unlessFaulted s <|
    if s.params.nmax ≤ inst.toNat then raiseFault .operand s
    else if nbytes = 0 then raiseFault .operand s
    else if xw s < 8 * nbytes.toNat then raiseFault .operand s
    else if 2 ^ (8 * nbytes.toNat) ≤ s.din then raiseFault .operand s
    else .next (noValue (setHash inst.toNat (hashBytes s.w s.hdepth nbytes.toNat s.din (hashAt s inst.toNat)) s))

/-- `HDIG h<i>` (42_hash.md R121). -/
def execHdig (inst : BitVec 8) (s : State) : Result :=
  unlessFaulted s <|
    if s.params.nmax ≤ inst.toNat then raiseFault .operand s
    else .next (returnValue (hashDigest s.hdepth (hashAt s inst.toNat)) s)

/-- `HSTEP h<i>` (42_hash.md R122). -/
def execHstep (inst : BitVec 8) (s : State) : Result :=
  unlessFaulted s <|
    if s.params.nmax ≤ inst.toNat then raiseFault .operand s
    else
      let r := hashStep s.w s.hdepth (hashAt s inst.toNat)
      .next (returnValue r.1 (setHash inst.toNat r.2 s))

/-- `HNEXT h<i>, bit_width, steps` (42_hash.md R123). `STEPS = 0` is an illegal word (30_encoding.md R77), so on the
ill-formed term the answer is `E_ILLEGAL` (log entry 11). -/
def execHnext (inst : BitVec 8) (steps : BitVec 4) (width : BitVec 12) (s : State) : Result :=
  unlessFaulted s <|
    if steps = 0 then raiseFault .illegal s
    else if s.params.nmax ≤ inst.toNat then raiseFault .operand s
    else if width.toNat < 2 then raiseFault .operand s
    else (hashNext inst.toNat width.toNat steps.toNat true s).answer

end Sys2Proof.Machine
end

