-- ==== Sys2Proof/Machine/Bootstrap.lean ====
section
/-! DEFINITION. The bootstrap draws and the commands WHNEXT, RANDINT, NRV (45_bootstrap_draw.md R150 to R157). -/

namespace Sys2Proof.Machine

/-- `M1`, the first Wichmann-Hill modulus (45_bootstrap_draw.md R151). -/
def whM1 : Nat := 30269
/-- `M2`. -/
def whM2 : Nat := 30307
/-- `M3`. -/
def whM3 : Nat := 30323
/-- `MM = M1 * M2 * M3`. -/
def whMM : Nat := whM1 * whM2 * whM3

/-- The three seeds of the next Wichmann-Hill state (45_bootstrap_draw.md R151). -/
def whAdvance (s : State) : State :=
  { s with whS1 := (171 * s.whS1) % whM1, whS2 := (172 * s.whS2) % whM2, whS3 := (170 * s.whS3) % whM3 }

/-- The numerator `NUM` of the fraction the seeds stand for (45_bootstrap_draw.md R151). -/
def whNumerator (s : State) : Nat :=
  (s.whS1 * whM2 * whM3 + s.whS2 * whM1 * whM3 + s.whS3 * whM1 * whM2) % whMM

/-- `WHNext(k)` (45_bootstrap_draw.md R152): one step, scaled to `k` bits. -/
def whNext (k : Nat) (s : State) : Nat × State :=
  let s' := whAdvance s
  ((whNumerator s' <<< k) / whMM, s')

/-- An index `(x + d) & BIT_INDEX_MASK` (45_bootstrap_draw.md R153). -/
def movedIndex (s : State) (x d : Nat) : BitVec 32 := BitVec.ofNat 32 ((x + d) &&& bitIndexMask s)

/-- `log2(BIT_SIZE)` (45_bootstrap_draw.md R153). -/
def indexBits (s : State) : Nat := (bitSize s).log2

/-- `randint1`: each index is moved by its own Wichmann-Hill draw, index 0 first (45_bootstrap_draw.md R153). -/
def walkByDraws (s : State) : State :=
  let d0 := whNext (indexBits s) s
  let s0 := { d0.2 with idx0 := movedIndex s d0.2.idx0.toNat d0.1 }
  let d1 := whNext (indexBits s) s0
  let s1 := { d1.2 with idx1 := movedIndex s d1.2.idx1.toNat d1.1 }
  let d2 := whNext (indexBits s) s1
  let s2 := { d2.2 with idx2 := movedIndex s d2.2.idx2.toNat d2.1 }
  let d3 := whNext (indexBits s) s2
  { d3.2 with idx3 := movedIndex s d3.2.idx3.toNat d3.1 }

/-- Index `k` of `randint2`: `((IDXk ^ rotr_64(RHASH, 16 * k)) + fw) & BIT_INDEX_MASK` (45_bootstrap_draw.md R153). -/
def mixedIndex (s : State) (fw k : Nat) (x : BitVec 32) : BitVec 32 :=
  movedIndex s (x.toNat ^^^ (rotrWord s.rhash (16 * k)).toNat) fw

/-- `randint2`: the indices are mixed with the running hash (45_bootstrap_draw.md R153). -/
def walkByHash (fw : Nat) (s : State) : State :=
  { s with
    idx0 := mixedIndex s fw 0 s.idx0
    idx1 := mixedIndex s fw 1 s.idx1
    idx2 := mixedIndex s fw 2 s.idx2
    idx3 := mixedIndex s fw 3 s.idx3 }

/-- The index walk of the call `RTOG` selects (45_bootstrap_draw.md R153). -/
def walkIndices (fw : Nat) (s : State) : State := if s.rtog then walkByHash fw s else walkByDraws s

/-- `RHASH` absorbs the draw `t` and `RTOG` toggles (45_bootstrap_draw.md R153). -/
def absorbDraw (t : Nat) (s : State) : State :=
  { s with rhash := rotl1Word s.rhash ^^^ BitVec.ofNat 64 t, rtog := !s.rtog }

/-- `RandInt(fw)` (45_bootstrap_draw.md R153). -/
def randInt (fw : Nat) (s : State) : Sub Nat :=
  let s1 := walkIndices fw s
  (readField s1 s1.idx0.toNat fw).bind fun a s1 =>
  (readField s1 s1.idx1.toNat fw).bind fun b s1 =>
  (readField s1 s1.idx2.toNat fw).bind fun c s1 =>
  (readField s1 s1.idx3.toNat fw).bind fun d s1 =>
    let t := a * b + (c ^^^ d)
    foldState t fw (absorbDraw t s1)

/-- The rounds of `Nrv` (45_bootstrap_draw.md R154): `r` the XOR of the digests so far, `e` the entropy XORed with
them. -/
def nrvRounds (i width : Nat) : (rounds e r : Nat) → State → Sub Nat
  | 0, _, r, s => .ok r s
  | rounds + 1, e, r, s =>
    (readField s (e &&& bitIndexMask s) width).bind fun v s =>
      let h := hashBytes s.w s.hdepth (ceilDiv width 8) v (hashAt s i)
      let d := hashDigest s.hdepth h &&& mask width
      nrvRounds i width rounds (e ^^^ d) (r ^^^ d) (setHash i h s)

/-- `Nrv(i, entropy, width)` (45_bootstrap_draw.md R154). -/
def nextRandomValue (i entropy width : Nat) (s : State) : Sub Nat := nrvRounds i width s.paranoia entropy 0 s

/-- `WHNEXT k` (45_bootstrap_draw.md R155). -/
def execWhnext (width : BitVec 12) (s : State) : Result :=
  unlessFaulted s <|
    if 64 < width.toNat then raiseFault .operand s
    else
      let r := whNext width.toNat s
      .next (returnValue r.1 r.2)

/-- `RANDINT field_width` (45_bootstrap_draw.md R156). -/
def execRandint (width : BitVec 12) (s : State) : Result :=
  unlessFaulted s <|
    if width = 0 then raiseFault .operand s
    else if xw s < 2 * width.toNat + 1 then raiseFault .operand s
    else (randInt width.toNat s).answer

/-- `NRV h<i>, entropy, width` (45_bootstrap_draw.md R157). -/
def execNrv (inst : BitVec 8) (width : BitVec 12) (s : State) : Result :=
  unlessFaulted s <|
    if s.params.nmax ≤ inst.toNat then raiseFault .operand s
    else if width = 0 then raiseFault .operand s
    else (nextRandomValue inst.toNat s.din width.toNat s).answer

end Sys2Proof.Machine
end

