-- ==== Sys2Proof/Machine/Generators.lean ====
section
/-! DEFINITION. The base generators and the commands GWR, GRD, GSTEP, GSPIN, GNEXT (43_generators.md R125 to R138). -/

namespace Sys2Proof.Machine

/-- The new element and the new carry from `vec[p]` and `vec[q]` (43_generators.md R126 to R130). Only MWC changes the
carry. -/
def recurrence (w : Nat) (g : Gen) (vp vq : Nat) : Nat × Nat :=
  match g.variant with
  | .lcg => ((vq * g.mult + g.add) &&& mask w, g.carry)
  | .mcg => ((vq * g.mult) &&& mask w, g.carry)
  | .mwc => ((vq * g.mult + g.carry) &&& mask w, (vq * g.mult + g.carry) >>> w)
  | .lfib => ((vp + vq) &&& mask w, g.carry)
  | .fsr => (vp ^^^ vq, g.carry)

/-- `GStep(i)` (43_generators.md R131). -/
def genStep (w depth : Nat) (g : Gen) : Nat × Gen :=
  let p := g.index
  let q := (p + g.lag.toNat) % depth
  let r := recurrence w g (slot g.vec p) (slot g.vec q)
  (r.1, { g with vec := g.vec.set p r.1, index := (p + 1) % depth, carry := r.2 })

/-- `repeat count times: GStep(i)`, outputs discarded (43_generators.md R137). -/
def genSpin (w depth : Nat) : (count : Nat) → Gen → Gen
  | 0, g => g
  | count + 1, g => genSpin w depth count (genStep w depth g).2

/-- `GNext(i, bw, steps, top)` (43_generators.md R133). -/
def genNext (i bw steps : Nat) (top : Bool) (s : State) : Sub Nat :=
  let e := drawLoop (genStep s.w s.depth) s.w bw steps s.retryMax.toNat 0 (genAt s i) s.foldSel
  endNext top e.value e.retries (setFoldSel e.sel (setGen i e.inst s))

/-- `GWR g<i>, field, value` (43_generators.md R134). -/
def execGwr (inst : BitVec 8) (field : GenField) (s : State) : Result :=
  unlessFaulted s (writeGenField inst.toNat field s.din s).finish

/-- `GRD g<i>, field` (43_generators.md R135). -/
def execGrd (inst : BitVec 8) (field : GenField) (s : State) : Result :=
  unlessFaulted s (readGenField inst.toNat field s).answer

/-- `GSTEP g<i>` (43_generators.md R136). -/
def execGstep (inst : BitVec 8) (s : State) : Result :=
  unlessFaulted s <|
    if s.params.nmax ≤ inst.toNat then raiseFault .operand s
    else
      let r := genStep s.w s.depth (genAt s inst.toNat)
      .next (returnValue r.1 (setGen inst.toNat r.2 s))

/-- `GSPIN g<i>, count` (43_generators.md R137). -/
def execGspin (inst : BitVec 8) (s : State) : Result :=
  unlessFaulted s <|
    if s.params.nmax ≤ inst.toNat then raiseFault .operand s
    else if 2 ^ 32 ≤ s.din then raiseFault .operand s
    else .next (noValue (setGen inst.toNat (genSpin s.w s.depth s.din (genAt s inst.toNat)) s))

/-- `GNEXT g<i>, bit_width, steps` (43_generators.md R138). `STEPS = 0` is an illegal word (30_encoding.md R77), so on
the ill-formed term the answer is `E_ILLEGAL` (log entry 11). -/
def execGnext (inst : BitVec 8) (steps : BitVec 4) (width : BitVec 12) (s : State) : Result :=
  unlessFaulted s <|
    if steps = 0 then raiseFault .illegal s
    else if s.params.nmax ≤ inst.toNat then raiseFault .operand s
    else if width.toNat < 2 then raiseFault .operand s
    else (genNext inst.toNat width.toNat steps.toNat true s).answer

end Sys2Proof.Machine
end

