-- ==== Sys2Proof/Machine/Composite.lean ====
section
/-! DEFINITION. The composite keystream engine and the commands CNEXT, ENC, DEC (44_composite.md R140 to R146). -/

namespace Sys2Proof.Machine

/-- `SubNext(i, bw)`: one `next` of one step of sub-generator `i`, its retries not counted (44_composite.md R141). -/
def subNext (i bw : Nat) (s : State) : Sub Nat :=
  match s.mode with
  | .generators => genNext i bw 1 false s
  | .hashes => hashNext i bw 1 false s

/-- `CIDX <- (CIDX + 1) mod (N - 1)` (44_composite.md R142). -/
def advanceCidx (s : State) : State := { s with cidx := (s.cidx + 1) % (s.n - 1) }

/-- One bit position (44_composite.md R142): the last sub-generator is drawn for the selector, then the source the
cursor names is drawn, and the selected bit is the answer. -/
def compositeBit (bw : Nat) (s : State) : Sub Nat :=
  (subNext (s.n - 1) bw s).bind fun r s1 =>
    (subNext s1.cidx bw (advanceCidx s1)).bind fun v s2 =>
      .ok (bitAt v (r &&& (bw - 1))) s2

/-- Bit positions `p`, `p + 1`, ..., `count` of them, XORed into the accumulator (44_composite.md R142). -/
def compositeBits (bw : Nat) : (count p acc : Nat) → State → Sub Nat
  | 0, _, acc, s => .ok acc s
  | count + 1, p, acc, s =>
    (compositeBit bw s).bind fun b s' => compositeBits bw count (p + 1) (acc ^^^ (b <<< p)) s'

/-- One attempt: `steps * bw` bit positions and the fold to `bw` bits (44_composite.md R142). -/
def compositeAttempt (bw steps : Nat) (s : State) : Sub Nat :=
  (compositeBits bw (steps * bw) 0 0 s).bind fun acc s' => foldState acc bw s'

/-- Whether an attempt's result is drawn again: only with `CCHK = 1` (44_composite.md R142). -/
def rejected (bw r : Nat) (s : State) : Bool := s.cchk && degenerate bw r

/-- The loop of `CNext` with `left` retries left of `RETRY_MAX` (44_composite.md R142). -/
def compositeLoop (bw steps : Nat) : (left retries : Nat) → State → Sub Nat
  | 0, retries, s =>
    (compositeAttempt bw steps s).bind fun r s' =>
      endNext true (if rejected bw r s' then none else some r) retries s'
  | left + 1, retries, s =>
    (compositeAttempt bw steps s).bind fun r s' =>
      if rejected bw r s' then compositeLoop bw steps left (retries + 1) s'
      else endNext true (some r) retries s'

/-- `CNext(bw, steps)` (44_composite.md R142). -/
def compositeNext (bw steps : Nat) (s : State) : Sub Nat := compositeLoop bw steps s.retryMax.toNat 0 s

/-- `DIN ^ k` for the keystream byte `k`, the body of `ENC` and `DEC` (44_composite.md R144, R145). -/
def cipherByte (steps : BitVec 4) (s : State) : Sub Nat :=
  (compositeNext 8 steps.toNat s).bind fun k s' => .ok (s.din ^^^ k) s'

/-- `CNEXT bit_width, steps` (44_composite.md R143). `STEPS = 0` is an illegal word (30_encoding.md R77), so on the
ill-formed term the answer is `E_ILLEGAL` (log entry 11). -/
def execCnext (steps : BitVec 4) (width : BitVec 12) (s : State) : Result :=
  unlessFaulted s <|
    if steps = 0 then raiseFault .illegal s
    else if width.toNat < 2 || !onePower width.toNat then raiseFault .operand s
    else if xw s < steps.toNat * width.toNat then raiseFault .operand s
    else (compositeNext width.toNat steps.toNat s).answer

/-- `ENC byte, steps` (44_composite.md R144); ill-formed terms as `CNEXT`. -/
def execEnc (steps : BitVec 4) (s : State) : Result :=
  unlessFaulted s <|
    if steps = 0 then raiseFault .illegal s
    else if 255 < s.din then raiseFault .operand s
    else (cipherByte steps s).answer

/-- `DEC byte, steps` (44_composite.md R145); ill-formed terms as `CNEXT`. -/
def execDec (steps : BitVec 4) (s : State) : Result :=
  unlessFaulted s <|
    if steps = 0 then raiseFault .illegal s
    else if 255 < s.din then raiseFault .operand s
    else (cipherByte steps s).answer

end Sys2Proof.Machine
end

