-- ==== Sys2Proof/Machine/System.lean ====
section
/-! DEFINITION. The system commands NOP, RESET, RDSTAT, RDRES, WRCFG, RDCFG (46_system.md R160 to R165). -/

namespace Sys2Proof.Machine

/-- `NOP` (46_system.md R160). -/
def execNop (s : State) : Result := unlessFaulted s (.next (noValue s))

/-- `RESET`, executed whatever the state of the block (46_system.md R161, 60_exceptions.md R174). -/
def execReset (s : State) : Result := .next (noValue (resetBlock s))

/-- `RDSTAT`, executed whatever the state of the block (46_system.md R162, 60_exceptions.md R174). -/
def execRdstat (s : State) : Result := .next (driveOnly (statusWord s).toNat s)

/-- `RDRES` (46_system.md R163). -/
def execRdres (s : State) : Result := unlessFaulted s (.next (returnValue s.res s))

/-- `WRCFG name, value` (46_system.md R164). -/
def execWrcfg (reg : CfgReg) (s : State) : Result := unlessFaulted s (writeCfg reg s.din s).finish

/-- `RDCFG name` (46_system.md R165). -/
def execRdcfg (reg : CfgReg) (s : State) : Result := unlessFaulted s (.next (returnValue (readCfg reg s) s))

/-- A word that is no command: `E_ILLEGAL`, unless the block is faulted, which refuses it undecoded (30_encoding.md R77,
R78; 60_exceptions.md R174). -/
def illegalWord (s : State) : Result := unlessFaulted s (raiseFault .illegal s)

end Sys2Proof.Machine
end

