-- ==== Sys2Proof/Machine/TableUnit.lean ====
section
/-! DEFINITION. The entropy table commands TSIZE, TLOAD, TREAD, BITSTR (40_table.md R90 to R94). -/

namespace Sys2Proof.Machine

/-- `TSIZE bytes` (40_table.md R91). -/
def execTsize (s : State) : Result :=
  unlessFaulted s <|
    if s.din < 4096 || s.params.tmaxBytes < s.din || !onePower s.din then raiseFault .config s
    else .next (noValue (resizeTable s.din s))

/-- `TLOAD widx, value` (40_table.md R92). -/
def execTload (widx : BitVec 24) (s : State) : Result :=
  unlessFaulted s <|
    if words s ≤ widx.toNat then raiseFault .operand s
    else if 2 ^ 64 ≤ s.din then raiseFault .operand s
    else .next (noValue (storeWord widx.toNat (BitVec.ofNat 64 s.din) s))

/-- `TREAD widx` (40_table.md R93). -/
def execTread (widx : BitVec 24) (s : State) : Result :=
  unlessFaulted s <|
    if words s ≤ widx.toNat then raiseFault .operand s
    else
      match Table.read s.table widx.toNat with
      | none => raiseFault .uninit s
      | some v => .next (returnValue v.toNat s)

/-- `BITSTR bit_index, field_width` (40_table.md R94). -/
def execBitstr (width : BitVec 12) (s : State) : Result :=
  unlessFaulted s <|
    if width = 0 then raiseFault .operand s
    else (readField s s.din width.toNat).answer

end Sys2Proof.Machine
end

