-- ==== Sys2Proof/Machine/Dispatch.lean ====
section
/-! DEFINITION. One arm per command of 30_encoding.md R76, each a call of its meaning. -/

namespace Sys2Proof.Machine

def exec (i : Instr) (s : State) : Host.Outcome State Fault Refusal :=
  match i with
  | .nop => Sys2Proof.Machine.execNop s
  | .reset => Sys2Proof.Machine.execReset s
  | .rdstat => Sys2Proof.Machine.execRdstat s
  | .rdres => Sys2Proof.Machine.execRdres s
  | .wrcfg reg => Sys2Proof.Machine.execWrcfg reg s
  | .rdcfg reg => Sys2Proof.Machine.execRdcfg reg s
  | .tsize => Sys2Proof.Machine.execTsize s
  | .tload widx => Sys2Proof.Machine.execTload widx s
  | .tread widx => Sys2Proof.Machine.execTread widx s
  | .bitstr width => Sys2Proof.Machine.execBitstr width s
  | .fold width => Sys2Proof.Machine.execFold width s
  | .folda alg width => Sys2Proof.Machine.execFolda alg width s
  | .hwr inst field => Sys2Proof.Machine.execHwr inst field s
  | .hrd inst field => Sys2Proof.Machine.execHrd inst field s
  | .hupd inst nbytes => Sys2Proof.Machine.execHupd inst nbytes s
  | .hdig inst => Sys2Proof.Machine.execHdig inst s
  | .hstep inst => Sys2Proof.Machine.execHstep inst s
  | .hnext inst steps width => Sys2Proof.Machine.execHnext inst steps width s
  | .gwr inst field => Sys2Proof.Machine.execGwr inst field s
  | .grd inst field => Sys2Proof.Machine.execGrd inst field s
  | .gstep inst => Sys2Proof.Machine.execGstep inst s
  | .gspin inst => Sys2Proof.Machine.execGspin inst s
  | .gnext inst steps width => Sys2Proof.Machine.execGnext inst steps width s
  | .cnext steps width => Sys2Proof.Machine.execCnext steps width s
  | .enc steps => Sys2Proof.Machine.execEnc steps s
  | .dec steps => Sys2Proof.Machine.execDec steps s
  | .whnext width => Sys2Proof.Machine.execWhnext width s
  | .randint width => Sys2Proof.Machine.execRandint width s
  | .nrv inst width => Sys2Proof.Machine.execNrv inst width s

end Sys2Proof.Machine
end

