-- ==== Sys2Proof/Machine/Command.lean ====
section
/-! DEFINITION. The command port: one `(CMD, DIN)` presented and executed (00_scope.md R15, 30_encoding.md R78), and a
program, a finite list of them (70_reset_and_hazards.md R210). -/

namespace Sys2Proof.Machine

/-- What executing the presented word does: its command, or `E_ILLEGAL` (30_encoding.md R78). A faulted block refuses
either way, except for the two words that execute in any state (60_exceptions.md R174; log entry 13). -/
def runWord (s : State) : Result :=
  match decode s.cmd with
  | .ok i => exec i s
  | .error _ => illegalWord s

/-- One command of the host: `DIN < 2^XW` is a precondition of the step, not a check (60_exceptions.md R175,
93_implementation_defined.md U7; log entry 2). -/
def command (c : CmdWord) (d : Nat) (s : State) : Result :=
  if 2 ^ xw s ≤ d then .refused .dinBeyondPort else runWord (present c d s)

/-- The step of the machine: the next pair of the host's list, or nothing to do, the block holding its state
(10_state.md R21; 60_exceptions.md R181; log entry 1). -/
def stepCommand (s : State) : Result :=
  match s.pending with
  | [] => .next s
  | (c, d) :: rest => command c d { s with pending := rest }

/-- What the host observes after a command: the pair `(DOUT, STATUS)` (60_exceptions.md R172, R210). -/
def observed (s : State) : Nat × BitVec 32 := (s.dout, statusWord s)

/-- A run of a program from `s`: the observed pairs, one per command, and the final state (70_reset_and_hazards.md
R210); `none` when an operand does not fit the port. -/
def runProgram : List (CmdWord × Nat) → State → Option (List (Nat × BitVec 32) × State)
  | [], s => some ([], s)
  | (c, d) :: rest, s =>
    match command c d s with
    | .next s' =>
      match runProgram rest s' with
      | some (obs, t) => some (observed s' :: obs, t)
      | none => none
    | .fault _ => none
    | .refused _ => none

/-- The instruction the next step runs: `w`, every bit above `nbits` 0, at the head of the host's list, with the operand
the port `DIN` now holds. -/
def presentNext (nbits w : Nat) (s : State) : State :=
  { s with pending := (BitVec.ofNat 32 (w % 2 ^ nbits), s.din) :: s.pending }

end Sys2Proof.Machine
end

