-- ==== Sys2Proof/Machine/Step.lean ====
section
/-! DEFINITION. The step function, and the state whose next step runs a given word. -/

namespace Sys2Proof.Machine

/-- One step of the machine: the host's next command (10_state.md R21). -/
def step (s : State) : Host.Outcome State Fault Refusal := stepCommand s

/-- `s` with the word presented next (log entry 1). -/
def State.withFetchWord (s : State) (nbits w : Nat) : State := presentNext nbits w s

end Sys2Proof.Machine
end

