-- ==== Sys2Proof/Machine/Pseudo.lean ====
section
/-! DEFINITION. The pseudo-instructions of 30_encoding.md R81: each is the list of `(CMD, DIN)` pairs it expands to. -/

namespace Sys2Proof.Machine.Pseudo

/-- `ENCRYPT`: one `ENC` per byte, in message order. -/
def encrypt (message : List (BitVec 8)) (steps : BitVec 4) : List (CmdWord × Nat) :=
  message.map fun b => (encode (.enc steps), b.toNat)

/-- `DECRYPT`: one `DEC` per byte, in message order. -/
def decrypt (message : List (BitVec 8)) (steps : BitVec 4) : List (CmdWord × Nat) :=
  message.map fun b => (encode (.dec steps), b.toNat)

/-- `HUPDS`: one `HUPD` of one byte per byte of the string, in string order. -/
def hupds (i : BitVec 8) (string : List (BitVec 8)) : List (CmdWord × Nat) :=
  string.map fun b => (encode (.hupd i 1), b.toNat)

/-- `bitlength(v)`, with `bitlength(0) = 0`. -/
def bitlength (v : Nat) : Nat := if v = 0 then 0 else v.log2 + 1

/-- `HUPDI`: one `HUPD` of `L = max(1, ceil(bitlength(value) / 8))` bytes. R81 gives no expansion for a value of more than
4095 bytes, whose `L` the 12-bit field cannot carry: DESIGN CHOICE, the field then holds `L` modulo 4096 (log entry 16). -/
def hupdi (i : BitVec 8) (value : Nat) : List (CmdWord × Nat) :=
  [(encode (.hupd i (BitVec.ofNat 12 (max 1 (ceilDiv (bitlength value) 8)))), value)]

/-- `TFILL`: one `TLOAD` per word, at rising indices. R81 gives no expansion for an index of `2^24` or more, which the 24-bit
field cannot carry: DESIGN CHOICE, the field then holds the index modulo `2^24` (log entry 17). -/
def tfill (base : Nat) : List TableWord → List (CmdWord × Nat)
  | [] => []
  | v :: rest => (encode (.tload (BitVec.ofNat 24 base)), v.toNat) :: tfill (base + 1) rest

/-- `GSETUP`: variant, multiplier, addition and lag of a generator. -/
def gsetup (i : BitVec 8) (variant : GenVariant) (mult add lag : Nat) : List (CmdWord × Nat) :=
  [(encode (.gwr i .variant), variant.number), (encode (.gwr i .mult), mult),
   (encode (.gwr i .add), add), (encode (.gwr i .lag), lag)]

end Sys2Proof.Machine.Pseudo
end

