-- ==== Sys2Proof/Safety.lean ====
section
/-! DEFINITION. The terms the statements are written in: the legal states of 10_state.md, the legal operands of each
register write, and the sequences of draws of the `next` contract. -/

namespace Sys2Proof.Machine

/-! Legal states. -/

/-- A generator instance within the ranges of 10_state.md R26 and the width invariant of R27. -/
structure Gen.Legal (dmax w depth : Nat) (g : Gen) : Prop where
  length : g.vec.length = dmax
  elems : ∀ x ∈ g.vec, x < 2 ^ w
  index : g.index < depth
  mult : g.mult < 2 ^ w
  add : g.add < 2 ^ w
  carry : g.carry < 2 ^ w

/-- A hash instance within the ranges of 10_state.md R29. -/
structure Hash.Legal (hdmax w hdepth : Nat) (h : Hash) : Prop where
  length : h.vec.length = hdmax
  elems : ∀ x ∈ h.vec, x < 2 ^ w
  idx : h.idx < hdepth

/-- `STATUS` as 10_state.md R23 allows it: no code and no opcode without a fault, a code of 60_exceptions.md R171 with
one. -/
def statusLegal (s : State) : Prop :=
  (s.fault = false → s.fcode = 0 ∧ s.fopc = 0) ∧ (s.fault = true → 1 ≤ s.fcode.toNat ∧ s.fcode.toNat ≤ 5)

/-- The legal states: every range of 10_state.md R21 to R37, and the canonical form of the table. -/
structure Legal (s : State) : Prop where
  params : s.params.Legal
  din : s.din < 2 ^ xw s
  dout : s.dout < 2 ^ xw s
  res : s.res < 2 ^ xw s
  status : statusLegal s
  tbytes_pow : ∃ k, 12 ≤ k ∧ s.tbytes = 2 ^ k
  tbytes_le : s.tbytes ≤ s.params.tmaxBytes
  table : Table.wf (words s) s.table = true
  w_ge : 8 ≤ s.w
  w_le : s.w ≤ s.params.wmax
  depth_ge : 1 ≤ s.depth
  depth_le : s.depth ≤ s.params.dmax
  hdepth_ge : 1 ≤ s.hdepth
  hdepth_le : s.hdepth ≤ s.params.hdmax
  n_ge : 2 ≤ s.n
  n_le : s.n ≤ s.params.nmax
  paranoia_ge : 1 ≤ s.paranoia
  paranoia_le : s.paranoia ≤ 4
  cidx : s.cidx ≤ s.n - 2
  gens_length : s.gens.length = s.params.nmax
  gens : ∀ g ∈ s.gens, g.Legal s.params.dmax s.w s.depth
  hashes_length : s.hashes.length = s.params.nmax
  hashes : ∀ h ∈ s.hashes, h.Legal s.params.hdmax s.w s.hdepth
  whS1 : 1 ≤ s.whS1 ∧ s.whS1 ≤ 30268
  whS2 : 1 ≤ s.whS2 ∧ s.whS2 ≤ 30306
  whS3 : 1 ≤ s.whS3 ∧ s.whS3 ≤ 30322

/-! Register writes. -/

/-- The column "legal" of 10_state.md R30; a read-only register has no legal operand. For `W` it is the range alone, also
where it passes the 16 bits of the column "width" (log entry 15). -/
def CfgOperandLegal (r : CfgReg) (v : Nat) (s : State) : Prop :=
  match r with
  | .w => 8 ≤ v ∧ v ≤ s.params.wmax
  | .depth => 1 ≤ v ∧ v ≤ s.params.dmax
  | .hdepth => 1 ≤ v ∧ v ≤ s.params.hdmax
  | .n => 2 ≤ v ∧ v ≤ s.params.nmax
  | .mode => v ≤ 1
  | .paranoia => 1 ≤ v ∧ v ≤ 4
  | .retryMax => v ≤ 255
  | .cchk => v ≤ 1
  | .foldSel => v ≤ 3
  | .cidx => v ≤ s.n - 2
  | .whS1 => 1 ≤ v ∧ v ≤ 30268
  | .whS2 => 1 ≤ v ∧ v ≤ 30306
  | .whS3 => 1 ≤ v ∧ v ≤ 30322
  | .rhash => v < 2 ^ 64
  | .rtog => v ≤ 1
  | .idx0 => v < 2 ^ 32
  | .idx1 => v < 2 ^ 32
  | .idx2 => v < 2 ^ 32
  | .idx3 => v < 2 ^ 32
  | .tbytes | .bitSize | .bitIndexMask | .wmax | .dmax | .hdmax | .nmax | .tmaxBytes | .xw => False

/-- The column "fault on an illegal value" of 10_state.md R30; `E_ILLEGAL` for a read-only register (R31). -/
def cfgFaultCode (r : CfgReg) : BitVec 4 :=
  match r with
  | .w | .depth | .hdepth | .n | .mode | .paranoia | .retryMax | .cchk | .whS1 | .whS2 | .whS3 => 2
  | .foldSel | .cidx | .rhash | .rtog | .idx0 | .idx1 | .idx2 | .idx3 => 3
  | .tbytes | .bitSize | .bitIndexMask | .wmax | .dmax | .hdmax | .nmax | .tmaxBytes | .xw => 1

/-- The registers whose write clears every instance (10_state.md R32). -/
def CfgReg.structural : CfgReg → Bool
  | .w | .depth | .hdepth | .n | .mode => true
  | .paranoia | .retryMax | .cchk | .foldSel | .cidx | .whS1 | .whS2 | .whS3 | .rhash | .rtog => false
  | .idx0 | .idx1 | .idx2 | .idx3 | .tbytes | .bitSize | .bitIndexMask => false
  | .wmax | .dmax | .hdmax | .nmax | .tmaxBytes | .xw => false

/-- What a write of the operand to register `r` leaves (46_system.md R164, 10_state.md R32): the register reads as the
operand; a structural register clears every instance and `CIDX`; nothing else changes but `DOUT`, which is 0. -/
structure CfgWritten (r : CfgReg) (s t : State) : Prop where
  written : readCfg r t = s.din
  others : ∀ r', r' ≠ r → ¬ (CfgReg.structural r = true ∧ r' = .cidx) → readCfg r' t = readCfg r' s
  clears : CfgReg.structural r = true →
    t.cidx = 0 ∧
    t.gens = List.replicate s.params.nmax
      { vec := List.replicate s.params.dmax 0, index := 0, mult := 0, add := 0, lag := 0, carry := 0, variant := .lcg } ∧
    t.hashes = List.replicate s.params.nmax { vec := List.replicate s.params.hdmax 0, idx := 0, variant := .hash0 }
  keeps : CfgReg.structural r = false → t.gens = s.gens ∧ t.hashes = s.hashes
  ports : t.dout = 0 ∧ t.pending = s.pending ∧ t.cmd = s.cmd ∧ t.din = s.din
  rest : t.res = s.res ∧ statusWord t = statusWord s ∧ t.table = s.table

/-- The state in which a command has just raised the fault with code `code` before any write (60_exceptions.md R172,
R173): the pieces R172 names and nothing else. -/
def faultedWith (code : BitVec 4) (s : State) : State :=
  { s with dout := 0, fault := true, fcode := code, fopc := s.cmd.extractLsb' 24 8 }

/-- An illegal word: a block without a fault raises `E_ILLEGAL` and changes nothing but `STATUS`, the ports aside
(30_encoding.md R77, 60_exceptions.md R172). -/
def RaisesIllegal (c : CmdWord) : Prop :=
  ∀ (d : Nat) (s : State), s.fault = false → d < 2 ^ xw s → command c d s = .next (faultedWith 1 (present c d s))

/-- Agreement on everything a faulted block still shows or keeps: the host's list, the ports, `STATUS` and the synthesis
parameters (60_exceptions.md R173, R174). -/
def SameFaultView (s t : State) : Prop :=
  s.pending = t.pending ∧ s.cmd = t.cmd ∧ s.din = t.din ∧ s.dout = t.dout ∧ s.fault = t.fault ∧ s.fcode = t.fcode ∧
    s.fopc = t.fopc ∧ s.rcnt = t.rcnt ∧ s.params = t.params

/-! Draws of the `next` contract (43_generators.md R132, R133; 42_hash.md R117), written without the loops of the
model. -/

/-- The instance after `j` raw steps. -/
def afterSteps {ι : Type} (raw : ι → Nat × ι) : (j : Nat) → ι → ι
  | 0, x => x
  | j + 1, x => afterSteps raw j (raw x).2

/-- The concatenation of `steps` raw outputs of `w` bits, the first most significant (R133). -/
def concatenated {ι : Type} (raw : ι → Nat × ι) (w steps : Nat) (x : ι) : Nat :=
  ((List.range steps).map fun j => (raw (afterSteps raw j x)).1 * 2 ^ (w * (steps - 1 - j))).sum

/-- One draw: `steps` raw steps concatenated, and the result folded to `bw` bits when it does not fit (R133, 41_fold.md
R101). -/
def drawFrom {ι : Type} (raw : ι → Nat × ι) (w bw steps : Nat) (x : ι) (sel : BitVec 2) : DrawOnce ι :=
  let acc := concatenated raw w steps x
  if acc < 2 ^ bw then { value := acc, inst := afterSteps raw steps x, sel := sel }
  else { value := foldAlg sel acc bw, inst := afterSteps raw steps x, sel := sel + 1 }

/-- Draw number `k`, counted from 0, when the draws before it were rejected: each goes on from what the one before left
behind (R132). -/
def drawAt {ι : Type} (raw : ι → Nat × ι) (w bw steps : Nat) (x : ι) (sel : BitVec 2) : (k : Nat) → DrawOnce ι
  | 0 => drawFrom raw w bw steps x sel
  | k + 1 =>
    drawFrom raw w bw steps (drawAt raw w bw steps x sel k).inst (drawAt raw w bw steps x sel k).sel

/-- Draw `k` of `GNext(i, bw, steps)` in state `s`. -/
def genDraw (s : State) (i bw steps k : Nat) : DrawOnce Gen :=
  drawAt (genStep s.w s.depth) s.w bw steps (genAt s i) s.foldSel k

/-- Draw `k` of `HNext(i, bw, steps)` in state `s`. -/
def hashDraw (s : State) (i bw steps k : Nat) : DrawOnce Hash :=
  drawAt (hashStep s.w s.hdepth) s.w bw steps (hashAt s i) s.foldSel k

/-- A degenerate result of width `bw` (43_generators.md R132). -/
def Degenerate (bw r : Nat) : Prop := r = 0 ∨ r = 2 ^ bw - 1

/-- The bit positions of one attempt of `CNext` (44_composite.md R142), without the loop of the model: `bits` are the
bits the composite delivers one after the other from state `s`, and `t` is the state after the last. -/
def BitsFrom (bw : Nat) : (bits : List Nat) → (s t : State) → Prop
  | [], s, t => s = t
  | b :: bits, s, t =>
    ∃ selector s1 v s2,
      subNext (s.n - 1) bw s = .ok selector s1 ∧
      subNext s1.cidx bw { s1 with cidx := (s1.cidx + 1) % (s1.n - 1) } = .ok v s2 ∧
      b = v / 2 ^ (selector % bw) % 2 ∧ BitsFrom bw bits s2 t

/-- The number whose bits, least significant first, are `bits`. -/
def numberOfBits : List Nat → Nat
  | [] => 0
  | b :: bits => b + 2 * numberOfBits bits

/-- One attempt of `CNext` (44_composite.md R142): `steps * bw` bits placed from the least significant position up, and
the fold to `bw` bits; `r` is the result and `t` the state after the fold. -/
def Attempt (bw steps : Nat) (s : State) (r : Nat) (t : State) : Prop :=
  ∃ bits u, bits.length = steps * bw ∧ BitsFrom bw bits s u ∧ r = (fold u.foldSel (numberOfBits bits) bw).1 ∧
    t = { u with foldSel := (fold u.foldSel (numberOfBits bits) bw).2 }

/-- `k` attempts one after the other, each drawn again because `CCHK = 1` and its result is degenerate (44_composite.md
R142). -/
def RejectedAttempts (bw steps : Nat) : (k : Nat) → (s t : State) → Prop
  | 0, s, t => s = t
  | k + 1, s, t =>
    ∃ r u, Attempt bw steps s r u ∧ s.cchk = true ∧ Degenerate bw r ∧ RejectedAttempts bw steps k u t

/-- `CNext` returns `r` after `k` rejected attempts, and `t` is the state after the accepted one, `RCNT` not yet written
(44_composite.md R142). -/
def CompositeDraws (bw steps : Nat) (s : State) (k r : Nat) (t : State) : Prop :=
  ∃ u, RejectedAttempts bw steps k s u ∧ Attempt bw steps u r t ∧ (s.cchk = true → ¬ Degenerate bw r)

/-! The fold variants (41_fold.md R102 to R106), written without the loop of the model. -/

/-- Width of chunk `t`: `w`, or one bit less per chunk down to `min(w, 4)` when the window shrinks (R104). -/
def chunkWidth (shrink : Bool) (w t : Nat) : Nat := if shrink then max (min w 4) (w - t) else w

/-- The bit where chunk `t` begins. -/
def chunkStart (shrink : Bool) (w t : Nat) : Nat := ((List.range t).map (chunkWidth shrink w)).sum

/-- Chunk `t` of `v`, from the least significant upward. -/
def chunk (shrink : Bool) (w v t : Nat) : Nat := v / 2 ^ chunkStart shrink w t % 2 ^ chunkWidth shrink w t

/-- The first `m` chunks of `v` combined: XOR, or addition on an odd accumulator when the variant adds (R103, R105). -/
def chunkFold (shrink addmode : Bool) (w v m : Nat) : Nat :=
  (List.range m).foldl
    (fun acc t =>
      if addmode = true ∧ acc % 2 = 1 then (acc + chunk shrink w v t) % 2 ^ w else acc ^^^ chunk shrink w v t) 0

/-! The hash kernel (42_hash.md R112, R113). -/

/-- The slot after walk step `k` of byte `b` (R112): bit `k` of the byte shifts left or right, an odd `k` puts the lost bit
back at the other end. -/
def walkedSlot (w b k x : Nat) : Nat :=
  if b / 2 ^ k % 2 = 1 then 2 * x % 2 ^ w + (if k % 2 = 1 then x / 2 ^ (w - 1) else 0)
  else x / 2 + (if k % 2 = 1 then x % 2 * 2 ^ (w - 1) else 0)

/-- The slot after step `k` of the walk of HASH1 with the digest `d` (R113): a rotation left or right by one bit. -/
def rotatedSlot (w d k x : Nat) : Nat :=
  if d / 2 ^ (k % w) % 2 = 1 then 2 * x % 2 ^ w + x / 2 ^ (w - 1) else x / 2 + x % 2 * 2 ^ (w - 1)

/-- `V k` is the vector before step `k` of a walk of `count` steps after the cursor `p`: step `k` changes slot
`(p + 1 + k) mod HDEPTH` by `f k` and no other (R112, R113). -/
def WalkOf (hdepth p count : Nat) (f : Nat → Nat → Nat) (V : Nat → Nat → Nat) : Prop :=
  ∀ k < count, ∀ j, V (k + 1) j = if j = (p + 1 + k) % hdepth then f k (V k j) else V k j

/-! Bit fields (20_memory.md R52, R53). -/

/-- Bit `k` of the table's bit string, 0 in an unwritten word. -/
def tableBit (s : State) (k : Nat) : Nat :=
  match Table.read s.table (k / 64) with
  | some v => v.toNat / 2 ^ (63 - k % 64) % 2
  | none => 0

/-- The sum of R53: the field of `n` bits from bit index `b`, the first bit most significant. -/
def fieldValue (s : State) (b n : Nat) : Nat :=
  ((List.range n).map fun t => tableBit s ((b + t) % bitSize s) * 2 ^ (n - 1 - t)).sum

/-! The bootstrap draws (45_bootstrap_draw.md R151 to R154). -/

/-- The Wichmann-Hill draw scaled to `k` bits that step number `j` from state `s` gives, counted from 1 (R151, R152). -/
def whDrawn (s : State) (j k : Nat) : Nat :=
  (171 ^ j * s.whS1 % 30269 * 30307 * 30323 + 172 ^ j * s.whS2 % 30307 * 30269 * 30323 +
    170 ^ j * s.whS3 % 30323 * 30269 * 30307) % 27817185604309 * 2 ^ k / 27817185604309

/-- The indices and seeds after the index walk of `RandInt(fw)` (R153). -/
def walkedIndices (fw : Nat) (s : State) : State :=
  if s.rtog = false then
    { s with
      whS1 := 171 ^ 4 * s.whS1 % 30269, whS2 := 172 ^ 4 * s.whS2 % 30307, whS3 := 170 ^ 4 * s.whS3 % 30323
      idx0 := BitVec.ofNat 32 ((s.idx0.toNat + whDrawn s 1 (bitSize s).log2) % bitSize s)
      idx1 := BitVec.ofNat 32 ((s.idx1.toNat + whDrawn s 2 (bitSize s).log2) % bitSize s)
      idx2 := BitVec.ofNat 32 ((s.idx2.toNat + whDrawn s 3 (bitSize s).log2) % bitSize s)
      idx3 := BitVec.ofNat 32 ((s.idx3.toNat + whDrawn s 4 (bitSize s).log2) % bitSize s) }
  else
    { s with
      idx0 := BitVec.ofNat 32 (((s.idx0.toNat ^^^ s.rhash.toNat) + fw) % bitSize s)
      idx1 := BitVec.ofNat 32 (((s.idx1.toNat ^^^ (s.rhash.rotateRight 16).toNat) + fw) % bitSize s)
      idx2 := BitVec.ofNat 32 (((s.idx2.toNat ^^^ (s.rhash.rotateRight 32).toNat) + fw) % bitSize s)
      idx3 := BitVec.ofNat 32 (((s.idx3.toNat ^^^ (s.rhash.rotateRight 48).toNat) + fw) % bitSize s) }

/-- `bytes` bytes of `v` consumed by a hash, least significant first (20_memory.md R60, 42_hash.md R115). -/
def consumedBytes (w hdepth bytes v : Nat) (h : Hash) : Hash :=
  (List.range bytes).foldl (fun g t => hashByte w hdepth (v / 256 ^ t % 256) g) h

/-- The rounds of `Nrv` (R154): `ds` are the masked digests, one per round, `e` is the entropy XORed with the digests
before, and `t` is the state after the last round. -/
def NrvRounds (i width : Nat) : (ds : List Nat) → (e : Nat) → (s t : State) → Prop
  | [], _, s, t => s = t
  | d :: ds, e, s, t =>
    ∃ v, bitRead s (e % bitSize s) width = some v ∧
      d = hashDigest s.hdepth (consumedBytes s.w s.hdepth ((width + 7) / 8) v (hashAt s i)) % 2 ^ width ∧
      NrvRounds i width ds (e ^^^ d)
        { s with hashes := s.hashes.set i (consumedBytes s.w s.hdepth ((width + 7) / 8) v (hashAt s i)) } t

/-! Reset values, register file and command words as tables of the spec. -/

/-- The table of 10_state.md R37. -/
structure ResetValues (t : State) : Prop where
  res : t.res = 0
  status : statusWord t = 0
  tbytes : t.tbytes = 4096
  unwritten : ∀ i, Table.read t.table i = none
  foldSel : t.foldSel = 0
  geometry : t.w = 64 ∧ t.depth = 1 ∧ t.hdepth = 1 ∧ t.n = 2 ∧ t.mode = .generators
  bounds : t.paranoia = 1 ∧ t.retryMax = 8 ∧ t.cchk = true
  cidx : t.cidx = 0
  gens_length : t.gens.length = t.params.nmax
  gens : ∀ g ∈ t.gens, g.vec.length = t.params.dmax ∧ (∀ x ∈ g.vec, x = 0) ∧ g.index = 0 ∧ g.mult = 0 ∧ g.add = 0 ∧
    g.lag = 0 ∧ g.carry = 0 ∧ g.variant = .lcg
  hashes_length : t.hashes.length = t.params.nmax
  hashes : ∀ h ∈ t.hashes, h.vec.length = t.params.hdmax ∧ (∀ x ∈ h.vec, x = 0) ∧ h.idx = 0 ∧ h.variant = .hash0
  seeds : t.whS1 = 1 ∧ t.whS2 = 1 ∧ t.whS3 = 1
  randint : t.rhash = 0 ∧ t.rtog = false ∧ t.idx0 = 0 ∧ t.idx1 = 0 ∧ t.idx2 = 0 ∧ t.idx3 = 0

/-- The register numbers of 10_state.md R30 and R31, each with the value the register holds. -/
def cfgFile (s : State) : List (Nat × Nat) :=
  [(0x00, s.w), (0x01, s.depth), (0x02, s.hdepth), (0x03, s.n), (0x04, if s.mode = .hashes then 1 else 0),
   (0x05, s.paranoia), (0x06, s.retryMax.toNat), (0x07, if s.cchk then 1 else 0), (0x08, s.foldSel.toNat),
   (0x09, s.cidx), (0x0A, s.whS1), (0x0B, s.whS2), (0x0C, s.whS3), (0x0D, s.rhash.toNat),
   (0x0E, if s.rtog then 1 else 0)] ++
  [(0x10, s.idx0.toNat), (0x11, s.idx1.toNat), (0x12, s.idx2.toNat), (0x13, s.idx3.toNat),
   (0x20, s.tbytes), (0x21, 8 * s.tbytes), (0x22, 8 * s.tbytes - 1), (0x30, s.params.wmax), (0x31, s.params.dmax),
   (0x32, s.params.hdmax), (0x33, s.params.nmax), (0x34, s.params.tmaxBytes), (0x35, 15 * s.params.wmax)]

/-- The fields of a generator as `GRD` numbers them (43_generators.md R134): `REG`, and the value when `REG` is not 0. -/
def genScalars (g : Gen) : List (Nat × GenField × Nat) :=
  [(1, .index, g.index), (2, .mult, g.mult), (3, .add, g.add), (4, .lag, g.lag.toNat), (5, .carry, g.carry),
   (6, .variant,
    match g.variant with
    | .lcg => 0
    | .mcg => 1
    | .mwc => 2
    | .lfib => 3
    | .fsr => 4)]

/-- The scalar fields of a hash as `HRD` numbers them (42_hash.md R118): `REG`, and the value. -/
def hashScalars (h : Hash) : List (Nat × HashField × Nat) :=
  [(1, .idx, h.idx),
   (2, .variant,
    match h.variant with
    | .hash0 => 0
    | .hash1 => 1)]

/-- The word each command rule of 40_table.md to 46_system.md writes for its command, as a sum of its fields. -/
def ruleWord : Instr → Nat
  | .nop => 0x00000000
  | .reset => 0x01000000
  | .rdstat => 0x02000000
  | .rdres => 0x03000000
  | .wrcfg r => 0x04000000 + 256 * r.number.toNat
  | .rdcfg r => 0x05000000 + 256 * r.number.toNat
  | .tsize => 0x10000000
  | .tload x => 0x11000000 + x.toNat
  | .tread x => 0x12000000 + x.toNat
  | .bitstr b => 0x13000000 + b.toNat
  | .fold b => 0x18000000 + b.toNat
  | .folda a b => 0x19000000 + 65536 * a.toNat + b.toNat
  | .hwr h f => 0x20000000 + 65536 * h.toNat + 256 * f.number.toNat + f.elem.toNat
  | .hrd h f => 0x21000000 + 65536 * h.toNat + 256 * f.number.toNat + f.elem.toNat
  | .hupd h l => 0x22000000 + 65536 * h.toNat + l.toNat
  | .hdig h => 0x23000000 + 65536 * h.toNat
  | .hstep h => 0x24000000 + 65536 * h.toNat
  | .hnext h t b => 0x25000000 + 65536 * h.toNat + 4096 * t.toNat + b.toNat
  | .gwr g f => 0x30000000 + 65536 * g.toNat + 256 * f.number.toNat + f.elem.toNat
  | .grd g f => 0x31000000 + 65536 * g.toNat + 256 * f.number.toNat + f.elem.toNat
  | .gstep g => 0x32000000 + 65536 * g.toNat
  | .gspin g => 0x33000000 + 65536 * g.toNat
  | .gnext g t b => 0x34000000 + 65536 * g.toNat + 4096 * t.toNat + b.toNat
  | .cnext t b => 0x40000000 + 4096 * t.toNat + b.toNat
  | .enc t => 0x41000008 + 4096 * t.toNat
  | .dec t => 0x42000008 + 4096 * t.toNat
  | .whnext b => 0x50000000 + b.toNat
  | .randint b => 0x51000000 + b.toNat
  | .nrv h b => 0x52000000 + 65536 * h.toNat + b.toNat

/-- The fault codes the rule of each command lists, decoding aside (60_exceptions.md R171). -/
def faultCodes : Instr → List Nat
  | .nop | .reset | .rdstat | .rdres | .rdcfg _ => []
  | .wrcfg _ | .gwr _ _ | .hwr _ _ => [2, 3]
  | .tsize => [2]
  | .tread _ | .bitstr _ | .randint _ | .nrv _ _ => [3, 5]
  | .hnext _ _ _ | .gnext _ _ _ | .cnext _ _ | .enc _ | .dec _ => [3, 4]
  | .tload _ | .fold _ | .folda _ _ | .hrd _ _ | .hupd _ _ | .hdig _ | .hstep _ => [3]
  | .grd _ _ | .gstep _ | .gspin _ | .whnext _ => [3]

/-! Which command may write which piece of state: the lines "State written" of the command rules. -/

/-- A piece of state. -/
inductive Piece where
  | host
  | result
  | faultRecord
  | retryCount
  | tableWords
  | config (r : CfgReg)
  | generator (i : Nat)
  | hash (i : Nat)
deriving DecidableEq, Repr

/-- Two states agree on a piece. `host` is the host's list and the two input ports, `result` the latch `RES`. -/
def Piece.Same (p : Piece) (s t : State) : Prop :=
  match p with
  | .host => s.pending = t.pending ∧ s.cmd = t.cmd ∧ s.din = t.din
  | .result => s.res = t.res
  | .faultRecord => s.fault = t.fault ∧ s.fcode = t.fcode ∧ s.fopc = t.fopc
  | .retryCount => s.rcnt = t.rcnt
  | .tableWords => s.table = t.table
  | .config r => readCfg r s = readCfg r t
  | .generator i => s.gens[i]? = t.gens[i]?
  | .hash i => s.hashes[i]? = t.hashes[i]?

/-- The synthesis parameters among the configuration registers (00_scope.md R7). -/
def CfgReg.fixed : CfgReg → Bool
  | .wmax | .dmax | .hdmax | .nmax | .tmaxBytes | .xw => true
  | .w | .depth | .hdepth | .n | .mode | .paranoia | .retryMax | .cchk | .foldSel | .cidx => false
  | .whS1 | .whS2 | .whS3 | .rhash | .rtog | .idx0 | .idx1 | .idx2 | .idx3 => false
  | .tbytes | .bitSize | .bitIndexMask => false

/-- The three registers that are functions of the table size (10_state.md R24). -/
def CfgReg.ofTableSize : CfgReg → Bool
  | .tbytes | .bitSize | .bitIndexMask => true
  | .w | .depth | .hdepth | .n | .mode | .paranoia | .retryMax | .cchk | .foldSel | .cidx => false
  | .whS1 | .whS2 | .whS3 | .rhash | .rtog | .idx0 | .idx1 | .idx2 | .idx3 => false
  | .wmax | .dmax | .hdmax | .nmax | .tmaxBytes | .xw => false

/-- Whether a command may write a piece, on some operands. -/
def mayWrite (i : Instr) (p : Piece) : Bool :=
  match i, p with
  | .reset, .host => false
  | .reset, .config r => !CfgReg.fixed r
  | .reset, _ => true
  | .nop, _ => false
  | .rdstat, _ => false
  | .rdres, p => p == .result
  | .rdcfg _, p => p == .result
  | .wrcfg r, p =>
    p == .faultRecord || p == .config r ||
      (CfgReg.structural r && match p with
        | .config r' => r' == .cidx
        | .generator _ => true
        | .hash _ => true
        | _ => false)
  | .tsize, p =>
    p == .faultRecord || p == .tableWords || match p with
      | .config r => CfgReg.ofTableSize r
      | _ => false
  | .tload _, p => p == .faultRecord || p == .tableWords
  | .tread _, p => p == .faultRecord || p == .result
  | .bitstr _, p => p == .faultRecord || p == .result
  | .fold _, p => p == .faultRecord || p == .result || p == .config .foldSel
  | .folda _ _, p => p == .faultRecord || p == .result
  | .hwr h _, p => p == .faultRecord || p == .hash h.toNat
  | .hrd _ _, p => p == .faultRecord || p == .result
  | .hupd h _, p => p == .faultRecord || p == .hash h.toNat
  | .hdig _, p => p == .faultRecord || p == .result
  | .hstep h, p => p == .faultRecord || p == .result || p == .hash h.toNat
  | .hnext h _ _, p =>
    p == .faultRecord || p == .result || p == .retryCount || p == .config .foldSel || p == .hash h.toNat
  | .gwr g _, p => p == .faultRecord || p == .generator g.toNat
  | .grd _ _, p => p == .faultRecord || p == .result
  | .gstep g, p => p == .faultRecord || p == .result || p == .generator g.toNat
  | .gspin g, p => p == .faultRecord || p == .generator g.toNat
  | .gnext g _ _, p =>
    p == .faultRecord || p == .result || p == .retryCount || p == .config .foldSel || p == .generator g.toNat
  | .cnext _ _, p | .enc _, p | .dec _, p =>
    match p with
    | .faultRecord | .result | .retryCount => true
    | .config r => r == .foldSel || r == .cidx
    | .generator _ | .hash _ => true
    | .host | .tableWords => false
  | .whnext _, p =>
    p == .faultRecord || p == .result || p == .config .whS1 || p == .config .whS2 || p == .config .whS3
  | .randint _, p =>
    match p with
    | .faultRecord | .result => true
    | .config r =>
      r == .foldSel || r == .whS1 || r == .whS2 || r == .whS3 || r == .rhash || r == .rtog || r == .idx0 ||
        r == .idx1 || r == .idx2 || r == .idx3
    | .host | .retryCount | .tableWords | .generator _ | .hash _ => false
  | .nrv h _, p => p == .faultRecord || p == .result || p == .hash h.toNat

/-- Agreement on everything but the ports and the latch `RES`. -/
def SameButPorts (s t : State) : Prop :=
  { s with cmd := 0, din := 0, dout := 0, res := 0 } = { t with cmd := 0, din := 0, dout := 0, res := 0 }

/-- Every word of the current table is written. -/
def TableFull (s : State) : Prop := ∀ i < words s, (Table.read s.table i).isSome = true

/-- Every word a bit field touches is written (20_memory.md R54). -/
def FieldWritten (s : State) (b n : Nat) : Prop :=
  ∀ t < (b % bitSize s % 64 + n + 63) / 64, (Table.read s.table ((b % bitSize s / 64 + t) % words s)).isSome = true

/-- A run of steps (one command each) that answers `t`. -/
def Runs : (k : Nat) → State → State → Prop
  | 0, s, t => s = t
  | k + 1, s, t => ∃ u, step s = .next u ∧ Runs k u t

end Sys2Proof.Machine
end

