-- ==== Sys2Proof/Certificates/Slice0/Obligations.lean ====
section
/-! DEFINITION. The statements for the provers, from the numbered rules of the spec. -/

section

open Sys2Proof Sys2Proof.Machine

/-! System commands and reset (46_system.md, 10_state.md R37). -/

/-- R160: the word `0x00000000` alone is `NOP`; whatever the state of the block it changes nothing but `DOUT`, which is
0. -/
def Obligations.NopChangesNothing : Prop :=
  (∀ c, decode c = .ok .nop ↔ c = 0x00000000#32) ∧ ∀ s : State, exec .nop s = .next { s with dout := 0 }

/-- R161: the word `0x01000000` alone is `RESET`; whatever the state of the block every piece of state takes its reset
value (R37) and `DOUT` is 0. -/
def Obligations.ResetRestoresEveryResetValue : Prop :=
  (∀ c, decode c = .ok .reset ↔ c = 0x01000000#32) ∧
    ∀ s : State, ∃ t, exec .reset s = .next t ∧ ResetValues t ∧ t.params = s.params ∧ t.dout = 0

/-- R37: the state after reset, for every choice of the synthesis parameters. -/
def Obligations.ResetStateHasTheResetValues : Prop :=
  ∀ p : Params, ResetValues (State.resetOf p)

/-- The state after reset is legal for legal synthesis parameters, and so is `State.reset`, the instance of log entry 3.
`Legal` gathers the ranges of 10_state.md R21 to R34. -/
def Obligations.ResetStateIsLegal : Prop :=
  (∀ p : Params, p.Legal → Legal (State.resetOf p)) ∧ Legal State.reset

/-- R162 and the layout of R23: the word `0x02000000` alone is `RDSTAT`; whatever the state of the block it drives
`STATUS` on `DOUT` and changes nothing else, `RES` included. -/
def Obligations.RdstatDrivesTheStatusWord : Prop :=
  (∀ c, decode c = .ok .rdstat ↔ c = 0x02000000#32) ∧
    ∀ s : State, exec .rdstat s =
      .next { s with dout := s.fault.toNat + 16 * s.fcode.toNat + 256 * s.fopc.toNat + 65536 * s.rcnt.toNat }

/-- R163: `RDRES` returns the latch, which keeps its value; a faulted block refuses it and answers 0. -/
def Obligations.RdresReturnsTheLatch : Prop :=
  (encode .rdres).toNat = 0x03000000 ∧
    ∀ s : State, (s.fault = false → exec .rdres s = .next { s with dout := s.res }) ∧
      (s.fault = true → exec .rdres s = .next { s with dout := 0 })

/-- R164 and R32: a legal operand is written and read back; a structural register clears every instance and `CIDX`; no
other register, table word, latch or status bit changes. Any other operand raises the fault of R30 and changes nothing
but `STATUS` and `DOUT`; the word of a number that is not writable is illegal. A `W` within `WMAX` but wider than the 16 bits
of R30 is in `ChoicesOfTheModel`. -/
def Obligations.WrcfgWritesTheRegisterOrFaults : Prop :=
  (∀ r : CfgReg, (encode (.wrcfg r)).toNat = 0x04000000 + 256 * r.number.toNat) ∧
  (∀ k : BitVec 8, k = 0x0F ∨ 0x14 ≤ k.toNat → RaisesIllegal (wordR 0x04 0 k 0)) ∧
  ∀ (r : CfgReg) (s : State), s.fault = false →
    (CfgOperandLegal r s.din s → (r = .w → s.din < 2 ^ 16) → ∃ t, exec (.wrcfg r) s = .next t ∧ CfgWritten r s t) ∧
    (r.writable = true → ¬ CfgOperandLegal r s.din s →
      exec (.wrcfg r) s = .next (faultedWith (cfgFaultCode r) s))

/-- R165, R31: the word `0x05000000 | REG << 8` with a register number of R30 or R31 is `RDCFG` of that register and
returns its value; with any other number it is illegal. -/
def Obligations.RdcfgReturnsTheRegister : Prop :=
  (∀ (s : State) (row : Nat × Nat), row ∈ cfgFile s →
    ∃ r, decode (BitVec.ofNat 32 (0x05000000 + 256 * row.1)) = .ok (.rdcfg r) ∧
      (s.fault = false → exec (.rdcfg r) s = .next { s with dout := row.2, res := row.2 })) ∧
  ∀ (s : State) (k : Nat), k < 256 → (∀ row ∈ cfgFile s, row.1 ≠ k) →
    RaisesIllegal (BitVec.ofNat 32 (0x05000000 + 256 * k))

/-! Faults (60_exceptions.md). -/

/-- R77: a word that no row of the opcode map R76 accepts raises `E_ILLEGAL` and changes nothing but `STATUS`, the ports
aside. -/
def Obligations.IllegalWordRaisesIllegal : Prop :=
  ∀ c : CmdWord, legalWord c = false → RaisesIllegal c

/-- R174: a faulted block answers 0 to every word but `0x01000000` and `0x02000000`, legal or not, and changes nothing. -/
def Obligations.FaultedBlockRefusesEveryOtherWord : Prop :=
  ∀ (c : CmdWord) (d : Nat) (s : State), s.fault = true → d < 2 ^ xw s → c ≠ 0x01000000#32 → c ≠ 0x02000000#32 →
    command c d s = .next { s with cmd := c, din := d, dout := 0 }

/-- R178: the first fault stays recorded until `RESET`, whatever the block is given, and `RESET` restores every reset
value. -/
def Obligations.OnlyResetLeavesTheFaultedState : Prop :=
  (∀ (c : CmdWord) (d : Nat) (s t : State), s.fault = true → c ≠ 0x01000000#32 → command c d s = .next t →
    t.fault = true ∧ t.fcode = s.fcode ∧ t.fopc = s.fopc) ∧
  ∀ (d : Nat) (s : State), d < 2 ^ xw s →
    ∃ t, command 0x01000000#32 d s = .next t ∧ t.fault = false ∧ t.fcode = 0 ∧ t.fopc = 0 ∧ ResetValues t

/-- R172: whichever word raises a fault, legal or not, its opcode byte is recorded with a code of R171, `DOUT` is 0 and
`RES` keeps its value. -/
def Obligations.FaultEntryRecordsTheCommand : Prop :=
  ∀ (c : CmdWord) (d : Nat) (s t : State), s.fault = false → command c d s = .next t → t.fault = true →
    t.fopc = c.extractLsb' 24 8 ∧ 1 ≤ t.fcode.toNat ∧ t.fcode.toNat ≤ 5 ∧ t.dout = 0 ∧ t.res = s.res

/-- R173: a checked fault (`E_ILLEGAL`, `E_CONFIG`, `E_OPERAND`) changes nothing but `STATUS` and `DOUT`, whichever
command raises it. -/
def Obligations.CheckedFaultsChangeNothingElse : Prop :=
  ∀ (i : Instr) (s t : State), s.fault = false → exec i s = .next t → t.fault = true → t.fcode.toNat ≤ 3 →
    t = { s with dout := 0, fault := true, fcode := t.fcode, fopc := s.cmd.extractLsb' 24 8 }

/-- R171, column "raised by": a command raises only the faults its rule lists. -/
def Obligations.CommandsRaiseOnlyTheirFaults : Prop :=
  ∀ (i : Instr) (s t : State), i.wellFormed = true → s.fault = false → exec i s = .next t → t.fault = true →
    t.fcode.toNat ∈ faultCodes i

/-- R82, R170: every command ends and leaves a state; no command stops the machine. -/
def Obligations.EveryCommandAnswersAState : Prop :=
  ∀ (i : Instr) (s : State), ∃ t, exec i s = .next t

/-! The entropy table (40_table.md, 20_memory.md). -/

/-- R91: `TSIZE` accepts the powers of two from 4096 to `TMAX_BYTES`, sets the size and leaves no word readable; any
other operand raises `E_CONFIG`. -/
def Obligations.TsizeSetsTheSizeAndEmptiesTheTable : Prop :=
  (encode .tsize).toNat = 0x10000000 ∧
  ∀ s : State, s.fault = false →
    (4096 ≤ s.din ∧ s.din ≤ s.params.tmaxBytes ∧ (∃ k, s.din = 2 ^ k) →
      ∃ t, exec .tsize s = .next t ∧ (∀ i, Table.read t.table i = none) ∧
        t = { s with tbytes := s.din, table := t.table, dout := 0 }) ∧
    (¬ (4096 ≤ s.din ∧ s.din ≤ s.params.tmaxBytes ∧ (∃ k, s.din = 2 ^ k)) →
      exec .tsize s = .next (faultedWith 2 s))

/-- R92: `TLOAD` writes one word of the table, every other word reading as before; an index outside the table or a value
wider than a word raises `E_OPERAND`. -/
def Obligations.TloadWritesOneWord : Prop :=
  (∀ x : BitVec 24, (encode (.tload x)).toNat = 0x11000000 + x.toNat) ∧
  ∀ (x : BitVec 24) (s : State), s.fault = false →
    (x.toNat < s.tbytes / 8 ∧ s.din < 2 ^ 64 →
      ∃ t, exec (.tload x) s = .next t ∧
        (∀ j, Table.read t.table j = if j = x.toNat then some (BitVec.ofNat 64 s.din) else Table.read s.table j) ∧
        t = { s with table := t.table, dout := 0 }) ∧
    (¬ (x.toNat < s.tbytes / 8 ∧ s.din < 2 ^ 64) → exec (.tload x) s = .next (faultedWith 3 s))

/-- R93: `TREAD` returns a written word; an index outside the table raises `E_OPERAND`, an unwritten word `E_UNINIT`. -/
def Obligations.TreadReturnsAWrittenWord : Prop :=
  (∀ x : BitVec 24, (encode (.tread x)).toNat = 0x12000000 + x.toNat) ∧
  ∀ (x : BitVec 24) (s : State), s.fault = false →
    (s.tbytes / 8 ≤ x.toNat → exec (.tread x) s = .next (faultedWith 3 s)) ∧
    (x.toNat < s.tbytes / 8 → Table.read s.table x.toNat = none → exec (.tread x) s = .next (faultedWith 5 s)) ∧
    (∀ v, x.toNat < s.tbytes / 8 → Table.read s.table x.toNat = some v →
      exec (.tread x) s = .next { s with dout := v.toNat, res := v.toNat })

/-- R94 with R53 and R59: `BITSTR` returns the sum of R53 over the bits of the field, and raises `E_UNINIT` exactly when
a word the field touches is unwritten. A field wider than `XW`, to which R53 gives no value, is in `ChoicesOfTheModel`. -/
def Obligations.BitstrReturnsTheBitField : Prop :=
  (∀ n : BitVec 12, (encode (.bitstr n)).toNat = 0x13000000 + n.toNat) ∧
  ∀ (n : BitVec 12) (s : State), s.fault = false → (∃ k, 12 ≤ k ∧ s.tbytes = 2 ^ k) →
    (n = 0 → exec (.bitstr n) s = .next (faultedWith 3 s)) ∧
    (n ≠ 0 → ¬ FieldWritten s s.din n.toNat → exec (.bitstr n) s = .next (faultedWith 5 s)) ∧
    (n ≠ 0 → FieldWritten s s.din n.toNat → n.toNat ≤ xw s →
      exec (.bitstr n) s =
        .next { s with dout := fieldValue s s.din n.toNat, res := fieldValue s s.din n.toNat })

/-- R55: a field of 64 bits at a word boundary is the word, and a field of 128 bits inside three words is the low bits of
the first, the second, and the high bits of the third. -/
def Obligations.AlignedAndSpanningFields : Prop :=
  ∀ s : State, (∃ k, 12 ≤ k ∧ s.tbytes = 2 ^ k) → 128 ≤ xw s →
    (∀ i v, i < words s → Table.read s.table i = some v → bitRead s (i * 64) 64 = some v.toNat) ∧
    ∀ i o v0 v1 v2, i + 2 < words s → 1 ≤ o → o ≤ 63 →
      Table.read s.table i = some v0 → Table.read s.table (i + 1) = some v1 → Table.read s.table (i + 2) = some v2 →
      bitRead s (64 * i + o) 128 =
        some (v0.toNat % 2 ^ (64 - o) * 2 ^ (64 + o) + v1.toNat * 2 ^ o + v2.toNat / 2 ^ (64 - o))

/-- R81, R92: `TFILL` on a ready block with the words in range runs to its end without a fault; every listed word is
written at its index and every other word reads as before. -/
def Obligations.TfillWritesConsecutiveWords : Prop :=
  ∀ (vs : List TableWord) (base : Nat) (s : State), s.fault = false → 64 ≤ xw s →
    base + vs.length ≤ s.tbytes / 8 → base + vs.length ≤ 2 ^ 24 →
    ∃ obs t, runProgram (Pseudo.tfill base vs) s = some (obs, t) ∧ t.fault = false ∧
      ∀ j, Table.read t.table j =
        if base ≤ j ∧ j < base + vs.length then vs[j - base]? else Table.read s.table j

/-! The fold unit (41_fold.md). -/

/-- R101 and the fold invariant: a value that fits is returned and the selector stays; any other is reduced by the
selected algorithm and the selector advances modulo 4; the result always fits. -/
def Obligations.FoldFitsAndAdvancesOnlyWhenReducing : Prop :=
  ∀ (sel : BitVec 2) (v w : Nat),
    (fold sel v w).1 < 2 ^ w ∧
    (v < 2 ^ w → fold sel v w = (v, sel)) ∧
    (2 ^ w ≤ v → (fold sel v w).1 = foldAlg sel v w ∧ (fold sel v w).2.toNat = (sel.toNat + 1) % 4)

/-- R102 to R106: each fold algorithm combines the chunks of the value from the least significant upward, the window and
the operation as its variant says; any number of chunks that covers the value gives the result. -/
def Obligations.FoldAlgCombinesTheChunks : Prop :=
  ∀ (a : BitVec 2) (v w m : Nat), 1 ≤ w → v < 2 ^ chunkStart (a == 1 || a == 3) w m →
    foldAlg a v w = chunkFold (a == 1 || a == 3) (a == 2 || a == 3) w v m

/-- R103, R104: algorithm 0 is the XOR of the base-`2^w` digits, and for `w <= 4` the shrinking variants equal the
others. -/
def Obligations.XorFoldOfTheDigits : Prop :=
  ∀ (v w : Nat), 1 ≤ w →
    foldAlg 0 v w = (Nat.digits (2 ^ w) v).foldl (· ^^^ ·) 0 ∧
    (w ≤ 4 → foldAlg 1 v w = foldAlg 0 v w ∧ foldAlg 3 v w = foldAlg 2 v w)

/-- R107: `FOLD` returns the value, or its reduction by the selected algorithm with the selector advanced; a zero width
raises `E_OPERAND`. -/
def Obligations.FoldCommandUsesTheSelector : Prop :=
  (∀ n : BitVec 12, (encode (.fold n)).toNat = 0x18000000 + n.toNat) ∧
  ∀ (n : BitVec 12) (s : State), s.fault = false →
    (n = 0 → exec (.fold n) s = .next (faultedWith 3 s)) ∧
    (n ≠ 0 → s.din < 2 ^ n.toNat → exec (.fold n) s = .next { s with dout := s.din, res := s.din }) ∧
    (n ≠ 0 → 2 ^ n.toNat ≤ s.din →
      exec (.fold n) s =
        .next { s with
          foldSel := s.foldSel + 1, dout := foldAlg s.foldSel s.din n.toNat, res := foldAlg s.foldSel s.din n.toNat })

/-- R108: `FOLDA` returns the reduction by the algorithm it names and leaves `FOLD_SEL` alone; a zero width raises
`E_OPERAND`, and a larger algorithm number makes the word illegal. -/
def Obligations.FoldaIsPure : Prop :=
  (∀ (a : BitVec 2) (n : BitVec 12), (encode (.folda a n)).toNat = 0x19000000 + 65536 * a.toNat + n.toNat) ∧
  (∀ (a : BitVec 8) (n : BitVec 12), 3 < a.toNat → RaisesIllegal (wordN 0x19 a 0 n)) ∧
  ∀ (a : BitVec 2) (n : BitVec 12) (s : State), s.fault = false →
    (n = 0 → exec (.folda a n) s = .next (faultedWith 3 s)) ∧
    (n ≠ 0 → exec (.folda a n) s =
      .next { s with dout := foldAlg a s.din n.toNat, res := foldAlg a s.din n.toNat })

/-! Hash kernels (42_hash.md). -/

/-- R118: `HWR` writes one field of one hash instance after its checks, which raise `E_OPERAND`, or `E_CONFIG` for a
variant above 1; the word of a register above 2 or of an element of a scalar is illegal. -/
def Obligations.HwrWritesTheFieldOrFaults : Prop :=
  (∀ (h : BitVec 8) (f : HashField),
    (encode (.hwr h f)).toNat = 0x20000000 + 65536 * h.toNat + 256 * f.number.toNat + f.elem.toNat) ∧
  (∀ e : BitVec 8, (HashField.vec e).number.toNat = 0 ∧ (HashField.vec e).elem = e) ∧
  (∀ row ∈ [(1, HashField.idx), (2, .variant)], row.2.number.toNat = row.1 ∧ row.2.elem = 0) ∧
  (∀ h r e : BitVec 8, 2 < r.toNat ∨ r ≠ 0 ∧ e ≠ 0 → RaisesIllegal (wordR 0x20 h r e)) ∧
  ∀ (h : BitVec 8) (s : State), s.fault = false →
    (s.params.nmax ≤ h.toNat → ∀ f, exec (.hwr h f) s = .next (faultedWith 3 s)) ∧
    (h.toNat < s.params.nmax →
      (∀ e : BitVec 8,
        (e.toNat < s.hdepth ∧ s.din < 2 ^ s.w → exec (.hwr h (.vec e)) s =
          .next { s with
            hashes := s.hashes.set h.toNat
              { hashAt s h.toNat with vec := (hashAt s h.toNat).vec.set e.toNat s.din }
            dout := 0 }) ∧
        (¬ (e.toNat < s.hdepth ∧ s.din < 2 ^ s.w) → exec (.hwr h (.vec e)) s = .next (faultedWith 3 s))) ∧
      (s.din < s.hdepth → exec (.hwr h .idx) s =
        .next { s with hashes := s.hashes.set h.toNat { hashAt s h.toNat with idx := s.din }, dout := 0 }) ∧
      (s.hdepth ≤ s.din → exec (.hwr h .idx) s = .next (faultedWith 3 s)) ∧
      (s.din = 0 → exec (.hwr h .variant) s =
        .next { s with hashes := s.hashes.set h.toNat { hashAt s h.toNat with variant := .hash0 }, dout := 0 }) ∧
      (s.din = 1 → exec (.hwr h .variant) s =
        .next { s with hashes := s.hashes.set h.toNat { hashAt s h.toNat with variant := .hash1 }, dout := 0 }) ∧
      (1 < s.din → exec (.hwr h .variant) s = .next (faultedWith 2 s)))

/-- R119: `HRD` returns one field of one hash instance; an instance or element out of range raises `E_OPERAND`. -/
def Obligations.HrdReturnsTheField : Prop :=
  (∀ (h : BitVec 8) (f : HashField),
    (encode (.hrd h f)).toNat = 0x21000000 + 65536 * h.toNat + 256 * f.number.toNat + f.elem.toNat) ∧
  (∀ e : BitVec 8, (HashField.vec e).number.toNat = 0 ∧ (HashField.vec e).elem = e) ∧
  (∀ row ∈ [(1, HashField.idx), (2, .variant)], row.2.number.toNat = row.1 ∧ row.2.elem = 0) ∧
  (∀ h r e : BitVec 8, 2 < r.toNat ∨ r ≠ 0 ∧ e ≠ 0 → RaisesIllegal (wordR 0x21 h r e)) ∧
  ∀ (h : BitVec 8) (s : State), s.fault = false →
    (s.params.nmax ≤ h.toNat → ∀ f, exec (.hrd h f) s = .next (faultedWith 3 s)) ∧
    (h.toNat < s.params.nmax →
      (∀ e : BitVec 8, s.hdepth ≤ e.toNat → exec (.hrd h (.vec e)) s = .next (faultedWith 3 s)) ∧
      (∀ e : BitVec 8, e.toNat < s.hdepth → exec (.hrd h (.vec e)) s =
        .next { s with dout := slot (hashAt s h.toNat).vec e.toNat, res := slot (hashAt s h.toNat).vec e.toNat }) ∧
      ∀ row ∈ hashScalars (hashAt s h.toNat),
        row.2.1.number.toNat = row.1 ∧ exec (.hrd h row.2.1) s = .next { s with dout := row.2.2, res := row.2.2 })

/-- R112, R113: the hash kernel, as the sequence of vectors the rules write. `V k` is the vector before step `k` of the
walk of eight slots, `U k` the vector before step `k` of the walk that HASH1 adds on a zero byte. -/
def Obligations.HashKernelWalksTheSlots : Prop :=
  ∀ (w hdmax hdepth b : Nat) (h : Hash), 1 ≤ w → 1 ≤ hdepth → hdepth ≤ hdmax → b < 256 → h.Legal hdmax w hdepth →
    ∃ V : Nat → Nat → Nat,
      (∀ j, V 0 j = if j = h.idx then slot h.vec h.idx * b % 2 ^ w else slot h.vec j) ∧
      WalkOf hdepth h.idx 8 (walkedSlot w b) V ∧
      (h.variant = .hash0 ∨ b ≠ 0 → ∀ j, slot (hashByte w hdepth b h).vec j = V 8 j) ∧
      (h.variant = .hash1 → b = 0 → ∃ U : Nat → Nat → Nat,
        (∀ j, U 0 j = if j = h.idx then V 8 j ^^^ hashDigest hdepth h else V 8 j) ∧
        WalkOf hdepth h.idx hdepth (rotatedSlot w (hashDigest hdepth h)) U ∧
        ∀ j, slot (hashByte w hdepth b h).vec j = U hdepth j) ∧
      (hashByte w hdepth b h).vec.length = h.vec.length ∧
      (hashByte w hdepth b h).idx = (h.idx + 1) % hdepth ∧
      (hashByte w hdepth b h).variant = h.variant

/-- R120, R115: `HUPD` feeds the bytes of the operand to the hash, least significant first; each of its four checks
raises `E_OPERAND`. -/
def Obligations.HupdConsumesTheBytes : Prop :=
  (∀ (h : BitVec 8) (l : BitVec 12), (encode (.hupd h l)).toNat = 0x22000000 + 65536 * h.toNat + l.toNat) ∧
  ∀ (h : BitVec 8) (l : BitVec 12) (s : State), s.fault = false →
    (h.toNat < s.params.nmax ∧ l ≠ 0 ∧ 8 * l.toNat ≤ xw s ∧ s.din < 256 ^ l.toNat →
      exec (.hupd h l) s =
        .next { s with
          hashes := s.hashes.set h.toNat (consumedBytes s.w s.hdepth l.toNat s.din (hashAt s h.toNat))
          dout := 0 }) ∧
    (¬ (h.toNat < s.params.nmax ∧ l ≠ 0 ∧ 8 * l.toNat ≤ xw s ∧ s.din < 256 ^ l.toNat) →
      exec (.hupd h l) s = .next (faultedWith 3 s))

/-- R60: a string fed one character per `HUPD` leaves the hash as one `HUPD` of the packed string does, character `t` in
byte `t` of the operand. -/
def Obligations.HupdOfAStringByteByByte : Prop :=
  ∀ (h : BitVec 8) (string : List (BitVec 8)) (s : State), s.fault = false → h.toNat < s.params.nmax →
    h.toNat < s.hashes.length → string ≠ [] → 8 * string.length ≤ xw s → string.length < 4096 →
    ∃ obs t u, runProgram (Pseudo.hupds h string) s = some (obs, t) ∧
      exec (.hupd h (BitVec.ofNat 12 string.length))
        { s with din := ((List.range string.length).map fun j => (string.getD j 0).toNat * 256 ^ j).sum } = .next u ∧
      t.fault = false ∧ u.fault = false ∧ t.hashes = u.hashes

/-- R121, R111: `HDIG` returns the XOR of the used slots and changes no other state than `RES`. -/
def Obligations.HdigReturnsTheXorOfTheSlots : Prop :=
  (∀ h : BitVec 8, (encode (.hdig h)).toNat = 0x23000000 + 65536 * h.toNat) ∧
  ∀ (h : BitVec 8) (s : State), s.fault = false →
    (s.params.nmax ≤ h.toNat → exec (.hdig h) s = .next (faultedWith 3 s)) ∧
    (h.toNat < s.params.nmax → ∀ d, d = (List.range s.hdepth).foldl (fun a j => a ^^^ slot (hashAt s h.toNat).vec j) 0 →
      exec (.hdig h) s = .next { s with dout := d, res := d })

/-- R122, R116: `HSTEP` feeds the hash the low byte of its digest and returns the new digest; an all-zero vector stays
all zero and answers 0. -/
def Obligations.HstepFeedsTheDigestBack : Prop :=
  (∀ h : BitVec 8, (encode (.hstep h)).toNat = 0x24000000 + 65536 * h.toNat) ∧
  ∀ (h : BitVec 8) (s : State), s.fault = false →
    (s.params.nmax ≤ h.toNat → exec (.hstep h) s = .next (faultedWith 3 s)) ∧
    (h.toNat < s.params.nmax →
      ∀ g, g = hashByte s.w s.hdepth (hashDigest s.hdepth (hashAt s h.toNat) % 256) (hashAt s h.toNat) →
        exec (.hstep h) s =
          .next { s with
            hashes := s.hashes.set h.toNat g, dout := hashDigest s.hdepth g, res := hashDigest s.hdepth g } ∧
        ((∀ x ∈ (hashAt s h.toNat).vec, x = 0) → hashDigest s.hdepth g = 0 ∧ g.vec = (hashAt s h.toNat).vec))

/-- R123, R117: `HNEXT` returns the first draw that is not degenerate, `RCNT` counting the draws before it, and raises
`E_INTEGRITY` when `RETRY_MAX + 1` draws are degenerate. -/
def Obligations.HnextDrawsUntilNotDegenerate : Prop :=
  (∀ (h : BitVec 8) (n : BitVec 4) (b : BitVec 12),
    (encode (.hnext h n b)).toNat = 0x25000000 + 65536 * h.toNat + 4096 * n.toNat + b.toNat) ∧
  (∀ (h : BitVec 8) (b : BitVec 12), RaisesIllegal (wordN 0x25 h 0 b)) ∧
  ∀ (h : BitVec 8) (n : BitVec 4) (b : BitVec 12) (s : State), Legal s → s.fault = false → n ≠ 0 →
    (s.params.nmax ≤ h.toNat ∨ b.toNat < 2 → exec (.hnext h n b) s = .next (faultedWith 3 s)) ∧
    (h.toNat < s.params.nmax → 2 ≤ b.toNat →
      (∀ k ≤ s.retryMax.toNat, (∀ j < k, Degenerate b.toNat (hashDraw s h.toNat b.toNat n.toNat j).value) →
        ∀ d, d = hashDraw s h.toNat b.toNat n.toNat k → ¬ Degenerate b.toNat d.value →
        exec (.hnext h n b) s =
          .next { s with
            hashes := s.hashes.set h.toNat d.inst, foldSel := d.sel, rcnt := BitVec.ofNat 8 k
            dout := d.value, res := d.value }) ∧
      ((∀ j ≤ s.retryMax.toNat, Degenerate b.toNat (hashDraw s h.toNat b.toNat n.toNat j).value) →
        ∃ t, exec (.hnext h n b) s = .next t ∧ t.fault = true ∧ t.fcode = 4 ∧ t.rcnt = s.retryMax ∧ t.dout = 0 ∧
          t.res = s.res))

/-! Base generators (43_generators.md). -/

/-- R134: `GWR` writes one field of one generator instance after its checks, which raise `E_OPERAND`, or `E_CONFIG` for a
variant above 4; the word of a register above 6 or of an element of a scalar is illegal. -/
def Obligations.GwrWritesTheFieldOrFaults : Prop :=
  (∀ (g : BitVec 8) (f : GenField),
    (encode (.gwr g f)).toNat = 0x30000000 + 65536 * g.toNat + 256 * f.number.toNat + f.elem.toNat) ∧
  (∀ e : BitVec 8, (GenField.vec e).number.toNat = 0 ∧ (GenField.vec e).elem = e) ∧
  (∀ row ∈ [(1, GenField.index), (2, .mult), (3, .add), (4, .lag), (5, .carry), (6, .variant)], row.2.number.toNat = row.1 ∧ row.2.elem = 0) ∧
  (∀ g r e : BitVec 8, 6 < r.toNat ∨ r ≠ 0 ∧ e ≠ 0 → RaisesIllegal (wordR 0x30 g r e)) ∧
  ∀ (g : BitVec 8) (s : State), s.fault = false →
    (s.params.nmax ≤ g.toNat → ∀ f, exec (.gwr g f) s = .next (faultedWith 3 s)) ∧
    (g.toNat < s.params.nmax →
      (∀ e : BitVec 8,
        (e.toNat < s.depth ∧ s.din < 2 ^ s.w → exec (.gwr g (.vec e)) s =
          .next { s with
            gens := s.gens.set g.toNat { genAt s g.toNat with vec := (genAt s g.toNat).vec.set e.toNat s.din }
            dout := 0 }) ∧
        (¬ (e.toNat < s.depth ∧ s.din < 2 ^ s.w) → exec (.gwr g (.vec e)) s = .next (faultedWith 3 s))) ∧
      (s.din < s.depth → exec (.gwr g .index) s =
        .next { s with gens := s.gens.set g.toNat { genAt s g.toNat with index := s.din }, dout := 0 }) ∧
      (s.depth ≤ s.din → exec (.gwr g .index) s = .next (faultedWith 3 s)) ∧
      (s.din < 2 ^ s.w →
        exec (.gwr g .mult) s =
          .next { s with gens := s.gens.set g.toNat { genAt s g.toNat with mult := s.din }, dout := 0 } ∧
        exec (.gwr g .add) s =
          .next { s with gens := s.gens.set g.toNat { genAt s g.toNat with add := s.din }, dout := 0 } ∧
        exec (.gwr g .carry) s =
          .next { s with gens := s.gens.set g.toNat { genAt s g.toNat with carry := s.din }, dout := 0 }) ∧
      (2 ^ s.w ≤ s.din → ∀ f, f = .mult ∨ f = .add ∨ f = .carry → exec (.gwr g f) s = .next (faultedWith 3 s)) ∧
      (s.din < 65536 → exec (.gwr g .lag) s =
        .next { s with
          gens := s.gens.set g.toNat { genAt s g.toNat with lag := BitVec.ofNat 16 s.din }, dout := 0 }) ∧
      (65536 ≤ s.din → exec (.gwr g .lag) s = .next (faultedWith 3 s)) ∧
      (∀ v, (s.din, v) ∈ [(0, GenVariant.lcg), (1, .mcg), (2, .mwc), (3, .lfib), (4, .fsr)] →
        exec (.gwr g .variant) s =
          .next { s with gens := s.gens.set g.toNat { genAt s g.toNat with variant := v }, dout := 0 }) ∧
      (4 < s.din → exec (.gwr g .variant) s = .next (faultedWith 2 s)))

/-- R135: `GRD` returns one field of one generator instance; an instance or element out of range raises `E_OPERAND`. -/
def Obligations.GrdReturnsTheField : Prop :=
  (∀ (g : BitVec 8) (f : GenField),
    (encode (.grd g f)).toNat = 0x31000000 + 65536 * g.toNat + 256 * f.number.toNat + f.elem.toNat) ∧
  (∀ e : BitVec 8, (GenField.vec e).number.toNat = 0 ∧ (GenField.vec e).elem = e) ∧
  (∀ row ∈ [(1, GenField.index), (2, .mult), (3, .add), (4, .lag), (5, .carry), (6, .variant)], row.2.number.toNat = row.1 ∧ row.2.elem = 0) ∧
  (∀ g r e : BitVec 8, 6 < r.toNat ∨ r ≠ 0 ∧ e ≠ 0 → RaisesIllegal (wordR 0x31 g r e)) ∧
  ∀ (g : BitVec 8) (s : State), s.fault = false →
    (s.params.nmax ≤ g.toNat → ∀ f, exec (.grd g f) s = .next (faultedWith 3 s)) ∧
    (g.toNat < s.params.nmax →
      (∀ e : BitVec 8, s.depth ≤ e.toNat → exec (.grd g (.vec e)) s = .next (faultedWith 3 s)) ∧
      (∀ e : BitVec 8, e.toNat < s.depth → exec (.grd g (.vec e)) s =
        .next { s with dout := slot (genAt s g.toNat).vec e.toNat, res := slot (genAt s g.toNat).vec e.toNat }) ∧
      ∀ row ∈ genScalars (genAt s g.toNat),
        row.2.1.number.toNat = row.1 ∧
        exec (.grd g row.2.1) s = .next { s with dout := row.2.2, res := row.2.2 })

/-- R136 with R126 to R131: `GSTEP` writes the new element of the variant's recurrence at the cursor, moves the cursor,
updates the carry of an MWC generator alone, and returns the element. -/
def Obligations.GstepRunsTheRecurrence : Prop :=
  (∀ g : BitVec 8, (encode (.gstep g)).toNat = 0x32000000 + 65536 * g.toNat) ∧
  ∀ (g : BitVec 8) (s : State), s.fault = false →
    (s.params.nmax ≤ g.toNat → exec (.gstep g) s = .next (faultedWith 3 s)) ∧
    (g.toNat < s.params.nmax → ∀ x p xp xq v c, x = genAt s g.toNat → p = x.index → xp = slot x.vec p →
      xq = slot x.vec ((p + x.lag.toNat) % s.depth) →
      (x.variant = .lcg → v = (xq * x.mult + x.add) % 2 ^ s.w ∧ c = x.carry) →
      (x.variant = .mcg → v = xq * x.mult % 2 ^ s.w ∧ c = x.carry) →
      (x.variant = .mwc → v = (xq * x.mult + x.carry) % 2 ^ s.w ∧ c = (xq * x.mult + x.carry) / 2 ^ s.w) →
      (x.variant = .lfib → v = (xp + xq) % 2 ^ s.w ∧ c = x.carry) →
      (x.variant = .fsr → v = xp ^^^ xq ∧ c = x.carry) →
      exec (.gstep g) s =
        .next { s with
          gens := s.gens.set g.toNat { x with vec := x.vec.set p v, index := (p + 1) % s.depth, carry := c }
          dout := v, res := v })

/-- R137: `GSPIN` runs as many raw steps as the operand says, discards their outputs and touches no other state;
`E_OPERAND` for a count of 2^32 or more. -/
def Obligations.GspinIteratesTheRawStep : Prop :=
  (∀ g : BitVec 8, (encode (.gspin g)).toNat = 0x33000000 + 65536 * g.toNat) ∧
  ∀ (g : BitVec 8) (s : State), s.fault = false →
    (s.params.nmax ≤ g.toNat ∨ 2 ^ 32 ≤ s.din → exec (.gspin g) s = .next (faultedWith 3 s)) ∧
    (g.toNat < s.params.nmax → s.din < 2 ^ 32 → exec (.gspin g) s =
      .next { s with
        gens := s.gens.set g.toNat ((fun x => (genStep s.w s.depth x).2)^[s.din] (genAt s g.toNat)), dout := 0 })

/-- R138, R133: `GNEXT` returns the first draw that is not degenerate, `RCNT` counting the draws before it, and raises
`E_INTEGRITY` when `RETRY_MAX + 1` draws are degenerate. -/
def Obligations.GnextDrawsUntilNotDegenerate : Prop :=
  (∀ (g : BitVec 8) (n : BitVec 4) (b : BitVec 12),
    (encode (.gnext g n b)).toNat = 0x34000000 + 65536 * g.toNat + 4096 * n.toNat + b.toNat) ∧
  (∀ (g : BitVec 8) (b : BitVec 12), RaisesIllegal (wordN 0x34 g 0 b)) ∧
  ∀ (g : BitVec 8) (n : BitVec 4) (b : BitVec 12) (s : State), Legal s → s.fault = false → n ≠ 0 →
    (s.params.nmax ≤ g.toNat ∨ b.toNat < 2 → exec (.gnext g n b) s = .next (faultedWith 3 s)) ∧
    (g.toNat < s.params.nmax → 2 ≤ b.toNat →
      (∀ k ≤ s.retryMax.toNat, (∀ j < k, Degenerate b.toNat (genDraw s g.toNat b.toNat n.toNat j).value) →
        ∀ d, d = genDraw s g.toNat b.toNat n.toNat k → ¬ Degenerate b.toNat d.value →
        exec (.gnext g n b) s =
          .next { s with
            gens := s.gens.set g.toNat d.inst, foldSel := d.sel, rcnt := BitVec.ofNat 8 k
            dout := d.value, res := d.value }) ∧
      ((∀ j ≤ s.retryMax.toNat, Degenerate b.toNat (genDraw s g.toNat b.toNat n.toNat j).value) →
        ∃ t, exec (.gnext g n b) s = .next t ∧ t.fault = true ∧ t.fcode = 4 ∧ t.rcnt = s.retryMax ∧ t.dout = 0 ∧
          t.res = s.res))

/-- R191: on a block just reset, `GNEXT`, `HNEXT`, `CNEXT`, `ENC` and `DEC` end in `E_INTEGRITY`, and `BITSTR`,
`RANDINT` and `NRV` in `E_UNINIT`, whenever their operands pass the checks. -/
def Obligations.ResetBlockCannotDraw : Prop :=
  ∀ (p : Params) (c : CmdWord) (d : Nat) (i : BitVec 8) (n : BitVec 4) (b : BitVec 12), p.Legal → n ≠ 0 → b ≠ 0 →
    ∀ s, s = { State.resetOf p with cmd := c, din := d } →
    (i.toNat < p.nmax → 2 ≤ b.toNat → ∀ j, j = .gnext i n b ∨ j = .hnext i n b →
      ∃ t, exec j s = .next t ∧ t.fault = true ∧ t.fcode = 4) ∧
    (2 ≤ b.toNat → (∃ k, b.toNat = 2 ^ k) → n.toNat * b.toNat ≤ xw s →
      ∃ t, exec (.cnext n b) s = .next t ∧ t.fault = true ∧ t.fcode = 4) ∧
    (d < 256 → ∀ j, j = .enc n ∨ j = .dec n → ∃ t, exec j s = .next t ∧ t.fault = true ∧ t.fcode = 4) ∧
    (∃ t, exec (.bitstr b) s = .next t ∧ t.fault = true ∧ t.fcode = 5) ∧
    (2 * b.toNat + 1 ≤ xw s → ∃ t, exec (.randint b) s = .next t ∧ t.fault = true ∧ t.fcode = 5) ∧
    (i.toNat < p.nmax → ∃ t, exec (.nrv i b) s = .next t ∧ t.fault = true ∧ t.fcode = 5)

/-! The composite engine (44_composite.md). -/

/-- R141: a sub-generator's next raw output is one `next` of one raw step of the generator or the hash `MODE` selects,
its retries not counted in `RCNT`; exhaustion raises `E_INTEGRITY`, `RCNT` as before. -/
def Obligations.SubNextDrawsFromTheSelectedKind : Prop :=
  ∀ (i bw : Nat) (s : State), Legal s → i < s.params.nmax →
    (s.mode = .generators →
      (∀ k ≤ s.retryMax.toNat, (∀ j < k, Degenerate bw (genDraw s i bw 1 j).value) →
        ¬ Degenerate bw (genDraw s i bw 1 k).value →
        subNext i bw s =
          .ok (genDraw s i bw 1 k).value
            { s with gens := s.gens.set i (genDraw s i bw 1 k).inst, foldSel := (genDraw s i bw 1 k).sel }) ∧
      ((∀ j ≤ s.retryMax.toNat, Degenerate bw (genDraw s i bw 1 j).value) →
        ∃ t, subNext i bw s = .raised .integrity t ∧ t.rcnt = s.rcnt ∧ t.res = s.res)) ∧
    (s.mode = .hashes →
      (∀ k ≤ s.retryMax.toNat, (∀ j < k, Degenerate bw (hashDraw s i bw 1 j).value) →
        ¬ Degenerate bw (hashDraw s i bw 1 k).value →
        subNext i bw s =
          .ok (hashDraw s i bw 1 k).value
            { s with hashes := s.hashes.set i (hashDraw s i bw 1 k).inst, foldSel := (hashDraw s i bw 1 k).sel }) ∧
      ((∀ j ≤ s.retryMax.toNat, Degenerate bw (hashDraw s i bw 1 j).value) →
        ∃ t, subNext i bw s = .raised .integrity t ∧ t.rcnt = s.rcnt ∧ t.res = s.res))

/-- R143, R142: `CNEXT` places one selected bit per position, folds, and draws again on a degenerate result when
`CCHK = 1`; `RCNT` counts its own retries. It raises `E_INTEGRITY` after `RETRY_MAX + 1` rejected attempts, `RCNT` then
being `RETRY_MAX`, or when a sub-generator ends its draws, which leaves `RCNT` as it was. -/
def Obligations.CnextPlacesTheSelectedBits : Prop :=
  (∀ (n : BitVec 4) (b : BitVec 12), (encode (.cnext n b)).toNat = 0x40000000 + 4096 * n.toNat + b.toNat) ∧
  (∀ b : BitVec 12, RaisesIllegal (wordN 0x40 0 0 b)) ∧
  ∀ (n : BitVec 4) (b : BitVec 12) (s : State), s.fault = false → n ≠ 0 →
    (¬ (2 ≤ b.toNat ∧ (∃ k, b.toNat = 2 ^ k) ∧ n.toNat * b.toNat ≤ xw s) →
      exec (.cnext n b) s = .next (faultedWith 3 s)) ∧
    (2 ≤ b.toNat → (∃ k, b.toNat = 2 ^ k) → n.toNat * b.toNat ≤ xw s →
      (∀ k r t, k ≤ s.retryMax.toNat → CompositeDraws b.toNat n.toNat s k r t →
        exec (.cnext n b) s = .next { t with rcnt := BitVec.ofNat 8 k, dout := r, res := r }) ∧
      (∀ u, RejectedAttempts b.toNat n.toNat (s.retryMax.toNat + 1) s u →
        ∃ t, exec (.cnext n b) s = .next t ∧ t.fault = true ∧ t.fcode = 4 ∧ t.rcnt = s.retryMax ∧ t.dout = 0 ∧
          t.res = s.res) ∧
      ((¬ ∃ k r t, k ≤ s.retryMax.toNat ∧ CompositeDraws b.toNat n.toNat s k r t) →
        ∃ t, exec (.cnext n b) s = .next t ∧ t.fault = true ∧ t.fcode = 4 ∧ t.dout = 0 ∧ t.res = s.res ∧
          ((¬ ∃ u, RejectedAttempts b.toNat n.toNat (s.retryMax.toNat + 1) s u) → t.rcnt = s.rcnt)))

/-- R144, R145: `ENC` and `DEC` return the operand XOR the keystream byte `CNext(8, steps)`; the byte, its retries and the
state it leaves are the same for every operand (last clause). An operand above 255 raises `E_OPERAND`, no accepted attempt
`E_INTEGRITY` with `RCNT` as in `CnextPlacesTheSelectedBits`, and a word without steps or with another width is illegal. -/
def Obligations.EncAndDecXorTheKeystreamByte : Prop :=
  (∀ n : BitVec 4, (encode (.enc n)).toNat = 0x41000008 + 4096 * n.toNat ∧
    (encode (.dec n)).toNat = 0x42000008 + 4096 * n.toNat) ∧
  (∀ (n : BitVec 4) (b : BitVec 12), n = 0 ∨ b ≠ 8 →
    RaisesIllegal (wordN 0x41 0 n b) ∧ RaisesIllegal (wordN 0x42 0 n b)) ∧
  ∀ (n : BitVec 4) (s : State), s.fault = false → n ≠ 0 → ∀ i, i = .enc n ∨ i = .dec n →
    (255 < s.din → exec i s = .next (faultedWith 3 s)) ∧
    (s.din ≤ 255 →
      (∀ k r t, k ≤ s.retryMax.toNat → CompositeDraws 8 n.toNat s k r t →
        exec i s = .next { t with rcnt := BitVec.ofNat 8 k, dout := s.din ^^^ r, res := s.din ^^^ r }) ∧
      (∀ u, RejectedAttempts 8 n.toNat (s.retryMax.toNat + 1) s u →
        ∃ t, exec i s = .next t ∧ t.fault = true ∧ t.fcode = 4 ∧ t.rcnt = s.retryMax ∧ t.dout = 0 ∧ t.res = s.res) ∧
      ((¬ ∃ k r t, k ≤ s.retryMax.toNat ∧ CompositeDraws 8 n.toNat s k r t) →
        ∃ t, exec i s = .next t ∧ t.fault = true ∧ t.fcode = 4 ∧ t.dout = 0 ∧ t.res = s.res ∧
          ((¬ ∃ u, RejectedAttempts 8 n.toNat (s.retryMax.toNat + 1) s u) → t.rcnt = s.rcnt)) ∧
      ∀ (d k r : Nat) (t : State),
        CompositeDraws 8 n.toNat s k r t → CompositeDraws 8 n.toNat { s with din := d } k r { t with din := d })

/-- R144, corner case: with `CCHK = 1` a ciphertext byte is a byte, and neither its plaintext byte nor the complement of
it. -/
def Obligations.EncNeverReturnsItsOperand : Prop :=
  ∀ (n : BitVec 4) (s t : State), s.fault = false → s.cchk = true → n ≠ 0 → s.din < 256 →
    exec (.enc n) s = .next t → t.fault = false → t.dout < 256 ∧ t.dout ≠ s.din ∧ t.dout ≠ 255 - s.din

/-- R140: the composite draws from the sub-generators `0 .. N-1` of the kind `MODE` selects: the instances of the other
kind and those from `N` on stay as they are. -/
def Obligations.CompositeTouchesOnlyItsSubGenerators : Prop :=
  ∀ (i : Instr) (s t : State), (∃ n b, i = .cnext n b) ∨ (∃ n, i = .enc n ∨ i = .dec n) → 2 ≤ s.n → s.cidx ≤ s.n - 2 →
    exec i s = .next t →
    (s.mode = .generators → t.hashes = s.hashes) ∧ (s.mode = .hashes → t.gens = s.gens) ∧
      (∀ k, s.n ≤ k → t.gens[k]? = s.gens[k]? ∧ t.hashes[k]? = s.hashes[k]?)

/-- R146: of two blocks in states equal but for the ports and the latch, one runs `ENCRYPT` of a message without a fault
and the other runs `DECRYPT` of its results: the results are the message, and the states are again equal. -/
def Obligations.DecryptInvertsEncrypt : Prop :=
  ∀ (message : List (BitVec 8)) (n : BitVec 4) (a b a' : State) (obs : List (Nat × BitVec 32)), n ≠ 0 →
    SameButPorts a b → 8 ≤ xw a → runProgram (Pseudo.encrypt message n) a = some (obs, a') → a'.fault = false →
    ∃ obs' b', runProgram (Pseudo.decrypt (obs.map fun o => BitVec.ofNat 8 o.1) n) b = some (obs', b') ∧
      obs'.map Prod.fst = message.map BitVec.toNat ∧ b'.fault = false ∧ SameButPorts a' b'

/-! Bootstrap draws (45_bootstrap_draw.md). -/

/-- R155, R152, R151: `WHNEXT` advances the three seeds and returns the scaled fraction, a value below `2^k`; legal seeds
stay legal; `k > 64` raises `E_OPERAND`. -/
def Obligations.WhnextAdvancesTheSeeds : Prop :=
  (∀ k : BitVec 12, (encode (.whnext k)).toNat = 0x50000000 + k.toNat) ∧
  ∀ (k : BitVec 12) (s : State), s.fault = false →
    (64 < k.toNat → exec (.whnext k) s = .next (faultedWith 3 s)) ∧
    (k.toNat ≤ 64 →
      exec (.whnext k) s =
        .next { s with
          whS1 := 171 * s.whS1 % 30269, whS2 := 172 * s.whS2 % 30307, whS3 := 170 * s.whS3 % 30323
          dout := whDrawn s 1 k.toNat, res := whDrawn s 1 k.toNat } ∧
      whDrawn s 1 k.toNat < 2 ^ k.toNat ∧
      (1 ≤ s.whS1 ∧ s.whS1 ≤ 30268 → 1 ≤ 171 * s.whS1 % 30269) ∧
      (1 ≤ s.whS2 ∧ s.whS2 ≤ 30306 → 1 ≤ 172 * s.whS2 % 30307) ∧
      (1 ≤ s.whS3 ∧ s.whS3 ≤ 30322 → 1 ≤ 170 * s.whS3 % 30323))

/-- R156, R153: `RANDINT` walks the four indices, by four Wichmann-Hill draws or by the running hash as `RTOG` says,
combines the four fields, folds, and updates `RHASH` and `RTOG`; an unwritten word raises `E_UNINIT`, a width out of
range `E_OPERAND`. -/
def Obligations.RandintCombinesFourFields : Prop :=
  (∀ n : BitVec 12, (encode (.randint n)).toNat = 0x51000000 + n.toNat) ∧
  ∀ (n : BitVec 12) (s : State), s.fault = false → (∃ k, 12 ≤ k ∧ s.tbytes = 2 ^ k) →
    (n = 0 ∨ xw s < 2 * n.toNat + 1 → exec (.randint n) s = .next (faultedWith 3 s)) ∧
    (n ≠ 0 → 2 * n.toNat + 1 ≤ xw s → ∀ u f, u = walkedIndices n.toNat s →
      f = (fun idx : BitVec 32 => fieldValue u idx.toNat n.toNat) →
      (FieldWritten u u.idx0.toNat n.toNat ∧ FieldWritten u u.idx1.toNat n.toNat ∧
          FieldWritten u u.idx2.toNat n.toNat ∧ FieldWritten u u.idx3.toNat n.toNat →
        ∀ t, t = f u.idx0 * f u.idx1 + (f u.idx2 ^^^ f u.idx3) →
        exec (.randint n) s =
          .next { u with
            rhash := s.rhash.rotateLeft 1 ^^^ BitVec.ofNat 64 t, rtog := !s.rtog
            foldSel := (fold s.foldSel t n.toNat).2
            dout := (fold s.foldSel t n.toNat).1, res := (fold s.foldSel t n.toNat).1 }) ∧
      (¬ (FieldWritten u u.idx0.toNat n.toNat ∧ FieldWritten u u.idx1.toNat n.toNat ∧
          FieldWritten u u.idx2.toNat n.toNat ∧ FieldWritten u u.idx3.toNat n.toNat) →
        ∃ t, exec (.randint n) s = .next t ∧ t.fault = true ∧ t.fcode = 5 ∧ t.dout = 0 ∧ t.res = s.res) ∧
      (TableFull s → FieldWritten u u.idx0.toNat n.toNat ∧ FieldWritten u u.idx1.toNat n.toNat ∧
          FieldWritten u u.idx2.toNat n.toNat ∧ FieldWritten u u.idx3.toNat n.toNat))

/-- R157, R154: `NRV` runs `PARANOIA` rounds, each feeding a fetched field to the hash, and returns the XOR of the masked
digests, a value below `2^width`; with every word of the table written it completes, and a read of an unwritten word
raises `E_UNINIT`. The fields read are those of R53, whose widths go up to `XW`; wider ones are in
`ChoicesOfTheModel`. -/
def Obligations.NrvXorsTheRoundDigests : Prop :=
  (∀ (i : BitVec 8) (b : BitVec 12), (encode (.nrv i b)).toNat = 0x52000000 + 65536 * i.toNat + b.toNat) ∧
  ∀ (i : BitVec 8) (b : BitVec 12) (s : State), s.fault = false → (∃ k, 12 ≤ k ∧ s.tbytes = 2 ^ k) →
    (s.params.nmax ≤ i.toNat ∨ b = 0 → exec (.nrv i b) s = .next (faultedWith 3 s)) ∧
    (i.toNat < s.params.nmax → b ≠ 0 → b.toNat ≤ xw s →
      (∀ e, (FieldWritten s e b.toNat → bitRead s e b.toNat = some (fieldValue s e b.toNat)) ∧
        (¬ FieldWritten s e b.toNat → bitRead s e b.toNat = none)) ∧
      (∀ ds t, ds.length = s.paranoia → NrvRounds i.toNat b.toNat ds s.din s t →
        exec (.nrv i b) s = .next { t with dout := ds.foldl (· ^^^ ·) 0, res := ds.foldl (· ^^^ ·) 0 } ∧
        ds.foldl (· ^^^ ·) 0 < 2 ^ b.toNat) ∧
      ((¬ ∃ ds t, ds.length = s.paranoia ∧ NrvRounds i.toNat b.toNat ds s.din s t) →
        ∃ t, exec (.nrv i b) s = .next t ∧ t.fault = true ∧ t.fcode = 5 ∧ t.dout = 0 ∧ t.res = s.res) ∧
      (TableFull s → ∃ ds t, ds.length = s.paranoia ∧ NrvRounds i.toNat b.toNat ds s.din s t))

/-! The command port (10_state.md R21, 70_reset_and_hazards.md R210). -/

/-- R21, R78: a step takes the next pair of the host's list, presents it on the ports and runs the command the word
decodes to; a word that decodes to none raises `E_ILLEGAL` in a block without a fault. That the list is a field of the state
is the model's choice (log entry 1). -/
def Obligations.StepRunsTheDecodedCommand : Prop :=
  ∀ (s : State) (c : CmdWord) (d : Nat) (rest : List (CmdWord × Nat)), s.pending = (c, d) :: rest → d < 2 ^ xw s →
    (∀ i, decode c = .ok i → step s = exec i { s with pending := rest, cmd := c, din := d }) ∧
    (∀ e, decode c = .error e → s.fault = false →
      step s = .next (faultedWith 1 { s with pending := rest, cmd := c, din := d }))

/-- The model's choices, no rule of the spec: with nothing to present the block holds its state (log entry 1); an operand
wider than the port is refused by name (log entry 2); a field wider than `XW` is some value when its words are written, so
`BITSTR` completes with it and `NRV` runs its rounds on it, and no value when one is unwritten, which raises `E_UNINIT`
(log entry 9); a `W` within `WMAX` is written as any other where it passes the 16 bits of R30 (log entry 15). -/
def Obligations.ChoicesOfTheModel : Prop :=
  ∀ s : State, (s.pending = [] → step s = .next s) ∧
    (∀ c d rest, s.pending = (c, d) :: rest → 2 ^ xw s ≤ d → step s = .refused .dinBeyondPort) ∧
    (s.fault = false → 2 ^ 16 ≤ s.din → s.din ≤ s.params.wmax → ∃ t, exec (.wrcfg .w) s = .next t ∧ CfgWritten .w s t) ∧
    ∀ n : BitVec 12, s.fault = false → (∃ k, 12 ≤ k ∧ s.tbytes = 2 ^ k) → xw s < n.toNat →
      (FieldWritten s s.din n.toNat → ∃ v, exec (.bitstr n) s = .next { s with dout := v, res := v }) ∧
      (∀ e, bitRead s e n.toNat = none ↔ ¬ FieldWritten s e n.toNat) ∧
      ∀ i : BitVec 8, i.toNat < s.params.nmax →
        (∀ ds t, ds.length = s.paranoia → NrvRounds i.toNat n.toNat ds s.din s t →
          exec (.nrv i n) s = .next { t with dout := ds.foldl (· ^^^ ·) 0, res := ds.foldl (· ^^^ ·) 0 } ∧
          ds.foldl (· ^^^ ·) 0 < 2 ^ n.toNat) ∧
        ((¬ ∃ ds t, ds.length = s.paranoia ∧ NrvRounds i.toNat n.toNat ds s.din s t) →
          ∃ t, exec (.nrv i n) s = .next t ∧ t.fault = true ∧ t.fcode = 5 ∧ t.dout = 0 ∧ t.res = s.res) ∧
        (TableFull s → ∃ ds t, ds.length = s.paranoia ∧ NrvRounds i.toNat n.toNat ds s.din s t)

/-- R210: a run of a program is one step per pair of the host's list, and what a command does does not depend on the
pairs still to come. -/
def Obligations.RunOfAProgramIsOneStepPerCommand : Prop :=
  ∀ (program : List (CmdWord × Nat)) (s t : State) (obs : List (Nat × BitVec 32)), s.pending = [] →
    runProgram program s = some (obs, t) →
    obs.length = program.length ∧ Runs program.length { s with pending := program } t

/-- R173, R174: two faulted blocks that agree on `STATUS`, the ports and the synthesis parameters cannot be told apart by
any program, whatever the rest of their states: not even through `RESET`. -/
def Obligations.FaultedBlocksLookAlike : Prop :=
  ∀ (program : List (CmdWord × Nat)) (s t : State), s.fault = true → SameFaultView s t →
    (runProgram program s).map Prod.fst = (runProgram program t).map Prod.fst

/-! Encoding (30_encoding.md). -/

/-- Every command is read back from its word, with every operand at every value. -/
def Obligations.DecodeOfEncode : Prop :=
  ∀ i : Instr, i.wellFormed = true → decode (encode i) = .ok i

/-- Every word that decodes is the word of the command it decodes to, which is well-formed: no bit is dropped. -/
def Obligations.EncodeOfDecode : Prop :=
  ∀ (c : CmdWord) (i : Instr), decode c = .ok i → encode i = c ∧ i.wellFormed = true

/-- R76, R77: the words that decode are exactly those a row of the opcode map accepts, and no word is accepted by two
rows. -/
def Obligations.OpcodeMapIsTheDecoder : Prop :=
  (∀ c : CmdWord, legalWord c = true ↔ ∃ i, decode c = .ok i) ∧
  ∀ (c : CmdWord) (r r' : OpcodeRow), r ∈ opcodeTable → r' ∈ opcodeTable → r.accepts c = true → r'.accepts c = true →
    r = r'

/-- R71 to R74 and the line "Encoding" of every command rule: the word of a command is the sum of its opcode and its
shifted fields. -/
def Obligations.EncodedWordIsTheRulesWord : Prop :=
  ∀ i : Instr, (encode i).toNat = ruleWord i

/-- Words written out from R76 and the examples of the spec decode to the commands they stand for. -/
def Obligations.SampleWordsDecode : Prop :=
  decode 0x04000300#32 = .ok (.wrcfg .n) ∧ decode 0x11000003#32 = .ok (.tload 3) ∧
  decode 0x13000008#32 = .ok (.bitstr 8) ∧ decode 0x19020008#32 = .ok (.folda 2 8) ∧
  decode 0x20000003#32 = .ok (.hwr 0 (.vec 3)) ∧ decode 0x25002008#32 = .ok (.hnext 0 2 8) ∧
  decode 0x30000200#32 = .ok (.gwr 0 .mult) ∧ decode 0x34001008#32 = .ok (.gnext 0 1 8) ∧
  decode 0x41001008#32 = .ok (.enc 1) ∧ decode 0x52000010#32 = .ok (.nrv 0 16)

/-! Invariant and frame of the whole machine. -/

/-- Every step keeps a legal state legal: register ranges, masked vectors, cursors, seeds, status codes and the canonical
form of the table (10_state.md R21 to R34). -/
def Obligations.EveryStepKeepsLegalStates : Prop :=
  ∀ s t : State, Legal s → step s = .next t → Legal t

/-- The lines "State written" of all command rules, with R23, R58, R140, R150 and R206: a command changes no piece of
state that `mayWrite` does not list for it, `DOUT` aside, whether it completes, faults or is refused. That `RESET` keeps the
host's list and the ports `CMD` and `DIN` (piece `host`) is the model's choice (log entries 1 and 8). -/
def Obligations.CommandsWriteOnlyTheirPieces : Prop :=
  ∀ (i : Instr) (s t : State) (p : Piece), exec i s = .next t → mayWrite i p = false → p.Same s t

end
end

