-- ==== Sys2Proof/Laws/State.lean ====
section
/-! SUPPORT. One lemma per field of the state and per named update, true by `rfl`. -/

namespace Sys2Proof.Machine

variable (s : State)

@[simp] theorem present_pending (c : CmdWord) (d : Nat) : (present c d s).pending = s.pending := rfl
@[simp] theorem present_cmd (c : CmdWord) (d : Nat) : (present c d s).cmd = c := rfl
@[simp] theorem present_din (c : CmdWord) (d : Nat) : (present c d s).din = d := rfl
@[simp] theorem present_dout (c : CmdWord) (d : Nat) : (present c d s).dout = s.dout := rfl
@[simp] theorem present_res (c : CmdWord) (d : Nat) : (present c d s).res = s.res := rfl
@[simp] theorem present_fault (c : CmdWord) (d : Nat) : (present c d s).fault = s.fault := rfl
@[simp] theorem present_fcode (c : CmdWord) (d : Nat) : (present c d s).fcode = s.fcode := rfl
@[simp] theorem present_fopc (c : CmdWord) (d : Nat) : (present c d s).fopc = s.fopc := rfl
@[simp] theorem present_rcnt (c : CmdWord) (d : Nat) : (present c d s).rcnt = s.rcnt := rfl
@[simp] theorem present_tbytes (c : CmdWord) (d : Nat) : (present c d s).tbytes = s.tbytes := rfl
@[simp] theorem present_table (c : CmdWord) (d : Nat) : (present c d s).table = s.table := rfl
@[simp] theorem present_foldSel (c : CmdWord) (d : Nat) : (present c d s).foldSel = s.foldSel := rfl
@[simp] theorem present_w (c : CmdWord) (d : Nat) : (present c d s).w = s.w := rfl
@[simp] theorem present_depth (c : CmdWord) (d : Nat) : (present c d s).depth = s.depth := rfl
@[simp] theorem present_hdepth (c : CmdWord) (d : Nat) : (present c d s).hdepth = s.hdepth := rfl
@[simp] theorem present_n (c : CmdWord) (d : Nat) : (present c d s).n = s.n := rfl
@[simp] theorem present_mode (c : CmdWord) (d : Nat) : (present c d s).mode = s.mode := rfl
@[simp] theorem present_paranoia (c : CmdWord) (d : Nat) : (present c d s).paranoia = s.paranoia := rfl
@[simp] theorem present_retryMax (c : CmdWord) (d : Nat) : (present c d s).retryMax = s.retryMax := rfl
@[simp] theorem present_cchk (c : CmdWord) (d : Nat) : (present c d s).cchk = s.cchk := rfl
@[simp] theorem present_cidx (c : CmdWord) (d : Nat) : (present c d s).cidx = s.cidx := rfl
@[simp] theorem present_gens (c : CmdWord) (d : Nat) : (present c d s).gens = s.gens := rfl
@[simp] theorem present_hashes (c : CmdWord) (d : Nat) : (present c d s).hashes = s.hashes := rfl
@[simp] theorem present_whS1 (c : CmdWord) (d : Nat) : (present c d s).whS1 = s.whS1 := rfl
@[simp] theorem present_whS2 (c : CmdWord) (d : Nat) : (present c d s).whS2 = s.whS2 := rfl
@[simp] theorem present_whS3 (c : CmdWord) (d : Nat) : (present c d s).whS3 = s.whS3 := rfl
@[simp] theorem present_rhash (c : CmdWord) (d : Nat) : (present c d s).rhash = s.rhash := rfl
@[simp] theorem present_rtog (c : CmdWord) (d : Nat) : (present c d s).rtog = s.rtog := rfl
@[simp] theorem present_idx0 (c : CmdWord) (d : Nat) : (present c d s).idx0 = s.idx0 := rfl
@[simp] theorem present_idx1 (c : CmdWord) (d : Nat) : (present c d s).idx1 = s.idx1 := rfl
@[simp] theorem present_idx2 (c : CmdWord) (d : Nat) : (present c d s).idx2 = s.idx2 := rfl
@[simp] theorem present_idx3 (c : CmdWord) (d : Nat) : (present c d s).idx3 = s.idx3 := rfl
@[simp] theorem present_params (c : CmdWord) (d : Nat) : (present c d s).params = s.params := rfl

@[simp] theorem noValue_pending : (noValue s).pending = s.pending := rfl
@[simp] theorem noValue_cmd : (noValue s).cmd = s.cmd := rfl
@[simp] theorem noValue_din : (noValue s).din = s.din := rfl
@[simp] theorem noValue_dout : (noValue s).dout = 0 := rfl
@[simp] theorem noValue_res : (noValue s).res = s.res := rfl
@[simp] theorem noValue_fault : (noValue s).fault = s.fault := rfl
@[simp] theorem noValue_fcode : (noValue s).fcode = s.fcode := rfl
@[simp] theorem noValue_fopc : (noValue s).fopc = s.fopc := rfl
@[simp] theorem noValue_rcnt : (noValue s).rcnt = s.rcnt := rfl
@[simp] theorem noValue_tbytes : (noValue s).tbytes = s.tbytes := rfl
@[simp] theorem noValue_table : (noValue s).table = s.table := rfl
@[simp] theorem noValue_foldSel : (noValue s).foldSel = s.foldSel := rfl
@[simp] theorem noValue_w : (noValue s).w = s.w := rfl
@[simp] theorem noValue_depth : (noValue s).depth = s.depth := rfl
@[simp] theorem noValue_hdepth : (noValue s).hdepth = s.hdepth := rfl
@[simp] theorem noValue_n : (noValue s).n = s.n := rfl
@[simp] theorem noValue_mode : (noValue s).mode = s.mode := rfl
@[simp] theorem noValue_paranoia : (noValue s).paranoia = s.paranoia := rfl
@[simp] theorem noValue_retryMax : (noValue s).retryMax = s.retryMax := rfl
@[simp] theorem noValue_cchk : (noValue s).cchk = s.cchk := rfl
@[simp] theorem noValue_cidx : (noValue s).cidx = s.cidx := rfl
@[simp] theorem noValue_gens : (noValue s).gens = s.gens := rfl
@[simp] theorem noValue_hashes : (noValue s).hashes = s.hashes := rfl
@[simp] theorem noValue_whS1 : (noValue s).whS1 = s.whS1 := rfl
@[simp] theorem noValue_whS2 : (noValue s).whS2 = s.whS2 := rfl
@[simp] theorem noValue_whS3 : (noValue s).whS3 = s.whS3 := rfl
@[simp] theorem noValue_rhash : (noValue s).rhash = s.rhash := rfl
@[simp] theorem noValue_rtog : (noValue s).rtog = s.rtog := rfl
@[simp] theorem noValue_idx0 : (noValue s).idx0 = s.idx0 := rfl
@[simp] theorem noValue_idx1 : (noValue s).idx1 = s.idx1 := rfl
@[simp] theorem noValue_idx2 : (noValue s).idx2 = s.idx2 := rfl
@[simp] theorem noValue_idx3 : (noValue s).idx3 = s.idx3 := rfl
@[simp] theorem noValue_params : (noValue s).params = s.params := rfl

@[simp] theorem returnValue_pending (v : Nat) : (returnValue v s).pending = s.pending := rfl
@[simp] theorem returnValue_cmd (v : Nat) : (returnValue v s).cmd = s.cmd := rfl
@[simp] theorem returnValue_din (v : Nat) : (returnValue v s).din = s.din := rfl
@[simp] theorem returnValue_dout (v : Nat) : (returnValue v s).dout = v := rfl
@[simp] theorem returnValue_res (v : Nat) : (returnValue v s).res = v := rfl
@[simp] theorem returnValue_fault (v : Nat) : (returnValue v s).fault = s.fault := rfl
@[simp] theorem returnValue_fcode (v : Nat) : (returnValue v s).fcode = s.fcode := rfl
@[simp] theorem returnValue_fopc (v : Nat) : (returnValue v s).fopc = s.fopc := rfl
@[simp] theorem returnValue_rcnt (v : Nat) : (returnValue v s).rcnt = s.rcnt := rfl
@[simp] theorem returnValue_tbytes (v : Nat) : (returnValue v s).tbytes = s.tbytes := rfl
@[simp] theorem returnValue_table (v : Nat) : (returnValue v s).table = s.table := rfl
@[simp] theorem returnValue_foldSel (v : Nat) : (returnValue v s).foldSel = s.foldSel := rfl
@[simp] theorem returnValue_w (v : Nat) : (returnValue v s).w = s.w := rfl
@[simp] theorem returnValue_depth (v : Nat) : (returnValue v s).depth = s.depth := rfl
@[simp] theorem returnValue_hdepth (v : Nat) : (returnValue v s).hdepth = s.hdepth := rfl
@[simp] theorem returnValue_n (v : Nat) : (returnValue v s).n = s.n := rfl
@[simp] theorem returnValue_mode (v : Nat) : (returnValue v s).mode = s.mode := rfl
@[simp] theorem returnValue_paranoia (v : Nat) : (returnValue v s).paranoia = s.paranoia := rfl
@[simp] theorem returnValue_retryMax (v : Nat) : (returnValue v s).retryMax = s.retryMax := rfl
@[simp] theorem returnValue_cchk (v : Nat) : (returnValue v s).cchk = s.cchk := rfl
@[simp] theorem returnValue_cidx (v : Nat) : (returnValue v s).cidx = s.cidx := rfl
@[simp] theorem returnValue_gens (v : Nat) : (returnValue v s).gens = s.gens := rfl
@[simp] theorem returnValue_hashes (v : Nat) : (returnValue v s).hashes = s.hashes := rfl
@[simp] theorem returnValue_whS1 (v : Nat) : (returnValue v s).whS1 = s.whS1 := rfl
@[simp] theorem returnValue_whS2 (v : Nat) : (returnValue v s).whS2 = s.whS2 := rfl
@[simp] theorem returnValue_whS3 (v : Nat) : (returnValue v s).whS3 = s.whS3 := rfl
@[simp] theorem returnValue_rhash (v : Nat) : (returnValue v s).rhash = s.rhash := rfl
@[simp] theorem returnValue_rtog (v : Nat) : (returnValue v s).rtog = s.rtog := rfl
@[simp] theorem returnValue_idx0 (v : Nat) : (returnValue v s).idx0 = s.idx0 := rfl
@[simp] theorem returnValue_idx1 (v : Nat) : (returnValue v s).idx1 = s.idx1 := rfl
@[simp] theorem returnValue_idx2 (v : Nat) : (returnValue v s).idx2 = s.idx2 := rfl
@[simp] theorem returnValue_idx3 (v : Nat) : (returnValue v s).idx3 = s.idx3 := rfl
@[simp] theorem returnValue_params (v : Nat) : (returnValue v s).params = s.params := rfl

@[simp] theorem driveOnly_pending (v : Nat) : (driveOnly v s).pending = s.pending := rfl
@[simp] theorem driveOnly_cmd (v : Nat) : (driveOnly v s).cmd = s.cmd := rfl
@[simp] theorem driveOnly_din (v : Nat) : (driveOnly v s).din = s.din := rfl
@[simp] theorem driveOnly_dout (v : Nat) : (driveOnly v s).dout = v := rfl
@[simp] theorem driveOnly_res (v : Nat) : (driveOnly v s).res = s.res := rfl
@[simp] theorem driveOnly_fault (v : Nat) : (driveOnly v s).fault = s.fault := rfl
@[simp] theorem driveOnly_fcode (v : Nat) : (driveOnly v s).fcode = s.fcode := rfl
@[simp] theorem driveOnly_fopc (v : Nat) : (driveOnly v s).fopc = s.fopc := rfl
@[simp] theorem driveOnly_rcnt (v : Nat) : (driveOnly v s).rcnt = s.rcnt := rfl
@[simp] theorem driveOnly_tbytes (v : Nat) : (driveOnly v s).tbytes = s.tbytes := rfl
@[simp] theorem driveOnly_table (v : Nat) : (driveOnly v s).table = s.table := rfl
@[simp] theorem driveOnly_foldSel (v : Nat) : (driveOnly v s).foldSel = s.foldSel := rfl
@[simp] theorem driveOnly_w (v : Nat) : (driveOnly v s).w = s.w := rfl
@[simp] theorem driveOnly_depth (v : Nat) : (driveOnly v s).depth = s.depth := rfl
@[simp] theorem driveOnly_hdepth (v : Nat) : (driveOnly v s).hdepth = s.hdepth := rfl
@[simp] theorem driveOnly_n (v : Nat) : (driveOnly v s).n = s.n := rfl
@[simp] theorem driveOnly_mode (v : Nat) : (driveOnly v s).mode = s.mode := rfl
@[simp] theorem driveOnly_paranoia (v : Nat) : (driveOnly v s).paranoia = s.paranoia := rfl
@[simp] theorem driveOnly_retryMax (v : Nat) : (driveOnly v s).retryMax = s.retryMax := rfl
@[simp] theorem driveOnly_cchk (v : Nat) : (driveOnly v s).cchk = s.cchk := rfl
@[simp] theorem driveOnly_cidx (v : Nat) : (driveOnly v s).cidx = s.cidx := rfl
@[simp] theorem driveOnly_gens (v : Nat) : (driveOnly v s).gens = s.gens := rfl
@[simp] theorem driveOnly_hashes (v : Nat) : (driveOnly v s).hashes = s.hashes := rfl
@[simp] theorem driveOnly_whS1 (v : Nat) : (driveOnly v s).whS1 = s.whS1 := rfl
@[simp] theorem driveOnly_whS2 (v : Nat) : (driveOnly v s).whS2 = s.whS2 := rfl
@[simp] theorem driveOnly_whS3 (v : Nat) : (driveOnly v s).whS3 = s.whS3 := rfl
@[simp] theorem driveOnly_rhash (v : Nat) : (driveOnly v s).rhash = s.rhash := rfl
@[simp] theorem driveOnly_rtog (v : Nat) : (driveOnly v s).rtog = s.rtog := rfl
@[simp] theorem driveOnly_idx0 (v : Nat) : (driveOnly v s).idx0 = s.idx0 := rfl
@[simp] theorem driveOnly_idx1 (v : Nat) : (driveOnly v s).idx1 = s.idx1 := rfl
@[simp] theorem driveOnly_idx2 (v : Nat) : (driveOnly v s).idx2 = s.idx2 := rfl
@[simp] theorem driveOnly_idx3 (v : Nat) : (driveOnly v s).idx3 = s.idx3 := rfl
@[simp] theorem driveOnly_params (v : Nat) : (driveOnly v s).params = s.params := rfl

@[simp] theorem refuseCommand_pending : (refuseCommand s).pending = s.pending := rfl
@[simp] theorem refuseCommand_cmd : (refuseCommand s).cmd = s.cmd := rfl
@[simp] theorem refuseCommand_din : (refuseCommand s).din = s.din := rfl
@[simp] theorem refuseCommand_dout : (refuseCommand s).dout = 0 := rfl
@[simp] theorem refuseCommand_res : (refuseCommand s).res = s.res := rfl
@[simp] theorem refuseCommand_fault : (refuseCommand s).fault = s.fault := rfl
@[simp] theorem refuseCommand_fcode : (refuseCommand s).fcode = s.fcode := rfl
@[simp] theorem refuseCommand_fopc : (refuseCommand s).fopc = s.fopc := rfl
@[simp] theorem refuseCommand_rcnt : (refuseCommand s).rcnt = s.rcnt := rfl
@[simp] theorem refuseCommand_tbytes : (refuseCommand s).tbytes = s.tbytes := rfl
@[simp] theorem refuseCommand_table : (refuseCommand s).table = s.table := rfl
@[simp] theorem refuseCommand_foldSel : (refuseCommand s).foldSel = s.foldSel := rfl
@[simp] theorem refuseCommand_w : (refuseCommand s).w = s.w := rfl
@[simp] theorem refuseCommand_depth : (refuseCommand s).depth = s.depth := rfl
@[simp] theorem refuseCommand_hdepth : (refuseCommand s).hdepth = s.hdepth := rfl
@[simp] theorem refuseCommand_n : (refuseCommand s).n = s.n := rfl
@[simp] theorem refuseCommand_mode : (refuseCommand s).mode = s.mode := rfl
@[simp] theorem refuseCommand_paranoia : (refuseCommand s).paranoia = s.paranoia := rfl
@[simp] theorem refuseCommand_retryMax : (refuseCommand s).retryMax = s.retryMax := rfl
@[simp] theorem refuseCommand_cchk : (refuseCommand s).cchk = s.cchk := rfl
@[simp] theorem refuseCommand_cidx : (refuseCommand s).cidx = s.cidx := rfl
@[simp] theorem refuseCommand_gens : (refuseCommand s).gens = s.gens := rfl
@[simp] theorem refuseCommand_hashes : (refuseCommand s).hashes = s.hashes := rfl
@[simp] theorem refuseCommand_whS1 : (refuseCommand s).whS1 = s.whS1 := rfl
@[simp] theorem refuseCommand_whS2 : (refuseCommand s).whS2 = s.whS2 := rfl
@[simp] theorem refuseCommand_whS3 : (refuseCommand s).whS3 = s.whS3 := rfl
@[simp] theorem refuseCommand_rhash : (refuseCommand s).rhash = s.rhash := rfl
@[simp] theorem refuseCommand_rtog : (refuseCommand s).rtog = s.rtog := rfl
@[simp] theorem refuseCommand_idx0 : (refuseCommand s).idx0 = s.idx0 := rfl
@[simp] theorem refuseCommand_idx1 : (refuseCommand s).idx1 = s.idx1 := rfl
@[simp] theorem refuseCommand_idx2 : (refuseCommand s).idx2 = s.idx2 := rfl
@[simp] theorem refuseCommand_idx3 : (refuseCommand s).idx3 = s.idx3 := rfl
@[simp] theorem refuseCommand_params : (refuseCommand s).params = s.params := rfl

@[simp] theorem recordRetries_pending (k : Nat) : (recordRetries k s).pending = s.pending := rfl
@[simp] theorem recordRetries_cmd (k : Nat) : (recordRetries k s).cmd = s.cmd := rfl
@[simp] theorem recordRetries_din (k : Nat) : (recordRetries k s).din = s.din := rfl
@[simp] theorem recordRetries_dout (k : Nat) : (recordRetries k s).dout = s.dout := rfl
@[simp] theorem recordRetries_res (k : Nat) : (recordRetries k s).res = s.res := rfl
@[simp] theorem recordRetries_fault (k : Nat) : (recordRetries k s).fault = s.fault := rfl
@[simp] theorem recordRetries_fcode (k : Nat) : (recordRetries k s).fcode = s.fcode := rfl
@[simp] theorem recordRetries_fopc (k : Nat) : (recordRetries k s).fopc = s.fopc := rfl
@[simp] theorem recordRetries_rcnt (k : Nat) : (recordRetries k s).rcnt = BitVec.ofNat 8 (min k 255) := rfl
@[simp] theorem recordRetries_tbytes (k : Nat) : (recordRetries k s).tbytes = s.tbytes := rfl
@[simp] theorem recordRetries_table (k : Nat) : (recordRetries k s).table = s.table := rfl
@[simp] theorem recordRetries_foldSel (k : Nat) : (recordRetries k s).foldSel = s.foldSel := rfl
@[simp] theorem recordRetries_w (k : Nat) : (recordRetries k s).w = s.w := rfl
@[simp] theorem recordRetries_depth (k : Nat) : (recordRetries k s).depth = s.depth := rfl
@[simp] theorem recordRetries_hdepth (k : Nat) : (recordRetries k s).hdepth = s.hdepth := rfl
@[simp] theorem recordRetries_n (k : Nat) : (recordRetries k s).n = s.n := rfl
@[simp] theorem recordRetries_mode (k : Nat) : (recordRetries k s).mode = s.mode := rfl
@[simp] theorem recordRetries_paranoia (k : Nat) : (recordRetries k s).paranoia = s.paranoia := rfl
@[simp] theorem recordRetries_retryMax (k : Nat) : (recordRetries k s).retryMax = s.retryMax := rfl
@[simp] theorem recordRetries_cchk (k : Nat) : (recordRetries k s).cchk = s.cchk := rfl
@[simp] theorem recordRetries_cidx (k : Nat) : (recordRetries k s).cidx = s.cidx := rfl
@[simp] theorem recordRetries_gens (k : Nat) : (recordRetries k s).gens = s.gens := rfl
@[simp] theorem recordRetries_hashes (k : Nat) : (recordRetries k s).hashes = s.hashes := rfl
@[simp] theorem recordRetries_whS1 (k : Nat) : (recordRetries k s).whS1 = s.whS1 := rfl
@[simp] theorem recordRetries_whS2 (k : Nat) : (recordRetries k s).whS2 = s.whS2 := rfl
@[simp] theorem recordRetries_whS3 (k : Nat) : (recordRetries k s).whS3 = s.whS3 := rfl
@[simp] theorem recordRetries_rhash (k : Nat) : (recordRetries k s).rhash = s.rhash := rfl
@[simp] theorem recordRetries_rtog (k : Nat) : (recordRetries k s).rtog = s.rtog := rfl
@[simp] theorem recordRetries_idx0 (k : Nat) : (recordRetries k s).idx0 = s.idx0 := rfl
@[simp] theorem recordRetries_idx1 (k : Nat) : (recordRetries k s).idx1 = s.idx1 := rfl
@[simp] theorem recordRetries_idx2 (k : Nat) : (recordRetries k s).idx2 = s.idx2 := rfl
@[simp] theorem recordRetries_idx3 (k : Nat) : (recordRetries k s).idx3 = s.idx3 := rfl
@[simp] theorem recordRetries_params (k : Nat) : (recordRetries k s).params = s.params := rfl

@[simp] theorem storeWord_pending (i : Nat) (v : TableWord) : (storeWord i v s).pending = s.pending := rfl
@[simp] theorem storeWord_cmd (i : Nat) (v : TableWord) : (storeWord i v s).cmd = s.cmd := rfl
@[simp] theorem storeWord_din (i : Nat) (v : TableWord) : (storeWord i v s).din = s.din := rfl
@[simp] theorem storeWord_dout (i : Nat) (v : TableWord) : (storeWord i v s).dout = s.dout := rfl
@[simp] theorem storeWord_res (i : Nat) (v : TableWord) : (storeWord i v s).res = s.res := rfl
@[simp] theorem storeWord_fault (i : Nat) (v : TableWord) : (storeWord i v s).fault = s.fault := rfl
@[simp] theorem storeWord_fcode (i : Nat) (v : TableWord) : (storeWord i v s).fcode = s.fcode := rfl
@[simp] theorem storeWord_fopc (i : Nat) (v : TableWord) : (storeWord i v s).fopc = s.fopc := rfl
@[simp] theorem storeWord_rcnt (i : Nat) (v : TableWord) : (storeWord i v s).rcnt = s.rcnt := rfl
@[simp] theorem storeWord_tbytes (i : Nat) (v : TableWord) : (storeWord i v s).tbytes = s.tbytes := rfl
@[simp] theorem storeWord_table (i : Nat) (v : TableWord) : (storeWord i v s).table = Table.write s.table i v := rfl
@[simp] theorem storeWord_foldSel (i : Nat) (v : TableWord) : (storeWord i v s).foldSel = s.foldSel := rfl
@[simp] theorem storeWord_w (i : Nat) (v : TableWord) : (storeWord i v s).w = s.w := rfl
@[simp] theorem storeWord_depth (i : Nat) (v : TableWord) : (storeWord i v s).depth = s.depth := rfl
@[simp] theorem storeWord_hdepth (i : Nat) (v : TableWord) : (storeWord i v s).hdepth = s.hdepth := rfl
@[simp] theorem storeWord_n (i : Nat) (v : TableWord) : (storeWord i v s).n = s.n := rfl
@[simp] theorem storeWord_mode (i : Nat) (v : TableWord) : (storeWord i v s).mode = s.mode := rfl
@[simp] theorem storeWord_paranoia (i : Nat) (v : TableWord) : (storeWord i v s).paranoia = s.paranoia := rfl
@[simp] theorem storeWord_retryMax (i : Nat) (v : TableWord) : (storeWord i v s).retryMax = s.retryMax := rfl
@[simp] theorem storeWord_cchk (i : Nat) (v : TableWord) : (storeWord i v s).cchk = s.cchk := rfl
@[simp] theorem storeWord_cidx (i : Nat) (v : TableWord) : (storeWord i v s).cidx = s.cidx := rfl
@[simp] theorem storeWord_gens (i : Nat) (v : TableWord) : (storeWord i v s).gens = s.gens := rfl
@[simp] theorem storeWord_hashes (i : Nat) (v : TableWord) : (storeWord i v s).hashes = s.hashes := rfl
@[simp] theorem storeWord_whS1 (i : Nat) (v : TableWord) : (storeWord i v s).whS1 = s.whS1 := rfl
@[simp] theorem storeWord_whS2 (i : Nat) (v : TableWord) : (storeWord i v s).whS2 = s.whS2 := rfl
@[simp] theorem storeWord_whS3 (i : Nat) (v : TableWord) : (storeWord i v s).whS3 = s.whS3 := rfl
@[simp] theorem storeWord_rhash (i : Nat) (v : TableWord) : (storeWord i v s).rhash = s.rhash := rfl
@[simp] theorem storeWord_rtog (i : Nat) (v : TableWord) : (storeWord i v s).rtog = s.rtog := rfl
@[simp] theorem storeWord_idx0 (i : Nat) (v : TableWord) : (storeWord i v s).idx0 = s.idx0 := rfl
@[simp] theorem storeWord_idx1 (i : Nat) (v : TableWord) : (storeWord i v s).idx1 = s.idx1 := rfl
@[simp] theorem storeWord_idx2 (i : Nat) (v : TableWord) : (storeWord i v s).idx2 = s.idx2 := rfl
@[simp] theorem storeWord_idx3 (i : Nat) (v : TableWord) : (storeWord i v s).idx3 = s.idx3 := rfl
@[simp] theorem storeWord_params (i : Nat) (v : TableWord) : (storeWord i v s).params = s.params := rfl

@[simp] theorem resizeTable_pending (b : Nat) : (resizeTable b s).pending = s.pending := rfl
@[simp] theorem resizeTable_cmd (b : Nat) : (resizeTable b s).cmd = s.cmd := rfl
@[simp] theorem resizeTable_din (b : Nat) : (resizeTable b s).din = s.din := rfl
@[simp] theorem resizeTable_dout (b : Nat) : (resizeTable b s).dout = s.dout := rfl
@[simp] theorem resizeTable_res (b : Nat) : (resizeTable b s).res = s.res := rfl
@[simp] theorem resizeTable_fault (b : Nat) : (resizeTable b s).fault = s.fault := rfl
@[simp] theorem resizeTable_fcode (b : Nat) : (resizeTable b s).fcode = s.fcode := rfl
@[simp] theorem resizeTable_fopc (b : Nat) : (resizeTable b s).fopc = s.fopc := rfl
@[simp] theorem resizeTable_rcnt (b : Nat) : (resizeTable b s).rcnt = s.rcnt := rfl
@[simp] theorem resizeTable_tbytes (b : Nat) : (resizeTable b s).tbytes = b := rfl
@[simp] theorem resizeTable_table (b : Nat) : (resizeTable b s).table = [] := rfl
@[simp] theorem resizeTable_foldSel (b : Nat) : (resizeTable b s).foldSel = s.foldSel := rfl
@[simp] theorem resizeTable_w (b : Nat) : (resizeTable b s).w = s.w := rfl
@[simp] theorem resizeTable_depth (b : Nat) : (resizeTable b s).depth = s.depth := rfl
@[simp] theorem resizeTable_hdepth (b : Nat) : (resizeTable b s).hdepth = s.hdepth := rfl
@[simp] theorem resizeTable_n (b : Nat) : (resizeTable b s).n = s.n := rfl
@[simp] theorem resizeTable_mode (b : Nat) : (resizeTable b s).mode = s.mode := rfl
@[simp] theorem resizeTable_paranoia (b : Nat) : (resizeTable b s).paranoia = s.paranoia := rfl
@[simp] theorem resizeTable_retryMax (b : Nat) : (resizeTable b s).retryMax = s.retryMax := rfl
@[simp] theorem resizeTable_cchk (b : Nat) : (resizeTable b s).cchk = s.cchk := rfl
@[simp] theorem resizeTable_cidx (b : Nat) : (resizeTable b s).cidx = s.cidx := rfl
@[simp] theorem resizeTable_gens (b : Nat) : (resizeTable b s).gens = s.gens := rfl
@[simp] theorem resizeTable_hashes (b : Nat) : (resizeTable b s).hashes = s.hashes := rfl
@[simp] theorem resizeTable_whS1 (b : Nat) : (resizeTable b s).whS1 = s.whS1 := rfl
@[simp] theorem resizeTable_whS2 (b : Nat) : (resizeTable b s).whS2 = s.whS2 := rfl
@[simp] theorem resizeTable_whS3 (b : Nat) : (resizeTable b s).whS3 = s.whS3 := rfl
@[simp] theorem resizeTable_rhash (b : Nat) : (resizeTable b s).rhash = s.rhash := rfl
@[simp] theorem resizeTable_rtog (b : Nat) : (resizeTable b s).rtog = s.rtog := rfl
@[simp] theorem resizeTable_idx0 (b : Nat) : (resizeTable b s).idx0 = s.idx0 := rfl
@[simp] theorem resizeTable_idx1 (b : Nat) : (resizeTable b s).idx1 = s.idx1 := rfl
@[simp] theorem resizeTable_idx2 (b : Nat) : (resizeTable b s).idx2 = s.idx2 := rfl
@[simp] theorem resizeTable_idx3 (b : Nat) : (resizeTable b s).idx3 = s.idx3 := rfl
@[simp] theorem resizeTable_params (b : Nat) : (resizeTable b s).params = s.params := rfl

@[simp] theorem setGen_pending (i : Nat) (g : Gen) : (setGen i g s).pending = s.pending := rfl
@[simp] theorem setGen_cmd (i : Nat) (g : Gen) : (setGen i g s).cmd = s.cmd := rfl
@[simp] theorem setGen_din (i : Nat) (g : Gen) : (setGen i g s).din = s.din := rfl
@[simp] theorem setGen_dout (i : Nat) (g : Gen) : (setGen i g s).dout = s.dout := rfl
@[simp] theorem setGen_res (i : Nat) (g : Gen) : (setGen i g s).res = s.res := rfl
@[simp] theorem setGen_fault (i : Nat) (g : Gen) : (setGen i g s).fault = s.fault := rfl
@[simp] theorem setGen_fcode (i : Nat) (g : Gen) : (setGen i g s).fcode = s.fcode := rfl
@[simp] theorem setGen_fopc (i : Nat) (g : Gen) : (setGen i g s).fopc = s.fopc := rfl
@[simp] theorem setGen_rcnt (i : Nat) (g : Gen) : (setGen i g s).rcnt = s.rcnt := rfl
@[simp] theorem setGen_tbytes (i : Nat) (g : Gen) : (setGen i g s).tbytes = s.tbytes := rfl
@[simp] theorem setGen_table (i : Nat) (g : Gen) : (setGen i g s).table = s.table := rfl
@[simp] theorem setGen_foldSel (i : Nat) (g : Gen) : (setGen i g s).foldSel = s.foldSel := rfl
@[simp] theorem setGen_w (i : Nat) (g : Gen) : (setGen i g s).w = s.w := rfl
@[simp] theorem setGen_depth (i : Nat) (g : Gen) : (setGen i g s).depth = s.depth := rfl
@[simp] theorem setGen_hdepth (i : Nat) (g : Gen) : (setGen i g s).hdepth = s.hdepth := rfl
@[simp] theorem setGen_n (i : Nat) (g : Gen) : (setGen i g s).n = s.n := rfl
@[simp] theorem setGen_mode (i : Nat) (g : Gen) : (setGen i g s).mode = s.mode := rfl
@[simp] theorem setGen_paranoia (i : Nat) (g : Gen) : (setGen i g s).paranoia = s.paranoia := rfl
@[simp] theorem setGen_retryMax (i : Nat) (g : Gen) : (setGen i g s).retryMax = s.retryMax := rfl
@[simp] theorem setGen_cchk (i : Nat) (g : Gen) : (setGen i g s).cchk = s.cchk := rfl
@[simp] theorem setGen_cidx (i : Nat) (g : Gen) : (setGen i g s).cidx = s.cidx := rfl
@[simp] theorem setGen_gens (i : Nat) (g : Gen) : (setGen i g s).gens = s.gens.set i g := rfl
@[simp] theorem setGen_hashes (i : Nat) (g : Gen) : (setGen i g s).hashes = s.hashes := rfl
@[simp] theorem setGen_whS1 (i : Nat) (g : Gen) : (setGen i g s).whS1 = s.whS1 := rfl
@[simp] theorem setGen_whS2 (i : Nat) (g : Gen) : (setGen i g s).whS2 = s.whS2 := rfl
@[simp] theorem setGen_whS3 (i : Nat) (g : Gen) : (setGen i g s).whS3 = s.whS3 := rfl
@[simp] theorem setGen_rhash (i : Nat) (g : Gen) : (setGen i g s).rhash = s.rhash := rfl
@[simp] theorem setGen_rtog (i : Nat) (g : Gen) : (setGen i g s).rtog = s.rtog := rfl
@[simp] theorem setGen_idx0 (i : Nat) (g : Gen) : (setGen i g s).idx0 = s.idx0 := rfl
@[simp] theorem setGen_idx1 (i : Nat) (g : Gen) : (setGen i g s).idx1 = s.idx1 := rfl
@[simp] theorem setGen_idx2 (i : Nat) (g : Gen) : (setGen i g s).idx2 = s.idx2 := rfl
@[simp] theorem setGen_idx3 (i : Nat) (g : Gen) : (setGen i g s).idx3 = s.idx3 := rfl
@[simp] theorem setGen_params (i : Nat) (g : Gen) : (setGen i g s).params = s.params := rfl

@[simp] theorem setHash_pending (i : Nat) (h : Hash) : (setHash i h s).pending = s.pending := rfl
@[simp] theorem setHash_cmd (i : Nat) (h : Hash) : (setHash i h s).cmd = s.cmd := rfl
@[simp] theorem setHash_din (i : Nat) (h : Hash) : (setHash i h s).din = s.din := rfl
@[simp] theorem setHash_dout (i : Nat) (h : Hash) : (setHash i h s).dout = s.dout := rfl
@[simp] theorem setHash_res (i : Nat) (h : Hash) : (setHash i h s).res = s.res := rfl
@[simp] theorem setHash_fault (i : Nat) (h : Hash) : (setHash i h s).fault = s.fault := rfl
@[simp] theorem setHash_fcode (i : Nat) (h : Hash) : (setHash i h s).fcode = s.fcode := rfl
@[simp] theorem setHash_fopc (i : Nat) (h : Hash) : (setHash i h s).fopc = s.fopc := rfl
@[simp] theorem setHash_rcnt (i : Nat) (h : Hash) : (setHash i h s).rcnt = s.rcnt := rfl
@[simp] theorem setHash_tbytes (i : Nat) (h : Hash) : (setHash i h s).tbytes = s.tbytes := rfl
@[simp] theorem setHash_table (i : Nat) (h : Hash) : (setHash i h s).table = s.table := rfl
@[simp] theorem setHash_foldSel (i : Nat) (h : Hash) : (setHash i h s).foldSel = s.foldSel := rfl
@[simp] theorem setHash_w (i : Nat) (h : Hash) : (setHash i h s).w = s.w := rfl
@[simp] theorem setHash_depth (i : Nat) (h : Hash) : (setHash i h s).depth = s.depth := rfl
@[simp] theorem setHash_hdepth (i : Nat) (h : Hash) : (setHash i h s).hdepth = s.hdepth := rfl
@[simp] theorem setHash_n (i : Nat) (h : Hash) : (setHash i h s).n = s.n := rfl
@[simp] theorem setHash_mode (i : Nat) (h : Hash) : (setHash i h s).mode = s.mode := rfl
@[simp] theorem setHash_paranoia (i : Nat) (h : Hash) : (setHash i h s).paranoia = s.paranoia := rfl
@[simp] theorem setHash_retryMax (i : Nat) (h : Hash) : (setHash i h s).retryMax = s.retryMax := rfl
@[simp] theorem setHash_cchk (i : Nat) (h : Hash) : (setHash i h s).cchk = s.cchk := rfl
@[simp] theorem setHash_cidx (i : Nat) (h : Hash) : (setHash i h s).cidx = s.cidx := rfl
@[simp] theorem setHash_gens (i : Nat) (h : Hash) : (setHash i h s).gens = s.gens := rfl
@[simp] theorem setHash_hashes (i : Nat) (h : Hash) : (setHash i h s).hashes = s.hashes.set i h := rfl
@[simp] theorem setHash_whS1 (i : Nat) (h : Hash) : (setHash i h s).whS1 = s.whS1 := rfl
@[simp] theorem setHash_whS2 (i : Nat) (h : Hash) : (setHash i h s).whS2 = s.whS2 := rfl
@[simp] theorem setHash_whS3 (i : Nat) (h : Hash) : (setHash i h s).whS3 = s.whS3 := rfl
@[simp] theorem setHash_rhash (i : Nat) (h : Hash) : (setHash i h s).rhash = s.rhash := rfl
@[simp] theorem setHash_rtog (i : Nat) (h : Hash) : (setHash i h s).rtog = s.rtog := rfl
@[simp] theorem setHash_idx0 (i : Nat) (h : Hash) : (setHash i h s).idx0 = s.idx0 := rfl
@[simp] theorem setHash_idx1 (i : Nat) (h : Hash) : (setHash i h s).idx1 = s.idx1 := rfl
@[simp] theorem setHash_idx2 (i : Nat) (h : Hash) : (setHash i h s).idx2 = s.idx2 := rfl
@[simp] theorem setHash_idx3 (i : Nat) (h : Hash) : (setHash i h s).idx3 = s.idx3 := rfl
@[simp] theorem setHash_params (i : Nat) (h : Hash) : (setHash i h s).params = s.params := rfl

@[simp] theorem setFoldSel_pending (b : BitVec 2) : (setFoldSel b s).pending = s.pending := rfl
@[simp] theorem setFoldSel_cmd (b : BitVec 2) : (setFoldSel b s).cmd = s.cmd := rfl
@[simp] theorem setFoldSel_din (b : BitVec 2) : (setFoldSel b s).din = s.din := rfl
@[simp] theorem setFoldSel_dout (b : BitVec 2) : (setFoldSel b s).dout = s.dout := rfl
@[simp] theorem setFoldSel_res (b : BitVec 2) : (setFoldSel b s).res = s.res := rfl
@[simp] theorem setFoldSel_fault (b : BitVec 2) : (setFoldSel b s).fault = s.fault := rfl
@[simp] theorem setFoldSel_fcode (b : BitVec 2) : (setFoldSel b s).fcode = s.fcode := rfl
@[simp] theorem setFoldSel_fopc (b : BitVec 2) : (setFoldSel b s).fopc = s.fopc := rfl
@[simp] theorem setFoldSel_rcnt (b : BitVec 2) : (setFoldSel b s).rcnt = s.rcnt := rfl
@[simp] theorem setFoldSel_tbytes (b : BitVec 2) : (setFoldSel b s).tbytes = s.tbytes := rfl
@[simp] theorem setFoldSel_table (b : BitVec 2) : (setFoldSel b s).table = s.table := rfl
@[simp] theorem setFoldSel_foldSel (b : BitVec 2) : (setFoldSel b s).foldSel = b := rfl
@[simp] theorem setFoldSel_w (b : BitVec 2) : (setFoldSel b s).w = s.w := rfl
@[simp] theorem setFoldSel_depth (b : BitVec 2) : (setFoldSel b s).depth = s.depth := rfl
@[simp] theorem setFoldSel_hdepth (b : BitVec 2) : (setFoldSel b s).hdepth = s.hdepth := rfl
@[simp] theorem setFoldSel_n (b : BitVec 2) : (setFoldSel b s).n = s.n := rfl
@[simp] theorem setFoldSel_mode (b : BitVec 2) : (setFoldSel b s).mode = s.mode := rfl
@[simp] theorem setFoldSel_paranoia (b : BitVec 2) : (setFoldSel b s).paranoia = s.paranoia := rfl
@[simp] theorem setFoldSel_retryMax (b : BitVec 2) : (setFoldSel b s).retryMax = s.retryMax := rfl
@[simp] theorem setFoldSel_cchk (b : BitVec 2) : (setFoldSel b s).cchk = s.cchk := rfl
@[simp] theorem setFoldSel_cidx (b : BitVec 2) : (setFoldSel b s).cidx = s.cidx := rfl
@[simp] theorem setFoldSel_gens (b : BitVec 2) : (setFoldSel b s).gens = s.gens := rfl
@[simp] theorem setFoldSel_hashes (b : BitVec 2) : (setFoldSel b s).hashes = s.hashes := rfl
@[simp] theorem setFoldSel_whS1 (b : BitVec 2) : (setFoldSel b s).whS1 = s.whS1 := rfl
@[simp] theorem setFoldSel_whS2 (b : BitVec 2) : (setFoldSel b s).whS2 = s.whS2 := rfl
@[simp] theorem setFoldSel_whS3 (b : BitVec 2) : (setFoldSel b s).whS3 = s.whS3 := rfl
@[simp] theorem setFoldSel_rhash (b : BitVec 2) : (setFoldSel b s).rhash = s.rhash := rfl
@[simp] theorem setFoldSel_rtog (b : BitVec 2) : (setFoldSel b s).rtog = s.rtog := rfl
@[simp] theorem setFoldSel_idx0 (b : BitVec 2) : (setFoldSel b s).idx0 = s.idx0 := rfl
@[simp] theorem setFoldSel_idx1 (b : BitVec 2) : (setFoldSel b s).idx1 = s.idx1 := rfl
@[simp] theorem setFoldSel_idx2 (b : BitVec 2) : (setFoldSel b s).idx2 = s.idx2 := rfl
@[simp] theorem setFoldSel_idx3 (b : BitVec 2) : (setFoldSel b s).idx3 = s.idx3 := rfl
@[simp] theorem setFoldSel_params (b : BitVec 2) : (setFoldSel b s).params = s.params := rfl

@[simp] theorem clearInstances_pending : (clearInstances s).pending = s.pending := rfl
@[simp] theorem clearInstances_cmd : (clearInstances s).cmd = s.cmd := rfl
@[simp] theorem clearInstances_din : (clearInstances s).din = s.din := rfl
@[simp] theorem clearInstances_dout : (clearInstances s).dout = s.dout := rfl
@[simp] theorem clearInstances_res : (clearInstances s).res = s.res := rfl
@[simp] theorem clearInstances_fault : (clearInstances s).fault = s.fault := rfl
@[simp] theorem clearInstances_fcode : (clearInstances s).fcode = s.fcode := rfl
@[simp] theorem clearInstances_fopc : (clearInstances s).fopc = s.fopc := rfl
@[simp] theorem clearInstances_rcnt : (clearInstances s).rcnt = s.rcnt := rfl
@[simp] theorem clearInstances_tbytes : (clearInstances s).tbytes = s.tbytes := rfl
@[simp] theorem clearInstances_table : (clearInstances s).table = s.table := rfl
@[simp] theorem clearInstances_foldSel : (clearInstances s).foldSel = s.foldSel := rfl
@[simp] theorem clearInstances_w : (clearInstances s).w = s.w := rfl
@[simp] theorem clearInstances_depth : (clearInstances s).depth = s.depth := rfl
@[simp] theorem clearInstances_hdepth : (clearInstances s).hdepth = s.hdepth := rfl
@[simp] theorem clearInstances_n : (clearInstances s).n = s.n := rfl
@[simp] theorem clearInstances_mode : (clearInstances s).mode = s.mode := rfl
@[simp] theorem clearInstances_paranoia : (clearInstances s).paranoia = s.paranoia := rfl
@[simp] theorem clearInstances_retryMax : (clearInstances s).retryMax = s.retryMax := rfl
@[simp] theorem clearInstances_cchk : (clearInstances s).cchk = s.cchk := rfl
@[simp] theorem clearInstances_cidx : (clearInstances s).cidx = 0 := rfl
@[simp] theorem clearInstances_gens : (clearInstances s).gens = List.replicate s.params.nmax (Gen.cleared s.params.dmax) := rfl
@[simp] theorem clearInstances_hashes : (clearInstances s).hashes = List.replicate s.params.nmax (Hash.cleared s.params.hdmax) := rfl
@[simp] theorem clearInstances_whS1 : (clearInstances s).whS1 = s.whS1 := rfl
@[simp] theorem clearInstances_whS2 : (clearInstances s).whS2 = s.whS2 := rfl
@[simp] theorem clearInstances_whS3 : (clearInstances s).whS3 = s.whS3 := rfl
@[simp] theorem clearInstances_rhash : (clearInstances s).rhash = s.rhash := rfl
@[simp] theorem clearInstances_rtog : (clearInstances s).rtog = s.rtog := rfl
@[simp] theorem clearInstances_idx0 : (clearInstances s).idx0 = s.idx0 := rfl
@[simp] theorem clearInstances_idx1 : (clearInstances s).idx1 = s.idx1 := rfl
@[simp] theorem clearInstances_idx2 : (clearInstances s).idx2 = s.idx2 := rfl
@[simp] theorem clearInstances_idx3 : (clearInstances s).idx3 = s.idx3 := rfl
@[simp] theorem clearInstances_params : (clearInstances s).params = s.params := rfl

@[simp] theorem advanceCidx_pending : (advanceCidx s).pending = s.pending := rfl
@[simp] theorem advanceCidx_cmd : (advanceCidx s).cmd = s.cmd := rfl
@[simp] theorem advanceCidx_din : (advanceCidx s).din = s.din := rfl
@[simp] theorem advanceCidx_dout : (advanceCidx s).dout = s.dout := rfl
@[simp] theorem advanceCidx_res : (advanceCidx s).res = s.res := rfl
@[simp] theorem advanceCidx_fault : (advanceCidx s).fault = s.fault := rfl
@[simp] theorem advanceCidx_fcode : (advanceCidx s).fcode = s.fcode := rfl
@[simp] theorem advanceCidx_fopc : (advanceCidx s).fopc = s.fopc := rfl
@[simp] theorem advanceCidx_rcnt : (advanceCidx s).rcnt = s.rcnt := rfl
@[simp] theorem advanceCidx_tbytes : (advanceCidx s).tbytes = s.tbytes := rfl
@[simp] theorem advanceCidx_table : (advanceCidx s).table = s.table := rfl
@[simp] theorem advanceCidx_foldSel : (advanceCidx s).foldSel = s.foldSel := rfl
@[simp] theorem advanceCidx_w : (advanceCidx s).w = s.w := rfl
@[simp] theorem advanceCidx_depth : (advanceCidx s).depth = s.depth := rfl
@[simp] theorem advanceCidx_hdepth : (advanceCidx s).hdepth = s.hdepth := rfl
@[simp] theorem advanceCidx_n : (advanceCidx s).n = s.n := rfl
@[simp] theorem advanceCidx_mode : (advanceCidx s).mode = s.mode := rfl
@[simp] theorem advanceCidx_paranoia : (advanceCidx s).paranoia = s.paranoia := rfl
@[simp] theorem advanceCidx_retryMax : (advanceCidx s).retryMax = s.retryMax := rfl
@[simp] theorem advanceCidx_cchk : (advanceCidx s).cchk = s.cchk := rfl
@[simp] theorem advanceCidx_cidx : (advanceCidx s).cidx = (s.cidx + 1) % (s.n - 1) := rfl
@[simp] theorem advanceCidx_gens : (advanceCidx s).gens = s.gens := rfl
@[simp] theorem advanceCidx_hashes : (advanceCidx s).hashes = s.hashes := rfl
@[simp] theorem advanceCidx_whS1 : (advanceCidx s).whS1 = s.whS1 := rfl
@[simp] theorem advanceCidx_whS2 : (advanceCidx s).whS2 = s.whS2 := rfl
@[simp] theorem advanceCidx_whS3 : (advanceCidx s).whS3 = s.whS3 := rfl
@[simp] theorem advanceCidx_rhash : (advanceCidx s).rhash = s.rhash := rfl
@[simp] theorem advanceCidx_rtog : (advanceCidx s).rtog = s.rtog := rfl
@[simp] theorem advanceCidx_idx0 : (advanceCidx s).idx0 = s.idx0 := rfl
@[simp] theorem advanceCidx_idx1 : (advanceCidx s).idx1 = s.idx1 := rfl
@[simp] theorem advanceCidx_idx2 : (advanceCidx s).idx2 = s.idx2 := rfl
@[simp] theorem advanceCidx_idx3 : (advanceCidx s).idx3 = s.idx3 := rfl
@[simp] theorem advanceCidx_params : (advanceCidx s).params = s.params := rfl

@[simp] theorem whAdvance_pending : (whAdvance s).pending = s.pending := rfl
@[simp] theorem whAdvance_cmd : (whAdvance s).cmd = s.cmd := rfl
@[simp] theorem whAdvance_din : (whAdvance s).din = s.din := rfl
@[simp] theorem whAdvance_dout : (whAdvance s).dout = s.dout := rfl
@[simp] theorem whAdvance_res : (whAdvance s).res = s.res := rfl
@[simp] theorem whAdvance_fault : (whAdvance s).fault = s.fault := rfl
@[simp] theorem whAdvance_fcode : (whAdvance s).fcode = s.fcode := rfl
@[simp] theorem whAdvance_fopc : (whAdvance s).fopc = s.fopc := rfl
@[simp] theorem whAdvance_rcnt : (whAdvance s).rcnt = s.rcnt := rfl
@[simp] theorem whAdvance_tbytes : (whAdvance s).tbytes = s.tbytes := rfl
@[simp] theorem whAdvance_table : (whAdvance s).table = s.table := rfl
@[simp] theorem whAdvance_foldSel : (whAdvance s).foldSel = s.foldSel := rfl
@[simp] theorem whAdvance_w : (whAdvance s).w = s.w := rfl
@[simp] theorem whAdvance_depth : (whAdvance s).depth = s.depth := rfl
@[simp] theorem whAdvance_hdepth : (whAdvance s).hdepth = s.hdepth := rfl
@[simp] theorem whAdvance_n : (whAdvance s).n = s.n := rfl
@[simp] theorem whAdvance_mode : (whAdvance s).mode = s.mode := rfl
@[simp] theorem whAdvance_paranoia : (whAdvance s).paranoia = s.paranoia := rfl
@[simp] theorem whAdvance_retryMax : (whAdvance s).retryMax = s.retryMax := rfl
@[simp] theorem whAdvance_cchk : (whAdvance s).cchk = s.cchk := rfl
@[simp] theorem whAdvance_cidx : (whAdvance s).cidx = s.cidx := rfl
@[simp] theorem whAdvance_gens : (whAdvance s).gens = s.gens := rfl
@[simp] theorem whAdvance_hashes : (whAdvance s).hashes = s.hashes := rfl
@[simp] theorem whAdvance_whS1 : (whAdvance s).whS1 = (171 * s.whS1) % whM1 := rfl
@[simp] theorem whAdvance_whS2 : (whAdvance s).whS2 = (172 * s.whS2) % whM2 := rfl
@[simp] theorem whAdvance_whS3 : (whAdvance s).whS3 = (170 * s.whS3) % whM3 := rfl
@[simp] theorem whAdvance_rhash : (whAdvance s).rhash = s.rhash := rfl
@[simp] theorem whAdvance_rtog : (whAdvance s).rtog = s.rtog := rfl
@[simp] theorem whAdvance_idx0 : (whAdvance s).idx0 = s.idx0 := rfl
@[simp] theorem whAdvance_idx1 : (whAdvance s).idx1 = s.idx1 := rfl
@[simp] theorem whAdvance_idx2 : (whAdvance s).idx2 = s.idx2 := rfl
@[simp] theorem whAdvance_idx3 : (whAdvance s).idx3 = s.idx3 := rfl
@[simp] theorem whAdvance_params : (whAdvance s).params = s.params := rfl

@[simp] theorem absorbDraw_pending (t : Nat) : (absorbDraw t s).pending = s.pending := rfl
@[simp] theorem absorbDraw_cmd (t : Nat) : (absorbDraw t s).cmd = s.cmd := rfl
@[simp] theorem absorbDraw_din (t : Nat) : (absorbDraw t s).din = s.din := rfl
@[simp] theorem absorbDraw_dout (t : Nat) : (absorbDraw t s).dout = s.dout := rfl
@[simp] theorem absorbDraw_res (t : Nat) : (absorbDraw t s).res = s.res := rfl
@[simp] theorem absorbDraw_fault (t : Nat) : (absorbDraw t s).fault = s.fault := rfl
@[simp] theorem absorbDraw_fcode (t : Nat) : (absorbDraw t s).fcode = s.fcode := rfl
@[simp] theorem absorbDraw_fopc (t : Nat) : (absorbDraw t s).fopc = s.fopc := rfl
@[simp] theorem absorbDraw_rcnt (t : Nat) : (absorbDraw t s).rcnt = s.rcnt := rfl
@[simp] theorem absorbDraw_tbytes (t : Nat) : (absorbDraw t s).tbytes = s.tbytes := rfl
@[simp] theorem absorbDraw_table (t : Nat) : (absorbDraw t s).table = s.table := rfl
@[simp] theorem absorbDraw_foldSel (t : Nat) : (absorbDraw t s).foldSel = s.foldSel := rfl
@[simp] theorem absorbDraw_w (t : Nat) : (absorbDraw t s).w = s.w := rfl
@[simp] theorem absorbDraw_depth (t : Nat) : (absorbDraw t s).depth = s.depth := rfl
@[simp] theorem absorbDraw_hdepth (t : Nat) : (absorbDraw t s).hdepth = s.hdepth := rfl
@[simp] theorem absorbDraw_n (t : Nat) : (absorbDraw t s).n = s.n := rfl
@[simp] theorem absorbDraw_mode (t : Nat) : (absorbDraw t s).mode = s.mode := rfl
@[simp] theorem absorbDraw_paranoia (t : Nat) : (absorbDraw t s).paranoia = s.paranoia := rfl
@[simp] theorem absorbDraw_retryMax (t : Nat) : (absorbDraw t s).retryMax = s.retryMax := rfl
@[simp] theorem absorbDraw_cchk (t : Nat) : (absorbDraw t s).cchk = s.cchk := rfl
@[simp] theorem absorbDraw_cidx (t : Nat) : (absorbDraw t s).cidx = s.cidx := rfl
@[simp] theorem absorbDraw_gens (t : Nat) : (absorbDraw t s).gens = s.gens := rfl
@[simp] theorem absorbDraw_hashes (t : Nat) : (absorbDraw t s).hashes = s.hashes := rfl
@[simp] theorem absorbDraw_whS1 (t : Nat) : (absorbDraw t s).whS1 = s.whS1 := rfl
@[simp] theorem absorbDraw_whS2 (t : Nat) : (absorbDraw t s).whS2 = s.whS2 := rfl
@[simp] theorem absorbDraw_whS3 (t : Nat) : (absorbDraw t s).whS3 = s.whS3 := rfl
@[simp] theorem absorbDraw_rhash (t : Nat) : (absorbDraw t s).rhash = rotl1Word s.rhash ^^^ BitVec.ofNat 64 t := rfl
@[simp] theorem absorbDraw_rtog (t : Nat) : (absorbDraw t s).rtog = !s.rtog := rfl
@[simp] theorem absorbDraw_idx0 (t : Nat) : (absorbDraw t s).idx0 = s.idx0 := rfl
@[simp] theorem absorbDraw_idx1 (t : Nat) : (absorbDraw t s).idx1 = s.idx1 := rfl
@[simp] theorem absorbDraw_idx2 (t : Nat) : (absorbDraw t s).idx2 = s.idx2 := rfl
@[simp] theorem absorbDraw_idx3 (t : Nat) : (absorbDraw t s).idx3 = s.idx3 := rfl
@[simp] theorem absorbDraw_params (t : Nat) : (absorbDraw t s).params = s.params := rfl

@[simp] theorem faultedWith_pending (c : BitVec 4) : (faultedWith c s).pending = s.pending := rfl
@[simp] theorem faultedWith_cmd (c : BitVec 4) : (faultedWith c s).cmd = s.cmd := rfl
@[simp] theorem faultedWith_din (c : BitVec 4) : (faultedWith c s).din = s.din := rfl
@[simp] theorem faultedWith_dout (c : BitVec 4) : (faultedWith c s).dout = 0 := rfl
@[simp] theorem faultedWith_res (c : BitVec 4) : (faultedWith c s).res = s.res := rfl
@[simp] theorem faultedWith_fault (c : BitVec 4) : (faultedWith c s).fault = true := rfl
@[simp] theorem faultedWith_fcode (c : BitVec 4) : (faultedWith c s).fcode = c := rfl
@[simp] theorem faultedWith_fopc (c : BitVec 4) : (faultedWith c s).fopc = s.cmd.extractLsb' 24 8 := rfl
@[simp] theorem faultedWith_rcnt (c : BitVec 4) : (faultedWith c s).rcnt = s.rcnt := rfl
@[simp] theorem faultedWith_tbytes (c : BitVec 4) : (faultedWith c s).tbytes = s.tbytes := rfl
@[simp] theorem faultedWith_table (c : BitVec 4) : (faultedWith c s).table = s.table := rfl
@[simp] theorem faultedWith_foldSel (c : BitVec 4) : (faultedWith c s).foldSel = s.foldSel := rfl
@[simp] theorem faultedWith_w (c : BitVec 4) : (faultedWith c s).w = s.w := rfl
@[simp] theorem faultedWith_depth (c : BitVec 4) : (faultedWith c s).depth = s.depth := rfl
@[simp] theorem faultedWith_hdepth (c : BitVec 4) : (faultedWith c s).hdepth = s.hdepth := rfl
@[simp] theorem faultedWith_n (c : BitVec 4) : (faultedWith c s).n = s.n := rfl
@[simp] theorem faultedWith_mode (c : BitVec 4) : (faultedWith c s).mode = s.mode := rfl
@[simp] theorem faultedWith_paranoia (c : BitVec 4) : (faultedWith c s).paranoia = s.paranoia := rfl
@[simp] theorem faultedWith_retryMax (c : BitVec 4) : (faultedWith c s).retryMax = s.retryMax := rfl
@[simp] theorem faultedWith_cchk (c : BitVec 4) : (faultedWith c s).cchk = s.cchk := rfl
@[simp] theorem faultedWith_cidx (c : BitVec 4) : (faultedWith c s).cidx = s.cidx := rfl
@[simp] theorem faultedWith_gens (c : BitVec 4) : (faultedWith c s).gens = s.gens := rfl
@[simp] theorem faultedWith_hashes (c : BitVec 4) : (faultedWith c s).hashes = s.hashes := rfl
@[simp] theorem faultedWith_whS1 (c : BitVec 4) : (faultedWith c s).whS1 = s.whS1 := rfl
@[simp] theorem faultedWith_whS2 (c : BitVec 4) : (faultedWith c s).whS2 = s.whS2 := rfl
@[simp] theorem faultedWith_whS3 (c : BitVec 4) : (faultedWith c s).whS3 = s.whS3 := rfl
@[simp] theorem faultedWith_rhash (c : BitVec 4) : (faultedWith c s).rhash = s.rhash := rfl
@[simp] theorem faultedWith_rtog (c : BitVec 4) : (faultedWith c s).rtog = s.rtog := rfl
@[simp] theorem faultedWith_idx0 (c : BitVec 4) : (faultedWith c s).idx0 = s.idx0 := rfl
@[simp] theorem faultedWith_idx1 (c : BitVec 4) : (faultedWith c s).idx1 = s.idx1 := rfl
@[simp] theorem faultedWith_idx2 (c : BitVec 4) : (faultedWith c s).idx2 = s.idx2 := rfl
@[simp] theorem faultedWith_idx3 (c : BitVec 4) : (faultedWith c s).idx3 = s.idx3 := rfl
@[simp] theorem faultedWith_params (c : BitVec 4) : (faultedWith c s).params = s.params := rfl

end Sys2Proof.Machine
end

