-- ==== Sys2Proof/Laws/Bits.lean ====
section
/-! SUPPORT. The operators of 00_scope.md R12 as arithmetic. -/

namespace Sys2Proof.Machine

@[simp] theorem and_mask (v k : Nat) : v &&& mask k = v % 2 ^ k := Nat.and_two_pow_sub_one_eq_mod v k

theorem mod_two_pow_lt (v k : Nat) : v % 2 ^ k < 2 ^ k := Nat.mod_lt _ (Nat.two_pow_pos k)

theorem bitAt_eq (v i : Nat) : bitAt v i = v / 2 ^ i % 2 := by
  simp [bitAt, Nat.shiftRight_eq_div_pow, Nat.and_one_is_mod]

theorem bitAt_lt_two (v i : Nat) : bitAt v i < 2 := by
  rw [bitAt_eq]; exact Nat.mod_lt _ (by decide)

theorem bitAt_eq_testBit (v i : Nat) : bitAt v i = (v.testBit i).toNat := by
  rw [bitAt_eq, Nat.testBit_eq_decide_div_mod_eq]
  rcases Nat.mod_two_eq_zero_or_one (v / 2 ^ i) with h | h <;> simp [h]

/-- A value below `2^(k*w)` followed by one of `w` bits: concatenation (R12). -/
theorem shiftLeft_or_eq {a b w : Nat} (hb : b < 2 ^ w) : (a <<< w) ||| b = a * 2 ^ w + b := by
  rw [Nat.shiftLeft_eq, Nat.mul_comm, ← Nat.two_pow_add_eq_or_of_lt hb]

theorem rotl1_lt {k x : Nat} (hx : x < 2 ^ k) : rotl1 k x < 2 ^ k := by
  unfold rotl1
  refine Nat.or_lt_two_pow (by simpa using mod_two_pow_lt _ _) ?_
  exact Nat.lt_of_le_of_lt (Nat.shiftRight_le x (k - 1)) hx

theorem rotr1_lt {k x : Nat} (hk : 1 ≤ k) (hx : x < 2 ^ k) : rotr1 k x < 2 ^ k := by
  unfold rotr1
  refine Nat.or_lt_two_pow (Nat.lt_of_le_of_lt (Nat.shiftRight_le x 1) hx) ?_
  rw [Nat.and_one_is_mod, Nat.shiftLeft_eq]
  have h2 : x % 2 < 2 := Nat.mod_lt _ (by decide)
  calc x % 2 * 2 ^ (k - 1) < 2 * 2 ^ (k - 1) := Nat.mul_lt_mul_of_pos_right h2 (Nat.two_pow_pos _)
    _ = 2 ^ k := by rw [← Nat.pow_succ', Nat.succ_eq_add_one, Nat.sub_add_cancel hk]

theorem log2_two_pow (k : Nat) : (2 ^ k).log2 = k := Nat.log2_two_pow

/-- The test of 40_table.md R91: `v & (v - 1) = 0` says that a positive `v` is a power of two. -/
theorem onePower_iff {v : Nat} (hv : v ≠ 0) : onePower v = true ↔ ∃ k, v = 2 ^ k := by
  simp only [onePower, beq_iff_eq]
  constructor
  · intro h
    refine ⟨v.log2, ?_⟩
    by_contra hne
    have hlt : 2 ^ v.log2 < v := lt_of_le_of_ne (Nat.log2_self_le hv) (Ne.symm hne)
    have hup : v < 2 ^ (v.log2 + 1) := Nat.lt_log2_self
    have b1 : v.testBit v.log2 = true := by
      rw [Nat.testBit_eq_decide_div_mod_eq]
      have : v / 2 ^ v.log2 = 1 := by
        apply Nat.div_eq_of_lt_le <;> simp [Nat.pow_succ] at * <;> omega
      simp [this]
    have b2 : (v - 1).testBit v.log2 = true := by
      rw [Nat.testBit_eq_decide_div_mod_eq]
      have : (v - 1) / 2 ^ v.log2 = 1 := by
        apply Nat.div_eq_of_lt_le <;> simp [Nat.pow_succ] at * <;> omega
      simp [this]
    have := congrArg (fun x => x.testBit v.log2) h
    simp [Nat.testBit_and, b1, b2] at this
  · rintro ⟨k, rfl⟩
    rw [show (2 : Nat) ^ k - 1 = mask k from rfl, and_mask]
    simp

end Sys2Proof.Machine
end

