-- ==== Sys2Proof/Laws/Table.lean ====
section
/-! SUPPORT. The entropy table: reading after writing, the canonical form kept, and bit fields. -/

namespace Sys2Proof.Machine

/-- Reading after a write: the written word at its index, every other word as before (40_table.md R92). -/
theorem Table.read_write (t : Table) (i : Nat) (v : TableWord) (j : Nat) :
    Table.read (Table.write t i v) j = if j = i then some v else Table.read t j := by
  induction t with
  | nil => simp [Table.write, Table.read, eq_comm]
  | cons head rest ih =>
    obtain ⟨k, x⟩ := head
    unfold Table.write
    split
    · simp [Table.read, eq_comm]
    · split
      · next h =>
        subst h
        by_cases hj : j = i
        · simp [Table.read, hj]
        · simp [Table.read, hj, Ne.symm hj]
      · next h =>
        by_cases hk : k = j
        · subst hk; simp [Table.read, Ne.symm h]
        · simp [Table.read, hk, ih]

theorem Table.risingFrom_mono {lo lo' bound : Nat} (h : lo' ≤ lo) :
    ∀ {t : Table}, Table.risingFrom lo bound t = true → Table.risingFrom lo' bound t = true
  | [], _ => rfl
  | (j, _) :: _, ht => by
    simp only [Table.risingFrom, Bool.and_eq_true, decide_eq_true_eq] at ht ⊢
    exact ⟨⟨Nat.le_trans h ht.1.1, ht.1.2⟩, ht.2⟩

theorem Table.risingFrom_write {bound i : Nat} {v : TableWord} (hi : i < bound) :
    ∀ {t : Table} {lo : Nat}, lo ≤ i → Table.risingFrom lo bound t = true →
      Table.risingFrom lo bound (Table.write t i v) = true
  | [], lo, hlo, _ => by simp [Table.write, Table.risingFrom, hlo, hi]
  | (j, x) :: rest, lo, hlo, ht => by
    simp only [Table.risingFrom, Bool.and_eq_true, decide_eq_true_eq] at ht
    obtain ⟨⟨h1, h2⟩, h3⟩ := ht
    unfold Table.write
    split
    · next hij => simp [Table.risingFrom, hlo, hi, h2, h3]; omega
    · split
      · next hij => subst hij; simp [Table.risingFrom, hlo, hi, h3]
      · simp only [Table.risingFrom, Bool.and_eq_true, decide_eq_true_eq]
        exact ⟨⟨h1, h2⟩, Table.risingFrom_write hi (by omega) h3⟩

/-- A write inside the table keeps the canonical form. -/
theorem Table.wf_write {bound i : Nat} {v : TableWord} {t : Table} (hi : i < bound) (h : Table.wf bound t = true) :
    Table.wf bound (Table.write t i v) = true := Table.risingFrom_write hi (Nat.zero_le _) h

/-- Emptying the table keeps the canonical form. -/
@[simp] theorem Table.wf_nil (bound : Nat) : Table.wf bound [] = true := rfl

theorem Table.read_below {bound : Nat} :
    ∀ {t : Table} {lo i : Nat}, Table.risingFrom lo bound t = true → i < lo → Table.read t i = none
  | [], _, _, _, _ => rfl
  | (j, _) :: rest, lo, i, h, hi => by
    simp only [Table.risingFrom, Bool.and_eq_true, decide_eq_true_eq] at h
    simp only [Table.read]
    rw [if_neg (by omega)]
    exact Table.read_below h.2 (by omega)

theorem Table.read_above {bound : Nat} :
    ∀ {t : Table} {lo i : Nat}, Table.risingFrom lo bound t = true → bound ≤ i → Table.read t i = none
  | [], _, _, _, _ => rfl
  | (j, _) :: rest, lo, i, h, hi => by
    simp only [Table.risingFrom, Bool.and_eq_true, decide_eq_true_eq] at h
    simp only [Table.read]
    rw [if_neg (by omega)]
    exact Table.read_above h.2 hi

theorem Table.eq_of_read_eq_from {bound : Nat} :
    ∀ {t u : Table} {lo : Nat}, Table.risingFrom lo bound t = true → Table.risingFrom lo bound u = true →
      (∀ i, Table.read t i = Table.read u i) → t = u
  | [], [], _, _, _, _ => rfl
  | [], (j, x) :: _, _, _, _, h => by have := h j; simp [Table.read] at this
  | (j, x) :: _, [], _, _, _, h => by have := h j; simp [Table.read] at this
  | (j, x) :: rest, (k, y) :: rest', lo, ht, hu, h => by
    simp only [Table.risingFrom, Bool.and_eq_true, decide_eq_true_eq] at ht hu
    have hjk : j = k := by
      rcases Nat.lt_trichotomy j k with hlt | heq | hgt
      · have h1 := h j
        rw [Table.read, if_pos rfl, Table.read, if_neg (by omega), Table.read_below hu.2 (by omega)] at h1
        simp at h1
      · exact heq
      · have h1 := h k
        rw [Table.read, if_neg (by omega), Table.read, if_pos rfl, Table.read_below ht.2 (by omega)] at h1
        simp at h1
    subst hjk
    have hxy : x = y := by have := h j; simpa [Table.read] using this
    subst hxy
    congr 1
    refine Table.eq_of_read_eq_from ht.2 hu.2 fun i => ?_
    by_cases hi : j = i
    · subst hi; rw [Table.read_below ht.2 (by omega), Table.read_below hu.2 (by omega)]
    · have := h i; simpa [Table.read, hi] using this

/-- The canonical form: tables that read alike are equal. -/
theorem Table.eq_of_read_eq {bound : Nat} {t u : Table} (ht : Table.wf bound t = true) (hu : Table.wf bound u = true)
    (h : ∀ i, Table.read t i = Table.read u i) : t = u := Table.eq_of_read_eq_from ht hu h

/-! Bit fields. -/

/-- `BitRead` as a sub-operation changes no state: it answers the value or raises `E_UNINIT` (20_memory.md R53). -/
theorem readField_eq_ok {s t : State} {b n v : Nat} : readField s b n = .ok v t ↔ bitRead s b n = some v ∧ t = s := by
  unfold readField
  cases h : bitRead s b n <;> simp [eq_comm]

theorem readField_eq_raised {s t : State} {b n : Nat} {c : FaultCode} :
    readField s b n = .raised c t ↔ bitRead s b n = none ∧ c = .uninit ∧ t = s := by
  unfold readField
  cases h : bitRead s b n <;> simp [eq_comm]

theorem bitRead_of_le {s : State} {b n : Nat} (h : n ≤ xw s) : bitRead s b n = bitReadExact s b n := by
  unfold bitRead; split <;> simp_all

/-- Concatenation succeeds exactly when every word touched is written (20_memory.md R54). -/
theorem concatWords_isSome (t : Table) (nwords : Nat) : ∀ (count wi acc : Nat),
    (concatWords t nwords count wi acc).isSome = true ↔
      ∀ k < count, (Table.read t ((wi + k) % nwords)).isSome = true
  | 0, _, _ => by simp [concatWords]
  | count + 1, wi, acc => by
    unfold concatWords
    constructor
    · intro h k hk
      cases hr : Table.read t (wi % nwords) with
      | none => simp [hr] at h
      | some v =>
        simp only [hr] at h
        rcases k with _ | k
        · simp [hr]
        · have := (concatWords_isSome t nwords count (wi + 1) _).1 h k (by omega)
          rwa [show wi + (k + 1) = wi + 1 + k by omega]
    · intro h
      have h0 := h 0 (by omega)
      rw [Nat.add_zero] at h0
      obtain ⟨v, hv⟩ := Option.isSome_iff_exists.1 h0
      simp only [hv]
      refine (concatWords_isSome t nwords count (wi + 1) _).2 fun k hk => ?_
      have := h (k + 1) (by omega)
      rwa [show wi + (k + 1) = wi + 1 + k by omega] at this

/-- A read of a bit field succeeds exactly when its concatenation does. -/
theorem bitReadExact_isSome (s : State) (b n : Nat) :
    (bitReadExact s b n).isSome = true ↔
      ∀ k < ceilDiv ((b &&& bitIndexMask s) &&& 63 |>.add n) 64,
        (Table.read s.table (((b &&& bitIndexMask s) >>> 6 + k) % words s)).isSome = true := by
  unfold bitReadExact
  rw [← concatWords_isSome s.table (words s) _ _ 0]
  simp only [Nat.add_eq]
  split <;> simp_all

/-- A bit field is below `2^n` (20_memory.md R53). -/
theorem bitReadExact_lt {s : State} {b n v : Nat} (h : bitReadExact s b n = some v) : v < 2 ^ n := by
  unfold bitReadExact at h
  dsimp only at h
  split at h
  · simp at h
  · simp only [and_mask, Option.some.injEq] at h
    subst h; exact mod_two_pow_lt _ _

theorem bitRead_lt {s : State} {b n v : Nat} (h : bitRead s b n = some v) (hn : n ≤ xw s) : v < 2 ^ n := by
  rw [bitRead_of_le hn] at h; exact bitReadExact_lt h

/-- Whatever the width, a bit field fits the port (10_state.md R22; log entry 9). -/
theorem bitRead_lt_xw {s : State} {b n v : Nat} (h : bitRead s b n = some v) : v < 2 ^ xw s := by
  unfold bitRead at h
  split at h
  · simp at h
  · next x hx =>
    simp only [Option.some.injEq] at h
    split at h
    · next hn => subst h; exact Nat.lt_of_lt_of_le (bitReadExact_lt hx) (Nat.pow_le_pow_right (by decide) hn)
    · subst h; exact mod_two_pow_lt _ _

/-- The bits read so far stand above the bits still to read (20_memory.md R53). -/
theorem bitReadByBits_acc (s : State) : ∀ (n k acc : Nat),
    bitReadByBits s n k acc = (bitReadByBits s n k 0).map (fun v => acc * 2 ^ n + v)
  | 0, k, acc => by simp [bitReadByBits]
  | n + 1, k, acc => by
    unfold bitReadByBits
    cases stringBit s (k &&& bitIndexMask s) with
    | none => rfl
    | some b =>
      simp only [Nat.mul_zero, Nat.zero_add]
      rw [bitReadByBits_acc s n (k + 1) (2 * acc + b), bitReadByBits_acc s n (k + 1) b, Option.map_map]
      congr 1; funext v; simp only [Function.comp]; rw [Nat.pow_succ]; ring

/-- A field read in two parts (20_memory.md R53). -/
theorem bitReadByBits_add (s : State) : ∀ (m n k acc : Nat),
    bitReadByBits s (m + n) k acc = (bitReadByBits s m k acc).bind (fun a => bitReadByBits s n (k + m) a)
  | 0, n, k, acc => by simp [bitReadByBits]
  | m + 1, n, k, acc => by
    rw [show m + 1 + n = m + n + 1 by omega, bitReadByBits, bitReadByBits]
    cases stringBit s (k &&& bitIndexMask s) with
    | none => rfl
    | some b => simp only; rw [bitReadByBits_add s m n (k + 1), show k + 1 + m = k + (m + 1) by omega]

theorem bitReadByBits_isSome (s : State) : ∀ (n k acc : Nat),
    (bitReadByBits s n k acc).isSome = true ↔ ∀ t < n, (stringBit s ((k + t) &&& bitIndexMask s)).isSome = true
  | 0, _, _ => by simp [bitReadByBits]
  | n + 1, k, acc => by
    unfold bitReadByBits
    constructor
    · intro h t ht
      cases hb : stringBit s (k &&& bitIndexMask s) with
      | none => simp [hb] at h
      | some b =>
        simp only [hb] at h
        rcases t with _ | t
        · simp [hb]
        · have := (bitReadByBits_isSome s n (k + 1) _).1 h t (by omega)
          rwa [show k + (t + 1) = k + 1 + t by omega]
    · intro h
      have h0 := h 0 (by omega)
      rw [Nat.add_zero] at h0
      obtain ⟨b, hb⟩ := Option.isSome_iff_exists.1 h0
      simp only [hb]
      refine (bitReadByBits_isSome s n (k + 1) _).2 fun t ht => ?_
      have := h (t + 1) (by omega)
      rwa [show k + (t + 1) = k + 1 + t by omega] at this

end Sys2Proof.Machine
end

