-- ==== Sys2Proof/Laws/BitField.lean ====
section
/-! SUPPORT. What `BitRead` answers: the sum of 20_memory.md R53 over the bits of the table's bit string. -/

namespace Sys2Proof.Machine

/-- The sizes `TSIZE` accepts, and the reset size (40_table.md R91). -/
abbrev TableSized (s : State) : Prop := ∃ k, 12 ≤ k ∧ s.tbytes = 2 ^ k

theorem bitSize_eq_words {s : State} (hs : TableSized s) : bitSize s = 64 * words s := by
  obtain ⟨k, hk, ht⟩ := hs
  obtain ⟨j, rfl⟩ : ∃ j, k = j + 3 := ⟨k - 3, by omega⟩
  unfold bitSize words
  rw [ht, Nat.pow_add]; omega

/-- `& BIT_INDEX_MASK` is reduction modulo the size (20_memory.md R53). -/
theorem and_bitIndexMask {s : State} (hs : TableSized s) (b : Nat) : b &&& bitIndexMask s = b % bitSize s := by
  obtain ⟨k, -, ht⟩ := hs
  have h : bitSize s = 2 ^ (k + 3) := by unfold bitSize; rw [ht, Nat.pow_add]; omega
  unfold bitIndexMask
  rw [h, Nat.and_two_pow_sub_one_eq_mod]

theorem bitSize_pos {s : State} (hs : TableSized s) : 0 < bitSize s := by
  obtain ⟨k, -, ht⟩ := hs
  have := Nat.two_pow_pos k
  unfold bitSize; omega

/-- Bit `q` of word `i`, counted from the most significant, 0 in an unwritten word (20_memory.md R52). -/
def wordBit (t : Table) (i q : Nat) : Nat :=
  match Table.read t i with
  | some v => v.toNat / 2 ^ (63 - q) % 2
  | none => 0

theorem tableBit_eq (s : State) (k : Nat) : tableBit s k = wordBit s.table (k / 64) (k % 64) := rfl

/-- Index `64 * i + q` modulo the size is bit `q` of word `i` modulo the number of words. -/
theorem tableBit_mod {s : State} (hs : TableSized s) (i q : Nat) (hq : q < 64) :
    tableBit s ((64 * i + q) % bitSize s) = wordBit s.table (i % words s) q := by
  have hp := bitSize_pos hs
  rw [bitSize_eq_words hs] at hp ⊢
  have e : (64 * i + q) % (64 * words s) = 64 * (i % words s) + q := by
    have h : i = words s * (i / words s) + i % words s := (Nat.div_add_mod i (words s)).symm
    have hlt : i % words s < words s := Nat.mod_lt _ (by omega)
    conv_lhs => rw [h]
    rw [show 64 * (words s * (i / words s) + i % words s) + q = 64 * (i % words s) + q + 64 * words s * (i / words s) by ring,
      Nat.add_mul_mod_self_left, Nat.mod_eq_of_lt (by omega)]
  rw [e, tableBit_eq, show (64 * (i % words s) + q) / 64 = i % words s by omega,
    show (64 * (i % words s) + q) % 64 = q by omega]

/-- The concatenation of 20_memory.md R54: what stood before it above, and below it every bit of every word. -/
theorem concatWords_bits (t : Table) (nwords : Nat) : ∀ (count wi acc cat : Nat),
    concatWords t nwords count wi acc = some cat →
      cat / 2 ^ (64 * count) = acc ∧
        ∀ q < 64 * count, cat / 2 ^ (64 * count - 1 - q) % 2 = wordBit t ((wi + q / 64) % nwords) (q % 64)
  | 0, _, _, _, h => by simp only [concatWords, Option.some.injEq] at h; subst h; simp
  | count + 1, wi, acc, cat, h => by
    unfold concatWords at h
    split at h
    · simp at h
    · next v hv =>
      obtain ⟨h1, h2⟩ := concatWords_bits t nwords count (wi + 1) _ cat h
      rw [shiftLeft_or_eq v.isLt] at h1
      have hlt := v.isLt
      have e64 : 64 * (count + 1) = 64 * count + 64 := by ring
      refine ⟨?_, fun q hq => ?_⟩
      · rw [e64, Nat.pow_add, ← Nat.div_div_eq_div_mul, h1]; omega
      · by_cases hq' : q < 64
        · rw [show 64 * (count + 1) - 1 - q = 64 * count + (63 - q) by omega, Nat.pow_add, ← Nat.div_div_eq_div_mul, h1,
            Nat.div_eq_of_lt hq', Nat.add_zero, Nat.mod_eq_of_lt hq']
          have ep : 2 ^ 64 = 2 ^ (63 - q) * (2 * 2 ^ q) := by
            rw [← Nat.pow_succ', ← Nat.pow_add]; congr 1; omega
          rw [ep, show acc * (2 ^ (63 - q) * (2 * 2 ^ q)) = 2 ^ (63 - q) * (2 * (2 ^ q * acc)) by ring,
            Nat.add_comm, Nat.add_mul_div_left _ _ (Nat.two_pow_pos _), Nat.add_mul_mod_self_left]
          simp only [wordBit, hv]
        · rw [show 64 * (count + 1) - 1 - q = 64 * count - 1 - (q - 64) by omega, h2 (q - 64) (by omega),
            show wi + 1 + (q - 64) / 64 = wi + q / 64 by omega, show (q - 64) % 64 = q % 64 by omega]

/-- A number below `2^n` is the sum of its bits, the first of them most significant. -/
theorem sum_of_bits : ∀ (n v : Nat), v < 2 ^ n →
    v = ((List.range n).map fun t => v / 2 ^ (n - 1 - t) % 2 * 2 ^ (n - 1 - t)).sum
  | 0, v, h => by simpa using h
  | n + 1, v, h => by
    have h2 : v / 2 < 2 ^ n := by rw [Nat.pow_succ] at h; omega
    have ih := sum_of_bits n (v / 2) h2
    rw [List.range_succ, List.map_append, List.sum_append]
    have e : ((List.range n).map fun t => v / 2 ^ (n + 1 - 1 - t) % 2 * 2 ^ (n + 1 - 1 - t)).sum =
        2 * ((List.range n).map fun t => v / 2 / 2 ^ (n - 1 - t) % 2 * 2 ^ (n - 1 - t)).sum := by
      rw [← List.sum_map_mul_left]
      congr 1
      refine List.map_congr_left fun t ht => ?_
      have ht := List.mem_range.1 ht
      rw [show n + 1 - 1 - t = n - 1 - t + 1 by omega, Nat.pow_succ', ← Nat.div_div_eq_div_mul]
      ring
    rw [e, ← ih]
    simp
    omega

/-- `BitRead` of a field whose words are all written is the sum of 20_memory.md R53. -/
theorem bitReadExact_eq {s : State} (hs : TableSized s) {b n : Nat} (h : FieldWritten s b n) :
    bitReadExact s b n = some (fieldValue s b n) := by
  unfold bitReadExact
  have e1 : (b % bitSize s) >>> 6 = b % bitSize s / 64 := Nat.shiftRight_eq_div_pow _ 6
  have e2 : b % bitSize s &&& 63 = b % bitSize s % 64 := Nat.and_two_pow_sub_one_eq_mod _ 6
  have e3 : ceilDiv (b % bitSize s % 64 + n) 64 = (b % bitSize s % 64 + n + 63) / 64 := rfl
  simp only [and_bitIndexMask hs, e1, e2, e3]
  set wi := b % bitSize s / 64 with hwi
  set o := b % bitSize s % 64 with ho
  set nw := (o + n + 63) / 64 with hnw
  have hsome := (concatWords_isSome s.table (words s) nw wi 0).2 h
  obtain ⟨cat, hc⟩ := Option.isSome_iff_exists.1 hsome
  rw [hc]
  simp only [and_mask, Nat.shiftRight_eq_div_pow, Option.some.injEq]
  rw [sum_of_bits n _ (mod_two_pow_lt _ n), fieldValue]
  congr 1
  refine List.map_congr_left fun t ht => ?_
  have ht := List.mem_range.1 ht
  congr 1
  have hq : o + t < 64 * nw := by omega
  have hb := (concatWords_bits _ _ _ _ _ _ hc).2 (o + t) hq
  have ed : cat / 2 ^ (64 * nw - o - n) % 2 ^ n / 2 ^ (n - 1 - t) % 2 = cat / 2 ^ (64 * nw - 1 - (o + t)) % 2 := by
    have ep : 2 ^ n = 2 ^ (n - 1 - t) * 2 ^ (t + 1) := by rw [← Nat.pow_add]; congr 1; omega
    rw [ep, Nat.mod_mul_right_div_self, Nat.div_div_eq_div_mul, ← Nat.pow_add,
      show 64 * nw - o - n + (n - 1 - t) = 64 * nw - 1 - (o + t) by omega, Nat.pow_succ',
      Nat.mod_mul_right_mod]
  rw [ed, hb]
  have ei : (b + t) % bitSize s = (64 * (wi + (o + t) / 64) + (o + t) % 64) % bitSize s := by
    rw [show 64 * (wi + (o + t) / 64) + (o + t) % 64 = b % bitSize s + t by omega, Nat.mod_add_mod]
  rw [ei, tableBit_mod hs _ _ (Nat.mod_lt _ (by decide))]

/-- `BitRead` of a field that touches an unwritten word raises `E_UNINIT` (20_memory.md R59). -/
theorem bitReadExact_none {s : State} (hs : TableSized s) {b n : Nat} (h : ¬ FieldWritten s b n) :
    bitReadExact s b n = none := by
  rw [← Option.not_isSome_iff_eq_none, bitReadExact_isSome]
  have e1 : (b % bitSize s) >>> 6 = b % bitSize s / 64 := Nat.shiftRight_eq_div_pow _ 6
  have e2 : b % bitSize s &&& 63 = b % bitSize s % 64 := Nat.and_two_pow_sub_one_eq_mod _ 6
  rw [and_bitIndexMask hs, e1, e2]; exact h

end Sys2Proof.Machine
end

