-- ==== Sys2Proof/Laws/Fault.lean ====
section
/-! SUPPORT. What taking a fault, being refused and ending a command can do, said once (60_exceptions.md R172, R174). -/

namespace Sys2Proof.Machine

/-- Fault entry in a block without a fault writes the pieces R172 names and nothing else. -/
theorem enterFault_eq {s : State} (h : s.fault = false) (c : FaultCode) :
    enterFault c s = faultedWith c.code s := by
  simp [enterFault, h, noValue, faultedWith]

theorem raiseFault_eq {s : State} (h : s.fault = false) (c : FaultCode) :
    raiseFault c s = .next (faultedWith c.code s) := by
  rw [raiseFault, enterFault_eq h]

/-- A raised command always answers a next state. -/
theorem raiseFault_next (c : FaultCode) (s : State) : raiseFault c s = .next (enterFault c s) := rfl

theorem unlessFaulted_ready {s : State} (h : s.fault = false) (body : Result) : unlessFaulted s body = body := by
  simp [unlessFaulted, h]

theorem unlessFaulted_faulted {s : State} (h : s.fault = true) (body : Result) :
    unlessFaulted s body = .next (refuseCommand s) := by
  simp [unlessFaulted, h]

@[simp] theorem Sub.answer_ok (v : Nat) (s : State) : (Sub.ok v s).answer = .next (returnValue v s) := rfl
@[simp] theorem Sub.answer_raised (c : FaultCode) (s : State) : (Sub.raised c s : Sub Nat).answer = raiseFault c s := rfl
@[simp] theorem Sub.finish_ok (v : Unit) (s : State) : (Sub.ok v s).finish = .next (noValue s) := rfl
@[simp] theorem Sub.finish_raised (c : FaultCode) (s : State) : (Sub.raised c s : Sub Unit).finish = raiseFault c s := rfl

@[simp] theorem Sub.bind_ok {α β : Type} (v : α) (s : State) (k : α → State → Sub β) : (Sub.ok v s).bind k = k v s := rfl
@[simp] theorem Sub.bind_raised {α β : Type} (c : FaultCode) (s : State) (k : α → State → Sub β) :
    (Sub.raised c s : Sub α).bind k = .raised c s := rfl

/-- A composed sub-operation that ends with a value: both parts did. -/
theorem Sub.bind_eq_ok {α β : Type} {r : Sub α} {k : α → State → Sub β} {b : β} {t : State} :
    r.bind k = .ok b t ↔ ∃ a u, r = .ok a u ∧ k a u = .ok b t := by
  cases r <;> simp [Sub.bind]

/-- A composed sub-operation that raises: the first part did, or the second after it. -/
theorem Sub.bind_eq_raised {α β : Type} {r : Sub α} {k : α → State → Sub β} {c : FaultCode} {t : State} :
    r.bind k = .raised c t ↔ r = .raised c t ∨ ∃ a u, r = .ok a u ∧ k a u = .raised c t := by
  cases r <;> simp [Sub.bind]

/-- Whatever a command does after its fault check, it answers a next state if its body does. -/
theorem unlessFaulted_next {s : State} {body : Result} (h : ∃ t, body = .next t) : ∃ t, unlessFaulted s body = .next t := by
  unfold unlessFaulted; split
  · exact ⟨_, rfl⟩
  · exact h

theorem Sub.answer_next (r : Sub Nat) : ∃ t, r.answer = .next t := by cases r <;> exact ⟨_, rfl⟩
theorem Sub.finish_next (r : Sub Unit) : ∃ t, r.finish = .next t := by cases r <;> exact ⟨_, rfl⟩

/-- A checked write answers the written state or raises, nothing else. -/
theorem checkedWrite_of_ok {bad : Bool} {c : FaultCode} {s t : State} (h : bad = false) :
    checkedWrite bad c s t = .ok () t := by simp [checkedWrite, h]

theorem checkedWrite_of_bad {bad : Bool} {c : FaultCode} {s t : State} (h : bad = true) :
    checkedWrite bad c s t = .raised c s := by simp [checkedWrite, h]

/-- The result of a command that ran in a block without a fault is never a fault or a refusal of the machine, and the
fault flag tells whether it raised. -/
theorem faultedWith_statusWord (code : BitVec 4) (s : State) :
    statusWord (faultedWith code s) =
      (0 : BitVec 8) ++ s.rcnt ++ s.cmd.extractLsb' 24 8 ++ code ++ (0 : BitVec 3) ++ BitVec.ofBool true := rfl

end Sys2Proof.Machine
end

