-- ==== Sys2Proof/Laws/Fold.lean ====
section
/-! SUPPORT. What the fold unit can do (41_fold.md R100 to R102). -/

namespace Sys2Proof.Machine

/-- Every turn of the loop keeps the accumulator `w` bits wide (41_fold.md R102). -/
theorem foldLoop_lt (shrink addmode : Bool) (w : Nat) :
    ∀ (fuel v acc c : Nat), acc < 2 ^ w → c ≤ w → foldLoop shrink addmode w fuel v acc c < 2 ^ w
  | 0, _, _, _, hacc, _ => hacc
  | fuel + 1, v, acc, c, hacc, hc => by
    unfold foldLoop
    split
    · exact hacc
    · refine foldLoop_lt shrink addmode w fuel _ _ _ ?_ ?_
      · split
        · rw [and_mask]; exact mod_two_pow_lt _ _
        · refine Nat.xor_lt_two_pow hacc ?_
          rw [and_mask]
          exact Nat.lt_of_lt_of_le (mod_two_pow_lt _ _) (Nat.pow_le_pow_right (by decide) hc)
      · split <;> omega

/-- The loop ends: any two bounds on the number of chunks that cover the bits of `v` give the same result
(41_fold.md R102). -/
theorem foldLoop_fuel (shrink addmode : Bool) (w : Nat) :
    ∀ (f f' v acc c : Nat), v < 2 ^ f → v < 2 ^ f' → 1 ≤ c →
      foldLoop shrink addmode w f v acc c = foldLoop shrink addmode w f' v acc c
  | 0, 0, _, _, _, _, _, _ => rfl
  | 0, f' + 1, v, acc, c, h, _, _ => by
    have : v = 0 := by simpa using h
    simp [foldLoop, this]
  | f + 1, 0, v, acc, c, _, h, _ => by
    have : v = 0 := by simpa using h
    simp [foldLoop, this]
  | f + 1, f' + 1, v, acc, c, h, h', hc => by
    unfold foldLoop
    split
    · rfl
    · have half : ∀ g, v < 2 ^ (g + 1) → v >>> c < 2 ^ g := fun g hg => by
        rw [Nat.shiftRight_eq_div_pow]
        refine Nat.div_lt_of_lt_mul (Nat.lt_of_lt_of_le hg ?_)
        rw [← Nat.pow_add]
        exact Nat.pow_le_pow_right (by decide) (by omega)
      exact foldLoop_fuel shrink addmode w f f' _ _ _ (half f h) (half f' h') (by split <;> simp_all; omega)

/-- `FoldAlg` gives a value below `2^w` (41_fold.md R100). -/
theorem foldAlg_lt (a : BitVec 2) (v w : Nat) : foldAlg a v w < 2 ^ w := by
  unfold foldAlg
  split
  · assumption
  · exact foldLoop_lt _ _ _ _ _ _ _ (Nat.two_pow_pos _) (Nat.le_refl _)

/-- A value that fits is returned and the selector stays (41_fold.md R101). -/
theorem fold_of_lt {sel : BitVec 2} {v w : Nat} (h : v < 2 ^ w) : fold sel v w = (v, sel) := by simp [fold, h]

/-- A value that does not fit is reduced and the selector advances (41_fold.md R101). -/
theorem fold_of_ge {sel : BitVec 2} {v w : Nat} (h : 2 ^ w ≤ v) : fold sel v w = (foldAlg sel v w, sel + 1) := by
  simp [fold, Nat.not_lt.2 h]

/-- The fold invariant (41_fold.md R100). -/
theorem fold_lt (sel : BitVec 2) (v w : Nat) : (fold sel v w).1 < 2 ^ w := by
  unfold fold
  split
  · assumption
  · exact foldAlg_lt sel v w

/-- A fold never exceeds its operand's width either. -/
theorem fold_lt_of_lt {sel : BitVec 2} {v w k : Nat} (h : v < 2 ^ k) : (fold sel v w).1 < 2 ^ k := by
  by_cases hv : v < 2 ^ w
  · rw [fold_of_lt hv]; exact h
  · have hwk : w ≤ k := (Nat.pow_le_pow_iff_right (by decide : 1 < 2)).1 (by omega)
    exact Nat.lt_of_lt_of_le (fold_lt sel v w) (Nat.pow_le_pow_right (by decide) hwk)

theorem foldAlg_lt_of_lt {a : BitVec 2} {v w k : Nat} (h : v < 2 ^ k) : foldAlg a v w < 2 ^ k := by
  by_cases hv : v < 2 ^ w
  · simp [foldAlg, hv, h]
  · have hwk : w ≤ k := (Nat.pow_le_pow_iff_right (by decide : 1 < 2)).1 (by omega)
    exact Nat.lt_of_lt_of_le (foldAlg_lt a v w) (Nat.pow_le_pow_right (by decide) hwk)

end Sys2Proof.Machine
end

