-- ==== Sys2Proof/Laws/Draw.lean ====
section
/-! SUPPORT. What the draw loop of the `next` contract can do (43_generators.md R133, 42_hash.md R117). -/

namespace Sys2Proof.Machine

variable {ι : Type}

/-- Raw steps of `w` bits concatenate below `2^(k*w)` (43_generators.md R133). -/
theorem accumulate_lt {raw : ι → Nat × ι} {w : Nat} {P : ι → Prop} (hP : ∀ x, P x → P (raw x).2)
    (hraw : ∀ x, P x → (raw x).1 < 2 ^ w) :
    ∀ (k acc j : Nat) (x : ι), P x → acc < 2 ^ j → (accumulate raw w k acc x).1 < 2 ^ (j + k * w)
  | 0, acc, j, x, _, h => by simpa [accumulate] using h
  | k + 1, acc, j, x, hx, h => by
    unfold accumulate
    have h1 : (acc <<< w) ||| (raw x).1 < 2 ^ (j + w) := by
      rw [shiftLeft_or_eq (hraw x hx), Nat.pow_add]
      have := hraw x hx
      calc acc * 2 ^ w + (raw x).1 < acc * 2 ^ w + 2 ^ w := by omega
        _ = (acc + 1) * 2 ^ w := by ring
        _ ≤ 2 ^ j * 2 ^ w := Nat.mul_le_mul_right _ h
    have h2 := accumulate_lt hP hraw k _ (j + w) (raw x).2 (hP x hx) h1
    rwa [show j + w + k * w = j + (k + 1) * w by ring] at h2

/-- An invariant of the raw step is kept by several of them. -/
theorem accumulate_inv {raw : ι → Nat × ι} {w : Nat} {P : ι → Prop} (hP : ∀ x, P x → P (raw x).2) :
    ∀ (k acc : Nat) (x : ι), P x → P (accumulate raw w k acc x).2
  | 0, _, _, h => h
  | k + 1, acc, x, h => by unfold accumulate; exact accumulate_inv hP k _ _ (hP x h)

/-- An invariant of the raw step is kept by the whole loop. -/
theorem drawLoop_inv {raw : ι → Nat × ι} {w bw steps : Nat} {P : ι → Prop} (hP : ∀ x, P x → P (raw x).2) :
    ∀ (left k : Nat) (x : ι) (sel : BitVec 2), P x → P (drawLoop raw w bw steps left k x sel).inst
  | 0, _, x, _, h => by simpa [drawLoop, drawOnce] using accumulate_inv hP steps 0 x h
  | left + 1, k, x, sel, h => by
    unfold drawLoop
    dsimp only
    split
    · exact drawLoop_inv hP left _ _ _ (accumulate_inv hP steps 0 x h)
    · exact accumulate_inv hP steps 0 x h

/-- A drawn value is not degenerate and fits the requested width and the raw steps (43_generators.md R132, R133). -/
theorem drawLoop_value {raw : ι → Nat × ι} {w bw steps r : Nat} {P : ι → Prop} (hP : ∀ x, P x → P (raw x).2)
    (hraw : ∀ x, P x → (raw x).1 < 2 ^ w) :
    ∀ (left k : Nat) (x : ι) (sel : BitVec 2), P x → (drawLoop raw w bw steps left k x sel).value = some r →
      degenerate bw r = false ∧ r < 2 ^ bw ∧ r < 2 ^ (steps * w)
  | 0, k, x, sel, hx, h => by
    simp only [drawLoop] at h
    split at h
    · simp at h
    · next hd =>
      simp only [Option.some.injEq] at h
      subst h
      have ha := accumulate_lt hP hraw steps 0 0 x hx (by simp)
      rw [Nat.zero_add] at ha
      exact ⟨by simpa using hd, fold_lt _ _ _, fold_lt_of_lt ha⟩
  | left + 1, k, x, sel, hx, h => by
    unfold drawLoop at h
    dsimp only at h
    split at h
    · exact drawLoop_value hP hraw left _ _ _ (accumulate_inv hP steps 0 x hx) h
    · next hd =>
      simp only [Option.some.injEq] at h
      subst h
      have ha := accumulate_lt hP hraw steps 0 0 x hx (by simp)
      rw [Nat.zero_add] at ha
      exact ⟨by simpa using hd, fold_lt _ _ _, fold_lt_of_lt ha⟩

/-- The number of retries the loop reports is what it was given plus at most the retries it had left. -/
theorem drawLoop_retries {raw : ι → Nat × ι} {w bw steps : Nat} :
    ∀ (left k : Nat) (x : ι) (sel : BitVec 2),
      k ≤ (drawLoop raw w bw steps left k x sel).retries ∧ (drawLoop raw w bw steps left k x sel).retries ≤ k + left
  | 0, k, x, sel => by simp [drawLoop]
  | left + 1, k, x, sel => by
    unfold drawLoop
    dsimp only
    split
    · have := drawLoop_retries (raw := raw) (w := w) (bw := bw) (steps := steps) left (k + 1)
        (drawOnce raw w bw steps x sel).inst (drawOnce raw w bw steps x sel).sel
      omega
    · simp

/-! Draws one after the other, in the terms of the model's loop. -/

/-- The instance and selector before draw `k`, when the first `k` draws are all rejected and drawn again. -/
def beforeDraw {ι : Type} (raw : ι → Nat × ι) (w bw steps : Nat) (x : ι) (sel : BitVec 2) : Nat → ι × BitVec 2
  | 0 => (x, sel)
  | k + 1 =>
    let b := beforeDraw raw w bw steps x sel k
    let d := drawOnce raw w bw steps b.1 b.2
    (d.inst, d.sel)

/-- Draw number `k`, counted from 0. -/
def drawNumber {ι : Type} (raw : ι → Nat × ι) (w bw steps : Nat) (x : ι) (sel : BitVec 2) (k : Nat) : DrawOnce ι :=
  drawOnce raw w bw steps (beforeDraw raw w bw steps x sel k).1 (beforeDraw raw w bw steps x sel k).2

/-- The draws after the first are those of the loop started on what the first left behind (43_generators.md R132). -/
theorem beforeDraw_succ (raw : ι → Nat × ι) (w bw steps : Nat) (x : ι) (sel : BitVec 2) :
    ∀ k, beforeDraw raw w bw steps x sel (k + 1) =
      beforeDraw raw w bw steps (drawOnce raw w bw steps x sel).inst (drawOnce raw w bw steps x sel).sel k
  | 0 => rfl
  | k + 1 => by rw [beforeDraw, beforeDraw_succ raw w bw steps x sel k]; rfl

theorem drawNumber_succ (raw : ι → Nat × ι) (w bw steps : Nat) (x : ι) (sel : BitVec 2) (k : Nat) :
    drawNumber raw w bw steps x sel (k + 1) =
      drawNumber raw w bw steps (drawOnce raw w bw steps x sel).inst (drawOnce raw w bw steps x sel).sel k := by
  simp only [drawNumber, beforeDraw_succ]

theorem degenerate_iff (bw r : Nat) : degenerate bw r = true ↔ Degenerate bw r := by
  simp [degenerate, Degenerate, mask]

/-- The loop returns draw `k` when it is the first that is not degenerate and the retries reach it. -/
theorem drawLoop_drawn {raw : ι → Nat × ι} {w bw steps : Nat} :
    ∀ (left k0 k : Nat) (x : ι) (sel : BitVec 2), k ≤ left →
      (∀ j < k, Degenerate bw (drawNumber raw w bw steps x sel j).value) →
      ¬ Degenerate bw (drawNumber raw w bw steps x sel k).value →
      drawLoop raw w bw steps left k0 x sel =
        { value := some (drawNumber raw w bw steps x sel k).value, retries := k0 + k,
          inst := (drawNumber raw w bw steps x sel k).inst, sel := (drawNumber raw w bw steps x sel k).sel }
  | 0, k0, k, x, sel, hk, _, hd => by
    obtain rfl : k = 0 := by omega
    have : degenerate bw (drawOnce raw w bw steps x sel).value = false := by
      rw [Bool.eq_false_iff]; exact fun h => hd ((degenerate_iff _ _).1 h)
    simp [drawLoop, this, drawNumber, beforeDraw]
  | left + 1, k0, 0, x, sel, _, _, hd => by
    have : degenerate bw (drawOnce raw w bw steps x sel).value = false := by
      rw [Bool.eq_false_iff]; exact fun h => hd ((degenerate_iff _ _).1 h)
    simp [drawLoop, this, drawNumber, beforeDraw]
  | left + 1, k0, k + 1, x, sel, hk, hpre, hd => by
    have h0 : degenerate bw (drawOnce raw w bw steps x sel).value = true :=
      (degenerate_iff _ _).2 (hpre 0 (by omega))
    unfold drawLoop
    dsimp only
    rw [if_pos h0, drawLoop_drawn left (k0 + 1) k _ _ (by omega)
      (fun j hj => by rw [← drawNumber_succ]; exact hpre (j + 1) (by omega)) (by rw [← drawNumber_succ]; exact hd)]
    simp only [drawNumber_succ]
    congr 1; omega

/-- The loop is exhausted when every draw it may make is degenerate (43_generators.md R133). -/
theorem drawLoop_exhausted {raw : ι → Nat × ι} {w bw steps : Nat} :
    ∀ (left k0 : Nat) (x : ι) (sel : BitVec 2),
      (∀ j ≤ left, Degenerate bw (drawNumber raw w bw steps x sel j).value) →
      drawLoop raw w bw steps left k0 x sel =
        { value := none, retries := k0 + left,
          inst := (drawNumber raw w bw steps x sel left).inst, sel := (drawNumber raw w bw steps x sel left).sel }
  | 0, k0, x, sel, h => by
    have h0 : degenerate bw (drawOnce raw w bw steps x sel).value = true :=
      (degenerate_iff _ _).2 (h 0 (Nat.le_refl _))
    simp [drawLoop, h0, drawNumber, beforeDraw]
  | left + 1, k0, x, sel, h => by
    have h0 : degenerate bw (drawOnce raw w bw steps x sel).value = true :=
      (degenerate_iff _ _).2 (h 0 (Nat.zero_le _))
    unfold drawLoop
    dsimp only
    rw [if_pos h0, drawLoop_exhausted left (k0 + 1) _ _
      (fun j hj => by rw [← drawNumber_succ]; exact h (j + 1) (by omega))]
    simp only [drawNumber_succ]
    congr 1; omega

/-- The end of a `next` (43_generators.md R133): the value, or `E_INTEGRITY`; `RCNT` written by a top call either way. -/
theorem endNext_eq_ok {top : Bool} {value : Option Nat} {k r : Nat} {s t : State} :
    endNext top value k s = .ok r t ↔ value = some r ∧ t = if top then recordRetries k s else s := by
  unfold endNext; cases value <;> simp [eq_comm]

theorem endNext_eq_raised {top : Bool} {value : Option Nat} {k : Nat} {c : FaultCode} {s t : State} :
    endNext top value k s = .raised c t ↔
      value = none ∧ c = .integrity ∧ t = if top then recordRetries k s else s := by
  unfold endNext; cases value <;> simp [eq_comm]

end Sys2Proof.Machine
end

