-- ==== Sys2Proof/Laws/Instances.lean ====
section
/-! SUPPORT. Raw steps of generators and hashes keep the ranges of 10_state.md R26, R27, R29, and `GNext` and `HNext`
change one instance, `FOLD_SEL` and `RCNT` and nothing else. -/

namespace Sys2Proof.Machine

theorem slot_lt {vec : List Nat} {w : Nat} (h : ∀ x ∈ vec, x < 2 ^ w) (j : Nat) : slot vec j < 2 ^ w := by
  unfold slot
  rw [List.getD_eq_getElem?_getD]
  cases hj : vec[j]? with
  | none => exact Nat.two_pow_pos w
  | some x => exact h x (List.mem_of_getElem? hj)

theorem set_elems_lt {vec : List Nat} {w j v : Nat} (h : ∀ x ∈ vec, x < 2 ^ w) (hv : v < 2 ^ w) :
    ∀ x ∈ vec.set j v, x < 2 ^ w := fun x hx => by
  rcases List.mem_or_eq_of_mem_set hx with h' | h'
  · exact h x h'
  · exact h' ▸ hv

/-! Generators. -/

/-- The new element and the new carry are `W` bits wide (10_state.md R27). -/
theorem recurrence_lt {w dmax depth : Nat} {g : Gen} {vp vq : Nat} (hg : g.Legal dmax w depth) (hp : vp < 2 ^ w)
    (hq : vq < 2 ^ w) : (recurrence w g vp vq).1 < 2 ^ w ∧ (recurrence w g vp vq).2 < 2 ^ w := by
  have hc := hg.carry
  have hm := hg.mult
  unfold recurrence
  cases g.variant <;> simp only [and_mask]
  · exact ⟨mod_two_pow_lt _ _, hc⟩
  · exact ⟨mod_two_pow_lt _ _, hc⟩
  · refine ⟨mod_two_pow_lt _ _, ?_⟩
    rw [Nat.shiftRight_eq_div_pow]
    refine Nat.div_lt_of_lt_mul ?_
    have h1 : vq * g.mult ≤ (2 ^ w - 1) * (2 ^ w - 1) := Nat.mul_le_mul (by omega) (by omega)
    have h2 : (2 ^ w - 1) * (2 ^ w - 1) + (2 ^ w - 1) = (2 ^ w - 1) * 2 ^ w := by
      have : 1 ≤ 2 ^ w := Nat.one_le_two_pow
      conv_rhs => rw [show (2 : Nat) ^ w = (2 ^ w - 1) + 1 by omega]
      simp [Nat.mul_add]
    have h3 : (2 ^ w - 1) * 2 ^ w < 2 ^ w * 2 ^ w := Nat.mul_lt_mul_of_pos_right (by omega) (by omega)
    omega
  · exact ⟨mod_two_pow_lt _ _, hc⟩
  · exact ⟨Nat.xor_lt_two_pow hp hq, hc⟩

/-- A raw step returns `W` bits and keeps the instance legal (43_generators.md R131, 10_state.md R27). -/
theorem genStep_legal {w dmax depth : Nat} {g : Gen} (hd : 1 ≤ depth) (hg : g.Legal dmax w depth) :
    (genStep w depth g).1 < 2 ^ w ∧ (genStep w depth g).2.Legal dmax w depth := by
  have hr := recurrence_lt hg (slot_lt hg.elems g.index) (slot_lt hg.elems ((g.index + g.lag.toNat) % depth))
  refine ⟨hr.1, ⟨by simp [genStep, hg.length], ?_, Nat.mod_lt _ hd, hg.mult, hg.add, hr.2⟩⟩
  exact set_elems_lt hg.elems hr.1

theorem genSpin_legal {w dmax depth : Nat} (hd : 1 ≤ depth) :
    ∀ (k : Nat) {g : Gen}, g.Legal dmax w depth → (genSpin w depth k g).Legal dmax w depth
  | 0, _, h => h
  | k + 1, _, h => genSpin_legal hd k (genStep_legal hd h).2

/-- A spin is the raw step iterated (43_generators.md R137). -/
theorem genSpin_eq_iterate (w depth : Nat) :
    ∀ (k : Nat) (g : Gen), genSpin w depth k g = (fun x => (genStep w depth x).2)^[k] g
  | 0, _ => rfl
  | k + 1, g => by rw [genSpin, genSpin_eq_iterate w depth k, Function.iterate_succ_apply]

/-! Hashes. -/

theorem foldl_xor_lt {w : Nat} : ∀ (l : List Nat) (a : Nat), a < 2 ^ w → (∀ x ∈ l, x < 2 ^ w) →
    l.foldl (· ^^^ ·) a < 2 ^ w
  | [], _, ha, _ => ha
  | x :: l, a, ha, h => by
    refine foldl_xor_lt l _ (Nat.xor_lt_two_pow ha (h x (by simp))) (fun y hy => h y (by simp [hy]))

/-- A digest is `W` bits wide (42_hash.md R111). -/
theorem hashDigest_lt {w hdepth : Nat} {h : Hash} (hv : ∀ x ∈ h.vec, x < 2 ^ w) : hashDigest hdepth h < 2 ^ w :=
  foldl_xor_lt _ _ (Nat.two_pow_pos w) (fun x hx => hv x (List.mem_of_mem_take hx))

theorem shiftSlot_lt {w b k x : Nat} (hw : 1 ≤ w) (hx : x < 2 ^ w) : shiftSlot w b k x < 2 ^ w := by
  obtain ⟨m, rfl⟩ : ∃ m, w = m + 1 := ⟨w - 1, by omega⟩
  have hp : 2 ^ (m + 1) = 2 * 2 ^ m := by rw [Nat.pow_succ]; ring
  unfold shiftSlot
  simp only [and_mask, Nat.shiftLeft_eq, Nat.shiftRight_eq_div_pow, Nat.add_sub_cancel, Nat.pow_one, Nat.and_one_is_mod]
  split
  · have h1 : x * 2 % 2 ^ (m + 1) = 2 * (x % 2 ^ m) := by
      rw [hp, Nat.mul_comm, Nat.mul_mod_mul_left]
    have h2 : x / 2 ^ m < 2 := Nat.div_lt_of_lt_mul (by omega)
    have h3 := mod_two_pow_lt x m
    rw [h1]
    split <;> omega
  · have h2 : x % 2 < 2 := Nat.mod_lt _ (by decide)
    have h3 : x / 2 < 2 ^ m := by omega
    have h4 : x % 2 * 2 ^ m ≤ 1 * 2 ^ m := Nat.mul_le_mul_right _ (by omega)
    split <;> omega

theorem rotateSlot_lt {w d k x : Nat} (hw : 1 ≤ w) (hx : x < 2 ^ w) : rotateSlot w d k x < 2 ^ w := by
  unfold rotateSlot; split
  · exact rotl1_lt hx
  · exact rotr1_lt hw hx

/-- A walk keeps the length and the width of the slots (42_hash.md R110). -/
theorem walkSlots_legal {hdepth p w : Nat} {f : Nat → Nat → Nat} (hf : ∀ k x, x < 2 ^ w → f k x < 2 ^ w) (count : Nat)
    {vec : List Nat} (hv : ∀ x ∈ vec, x < 2 ^ w) :
    (walkSlots hdepth p f count vec).length = vec.length ∧ ∀ x ∈ walkSlots hdepth p f count vec, x < 2 ^ w := by
  induction count with
  | zero => exact ⟨rfl, hv⟩
  | succ c ih =>
    unfold walkSlots at ih ⊢
    rw [List.range_succ, List.foldl_append]
    simp only [List.foldl_cons, List.foldl_nil, List.length_set]
    exact ⟨ih.1, set_elems_lt ih.2 (hf _ _ (slot_lt ih.2 _))⟩

/-- The kernel keeps the instance legal (42_hash.md R110, R112, R113). -/
theorem hashByte_legal {w hdmax hdepth b : Nat} {h : Hash} (hw : 1 ≤ w) (hd : 1 ≤ hdepth) (hh : h.Legal hdmax w hdepth) :
    (hashByte w hdepth b h).Legal hdmax w hdepth := by
  have v0 : ∀ x ∈ h.vec.set h.idx ((slot h.vec h.idx * b) &&& mask w), x < 2 ^ w :=
    set_elems_lt hh.elems (by rw [and_mask]; exact mod_two_pow_lt _ _)
  have v1 := walkSlots_legal (hdepth := hdepth) (p := h.idx) (f := shiftSlot w b) (fun k x => shiftSlot_lt hw) 8 v0
  have v2 := walkSlots_legal (hdepth := hdepth) (p := h.idx) (f := rotateSlot w (hashDigest hdepth h))
    (fun k x => rotateSlot_lt hw) hdepth
    (set_elems_lt (j := h.idx) v1.2 (Nat.xor_lt_two_pow (slot_lt v1.2 h.idx) (hashDigest_lt (hdepth := hdepth) hh.elems)))
  refine ⟨?_, ?_, Nat.mod_lt _ hd⟩
  · unfold hashByte injectDigest
    dsimp only
    split
    · rw [v2.1, List.length_set, v1.1, List.length_set, hh.length]
    · rw [v1.1, List.length_set, hh.length]
  · unfold hashByte injectDigest
    dsimp only
    split
    · exact v2.2
    · exact v1.2

theorem hashBytes_legal {w hdmax hdepth : Nat} (hw : 1 ≤ w) (hd : 1 ≤ hdepth) :
    ∀ (l v : Nat) {h : Hash}, h.Legal hdmax w hdepth → (hashBytes w hdepth l v h).Legal hdmax w hdepth
  | 0, _, _, h => h
  | l + 1, _, _, h => hashBytes_legal hw hd l _ (hashByte_legal hw hd h)

/-- A raw step returns `W` bits and keeps the instance legal (42_hash.md R116). -/
theorem hashStep_legal {w hdmax hdepth : Nat} {h : Hash} (hw : 1 ≤ w) (hd : 1 ≤ hdepth) (hh : h.Legal hdmax w hdepth) :
    (hashStep w hdepth h).1 < 2 ^ w ∧ (hashStep w hdepth h).2.Legal hdmax w hdepth := by
  have h' := hashByte_legal (b := hashDigest hdepth h &&& 0xFF) hw hd hh
  exact ⟨hashDigest_lt h'.elems, h'⟩

/-! `GNext` and `HNext` on the state. -/

/-- Everything `GNext` can do: it changes instance `i`, `FOLD_SEL` and, when it is a top call, `RCNT`. -/
theorem genNext_shape {i bw steps : Nat} {top : Bool} {s : State} :
    ∃ value k g sel, genNext i bw steps top s = endNext top value k (setFoldSel sel (setGen i g s)) ∧
      ({ value := value, retries := k, inst := g, sel := sel } : DrawEnd Gen) =
        drawLoop (genStep s.w s.depth) s.w bw steps s.retryMax.toNat 0 (genAt s i) s.foldSel :=
  ⟨_, _, _, _, rfl, rfl⟩

/-- Everything `HNext` can do: it changes instance `i`, `FOLD_SEL` and, when it is a top call, `RCNT`. -/
theorem hashNext_shape {i bw steps : Nat} {top : Bool} {s : State} :
    ∃ value k h sel, hashNext i bw steps top s = endNext top value k (setFoldSel sel (setHash i h s)) ∧
      ({ value := value, retries := k, inst := h, sel := sel } : DrawEnd Hash) =
        drawLoop (hashStep s.w s.hdepth) s.w bw steps s.retryMax.toNat 0 (hashAt s i) s.foldSel :=
  ⟨_, _, _, _, rfl, rfl⟩

/-! The all-zero instance (10_state.md R37, 42_hash.md R116). -/

theorem slot_replicate_zero (n j : Nat) : slot (List.replicate n 0) j = 0 := by
  unfold slot
  rw [List.getD_eq_getElem?_getD]
  rcases Nat.lt_or_ge j n with h | h
  · simp [h]
  · simp [h]

theorem set_replicate_zero (n j : Nat) : (List.replicate n 0).set j 0 = List.replicate n 0 := by
  apply List.ext_getElem (by simp)
  intro k hk hk'
  by_cases h : j = k <;> simp

theorem foldl_xor_zero : ∀ (n : Nat), (List.replicate n 0).foldl (· ^^^ ·) 0 = 0
  | 0 => rfl
  | n + 1 => by rw [List.replicate_succ, List.foldl_cons, Nat.xor_self]; exact foldl_xor_zero n

theorem hashDigest_zero {hdepth n : Nat} {h : Hash} (hv : h.vec = List.replicate n 0) : hashDigest hdepth h = 0 := by
  rw [hashDigest, hv, List.take_replicate]; exact foldl_xor_zero _

theorem walkSlots_zero {hdepth p : Nat} {f : Nat → Nat → Nat} (hf : ∀ k, f k 0 = 0) (n count : Nat) :
    walkSlots hdepth p f count (List.replicate n 0) = List.replicate n 0 := by
  induction count with
  | zero => rfl
  | succ c ih =>
    unfold walkSlots at ih ⊢
    rw [List.range_succ, List.foldl_append, ih]
    simp only [List.foldl_cons, List.foldl_nil, slot_replicate_zero, hf, set_replicate_zero]

theorem shiftSlot_zero (w b k : Nat) : shiftSlot w b k 0 = 0 := by
  simp [shiftSlot]

theorem rotateSlot_zero (w d k : Nat) : rotateSlot w d k 0 = 0 := by
  simp [rotateSlot, rotl1, rotr1]

/-- An all-zero hash vector stays all zero (42_hash.md R116). -/
theorem hashByte_zero {w hdepth b n : Nat} {h : Hash} (hv : h.vec = List.replicate n 0) :
    (hashByte w hdepth b h).vec = List.replicate n 0 := by
  unfold hashByte injectDigest
  simp only [hashDigest_zero hv, hv, slot_replicate_zero, Nat.zero_mul, Nat.zero_and, set_replicate_zero,
    walkSlots_zero (shiftSlot_zero w b), Nat.xor_self]
  split
  · rw [walkSlots_zero (rotateSlot_zero w 0)]
  · rfl

end Sys2Proof.Machine
end

