-- ==== Sys2Proof/Laws/Bootstrap.lean ====
section
/-! SUPPORT. What the bootstrap draws can do (45_bootstrap_draw.md R150 to R154): the pieces they change, the faults they
raise, and that legal Wichmann-Hill seeds stay legal. -/

namespace Sys2Proof.Machine

/-! Seeds. -/

/-- A multiplicative congruential step with a prime modulus keeps a seed off 0 (45_bootstrap_draw.md R151). -/
theorem seed_step_pos {a m x : Nat} (hm : Nat.Prime m) (ha : ¬ m ∣ a) (hx : 1 ≤ x) (hxm : x < m) :
    1 ≤ a * x % m ∧ a * x % m ≤ m - 1 := by
  refine ⟨?_, by have := Nat.mod_lt (a * x) hm.pos; omega⟩
  rw [Nat.one_le_iff_ne_zero]
  intro h
  rcases (hm.dvd_mul).1 (Nat.dvd_of_mod_eq_zero h) with h | h
  · exact ha h
  · exact absurd (Nat.le_of_dvd (by omega) h) (by omega)

theorem whM1_prime : Nat.Prime whM1 := by norm_num [whM1]
theorem whM2_prime : Nat.Prime whM2 := by norm_num [whM2]
theorem whM3_prime : Nat.Prime whM3 := by norm_num [whM3]

theorem seed1_legal {x : Nat} (h : 1 ≤ x ∧ x ≤ 30268) : 1 ≤ 171 * x % whM1 ∧ 171 * x % whM1 ≤ 30268 :=
  seed_step_pos whM1_prime (by decide) h.1 (by have := h.2; simp only [whM1]; omega)
theorem seed2_legal {x : Nat} (h : 1 ≤ x ∧ x ≤ 30306) : 1 ≤ 172 * x % whM2 ∧ 172 * x % whM2 ≤ 30306 :=
  seed_step_pos whM2_prime (by decide) h.1 (by have := h.2; simp only [whM2]; omega)
theorem seed3_legal {x : Nat} (h : 1 ≤ x ∧ x ≤ 30322) : 1 ≤ 170 * x % whM3 ∧ 170 * x % whM3 ≤ 30322 :=
  seed_step_pos whM3_prime (by decide) h.1 (by have := h.2; simp only [whM3]; omega)

/-- `t` has legal seeds if `s` has. -/
def SeedsKept (s t : State) : Prop :=
  ((1 ≤ s.whS1 ∧ s.whS1 ≤ 30268) ∧ (1 ≤ s.whS2 ∧ s.whS2 ≤ 30306) ∧ (1 ≤ s.whS3 ∧ s.whS3 ≤ 30322)) →
    ((1 ≤ t.whS1 ∧ t.whS1 ≤ 30268) ∧ (1 ≤ t.whS2 ∧ t.whS2 ≤ 30306) ∧ (1 ≤ t.whS3 ∧ t.whS3 ≤ 30322))

theorem whAdvance_seeds (s : State) : SeedsKept s (whAdvance s) :=
  fun h => ⟨seed1_legal h.1, seed2_legal h.2.1, seed3_legal h.2.2⟩

/-- A draw is below `2^k` (45_bootstrap_draw.md R152). -/
theorem whNext_lt (k : Nat) (s : State) : (whNext k s).1 < 2 ^ k := by
  unfold whNext
  simp only [Nat.shiftLeft_eq]
  refine Nat.div_lt_of_lt_mul ?_
  exact Nat.mul_lt_mul_of_pos_right (Nat.mod_lt _ (by decide)) (Nat.two_pow_pos k)

/-! `RandInt`. -/

/-- `t` is `s` but for the pieces 45_bootstrap_draw.md R150 gives `RandInt`. -/
def RandIntFrame (s t : State) : Prop :=
  ∃ a b c sel rh rt i0 i1 i2 i3,
    t = { s with whS1 := a, whS2 := b, whS3 := c, foldSel := sel, rhash := rh, rtog := rt, idx0 := i0, idx1 := i1,
                 idx2 := i2, idx3 := i3 }

theorem RandIntFrame.refl (s : State) : RandIntFrame s s := ⟨_, _, _, _, _, _, _, _, _, _, rfl⟩

theorem RandIntFrame.trans {s t u : State} (h : RandIntFrame s t) (h' : RandIntFrame t u) : RandIntFrame s u := by
  obtain ⟨_, _, _, _, _, _, _, _, _, _, rfl⟩ := h
  obtain ⟨_, _, _, _, _, _, _, _, _, _, rfl⟩ := h'
  exact ⟨_, _, _, _, _, _, _, _, _, _, rfl⟩

theorem whNext_frame (k : Nat) (s : State) : RandIntFrame s (whNext k s).2 := ⟨_, _, _, _, _, _, _, _, _, _, rfl⟩

theorem setIdx0_frame (x : BitVec 32) (s : State) : RandIntFrame s { s with idx0 := x } :=
  ⟨_, _, _, _, _, _, _, _, _, _, rfl⟩
theorem setIdx1_frame (x : BitVec 32) (s : State) : RandIntFrame s { s with idx1 := x } :=
  ⟨_, _, _, _, _, _, _, _, _, _, rfl⟩
theorem setIdx2_frame (x : BitVec 32) (s : State) : RandIntFrame s { s with idx2 := x } :=
  ⟨_, _, _, _, _, _, _, _, _, _, rfl⟩
theorem setIdx3_frame (x : BitVec 32) (s : State) : RandIntFrame s { s with idx3 := x } :=
  ⟨_, _, _, _, _, _, _, _, _, _, rfl⟩

theorem walkByDraws_frame (s : State) : RandIntFrame s (walkByDraws s) := by
  unfold walkByDraws
  refine .trans ?_ (setIdx3_frame _ _)
  refine .trans ?_ (whNext_frame _ _)
  refine .trans ?_ (setIdx2_frame _ _)
  refine .trans ?_ (whNext_frame _ _)
  refine .trans ?_ (setIdx1_frame _ _)
  refine .trans ?_ (whNext_frame _ _)
  exact .trans (whNext_frame _ _) (setIdx0_frame _ _)

theorem walkIndices_frame (fw : Nat) (s : State) : RandIntFrame s (walkIndices fw s) := by
  unfold walkIndices; split
  · exact ⟨_, _, _, _, _, _, _, _, _, _, rfl⟩
  · exact walkByDraws_frame s

theorem walkIndices_seeds (fw : Nat) (s : State) : SeedsKept s (walkIndices fw s) := by
  unfold walkIndices; split
  · exact fun h => h
  · intro h
    exact whAdvance_seeds _ (whAdvance_seeds _ (whAdvance_seeds _ (whAdvance_seeds s h)))

/-- Everything `RandInt` can do when it returns: the indices were walked, the four fields were read, and `RHASH`, `RTOG`
and `FOLD_SEL` took the draw (45_bootstrap_draw.md R153). -/
theorem randInt_eq_ok {fw v : Nat} {s t : State} :
    randInt fw s = .ok v t ↔ ∃ a b c d,
      bitRead (walkIndices fw s) (walkIndices fw s).idx0.toNat fw = some a ∧
      bitRead (walkIndices fw s) (walkIndices fw s).idx1.toNat fw = some b ∧
      bitRead (walkIndices fw s) (walkIndices fw s).idx2.toNat fw = some c ∧
      bitRead (walkIndices fw s) (walkIndices fw s).idx3.toNat fw = some d ∧
      foldState (a * b + (c ^^^ d)) fw (absorbDraw (a * b + (c ^^^ d)) (walkIndices fw s)) = .ok v t := by
  unfold randInt
  simp only [Sub.bind_eq_ok, readField_eq_ok]
  constructor
  · rintro ⟨a, _, ⟨ha, rfl⟩, b, _, ⟨hb, rfl⟩, c, _, ⟨hc, rfl⟩, d, _, ⟨hd, rfl⟩, h⟩
    exact ⟨a, b, c, d, ha, hb, hc, hd, h⟩
  · rintro ⟨a, b, c, d, ha, hb, hc, hd, h⟩
    exact ⟨a, _, ⟨ha, rfl⟩, b, _, ⟨hb, rfl⟩, c, _, ⟨hc, rfl⟩, d, _, ⟨hd, rfl⟩, h⟩

/-- `RandInt` raises nothing but `E_UNINIT`, after the index walk and before anything else (60_exceptions.md R173). -/
theorem randInt_eq_raised {fw : Nat} {s t : State} {c : FaultCode} (h : randInt fw s = .raised c t) :
    c = .uninit ∧ t = walkIndices fw s := by
  unfold randInt at h
  simp only [Sub.bind_eq_raised, readField_eq_ok, readField_eq_raised] at h
  rcases h with ⟨-, h1, h2⟩ | ⟨a, _, ⟨-, rfl⟩, h⟩
  · exact ⟨h1, h2⟩
  rcases h with ⟨-, h1, h2⟩ | ⟨a, _, ⟨-, rfl⟩, h⟩
  · exact ⟨h1, h2⟩
  rcases h with ⟨-, h1, h2⟩ | ⟨a, _, ⟨-, rfl⟩, h⟩
  · exact ⟨h1, h2⟩
  rcases h with ⟨-, h1, h2⟩ | ⟨a, _, ⟨-, rfl⟩, h⟩
  · exact ⟨h1, h2⟩
  · simp [foldState] at h

theorem randInt_frame {fw v : Nat} {s t : State} (h : randInt fw s = .ok v t) : RandIntFrame s t := by
  obtain ⟨a, b, c, d, -, -, -, -, h⟩ := randInt_eq_ok.1 h
  simp only [foldState, Sub.ok.injEq] at h
  rw [← h.2]
  exact (walkIndices_frame fw s).trans ⟨_, _, _, _, _, _, _, _, _, _, rfl⟩

theorem randInt_seeds {fw v : Nat} {s t : State} (h : randInt fw s = .ok v t) : SeedsKept s t := by
  obtain ⟨a, b, c, d, -, -, -, -, h⟩ := randInt_eq_ok.1 h
  simp only [foldState, Sub.ok.injEq] at h
  rw [← h.2]
  exact walkIndices_seeds fw s

/-- A draw fits the field width (45_bootstrap_draw.md R153). -/
theorem randInt_lt {fw v : Nat} {s t : State} (h : randInt fw s = .ok v t) : v < 2 ^ fw := by
  obtain ⟨a, b, c, d, -, -, -, -, h⟩ := randInt_eq_ok.1 h
  simp only [foldState, Sub.ok.injEq] at h
  exact h.1 ▸ fold_lt _ _ _

/-! `Nrv`. -/

/-- Everything `Nrv` can do, whether it returns or raises: it changes hash instance `i`, and raises nothing but `E_UNINIT`
(45_bootstrap_draw.md R154). -/
theorem nrvRounds_end {i width : Nat} : ∀ {rounds e r : Nat} {s : State},
    (∃ v h, nrvRounds i width rounds e r s = .ok v (setHash i h s)) ∨
      (∃ h, nrvRounds i width rounds e r s = .raised .uninit (setHash i h s)) ∨
      (∃ v, nrvRounds i width rounds e r s = .ok v s) ∨ nrvRounds i width rounds e r s = .raised .uninit s
  | 0, _, _, _ => .inr (.inr (.inl ⟨_, rfl⟩))
  | rounds + 1, e, r, s => by
    unfold nrvRounds readField
    cases bitRead s (e &&& bitIndexMask s) width with
    | none => exact .inr (.inr (.inr rfl))
    | some v =>
      have again : ∀ g h : Hash, setHash i h (setHash i g s) = setHash i h s := fun g h => by
        simp [setHash]
      simp only [Sub.bind_ok]
      rcases nrvRounds_end (i := i) (width := width) (rounds := rounds)
        (e := e ^^^ (hashDigest s.hdepth (hashBytes s.w s.hdepth (ceilDiv width 8) v (hashAt s i)) &&& mask width))
        (r := r ^^^ (hashDigest s.hdepth (hashBytes s.w s.hdepth (ceilDiv width 8) v (hashAt s i)) &&& mask width))
        (s := setHash i (hashBytes s.w s.hdepth (ceilDiv width 8) v (hashAt s i)) s) with
        ⟨v', h, hh⟩ | ⟨h, hh⟩ | ⟨v', hh⟩ | hh
      · exact .inl ⟨v', h, by rw [hh, again]⟩
      · exact .inr (.inl ⟨h, by rw [hh, again]⟩)
      · exact .inl ⟨v', _, hh⟩
      · exact .inr (.inl ⟨_, hh⟩)

/-- The value of `Nrv` fits the width (45_bootstrap_draw.md R154). -/
theorem nrvRounds_lt {i width v : Nat} : ∀ {rounds e r : Nat} {s t : State}, r < 2 ^ width →
    nrvRounds i width rounds e r s = .ok v t → v < 2 ^ width
  | 0, _, _, _, _, hr, h => by simp only [nrvRounds, Sub.ok.injEq] at h; exact h.1 ▸ hr
  | rounds + 1, e, r, s, t, hr, h => by
    unfold nrvRounds at h
    obtain ⟨x, u, -, h⟩ := Sub.bind_eq_ok.1 h
    refine nrvRounds_lt (Nat.xor_lt_two_pow hr ?_) h
    rw [and_mask]; exact mod_two_pow_lt _ _

end Sys2Proof.Machine
end

