-- ==== Sys2Proof/Laws/HashSpec.lean ====
section
/-! SUPPORT. The hash kernel as Safety.lean writes it (42_hash.md R111 to R115), and the walks of the model. -/

namespace Sys2Proof.Machine

/-- Writing a slot changes that slot alone. -/
theorem slot_set {vec : List Nat} {i j x : Nat} (hi : i < vec.length) :
    slot (vec.set i x) j = if j = i then x else slot vec j := by
  unfold slot
  rw [List.getD_eq_getElem?_getD, List.getD_eq_getElem?_getD, List.getElem?_set]
  by_cases h : i = j
  · subst h; simp [hi]
  · rw [if_neg h, if_neg (fun e => h e.symm)]

theorem walkSlots_succ (hdepth p : Nat) (f : Nat → Nat → Nat) (k : Nat) (v : List Nat) :
    walkSlots hdepth p f (k + 1) v =
      (walkSlots hdepth p f k v).set ((p + 1 + k) % hdepth)
        (f k (slot (walkSlots hdepth p f k v) ((p + 1 + k) % hdepth))) := by
  unfold walkSlots; rw [List.range_succ, List.foldl_append]; rfl

theorem walkSlots_length (hdepth p : Nat) (f : Nat → Nat → Nat) (k : Nat) (v : List Nat) :
    (walkSlots hdepth p f k v).length = v.length := by
  induction k with
  | zero => rfl
  | succ k ih => rw [walkSlots_succ, List.length_set, ih]

/-- The vectors the model's walk passes through are a walk in the sense of Safety.lean, for any slot function that agrees
with the model's on slots of `w` bits. -/
theorem walkSlots_walk {hdepth p w : Nat} {f f' : Nat → Nat → Nat} {count : Nat} {v : List Nat} (hd : 1 ≤ hdepth)
    (hl : hdepth ≤ v.length) (hv : ∀ x ∈ v, x < 2 ^ w) (hf : ∀ k x, x < 2 ^ w → f k x < 2 ^ w)
    (he : ∀ k x, x < 2 ^ w → f k x = f' k x) :
    WalkOf hdepth p count f' (fun k j => slot (walkSlots hdepth p f k v) j) := by
  intro k _ j
  have hi : (p + 1 + k) % hdepth < (walkSlots hdepth p f k v).length := by
    rw [walkSlots_length]; exact Nat.lt_of_lt_of_le (Nat.mod_lt _ hd) hl
  simp only [walkSlots_succ, slot_set hi]
  split
  · subst j; exact he _ _ (slot_lt (walkSlots_legal hf k hv).2 _)
  · rfl

/-- The eight-slot walk in arithmetic (42_hash.md R112). -/
theorem shiftSlot_eq (w b k x : Nat) : shiftSlot w b k x = walkedSlot w b k x := by
  unfold shiftSlot walkedSlot
  simp only [bitAt_eq, and_mask, Nat.shiftLeft_eq, Nat.shiftRight_eq_div_pow, Nat.and_one_is_mod, Nat.pow_one,
    Nat.mul_comm x 2]

/-- The rotations of HASH1 in arithmetic (42_hash.md R113). -/
theorem rotateSlot_eq {w d k x : Nat} (hw : 1 ≤ w) (hx : x < 2 ^ w) : rotateSlot w d k x = rotatedSlot w d k x := by
  obtain ⟨m, rfl⟩ : ∃ m, w = m + 1 := ⟨w - 1, by omega⟩
  unfold rotateSlot rotatedSlot
  simp only [bitAt_eq, rotl1, rotr1, and_mask, Nat.shiftLeft_eq, Nat.shiftRight_eq_div_pow, Nat.and_one_is_mod,
    Nat.pow_one, Nat.mul_comm x 2, Nat.add_sub_cancel]
  have hp : 2 ^ (m + 1) = 2 * 2 ^ m := by rw [Nat.pow_succ, Nat.mul_comm]
  have e1 : 2 * x % 2 ^ (m + 1) = 2 * (x % 2 ^ m) := by rw [hp, Nat.mul_mod_mul_left]
  have e2 : x / 2 ^ m < 2 := by rw [Nat.div_lt_iff_lt_mul (Nat.two_pow_pos m)]; omega
  have e3 : x / 2 < 2 ^ m := by omega
  split
  · rw [e1]
    have := Nat.two_pow_add_eq_or_of_lt (i := 1) (b := x / 2 ^ m) e2 (x % 2 ^ m)
    simpa [Nat.mul_comm] using this.symm
  · have := Nat.two_pow_add_eq_or_of_lt (i := m) (b := x / 2) e3 (x % 2)
    rw [Nat.or_comm, Nat.mul_comm (x % 2), ← this]; omega

/-- The digest is the XOR of the used slots (42_hash.md R111). -/
theorem hashDigest_eq (hdepth : Nat) (h : Hash) :
    hashDigest hdepth h = (List.range hdepth).foldl (fun a j => a ^^^ slot h.vec j) 0 := by
  unfold hashDigest
  induction hdepth with
  | zero => rfl
  | succ k ih =>
    rw [List.range_succ, List.foldl_append, ← ih]
    simp only [List.foldl_cons, List.foldl_nil]
    by_cases hk : k < h.vec.length
    · rw [List.take_succ_eq_append_getElem hk, List.foldl_append]
      simp [slot, hk]
    · rw [List.take_of_length_le (by omega), List.take_of_length_le (by omega)]
      simp [slot, hk]

/-- The bytes are consumed least significant first (42_hash.md R115, 20_memory.md R60). -/
theorem hashBytes_eq (w hdepth : Nat) : ∀ (l v : Nat) (h : Hash),
    hashBytes w hdepth l v h = consumedBytes w hdepth l v h
  | 0, _, _ => rfl
  | l + 1, v, h => by
    rw [hashBytes, hashBytes_eq w hdepth l, consumedBytes, consumedBytes, List.range_succ_eq_map, List.foldl_cons,
      List.foldl_map]
    have e : v &&& 0xFF = v / 256 ^ 0 % 256 := by
      rw [show (0xFF : Nat) = 2 ^ 8 - 1 from rfl, Nat.and_two_pow_sub_one_eq_mod]; simp
    rw [e]
    congr 1
    funext g t
    rw [Nat.shiftRight_eq_div_pow, Nat.div_div_eq_div_mul, show (2 : Nat) ^ 8 = 256 from rfl, Nat.succ_eq_add_one,
      Nat.pow_succ, Nat.mul_comm]

end Sys2Proof.Machine
end

