-- ==== Sys2Proof/Laws/BootstrapSpec.lean ====
section
/-! SUPPORT. The bootstrap draws as Safety.lean writes them (45_bootstrap_draw.md R151 to R154), and the model's. -/

namespace Sys2Proof.Machine

/-- The scaled draw in closed form (45_bootstrap_draw.md R151, R152). -/
theorem whNext_eq (s : State) (k : Nat) : (whNext k s).1 = whDrawn s 1 k := by
  simp [whNext, whDrawn, whNumerator, whAdvance, whM1, whM2, whM3, whMM, Nat.shiftLeft_eq]

/-- Draw `j` after one step is draw `j + 1`. -/
theorem whDrawn_whAdvance (s : State) (j k : Nat) : whDrawn (whAdvance s) j k = whDrawn s (j + 1) k := by
  have h : ∀ a m x j : Nat, a ^ j * (a * x % m) % m = a ^ (j + 1) * x % m := by
    intro a m x j
    rw [Nat.mul_mod, Nat.mod_mod, ← Nat.mul_mod, Nat.pow_succ, Nat.mul_assoc]
  simp only [whDrawn, whAdvance, whM1, whM2, whM3, h]

/-- The index walk in closed form (45_bootstrap_draw.md R153). -/
theorem walkIndices_eq {s : State} (ht : TableSized s) (fw : Nat) : walkIndices fw s = walkedIndices fw s := by
  unfold walkIndices walkedIndices
  cases hr : s.rtog with
  | true =>
    simp only [if_true, Bool.true_eq_false, if_false]
    have h0 : rotrWord s.rhash (16 * 0) = s.rhash := by simp [rotrWord]
    have h1 : rotrWord s.rhash (16 * 1) = s.rhash.rotateRight 16 := rfl
    have h2 : rotrWord s.rhash (16 * 2) = s.rhash.rotateRight 32 := rfl
    have h3 : rotrWord s.rhash (16 * 3) = s.rhash.rotateRight 48 := rfl
    simp only [walkByHash, mixedIndex, movedIndex, and_bitIndexMask ht, h0, h1, h2, h3, hr]
  | false =>
    simp only [Bool.false_eq_true, if_false, if_true]
    unfold walkByDraws
    have e : ∀ k (u : State), (whNext k u).2 = whAdvance u := fun _ _ => rfl
    simp only [whNext_eq, e, movedIndex, and_bitIndexMask ht, indexBits]
    have a4 : ∀ a m x : Nat, a * (a * (a * (a * x % m) % m) % m) % m = a ^ 4 * x % m := by
      intro a m x
      simp only [Nat.mul_mod_mod]; congr 1; ring
    simp only [← whDrawn_whAdvance]
    simp only [whAdvance, a4, whM1, whM2, whM3, hr]
    congr 1

/-- In a full table every field is written. -/
theorem fieldWritten_of_full {s : State} (ht : TableSized s) (h : TableFull s) (b n : Nat) : FieldWritten s b n := by
  intro t _
  refine h _ (Nat.mod_lt _ ?_)
  have := bitSize_eq_words ht; have := bitSize_pos ht; omega

theorem bitRead_eq_fieldValue {s : State} (ht : TableSized s) {b n : Nat} (h : FieldWritten s b n) (hn : n ≤ xw s) :
    bitRead s b n = some (fieldValue s b n) := by
  rw [bitRead_of_le hn]; exact bitReadExact_eq ht h

theorem bitRead_isSome {s : State} (ht : TableSized s) {b n : Nat} (h : FieldWritten s b n) :
    ∃ v, bitRead s b n = some v := by
  unfold bitRead; rw [bitReadExact_eq ht h]; exact ⟨_, rfl⟩

theorem bitRead_eq_none {s : State} (ht : TableSized s) {b n : Nat} (h : ¬ FieldWritten s b n) : bitRead s b n = none := by
  unfold bitRead; rw [bitReadExact_none ht h]

/-- Rounds that go through are the model's (45_bootstrap_draw.md R154). -/
theorem nrvRounds_of_rounds {i w : Nat} : ∀ (ds : List Nat) (e r : Nat) (s t : State), TableSized s →
    NrvRounds i w ds e s t → nrvRounds i w ds.length e r s = .ok (ds.foldl (· ^^^ ·) r) t
  | [], e, r, s, t, _, h => by simp only [NrvRounds] at h; subst h; rfl
  | d :: ds, e, r, s, t, hs, h => by
    obtain ⟨v, hv, hd, hrest⟩ := h
    rw [List.length_cons, nrvRounds, and_bitIndexMask hs, readField, hv]
    simp only [Sub.bind_ok, and_mask]
    rw [hashBytes_eq, show ceilDiv w 8 = (w + 7) / 8 from rfl, ← hd, List.foldl_cons]
    exact nrvRounds_of_rounds ds _ _ _ _ (by exact hs) hrest

/-- A value comes only from rounds that go through (45_bootstrap_draw.md R154). -/
theorem rounds_of_nrvRounds {i w : Nat} : ∀ (k e r v : Nat) (s t : State), TableSized s →
    nrvRounds i w k e r s = .ok v t → ∃ ds, ds.length = k ∧ NrvRounds i w ds e s t
  | 0, e, r, v, s, t, _, h => by simp only [nrvRounds, Sub.ok.injEq] at h; exact ⟨[], rfl, h.2⟩
  | k + 1, e, r, v, s, t, hs, h => by
    rw [nrvRounds, Sub.bind_eq_ok] at h
    obtain ⟨x, u, hx, h⟩ := h
    obtain ⟨hx, rfl⟩ := readField_eq_ok.1 hx
    obtain ⟨ds, hl, hr⟩ := rounds_of_nrvRounds k _ _ _ _ _ (by exact hs) h
    rw [and_bitIndexMask hs] at hx
    simp only [and_mask, hashBytes_eq, show ceilDiv w 8 = (w + 7) / 8 from rfl] at hr
    exact ⟨_ :: ds, by simp [hl], x, hx, rfl, hr⟩

end Sys2Proof.Machine
end

