-- ==== Sys2Proof/Laws/Composite.lean ====
section
/-! SUPPORT. What the composite engine can do (44_composite.md R140 to R142): the pieces it changes, the bound of its
value, and that it neither reads nor writes the ports. -/

namespace Sys2Proof.Machine

/-- `t` is `s` but for the sub-generators, `FOLD_SEL`, `CIDX` and `RCNT`, the pieces 44_composite.md R140 names. -/
def CompositeFrame (s t : State) : Prop :=
  ∃ gs hs sel ci rc, t = { s with gens := gs, hashes := hs, foldSel := sel, cidx := ci, rcnt := rc }

theorem CompositeFrame.refl (s : State) : CompositeFrame s s := ⟨_, _, _, _, _, rfl⟩

theorem CompositeFrame.trans {s t u : State} (h : CompositeFrame s t) (h' : CompositeFrame t u) : CompositeFrame s u := by
  obtain ⟨_, _, _, _, _, rfl⟩ := h
  obtain ⟨_, _, _, _, _, rfl⟩ := h'
  exact ⟨_, _, _, _, _, rfl⟩

/-- Where a sub-operation ends, with a value or with a fault. -/
def Sub.state {α : Type} : Sub α → State
  | .ok _ s => s
  | .raised _ s => s

theorem endNext_frame {top : Bool} {v : Option Nat} {k : Nat} {s : State} :
    CompositeFrame s (endNext top v k s).state := by
  unfold endNext recordRetries
  cases v <;> cases top <;> exact ⟨_, _, _, _, _, rfl⟩

theorem genNext_frame (i bw steps : Nat) (top : Bool) (s : State) : CompositeFrame s (genNext i bw steps top s).state := by
  obtain ⟨v, k, g, sel, h, -⟩ := genNext_shape (i := i) (bw := bw) (steps := steps) (top := top) (s := s)
  rw [h]
  exact CompositeFrame.trans ⟨_, _, _, _, _, rfl⟩ endNext_frame

theorem hashNext_frame (i bw steps : Nat) (top : Bool) (s : State) : CompositeFrame s (hashNext i bw steps top s).state := by
  obtain ⟨v, k, g, sel, h, -⟩ := hashNext_shape (i := i) (bw := bw) (steps := steps) (top := top) (s := s)
  rw [h]
  exact CompositeFrame.trans ⟨_, _, _, _, _, rfl⟩ endNext_frame

theorem subNext_frame (i bw : Nat) (s : State) : CompositeFrame s (subNext i bw s).state := by
  unfold subNext; split
  · exact genNext_frame i bw 1 false s
  · exact hashNext_frame i bw 1 false s

/-- A frame passes through a composition. -/
theorem Sub.bind_frame {α β : Type} {r : Sub α} {k : α → State → Sub β} {s : State} (hr : CompositeFrame s r.state)
    (hk : ∀ a u, r = .ok a u → CompositeFrame u (k a u).state) : CompositeFrame s (r.bind k).state := by
  cases r with
  | ok a u => exact hr.trans (hk a u rfl)
  | raised c u => exact hr

theorem foldState_frame (v w : Nat) (s : State) : CompositeFrame s (foldState v w s).state := ⟨_, _, _, _, _, rfl⟩

theorem compositeBit_frame (bw : Nat) (s : State) : CompositeFrame s (compositeBit bw s).state := by
  refine Sub.bind_frame (subNext_frame _ _ _) fun r s1 _ => ?_
  refine Sub.bind_frame ?_ fun v s2 _ => CompositeFrame.refl s2
  exact CompositeFrame.trans ⟨_, _, _, _, _, rfl⟩ (subNext_frame _ _ _)

theorem compositeBits_frame (bw : Nat) : ∀ (count p acc : Nat) (s : State),
    CompositeFrame s (compositeBits bw count p acc s).state
  | 0, _, _, s => CompositeFrame.refl s
  | count + 1, _, _, s => Sub.bind_frame (compositeBit_frame bw s) fun _ u _ => compositeBits_frame bw count _ _ u

theorem compositeAttempt_frame (bw steps : Nat) (s : State) : CompositeFrame s (compositeAttempt bw steps s).state :=
  Sub.bind_frame (compositeBits_frame bw _ _ _ s) fun _ u _ => foldState_frame _ _ u

theorem compositeLoop_frame (bw steps : Nat) : ∀ (left k : Nat) (s : State),
    CompositeFrame s (compositeLoop bw steps left k s).state
  | 0, _, s => Sub.bind_frame (compositeAttempt_frame bw steps s) fun _ _ _ => endNext_frame
  | left + 1, _, s => Sub.bind_frame (compositeAttempt_frame bw steps s) fun _ u _ => by
      split
      · exact compositeLoop_frame bw steps left _ u
      · exact endNext_frame

/-- Everything `CNext` can change, whether it returns or raises (44_composite.md R140). -/
theorem compositeNext_frame (bw steps : Nat) (s : State) : CompositeFrame s (compositeNext bw steps s).state :=
  compositeLoop_frame bw steps _ _ s

theorem compositeNext_ok_frame {bw steps v : Nat} {s t : State} (h : compositeNext bw steps s = .ok v t) :
    CompositeFrame s t := by have := compositeNext_frame bw steps s; rwa [h] at this

/-! `RCNT` is written by the composite's own loop alone, not by a sub-generator's retries nor by an attempt
(44_composite.md R141, R142). -/

theorem Sub.bind_rcnt {α β : Type} {r : Sub α} {k : α → State → Sub β} {s : State} (hr : r.state.rcnt = s.rcnt)
    (hk : ∀ a u, (k a u).state.rcnt = u.rcnt) : (r.bind k).state.rcnt = s.rcnt := by
  cases r with
  | ok a u => exact (hk a u).trans hr
  | raised c u => exact hr

theorem endNext_inner_rcnt (v : Option Nat) (k : Nat) (s : State) : (endNext false v k s).state.rcnt = s.rcnt := by
  cases v <;> rfl

theorem subNext_rcnt (i bw : Nat) (s : State) : (subNext i bw s).state.rcnt = s.rcnt := by
  unfold subNext
  split
  · exact endNext_inner_rcnt _ _ _
  · exact endNext_inner_rcnt _ _ _

theorem compositeBit_rcnt (bw : Nat) (s : State) : (compositeBit bw s).state.rcnt = s.rcnt :=
  Sub.bind_rcnt (subNext_rcnt _ _ _) fun _ _ => Sub.bind_rcnt (subNext_rcnt _ _ _) fun _ _ => rfl

theorem compositeBits_rcnt (bw : Nat) : ∀ (count p acc : Nat) (s : State),
    (compositeBits bw count p acc s).state.rcnt = s.rcnt
  | 0, _, _, _ => rfl
  | count + 1, _, _, s => Sub.bind_rcnt (compositeBit_rcnt bw s) fun _ u => compositeBits_rcnt bw count _ _ u

theorem compositeAttempt_rcnt (bw steps : Nat) (s : State) : (compositeAttempt bw steps s).state.rcnt = s.rcnt :=
  Sub.bind_rcnt (compositeBits_rcnt bw _ _ _ s) fun _ _ => rfl

/-! The faults: only `E_INTEGRITY` (44_composite.md R143). -/

theorem endNext_fault {top : Bool} {v : Option Nat} {k : Nat} {s t : State} {c : FaultCode}
    (h : endNext top v k s = .raised c t) : c = .integrity := (endNext_eq_raised.1 h).2.1

theorem genNext_fault {i bw steps : Nat} {top : Bool} {s t : State} {c : FaultCode}
    (h : genNext i bw steps top s = .raised c t) : c = .integrity := endNext_fault h

theorem hashNext_fault {i bw steps : Nat} {top : Bool} {s t : State} {c : FaultCode}
    (h : hashNext i bw steps top s = .raised c t) : c = .integrity := endNext_fault h

theorem subNext_fault {i bw : Nat} {s t : State} {c : FaultCode} (h : subNext i bw s = .raised c t) : c = .integrity := by
  unfold subNext at h; split at h
  · exact genNext_fault h
  · exact hashNext_fault h

theorem compositeBit_fault {bw : Nat} {s t : State} {c : FaultCode} (h : compositeBit bw s = .raised c t) :
    c = .integrity := by
  unfold compositeBit at h
  rcases Sub.bind_eq_raised.1 h with h | ⟨r, u, -, h⟩
  · exact subNext_fault h
  · rcases Sub.bind_eq_raised.1 h with h | ⟨r, u, -, h⟩
    · exact subNext_fault h
    · simp at h

theorem compositeBits_fault {bw : Nat} : ∀ {count p acc : Nat} {s t : State} {c : FaultCode},
    compositeBits bw count p acc s = .raised c t → c = .integrity
  | 0, _, _, _, _, _, h => by simp [compositeBits] at h
  | count + 1, _, _, _, _, _, h => by
    unfold compositeBits at h
    rcases Sub.bind_eq_raised.1 h with h | ⟨r, u, -, h⟩
    · exact compositeBit_fault h
    · exact compositeBits_fault h

theorem compositeAttempt_fault {bw steps : Nat} {s t : State} {c : FaultCode}
    (h : compositeAttempt bw steps s = .raised c t) : c = .integrity := by
  unfold compositeAttempt at h
  rcases Sub.bind_eq_raised.1 h with h | ⟨r, u, -, h⟩
  · exact compositeBits_fault h
  · simp [foldState] at h

theorem compositeLoop_fault {bw steps : Nat} : ∀ {left k : Nat} {s t : State} {c : FaultCode},
    compositeLoop bw steps left k s = .raised c t → c = .integrity
  | 0, _, _, _, _, h => by
    unfold compositeLoop at h
    rcases Sub.bind_eq_raised.1 h with h | ⟨r, u, -, h⟩
    · exact compositeAttempt_fault h
    · exact endNext_fault h
  | left + 1, _, _, _, _, h => by
    unfold compositeLoop at h
    rcases Sub.bind_eq_raised.1 h with h | ⟨r, u, -, h⟩
    · exact compositeAttempt_fault h
    · split at h
      · exact compositeLoop_fault h
      · exact endNext_fault h

/-- `CNext` raises nothing but `E_INTEGRITY` (44_composite.md R143). -/
theorem compositeNext_fault {bw steps : Nat} {s t : State} {c : FaultCode} (h : compositeNext bw steps s = .raised c t) :
    c = .integrity := compositeLoop_fault h

/-! The value. -/

theorem compositeAttempt_lt {bw steps v : Nat} {s t : State} (h : compositeAttempt bw steps s = .ok v t) : v < 2 ^ bw := by
  unfold compositeAttempt at h
  obtain ⟨acc, u, -, h⟩ := Sub.bind_eq_ok.1 h
  simp only [foldState, Sub.ok.injEq] at h
  exact h.1 ▸ fold_lt _ _ _

theorem compositeLoop_value {bw steps v : Nat} {t : State} : ∀ {left k : Nat} {s : State},
    compositeLoop bw steps left k s = .ok v t → v < 2 ^ bw ∧ rejected bw v t = false
  | 0, _, s, h => by
    unfold compositeLoop at h
    obtain ⟨r, u, ha, h⟩ := Sub.bind_eq_ok.1 h
    obtain ⟨h1, h2⟩ := endNext_eq_ok.1 h
    split at h1
    · simp at h1
    · next hr =>
      simp only [Option.some.injEq] at h1
      subst h1 h2
      exact ⟨compositeAttempt_lt ha, by simpa [rejected] using hr⟩
  | left + 1, _, s, h => by
    unfold compositeLoop at h
    obtain ⟨r, u, ha, h⟩ := Sub.bind_eq_ok.1 h
    split at h
    · exact compositeLoop_value h
    · next hr =>
      obtain ⟨h1, h2⟩ := endNext_eq_ok.1 h
      simp only [Option.some.injEq] at h1
      subst h1 h2
      exact ⟨compositeAttempt_lt ha, by simpa [rejected] using hr⟩

/-- The value of `CNext` fits the width, and with `CCHK = 1` is not degenerate (44_composite.md R142). -/
theorem compositeNext_value {bw steps v : Nat} {s t : State} (h : compositeNext bw steps s = .ok v t) :
    v < 2 ^ bw ∧ (s.cchk = true → degenerate bw v = false) := by
  obtain ⟨h1, h2⟩ := compositeLoop_value h
  refine ⟨h1, fun hc => ?_⟩
  obtain ⟨_, _, _, _, _, rfl⟩ := compositeNext_ok_frame h
  simpa [rejected, hc] using h2

/-! The ports and the latch play no part (44_composite.md R140, R144: "The keystream byte does not depend on the data
byte"). -/

/-- Other values on the ports, in the latch and in the host's list. -/
def withPorts (p : List (CmdWord × Nat)) (c : CmdWord) (d o r : Nat) (s : State) : State :=
  { s with pending := p, cmd := c, din := d, dout := o, res := r }

/-- A sub-operation with its end state changed. -/
def Sub.mapState {α : Type} (f : State → State) : Sub α → Sub α
  | .ok v s => .ok v (f s)
  | .raised c s => .raised c (f s)

variable (p : List (CmdWord × Nat)) (c : CmdWord) (d o r : Nat)

theorem endNext_ports (top : Bool) (v : Option Nat) (k : Nat) (s : State) :
    endNext top v k (withPorts p c d o r s) = (endNext top v k s).mapState (withPorts p c d o r) := by
  unfold endNext; cases v <;> cases top <;> rfl

theorem genNext_ports (i bw steps : Nat) (top : Bool) (s : State) :
    genNext i bw steps top (withPorts p c d o r s) = (genNext i bw steps top s).mapState (withPorts p c d o r) := by
  have h := fun e : DrawEnd Gen => endNext_ports p c d o r top e.value e.retries (setFoldSel e.sel (setGen i e.inst s))
  exact h (drawLoop (genStep s.w s.depth) s.w bw steps s.retryMax.toNat 0 (genAt s i) s.foldSel)

theorem hashNext_ports (i bw steps : Nat) (top : Bool) (s : State) :
    hashNext i bw steps top (withPorts p c d o r s) = (hashNext i bw steps top s).mapState (withPorts p c d o r) := by
  have h := fun e : DrawEnd Hash => endNext_ports p c d o r top e.value e.retries (setFoldSel e.sel (setHash i e.inst s))
  exact h (drawLoop (hashStep s.w s.hdepth) s.w bw steps s.retryMax.toNat 0 (hashAt s i) s.foldSel)

theorem subNext_ports (i bw : Nat) (s : State) :
    subNext i bw (withPorts p c d o r s) = (subNext i bw s).mapState (withPorts p c d o r) := by
  have hm : (withPorts p c d o r s).mode = s.mode := rfl
  unfold subNext
  rw [hm]
  cases s.mode
  · exact genNext_ports p c d o r i bw 1 false s
  · exact hashNext_ports p c d o r i bw 1 false s

theorem Sub.bind_ports {α β : Type} {q q' : Sub α} {k : α → State → Sub β} {f : State → State} (hq : q' = q.mapState f)
    (hk : ∀ a u, k a (f u) = (k a u).mapState f) : q'.bind k = (q.bind k).mapState f := by
  subst hq; cases q <;> simp [Sub.bind, Sub.mapState, hk]

theorem compositeBit_ports (bw : Nat) (s : State) :
    compositeBit bw (withPorts p c d o r s) = (compositeBit bw s).mapState (withPorts p c d o r) := by
  unfold compositeBit
  refine Sub.bind_ports (subNext_ports p c d o r _ bw s) fun a u => ?_
  exact Sub.bind_ports (subNext_ports p c d o r _ bw (advanceCidx u)) fun _ _ => rfl

theorem compositeBits_ports (bw : Nat) : ∀ (count q acc : Nat) (s : State),
    compositeBits bw count q acc (withPorts p c d o r s) =
      (compositeBits bw count q acc s).mapState (withPorts p c d o r)
  | 0, _, _, _ => rfl
  | count + 1, _, _, s => Sub.bind_ports (compositeBit_ports p c d o r bw s) fun _ u => compositeBits_ports bw count _ _ u

theorem compositeAttempt_ports (bw steps : Nat) (s : State) :
    compositeAttempt bw steps (withPorts p c d o r s) = (compositeAttempt bw steps s).mapState (withPorts p c d o r) :=
  Sub.bind_ports (compositeBits_ports p c d o r bw _ _ _ s) fun _ _ => rfl

theorem compositeLoop_ports (bw steps : Nat) : ∀ (left k : Nat) (s : State),
    compositeLoop bw steps left k (withPorts p c d o r s) =
      (compositeLoop bw steps left k s).mapState (withPorts p c d o r)
  | 0, k, s => Sub.bind_ports (compositeAttempt_ports p c d o r bw steps s) fun _ u => endNext_ports p c d o r true _ k u
  | left + 1, k, s => Sub.bind_ports (compositeAttempt_ports p c d o r bw steps s) fun a u => by
      have hr : rejected bw a (withPorts p c d o r u) = rejected bw a u := rfl
      rw [hr]
      split
      · exact compositeLoop_ports bw steps left _ u
      · exact endNext_ports p c d o r true _ k u

/-- `CNext` neither reads nor writes the ports, the latch or the host's list. -/
theorem compositeNext_ports (bw steps : Nat) (s : State) :
    compositeNext bw steps (withPorts p c d o r s) = (compositeNext bw steps s).mapState (withPorts p c d o r) :=
  compositeLoop_ports p c d o r bw steps _ _ s

end Sys2Proof.Machine
end

