-- ==== Sys2Proof/Laws/CompositeSpec.lean ====
section
/-! SUPPORT. The composite engine as Safety.lean writes it (44_composite.md R142), and the loops of the model. -/

namespace Sys2Proof.Machine

/-- The selector's low bits choose a position below `bw` (44_composite.md R142). -/
theorem and_pred_two_pow {bw : Nat} (hb : ∃ k, bw = 2 ^ k) (r : Nat) : r &&& (bw - 1) = r % bw := by
  obtain ⟨k, rfl⟩ := hb
  exact Nat.and_two_pow_sub_one_eq_mod r k

/-- One bit position (44_composite.md R142): a selector draw, the cursor, a source draw. -/
theorem compositeBit_eq_ok {bw b : Nat} {s t : State} (hb : ∃ k, bw = 2 ^ k) :
    compositeBit bw s = .ok b t ↔ ∃ selector s1 v,
      subNext (s.n - 1) bw s = .ok selector s1 ∧
      subNext s1.cidx bw { s1 with cidx := (s1.cidx + 1) % (s1.n - 1) } = .ok v t ∧
      b = v / 2 ^ (selector % bw) % 2 := by
  unfold compositeBit
  simp only [Sub.bind_eq_ok, Sub.ok.injEq, bitAt_eq, and_pred_two_pow hb]
  constructor
  · rintro ⟨r, s1, h1, v, s2, h2, rfl, rfl⟩; exact ⟨r, s1, v, h1, h2, rfl⟩
  · rintro ⟨r, s1, v, h1, h2, rfl⟩; exact ⟨r, s1, h1, v, t, h2, rfl, rfl⟩

/-- The bits are XORed in at rising positions, which places them (44_composite.md R142). -/
theorem compositeBits_eq_ok {bw : Nat} (hb : ∃ k, bw = 2 ^ k) : ∀ {count p acc a : Nat} {s t : State},
    compositeBits bw count p acc s = .ok a t ↔
      ∃ bits, bits.length = count ∧ BitsFrom bw bits s t ∧ a = acc ^^^ (numberOfBits bits <<< p)
  | 0, p, acc, a, s, t => by
    simp only [compositeBits, Sub.ok.injEq, List.length_eq_zero_iff]
    constructor
    · rintro ⟨rfl, rfl⟩; exact ⟨[], rfl, rfl, by simp [numberOfBits]⟩
    · rintro ⟨_, rfl, h, rfl⟩; exact ⟨by simp [numberOfBits], h⟩
  | count + 1, p, acc, a, s, t => by
    have place : ∀ b n : Nat, b < 2 → acc ^^^ (b <<< p) ^^^ (n <<< (p + 1)) = acc ^^^ ((b + 2 * n) <<< p) := by
      intro b n hlt
      have e : b + 2 * n = (n <<< 1) ^^^ b := by
        rw [Nat.shiftLeft_eq, Nat.pow_one, Nat.add_comm, Nat.mul_comm n 2]
        have h := Nat.two_pow_add_eq_or_of_lt (i := 1) (b := b) (by omega) n
        rw [Nat.pow_one] at h
        rw [h]
        refine Nat.eq_of_testBit_eq fun i => ?_
        rcases i with _ | i
        · simp
        · have : b.testBit (i + 1) = false := Nat.testBit_lt_two_pow (Nat.lt_of_lt_of_le hlt (by
            rw [Nat.pow_succ]; have := Nat.two_pow_pos i; omega))
          simp [this]
      rw [e, Nat.shiftLeft_xor_distrib, ← Nat.shiftLeft_add, Nat.add_comm 1 p, Nat.xor_assoc,
        Nat.xor_comm (n <<< (p + 1))]
    rw [compositeBits, Sub.bind_eq_ok]
    simp only [compositeBit_eq_ok hb, compositeBits_eq_ok hb (count := count)]
    constructor
    · rintro ⟨b, u, ⟨sel, s1, v, h1, h2, hbit⟩, bits, hl, hf, rfl⟩
      refine ⟨b :: bits, by simp [hl], ⟨sel, s1, v, u, h1, h2, hbit, hf⟩, ?_⟩
      rw [numberOfBits, place _ _ (by rw [hbit]; exact Nat.mod_lt _ (by decide))]
    · rintro ⟨_ | ⟨b, bits⟩, hl, hf, rfl⟩
      · simp at hl
      · obtain ⟨sel, s1, v, u, h1, h2, hbit, hf⟩ := hf
        refine ⟨b, u, ⟨sel, s1, v, h1, h2, hbit⟩, bits, by simpa using hl, hf, ?_⟩
        rw [numberOfBits, place _ _ (by rw [hbit]; exact Nat.mod_lt _ (by decide))]

theorem compositeAttempt_eq_ok {bw steps r : Nat} (hb : ∃ k, bw = 2 ^ k) {s t : State} :
    compositeAttempt bw steps s = .ok r t ↔ Attempt bw steps s r t := by
  unfold compositeAttempt Attempt
  simp only [Sub.bind_eq_ok, foldState, Sub.ok.injEq, compositeBits_eq_ok hb, Nat.shiftLeft_zero, Nat.zero_xor]
  constructor
  · rintro ⟨a, u, ⟨bits, hl, hf, rfl⟩, rfl, rfl⟩; exact ⟨bits, u, hl, hf, rfl, rfl⟩
  · rintro ⟨bits, u, hl, hf, rfl, rfl⟩; exact ⟨_, u, ⟨bits, hl, hf, rfl⟩, rfl, rfl⟩

/-- No attempt writes `CCHK`. -/
theorem Attempt.cchk {bw steps r : Nat} (hb : ∃ k, bw = 2 ^ k) {s t : State} (h : Attempt bw steps s r t) :
    t.cchk = s.cchk := by
  have hf := compositeAttempt_frame bw steps s
  rw [(compositeAttempt_eq_ok hb).2 h] at hf
  obtain ⟨_, _, _, _, _, rfl⟩ := hf
  rfl

theorem rejected_iff {bw r : Nat} {s : State} : rejected bw r s = true ↔ s.cchk = true ∧ Degenerate bw r := by
  unfold rejected; rw [Bool.and_eq_true, degenerate_iff]

/-- The loop returns its first accepted attempt (44_composite.md R142). -/
theorem compositeLoop_of_draws {bw steps : Nat} (hb : ∃ k, bw = 2 ^ k) : ∀ {left k0 k r : Nat} {s t : State},
    k ≤ left →
      CompositeDraws bw steps s k r t → compositeLoop bw steps left k0 s = .ok r (recordRetries (k0 + k) t)
  | left, k0, 0, r, s, t, _, h => by
    obtain ⟨u, rfl, ha, hacc⟩ := h
    have hrej : rejected bw r t = false := by
      rw [Bool.eq_false_iff]; intro hr
      have := rejected_iff.1 hr
      exact hacc ((ha.cchk hb).symm.trans this.1) this.2
    cases left <;> simp [compositeLoop, (compositeAttempt_eq_ok hb).2 ha, hrej, endNext]
  | left + 1, k0, k + 1, r, s, t, hk, h => by
    obtain ⟨u, ⟨r', u', ha, hc, hd, hrest⟩, ha', hacc⟩ := h
    have hrej : rejected bw r' u' = true := rejected_iff.2 ⟨(ha.cchk hb).trans hc, hd⟩
    rw [compositeLoop, (compositeAttempt_eq_ok hb).2 ha, Sub.bind_ok, if_pos hrej,
      compositeLoop_of_draws hb (k := k) (by omega) ⟨u, hrest, ha', fun h => hacc ((ha.cchk hb).symm.trans h)⟩]
    congr 2; omega

/-- The loop is exhausted after `left + 1` rejected attempts (44_composite.md R142). -/
theorem compositeLoop_of_rejected {bw steps : Nat} (hb : ∃ k, bw = 2 ^ k) : ∀ {left k0 : Nat} {s t : State},
    RejectedAttempts bw steps (left + 1) s t →
      compositeLoop bw steps left k0 s = .raised .integrity (recordRetries (k0 + left) t)
  | 0, k0, s, t, h => by
    obtain ⟨r, u, ha, hc, hd, rfl⟩ := h
    have hrej : rejected bw r u = true := rejected_iff.2 ⟨(ha.cchk hb).trans hc, hd⟩
    simp [compositeLoop, (compositeAttempt_eq_ok hb).2 ha, hrej, endNext]
  | left + 1, k0, s, t, h => by
    obtain ⟨r, u, ha, hc, hd, hrest⟩ := h
    have hrej : rejected bw r u = true := rejected_iff.2 ⟨(ha.cchk hb).trans hc, hd⟩
    rw [compositeLoop, (compositeAttempt_eq_ok hb).2 ha, Sub.bind_ok, if_pos hrej, compositeLoop_of_rejected hb hrest]
    congr 2; omega

/-- The loop raises for one of two reasons: every attempt was rejected, and `RCNT` is the number of retries; or a
sub-generator ended its draws, and `RCNT` is as before (44_composite.md R142). -/
theorem compositeLoop_raised {bw steps : Nat} (hb : ∃ k, bw = 2 ^ k) : ∀ {left k0 : Nat} {s t : State} {c : FaultCode},
    compositeLoop bw steps left k0 s = .raised c t →
      (∃ u, RejectedAttempts bw steps (left + 1) s u ∧ t = recordRetries (k0 + left) u) ∨ t.rcnt = s.rcnt
  | left, k0, s, t, c, h => by
    have hrc := compositeAttempt_rcnt bw steps s
    cases left with
    | zero =>
      rw [compositeLoop, Sub.bind_eq_raised] at h
      rcases h with h | ⟨r, u, ha, h⟩
      · rw [h] at hrc; exact .inr hrc
      · rw [compositeAttempt_eq_ok hb] at ha
        cases hrej : rejected bw r u with
        | true =>
          simp only [hrej, endNext, if_true, Sub.raised.injEq] at h
          have hc := rejected_iff.1 hrej
          exact .inl ⟨u, ⟨r, u, ha, (ha.cchk hb).symm.trans hc.1, hc.2, rfl⟩, h.2.symm⟩
        | false => simp [hrej, endNext] at h
    | succ left =>
      rw [compositeLoop, Sub.bind_eq_raised] at h
      rcases h with h | ⟨r, u, ha, h⟩
      · rw [h] at hrc; exact .inr hrc
      · rw [ha] at hrc
        rw [compositeAttempt_eq_ok hb] at ha
        cases hrej : rejected bw r u with
        | true =>
          rw [if_pos hrej] at h
          rcases compositeLoop_raised hb h with ⟨v, hv, rfl⟩ | hv
          · have hc := rejected_iff.1 hrej
            exact .inl ⟨v, ⟨r, u, ha, (ha.cchk hb).symm.trans hc.1, hc.2, hv⟩, by congr 1; omega⟩
          · exact .inr (hv.trans hrc)
        | false =>
          rw [if_neg (by simp [hrej])] at h
          simp [endNext] at h

/-! The keystream depends on no port (44_composite.md R144). -/

section

variable (p : List (CmdWord × Nat)) (c : CmdWord) (d o : Nat) (l : Nat)

theorem Attempt.ports {bw steps r : Nat} (hb : ∃ k, bw = 2 ^ k) {s t : State} (h : Attempt bw steps s r t) :
    Attempt bw steps (withPorts p c d o l s) r (withPorts p c d o l t) := by
  rw [← compositeAttempt_eq_ok hb] at h ⊢
  rw [compositeAttempt_ports, h]; rfl

theorem RejectedAttempts.ports {bw steps : Nat} (hb : ∃ k, bw = 2 ^ k) : ∀ {k : Nat} {s t : State},
    RejectedAttempts bw steps k s t → RejectedAttempts bw steps k (withPorts p c d o l s) (withPorts p c d o l t)
  | 0, _, _, h => congrArg (withPorts p c d o l) h
  | _ + 1, _, _, ⟨r, u, ha, hc, hd, hr⟩ => ⟨r, withPorts p c d o l u, ha.ports p c d o l hb, hc, hd, hr.ports hb⟩

/-- The accepted attempt, its value and the number of rejected ones are the same whatever the ports hold. -/
theorem CompositeDraws.ports {bw steps k r : Nat} (hb : ∃ k, bw = 2 ^ k) {s t : State}
    (h : CompositeDraws bw steps s k r t) : CompositeDraws bw steps (withPorts p c d o l s) k r (withPorts p c d o l t) :=
  let ⟨u, hu, ha, hacc⟩ := h
  ⟨withPorts p c d o l u, hu.ports p c d o l hb, ha.ports p c d o l hb, hacc⟩

end

/-- No attempt writes the ports, the latch or the host's list. -/
theorem CompositeDraws.frame {bw steps k r : Nat} (hb : ∃ k, bw = 2 ^ k) {s t : State}
    (h : CompositeDraws bw steps s k r t) : CompositeFrame s t := by
  have attempt : ∀ {r : Nat} {s t : State}, Attempt bw steps s r t → CompositeFrame s t := fun {r s t} ha => by
    have hf := compositeAttempt_frame bw steps s
    rwa [(compositeAttempt_eq_ok hb).2 ha] at hf
  have rejects : ∀ {k : Nat} {s t : State}, RejectedAttempts bw steps k s t → CompositeFrame s t := by
    intro k
    induction k with
    | zero => rintro s t rfl; exact .refl s
    | succ k ih => rintro s t ⟨r, u, ha, -, -, hr⟩; exact (attempt ha).trans (ih hr)
  obtain ⟨u, hu, ha, -⟩ := h
  exact (rejects hu).trans (attempt ha)

/-- A value comes only from an accepted attempt (44_composite.md R142). -/
theorem compositeLoop_draws {bw steps : Nat} (hb : ∃ k, bw = 2 ^ k) : ∀ {left k0 r : Nat} {s t : State},
    compositeLoop bw steps left k0 s = .ok r t → ∃ k u, k ≤ left ∧ CompositeDraws bw steps s k r u
  | left, k0, r, s, t, h => by
    have accepted : ∀ {r' : Nat} {u : State}, Attempt bw steps s r' u → rejected bw r' u = false →
        CompositeDraws bw steps s 0 r' u := fun ha hr =>
      ⟨s, rfl, ha, fun hc hd => by
        rw [rejected_iff.2 ⟨(ha.cchk hb).trans hc, hd⟩] at hr; simp at hr⟩
    cases left with
    | zero =>
      rw [compositeLoop, Sub.bind_eq_ok] at h
      obtain ⟨r', u, ha, h⟩ := h
      rw [compositeAttempt_eq_ok hb] at ha
      cases hrej : rejected bw r' u with
      | true => simp [hrej, endNext] at h
      | false =>
        simp only [hrej, endNext, Bool.false_eq_true, if_false, Sub.ok.injEq] at h
        exact ⟨0, u, Nat.le_refl 0, h.1 ▸ accepted ha hrej⟩
    | succ left =>
      rw [compositeLoop, Sub.bind_eq_ok] at h
      obtain ⟨r', u, ha, h⟩ := h
      rw [compositeAttempt_eq_ok hb] at ha
      cases hrej : rejected bw r' u with
      | true =>
        rw [if_pos hrej] at h
        obtain ⟨k, v, hk, v', hv, hv', hacc⟩ := compositeLoop_draws hb h
        have hc := rejected_iff.1 hrej
        exact ⟨k + 1, v, by omega, v', ⟨r', u, ha, (ha.cchk hb).symm.trans hc.1, hc.2, hv⟩, hv',
          fun h => hacc ((ha.cchk hb).trans h)⟩
      | false =>
        rw [if_neg (by simp [hrej])] at h
        simp only [endNext, Sub.ok.injEq] at h
        exact ⟨0, u, Nat.zero_le _, h.1 ▸ accepted ha hrej⟩

end Sys2Proof.Machine
end

