-- ==== Sys2Proof/Laws/Operands.lean ====
section
/-! SUPPORT. What reading and writing a configuration register or an instance field can do, said once: the checks raise
before anything is written (60_exceptions.md R173). -/

namespace Sys2Proof.Machine

theorem checkedWrite_eq_ok {bad : Bool} {c : FaultCode} {s t u : State} {x : Unit} :
    checkedWrite bad c s t = .ok x u ↔ bad = false ∧ u = t := by
  unfold checkedWrite; cases bad <;> simp [eq_comm]

theorem checkedWrite_eq_raised {bad : Bool} {c c' : FaultCode} {s t u : State} :
    checkedWrite bad c s t = .raised c' u ↔ bad = true ∧ c' = c ∧ u = s := by
  unfold checkedWrite; cases bad <;> simp [eq_comm]

/-- A refused register write changes nothing (46_system.md R164). -/
theorem writeCfg_raised {r : CfgReg} {v : Nat} {s t : State} {c : FaultCode} (h : writeCfg r v s = .raised c t) :
    t = s ∧ (r.writable = true → c = .config ∨ c = .operand) ∧ c ≠ .integrity ∧ c ≠ .uninit := by
  cases r <;> simp only [writeCfg, checkedWrite_eq_raised, Sub.raised.injEq] at h
  all_goals first
    | exact ⟨h.2.2, fun _ => .inl h.2.1, by simp [h.2.1], by simp [h.2.1]⟩
    | exact ⟨h.2.2, fun _ => .inr h.2.1, by simp [h.2.1], by simp [h.2.1]⟩
    | exact ⟨h.2.symm, fun hw => by simp [CfgReg.writable] at hw, by simp [← h.1], by simp [← h.1]⟩

/-- What a register write may change: the register, and the instances with `CIDX` when it is structural (10_state.md
R30, R32). -/
def CfgFrame (s t : State) : Prop :=
  t.pending = s.pending ∧ t.cmd = s.cmd ∧ t.din = s.din ∧ t.dout = s.dout ∧ t.res = s.res ∧ t.fault = s.fault ∧
    t.fcode = s.fcode ∧ t.fopc = s.fopc ∧ t.rcnt = s.rcnt ∧ t.tbytes = s.tbytes ∧ t.table = s.table ∧ t.params = s.params

theorem writeCfg_frame {r : CfgReg} {v : Nat} {s t : State} {x : Unit} (h : writeCfg r v s = .ok x t) : CfgFrame s t := by
  cases r <;> simp only [writeCfg, checkedWrite_eq_ok, reduceCtorEq] at h
  all_goals
    obtain ⟨-, rfl⟩ := h
    exact ⟨rfl, rfl, rfl, rfl, rfl, rfl, rfl, rfl, rfl, rfl, rfl, rfl⟩

/-- Reading a field of a generator: no state changes, and only the checks raise (43_generators.md R135). -/
theorem readGenField_ok {i : Nat} {f : GenField} {s t : State} {v : Nat} (h : readGenField i f s = .ok v t) :
    t = s ∧ i < s.params.nmax := by
  unfold readGenField at h
  split at h
  · simp at h
  · next hi =>
    refine ⟨?_, by omega⟩
    cases f <;> simp only at h
    · split at h <;> simp at h; exact h.2.symm
    all_goals simp at h; exact h.2.symm

theorem readGenField_raised {i : Nat} {f : GenField} {s t : State} {c : FaultCode} (h : readGenField i f s = .raised c t) :
    t = s ∧ c = .operand := by
  unfold readGenField at h
  split at h
  · simp at h; exact ⟨h.2.symm, h.1.symm⟩
  · cases f <;> simp only at h
    · split at h <;> simp at h; exact ⟨h.2.symm, h.1.symm⟩
    all_goals simp at h

theorem readHashField_ok {i : Nat} {f : HashField} {s t : State} {v : Nat} (h : readHashField i f s = .ok v t) :
    t = s ∧ i < s.params.nmax := by
  unfold readHashField at h
  split at h
  · simp at h
  · next hi =>
    refine ⟨?_, by omega⟩
    cases f <;> simp only at h
    · split at h <;> simp at h; exact h.2.symm
    all_goals simp at h; exact h.2.symm

theorem readHashField_raised {i : Nat} {f : HashField} {s t : State} {c : FaultCode}
    (h : readHashField i f s = .raised c t) : t = s ∧ c = .operand := by
  unfold readHashField at h
  split at h
  · simp at h; exact ⟨h.2.symm, h.1.symm⟩
  · cases f <;> simp only at h
    · split at h <;> simp at h; exact ⟨h.2.symm, h.1.symm⟩
    all_goals simp at h

/-- A write of a generator field changes that instance alone (43_generators.md R134). -/
theorem writeGenField_ok {i : Nat} {f : GenField} {v : Nat} {s t : State} {x : Unit}
    (h : writeGenField i f v s = .ok x t) : ∃ g, t = setGen i g s := by
  unfold writeGenField at h
  split at h
  · simp at h
  · cases f <;> simp only [checkedWrite_eq_ok] at h
    · split at h
      · simp at h
      · exact ⟨_, (checkedWrite_eq_ok.1 h).2⟩
    all_goals first
      | exact ⟨_, h.2⟩
      | (split at h
         · simp at h
         · simp at h; exact ⟨_, h.symm⟩)

theorem writeGenField_raised {i : Nat} {f : GenField} {v : Nat} {s t : State} {c : FaultCode}
    (h : writeGenField i f v s = .raised c t) : t = s ∧ (c = .config ∨ c = .operand) := by
  unfold writeGenField at h
  split at h
  · simp at h; exact ⟨h.2.symm, .inr h.1.symm⟩
  · cases f <;> simp only [checkedWrite_eq_raised] at h
    · split at h
      · simp at h; exact ⟨h.2.symm, .inr h.1.symm⟩
      · obtain ⟨-, h1, h2⟩ := checkedWrite_eq_raised.1 h; exact ⟨h2, .inr h1⟩
    all_goals first
      | exact ⟨h.2.2, .inr h.2.1⟩
      | (split at h
         · simp at h; exact ⟨h.2.symm, .inl h.1.symm⟩
         · simp at h)

/-- A write of a hash field changes that instance alone (42_hash.md R118). -/
theorem writeHashField_ok {i : Nat} {f : HashField} {v : Nat} {s t : State} {x : Unit}
    (h : writeHashField i f v s = .ok x t) : ∃ g, t = setHash i g s := by
  unfold writeHashField at h
  split at h
  · simp at h
  · cases f <;> simp only [checkedWrite_eq_ok] at h
    · split at h
      · simp at h
      · exact ⟨_, (checkedWrite_eq_ok.1 h).2⟩
    all_goals first
      | exact ⟨_, h.2⟩
      | (split at h
         · simp at h
         · simp at h; exact ⟨_, h.symm⟩)

theorem writeHashField_raised {i : Nat} {f : HashField} {v : Nat} {s t : State} {c : FaultCode}
    (h : writeHashField i f v s = .raised c t) : t = s ∧ (c = .config ∨ c = .operand) := by
  unfold writeHashField at h
  split at h
  · simp at h; exact ⟨h.2.symm, .inr h.1.symm⟩
  · cases f <;> simp only [checkedWrite_eq_raised] at h
    · split at h
      · simp at h; exact ⟨h.2.symm, .inr h.1.symm⟩
      · obtain ⟨-, h1, h2⟩ := checkedWrite_eq_raised.1 h; exact ⟨h2, .inr h1⟩
    all_goals first
      | exact ⟨h.2.2, .inr h.2.1⟩
      | (split at h
         · simp at h; exact ⟨h.2.symm, .inl h.1.symm⟩
         · simp at h)

end Sys2Proof.Machine
end

