-- ==== Sys2Proof/Laws/Exec.lean ====
section
/-! SUPPORT. Every command in one form: a body, run when the block is not faulted, and one way to end it (30_encoding.md
R78). What a whole class of commands can do is said of the body once. -/

namespace Sys2Proof.Machine

/-- The end of a command: a value, no value, or a fault (10_state.md R22, 60_exceptions.md R172). -/
def endCommand (r : Sub (Option Nat)) : Result :=
  match r with
  | .ok (some v) s => .next (returnValue v s)
  | .ok none s => .next (noValue s)
  | .raised c s => raiseFault c s

/-- A sub-operation that gives the command its value. -/
def Sub.some (r : Sub Nat) : Sub (Option Nat) :=
  match r with
  | .ok v s => .ok (Option.some v) s
  | .raised c s => .raised c s

/-- A sub-operation that gives the command no value. -/
def Sub.none (r : Sub Unit) : Sub (Option Nat) :=
  match r with
  | .ok _ s => .ok Option.none s
  | .raised c s => .raised c s

/-- A check at the head of a command. -/
def check (bad : Prop) [Decidable bad] (c : FaultCode) (s : State) (rest : Sub (Option Nat)) : Sub (Option Nat) :=
  if bad then .raised c s else rest

/-- The body of a command: its checks and its effect. `RESET` and `RDSTAT` end in their own ways and have none. -/
def execBody (i : Instr) (s : State) : Sub (Option Nat) :=
  match i with
  | .nop | .reset | .rdstat => .ok .none s
  | .rdres => .ok (.some s.res) s
  | .wrcfg r => (writeCfg r s.din s).none
  | .rdcfg r => .ok (.some (readCfg r s)) s
  | .tsize =>
    check (s.din < 4096 || s.params.tmaxBytes < s.din || !onePower s.din) .config s (.ok .none (resizeTable s.din s))
  | .tload x =>
    check (words s ≤ x.toNat) .operand s <| check (2 ^ 64 ≤ s.din) .operand s
      (.ok .none (storeWord x.toNat (BitVec.ofNat 64 s.din) s))
  | .tread x =>
    check (words s ≤ x.toNat) .operand s <|
      match Table.read s.table x.toNat with
      | .none => .raised .uninit s
      | .some v => .ok (.some v.toNat) s
  | .bitstr n => check (n = 0) .operand s (readField s s.din n.toNat).some
  | .fold n => check (n = 0) .operand s (foldState s.din n.toNat s).some
  | .folda a n => check (n = 0) .operand s (.ok (.some (foldAlg a s.din n.toNat)) s)
  | .hwr h f => (writeHashField h.toNat f s.din s).none
  | .hrd h f => (readHashField h.toNat f s).some
  | .hupd h l =>
    check (s.params.nmax ≤ h.toNat) .operand s <| check (l = 0) .operand s <|
      check (xw s < 8 * l.toNat) .operand s <| check (2 ^ (8 * l.toNat) ≤ s.din) .operand s
        (.ok .none (setHash h.toNat (hashBytes s.w s.hdepth l.toNat s.din (hashAt s h.toNat)) s))
  | .hdig h => check (s.params.nmax ≤ h.toNat) .operand s (.ok (.some (hashDigest s.hdepth (hashAt s h.toNat))) s)
  | .hstep h =>
    check (s.params.nmax ≤ h.toNat) .operand s
      (.ok (.some (hashStep s.w s.hdepth (hashAt s h.toNat)).1)
        (setHash h.toNat (hashStep s.w s.hdepth (hashAt s h.toNat)).2 s))
  | .hnext h n b =>
    check (n = 0) .illegal s <| check (s.params.nmax ≤ h.toNat) .operand s <| check (b.toNat < 2) .operand s
      (hashNext h.toNat b.toNat n.toNat true s).some
  | .gwr g f => (writeGenField g.toNat f s.din s).none
  | .grd g f => (readGenField g.toNat f s).some
  | .gstep g =>
    check (s.params.nmax ≤ g.toNat) .operand s
      (.ok (.some (genStep s.w s.depth (genAt s g.toNat)).1)
        (setGen g.toNat (genStep s.w s.depth (genAt s g.toNat)).2 s))
  | .gspin g =>
    check (s.params.nmax ≤ g.toNat) .operand s <| check (2 ^ 32 ≤ s.din) .operand s
      (.ok .none (setGen g.toNat (genSpin s.w s.depth s.din (genAt s g.toNat)) s))
  | .gnext g n b =>
    check (n = 0) .illegal s <| check (s.params.nmax ≤ g.toNat) .operand s <| check (b.toNat < 2) .operand s
      (genNext g.toNat b.toNat n.toNat true s).some
  | .cnext n b =>
    check (n = 0) .illegal s <| check (b.toNat < 2 || !onePower b.toNat) .operand s <|
      check (xw s < n.toNat * b.toNat) .operand s (compositeNext b.toNat n.toNat s).some
  | .enc n => check (n = 0) .illegal s <| check (255 < s.din) .operand s (cipherByte n s).some
  | .dec n => check (n = 0) .illegal s <| check (255 < s.din) .operand s (cipherByte n s).some
  | .whnext k => check (64 < k.toNat) .operand s (.ok (.some (whNext k.toNat s).1) (whNext k.toNat s).2)
  | .randint n =>
    check (n = 0) .operand s <| check (xw s < 2 * n.toNat + 1) .operand s (randInt n.toNat s).some
  | .nrv i n =>
    check (s.params.nmax ≤ i.toNat) .operand s <| check (n = 0) .operand s
      (nextRandomValue i.toNat s.din n.toNat s).some

theorem endCommand_check {bad : Prop} [Decidable bad] {c : FaultCode} {s : State} {rest : Sub (Option Nat)} :
    endCommand (check bad c s rest) = if bad then raiseFault c s else endCommand rest := by
  unfold check; split <;> rfl

theorem endCommand_some (r : Sub Nat) : endCommand r.some = r.answer := by cases r <;> rfl
theorem endCommand_none (r : Sub Unit) : endCommand r.none = r.finish := by cases r <;> rfl
theorem endCommand_ok_some (v : Nat) (s : State) : endCommand (.ok (.some v) s) = .next (returnValue v s) := rfl
theorem endCommand_ok_none (s : State) : endCommand (.ok .none s) = .next (noValue s) := rfl

/-- Every command but `RESET` and `RDSTAT` runs its body unless the block is faulted (60_exceptions.md R174). -/
theorem exec_eq_body {i : Instr} {s : State} (h : i ≠ .reset) (h' : i ≠ .rdstat) :
    exec i s = unlessFaulted s (endCommand (execBody i s)) := by
  cases i <;> first
    | exact absurd rfl h
    | exact absurd rfl h'
    | (simp only [execBody, endCommand_check, endCommand_some, endCommand_none, endCommand_ok_some, endCommand_ok_none]
       rfl)
    | skip
  · simp only [execBody, endCommand_check, exec, execTread]
    congr 2
    cases Table.read s.table _ <;> rfl

/-- A command answers a state, whatever it runs on (30_encoding.md R82). -/
theorem endCommand_next (r : Sub (Option Nat)) : ∃ t, endCommand r = .next t := by
  rcases r with ⟨_ | v, s⟩ | ⟨c, s⟩ <;> exact ⟨_, rfl⟩

theorem check_eq_ok {bad : Prop} [Decidable bad] {c : FaultCode} {s t : State} {rest : Sub (Option Nat)}
    {v : Option Nat} : check bad c s rest = .ok v t ↔ ¬ bad ∧ rest = .ok v t := by
  unfold check; split <;> simp_all

theorem check_eq_raised {bad : Prop} [Decidable bad] {c c' : FaultCode} {s t : State} {rest : Sub (Option Nat)} :
    check bad c s rest = .raised c' t ↔ (bad ∧ c' = c ∧ t = s) ∨ (¬ bad ∧ rest = .raised c' t) := by
  unfold check; split <;> simp_all [eq_comm]

theorem Sub.some_eq_ok {r : Sub Nat} {v : Option Nat} {t : State} :
    r.some = .ok v t ↔ ∃ x, v = Option.some x ∧ r = .ok x t := by
  cases r with
  | ok x s => simp only [Sub.some, Sub.ok.injEq]; constructor
              · rintro ⟨rfl, rfl⟩; exact ⟨x, rfl, rfl, rfl⟩
              · rintro ⟨y, rfl, rfl, rfl⟩; exact ⟨rfl, rfl⟩
  | raised c s => simp [Sub.some]

theorem Sub.some_eq_raised {r : Sub Nat} {c : FaultCode} {t : State} : r.some = .raised c t ↔ r = .raised c t := by
  cases r <;> simp [Sub.some]

theorem Sub.none_eq_ok {r : Sub Unit} {v : Option Nat} {t : State} :
    r.none = .ok v t ↔ v = Option.none ∧ r = .ok () t := by
  cases r <;> simp [Sub.none, eq_comm]

theorem Sub.none_eq_raised {r : Sub Unit} {c : FaultCode} {t : State} : r.none = .raised c t ↔ r = .raised c t := by
  cases r <;> simp [Sub.none]

/-- How a command ends in a block without a fault: it completed, with or without a value, or it raised. -/
theorem exec_end {i : Instr} {s t : State} (h : i ≠ .reset) (h' : i ≠ .rdstat) (hs : s.fault = false)
    (he : exec i s = .next t) :
    (∃ v u, execBody i s = .ok (.some v) u ∧ t = returnValue v u) ∨ (∃ u, execBody i s = .ok .none u ∧ t = noValue u) ∨
      ∃ c u, execBody i s = .raised c u ∧ t = enterFault c u := by
  rw [exec_eq_body h h', unlessFaulted_ready hs] at he
  rcases hb : execBody i s with ⟨_ | v, u⟩ | ⟨c, u⟩ <;> rw [hb] at he
  · exact .inr (.inl ⟨u, rfl, by simpa [endCommand, eq_comm] using he⟩)
  · exact .inl ⟨v, u, rfl, by simpa [endCommand, eq_comm] using he⟩
  · exact .inr (.inr ⟨c, u, rfl, by simpa [endCommand, raiseFault, eq_comm] using he⟩)

theorem cipherByte_ok {n : BitVec 4} {s t : State} {v : Nat} (h : cipherByte n s = .ok v t) :
    ∃ k, compositeNext 8 n.toNat s = .ok k t ∧ v = s.din ^^^ k := by
  obtain ⟨k, u, hk, h⟩ := Sub.bind_eq_ok.1 h
  simp only [Sub.ok.injEq] at h
  obtain ⟨h1, rfl⟩ := h
  exact ⟨k, hk, h1.symm⟩

theorem cipherByte_raised {n : BitVec 4} {s t : State} {c : FaultCode} (h : cipherByte n s = .raised c t) :
    compositeNext 8 n.toNat s = .raised c t := by
  rcases Sub.bind_eq_raised.1 h with h | ⟨_, _, -, h⟩
  · exact h
  · simp at h

/-- A body raises only the faults its rule lists, and a checked fault leaves the state as it was (60_exceptions.md R171,
R173). -/
theorem execBody_raised {i : Instr} {s t : State} {c : FaultCode} (h : execBody i s = .raised c t) :
    ((c = .illegal ∧ i.wellFormed = false) ∨ (c ≠ .illegal ∧ c.code.toNat ∈ faultCodes i)) ∧
      (c.code.toNat ≤ 3 → t = s) := by
  cases i <;> simp only [execBody, check_eq_raised, Sub.some_eq_raised, Sub.none_eq_raised, reduceCtorEq, and_false,
    or_false] at h
  case wrcfg r =>
    obtain ⟨h1, h2, h3, h4⟩ := writeCfg_raised h
    refine ⟨?_, fun _ => h1⟩
    cases hw : r.writable
    · cases r <;> simp [CfgReg.writable] at hw <;> simp only [writeCfg, Sub.raised.injEq] at h <;>
        exact .inl ⟨h.1.symm, rfl⟩
    · rcases h2 hw with rfl | rfl <;> exact .inr ⟨by decide, by simp [faultCodes, FaultCode.code]⟩
  case hwr h' f =>
    obtain ⟨h1, rfl | rfl⟩ := writeHashField_raised h <;> exact ⟨.inr ⟨by decide, by simp [faultCodes, FaultCode.code]⟩, fun _ => h1⟩
  case gwr h' f =>
    obtain ⟨h1, rfl | rfl⟩ := writeGenField_raised h <;> exact ⟨.inr ⟨by decide, by simp [faultCodes, FaultCode.code]⟩, fun _ => h1⟩
  case hrd h' f => obtain ⟨h1, rfl⟩ := readHashField_raised h; exact ⟨.inr ⟨by decide, by simp [faultCodes, FaultCode.code]⟩, fun _ => h1⟩
  case grd h' f => obtain ⟨h1, rfl⟩ := readGenField_raised h; exact ⟨.inr ⟨by decide, by simp [faultCodes, FaultCode.code]⟩, fun _ => h1⟩
  case tread x =>
    rcases h with ⟨-, rfl, rfl⟩ | ⟨-, h⟩
    · exact ⟨.inr ⟨by decide, by simp [faultCodes, FaultCode.code]⟩, fun _ => rfl⟩
    · split at h
      · simp only [Sub.raised.injEq] at h; obtain ⟨rfl, rfl⟩ := h; exact ⟨.inr ⟨by decide, by simp [faultCodes, FaultCode.code]⟩, fun _ => rfl⟩
      · simp at h
  case bitstr n =>
    rcases h with ⟨-, rfl, rfl⟩ | ⟨-, h⟩
    · exact ⟨.inr ⟨by decide, by simp [faultCodes, FaultCode.code]⟩, fun _ => rfl⟩
    · obtain ⟨-, rfl, rfl⟩ := readField_eq_raised.1 h; exact ⟨.inr ⟨by decide, by simp [faultCodes, FaultCode.code]⟩, fun _ => rfl⟩
  case fold n =>
    rcases h with ⟨-, rfl, rfl⟩ | ⟨-, h⟩
    · exact ⟨.inr ⟨by decide, by simp [faultCodes, FaultCode.code]⟩, fun _ => rfl⟩
    · simp [foldState] at h
  case hnext h' n b =>
    rcases h with ⟨rfl, rfl, rfl⟩ | ⟨-, ⟨-, rfl, rfl⟩ | ⟨-, ⟨-, rfl, rfl⟩ | ⟨-, h⟩⟩⟩
    · exact ⟨.inl ⟨rfl, rfl⟩, fun _ => rfl⟩
    · exact ⟨.inr ⟨by decide, by simp [faultCodes, FaultCode.code]⟩, fun _ => rfl⟩
    · exact ⟨.inr ⟨by decide, by simp [faultCodes, FaultCode.code]⟩, fun _ => rfl⟩
    · obtain rfl := hashNext_fault h; exact ⟨.inr ⟨by decide, by simp [faultCodes, FaultCode.code]⟩, fun h => absurd h (by decide)⟩
  case gnext h' n b =>
    rcases h with ⟨rfl, rfl, rfl⟩ | ⟨-, ⟨-, rfl, rfl⟩ | ⟨-, ⟨-, rfl, rfl⟩ | ⟨-, h⟩⟩⟩
    · exact ⟨.inl ⟨rfl, rfl⟩, fun _ => rfl⟩
    · exact ⟨.inr ⟨by decide, by simp [faultCodes, FaultCode.code]⟩, fun _ => rfl⟩
    · exact ⟨.inr ⟨by decide, by simp [faultCodes, FaultCode.code]⟩, fun _ => rfl⟩
    · obtain rfl := genNext_fault h; exact ⟨.inr ⟨by decide, by simp [faultCodes, FaultCode.code]⟩, fun h => absurd h (by decide)⟩
  case cnext n b =>
    rcases h with ⟨rfl, rfl, rfl⟩ | ⟨-, ⟨-, rfl, rfl⟩ | ⟨-, ⟨-, rfl, rfl⟩ | ⟨-, h⟩⟩⟩
    · exact ⟨.inl ⟨rfl, rfl⟩, fun _ => rfl⟩
    · exact ⟨.inr ⟨by decide, by simp [faultCodes, FaultCode.code]⟩, fun _ => rfl⟩
    · exact ⟨.inr ⟨by decide, by simp [faultCodes, FaultCode.code]⟩, fun _ => rfl⟩
    · obtain rfl := compositeNext_fault h; exact ⟨.inr ⟨by decide, by simp [faultCodes, FaultCode.code]⟩, fun h => absurd h (by decide)⟩
  case enc n =>
    rcases h with ⟨rfl, rfl, rfl⟩ | ⟨-, ⟨-, rfl, rfl⟩ | ⟨-, h⟩⟩
    · exact ⟨.inl ⟨rfl, rfl⟩, fun _ => rfl⟩
    · exact ⟨.inr ⟨by decide, by simp [faultCodes, FaultCode.code]⟩, fun _ => rfl⟩
    · obtain rfl := compositeNext_fault (cipherByte_raised h)
      exact ⟨.inr ⟨by decide, by simp [faultCodes, FaultCode.code]⟩, fun h => absurd h (by decide)⟩
  case dec n =>
    rcases h with ⟨rfl, rfl, rfl⟩ | ⟨-, ⟨-, rfl, rfl⟩ | ⟨-, h⟩⟩
    · exact ⟨.inl ⟨rfl, rfl⟩, fun _ => rfl⟩
    · exact ⟨.inr ⟨by decide, by simp [faultCodes, FaultCode.code]⟩, fun _ => rfl⟩
    · obtain rfl := compositeNext_fault (cipherByte_raised h)
      exact ⟨.inr ⟨by decide, by simp [faultCodes, FaultCode.code]⟩, fun h => absurd h (by decide)⟩
  case randint n =>
    rcases h with ⟨-, rfl, rfl⟩ | ⟨-, ⟨-, rfl, rfl⟩ | ⟨-, h⟩⟩
    · exact ⟨.inr ⟨by decide, by simp [faultCodes, FaultCode.code]⟩, fun _ => rfl⟩
    · exact ⟨.inr ⟨by decide, by simp [faultCodes, FaultCode.code]⟩, fun _ => rfl⟩
    · obtain ⟨rfl, -⟩ := randInt_eq_raised h
      exact ⟨.inr ⟨by decide, by simp [faultCodes, FaultCode.code]⟩, fun h => absurd h (by decide)⟩
  case nrv i' n =>
    rcases h with ⟨-, rfl, rfl⟩ | ⟨-, ⟨-, rfl, rfl⟩ | ⟨-, h⟩⟩
    · exact ⟨.inr ⟨by decide, by simp [faultCodes, FaultCode.code]⟩, fun _ => rfl⟩
    · exact ⟨.inr ⟨by decide, by simp [faultCodes, FaultCode.code]⟩, fun _ => rfl⟩
    · have hu : c = .uninit := by
        rcases nrvRounds_end (i := i'.toNat) (width := n.toNat) (rounds := s.paranoia) (e := s.din) (r := 0) (s := s)
          with ⟨v, g, hh⟩ | ⟨g, hh⟩ | ⟨v, hh⟩ | hh <;> rw [nextRandomValue, hh] at h <;> simp at h <;> exact h.1.symm
      subst hu; exact ⟨.inr ⟨by decide, by simp [faultCodes, FaultCode.code]⟩, fun h => absurd h (by decide)⟩
  all_goals
    first
      | (rcases h with ⟨-, rfl, rfl⟩ | ⟨-, ⟨-, rfl, rfl⟩ | ⟨-, ⟨-, rfl, rfl⟩ | ⟨-, -, rfl, rfl⟩⟩⟩ <;>
          exact ⟨.inr ⟨by decide, by simp [faultCodes, FaultCode.code]⟩, fun _ => rfl⟩)
      | (rcases h with ⟨-, rfl, rfl⟩ | ⟨-, -, rfl, rfl⟩ <;> exact ⟨.inr ⟨by decide, by simp [faultCodes, FaultCode.code]⟩, fun _ => rfl⟩)
      | (obtain ⟨-, rfl, rfl⟩ := h; exact ⟨.inr ⟨by decide, by simp [faultCodes, FaultCode.code]⟩, fun _ => rfl⟩)

end Sys2Proof.Machine
end

