-- ==== Sys2Proof/Laws/Frame.lean ====
section
/-! SUPPORT. Where the body of each command ends, whether it returns or raises: the pieces of state it may have changed
(the lines "State written" of the command rules). -/

namespace Sys2Proof.Machine

theorem Piece.Same.refl (p : Piece) (s : State) : p.Same s s := by cases p <;> simp [Piece.Same]

theorem Piece.Same.trans {p : Piece} {s t u : State} (h : p.Same s t) (h' : p.Same t u) : p.Same s u := by
  cases p <;> simp only [Piece.Same] at * <;> simp_all

/-- A check that fails ends where it began. -/
theorem check_state {bad : Prop} [Decidable bad] {c : FaultCode} {s : State} {rest : Sub (Option Nat)} {P : State → Prop}
    (hs : P s) (h : ¬ bad → P rest.state) : P (check bad c s rest).state := by
  unfold check; split
  · exact hs
  · next hb => exact h hb

theorem Sub.some_state (r : Sub Nat) : r.some.state = r.state := by cases r <;> rfl
theorem Sub.none_state (r : Sub Unit) : r.none.state = r.state := by cases r <;> rfl

theorem setHash_same {p : Piece} {i : Nat} {h : Hash} {s : State} (hp : p ≠ .hash i) : p.Same s (setHash i h s) := by
  cases p with
  | hash j => simp only [Piece.Same, setHash]; rw [List.getElem?_set_ne (by rintro rfl; exact hp rfl)]
  | config r => cases r <;> rfl
  | _ => first | rfl | exact ⟨rfl, rfl, rfl⟩

theorem setGen_same {p : Piece} {i : Nat} {g : Gen} {s : State} (hp : p ≠ .generator i) : p.Same s (setGen i g s) := by
  cases p with
  | generator j => simp only [Piece.Same, setGen]; rw [List.getElem?_set_ne (by rintro rfl; exact hp rfl)]
  | config r => cases r <;> rfl
  | _ => first | rfl | exact ⟨rfl, rfl, rfl⟩

theorem setFoldSel_same {p : Piece} {sel : BitVec 2} {s : State} (hp : p ≠ .config .foldSel) :
    p.Same s (setFoldSel sel s) := by
  cases p with
  | config r => cases r <;> first | rfl | exact absurd rfl hp
  | _ => first | rfl | exact ⟨rfl, rfl, rfl⟩

theorem recordRetries_same {p : Piece} {k : Nat} {s : State} (hp : p ≠ .retryCount) : p.Same s (recordRetries k s) := by
  cases p with
  | config r => cases r <;> rfl
  | retryCount => exact absurd rfl hp
  | _ => first | rfl | exact ⟨rfl, rfl, rfl⟩

theorem resizeTable_same {p : Piece} {b : Nat} {s : State} (hp : p ≠ .tableWords)
    (hc : ∀ r, p = .config r → CfgReg.ofTableSize r = false) : p.Same s (resizeTable b s) := by
  cases p with
  | config r => have := hc r rfl; cases r <;> first | rfl | simp [CfgReg.ofTableSize] at this
  | tableWords => exact absurd rfl hp
  | _ => first | rfl | exact ⟨rfl, rfl, rfl⟩

theorem storeWord_same {p : Piece} {x : Nat} {v : TableWord} {s : State} (hp : p ≠ .tableWords) :
    p.Same s (storeWord x v s) := by
  cases p with
  | config r => cases r <;> rfl
  | tableWords => exact absurd rfl hp
  | _ => first | rfl | exact ⟨rfl, rfl, rfl⟩

theorem whNext_same {p : Piece} {k : Nat} {s : State} (h1 : p ≠ .config .whS1) (h2 : p ≠ .config .whS2)
    (h3 : p ≠ .config .whS3) : p.Same s (whNext k s).2 := by
  cases p with
  | config r => cases r <;> first | rfl | exact absurd rfl h1 | exact absurd rfl h2 | exact absurd rfl h3
  | _ => first | rfl | exact ⟨rfl, rfl, rfl⟩

theorem endNext_state {top : Bool} {v : Option Nat} {k : Nat} {s : State} :
    (endNext top v k s).state = if top then recordRetries k s else s := by
  unfold endNext; cases v <;> rfl

theorem genNext_same {p : Piece} {i bw steps : Nat} {top : Bool} {s : State} (h1 : p ≠ .retryCount)
    (h2 : p ≠ .config .foldSel) (h3 : p ≠ .generator i) : p.Same s (genNext i bw steps top s).state := by
  obtain ⟨v, k, g, sel, h, -⟩ := genNext_shape (i := i) (bw := bw) (steps := steps) (top := top) (s := s)
  rw [h, endNext_state]
  have hs := (setGen_same (s := s) (g := g) h3).trans (setFoldSel_same (sel := sel) h2)
  split
  · exact hs.trans (recordRetries_same h1)
  · exact hs

theorem hashNext_same {p : Piece} {i bw steps : Nat} {top : Bool} {s : State} (h1 : p ≠ .retryCount)
    (h2 : p ≠ .config .foldSel) (h3 : p ≠ .hash i) : p.Same s (hashNext i bw steps top s).state := by
  obtain ⟨v, k, g, sel, h, -⟩ := hashNext_shape (i := i) (bw := bw) (steps := steps) (top := top) (s := s)
  rw [h, endNext_state]
  have hs := (setHash_same (s := s) (h := g) h3).trans (setFoldSel_same (sel := sel) h2)
  split
  · exact hs.trans (recordRetries_same h1)
  · exact hs

/-- The pieces the composite writes (44_composite.md R140). -/
theorem CompositeFrame.same {p : Piece} {s t : State} (h : CompositeFrame s t) (h1 : p ≠ .retryCount)
    (h2 : p ≠ .config .foldSel) (h3 : p ≠ .config .cidx) (h4 : ∀ i, p ≠ .generator i) (h5 : ∀ i, p ≠ .hash i) :
    p.Same s t := by
  obtain ⟨_, _, _, _, _, rfl⟩ := h
  cases p with
  | config r => cases r <;> first | rfl | exact absurd rfl h2 | exact absurd rfl h3
  | retryCount => exact absurd rfl h1
  | generator i => exact absurd rfl (h4 i)
  | hash i => exact absurd rfl (h5 i)
  | _ => first | rfl | exact ⟨rfl, rfl, rfl⟩

theorem cipherByte_frame (n : BitVec 4) (s : State) : CompositeFrame s (cipherByte n s).state :=
  Sub.bind_frame (compositeNext_frame 8 n.toNat s) fun _ u _ => CompositeFrame.refl u

/-- The pieces `RandInt` writes (45_bootstrap_draw.md R150). -/
theorem RandIntFrame.same {p : Piece} {s t : State} (h : RandIntFrame s t)
    (hp : mayWrite (.randint 1) p = false) : p.Same s t := by
  obtain ⟨_, _, _, _, _, _, _, _, _, _, rfl⟩ := h
  cases p with
  | config r => cases r <;> first | rfl | simp [mayWrite] at hp
  | _ => first | rfl | exact ⟨rfl, rfl, rfl⟩

theorem randInt_frame_state (fw : Nat) (s : State) : RandIntFrame s (randInt fw s).state := by
  rcases h : randInt fw s with ⟨v, t⟩ | ⟨c, t⟩
  · exact randInt_frame h
  · rw [Sub.state, (randInt_eq_raised h).2]; exact walkIndices_frame fw s

theorem writeCfg_same {r : CfgReg} {v : Nat} {s : State} {p : Piece} (hp : mayWrite (.wrcfg r) p = false) :
    p.Same s (writeCfg r v s).state := by
  rcases h : writeCfg r v s with ⟨x, t⟩ | ⟨c, t⟩
  · cases r <;> simp only [writeCfg, checkedWrite_eq_ok, reduceCtorEq] at h
    all_goals
      obtain ⟨-, rfl⟩ := h
      cases p with
      | config q => cases q <;> first | rfl | simp [mayWrite, CfgReg.structural] at hp
      | _ => first | rfl | exact ⟨rfl, rfl, rfl⟩ | simp [mayWrite, CfgReg.structural] at hp
  · rw [(writeCfg_raised h).1]; exact Piece.Same.refl p s

/-- A body changes no piece its command may not write (the lines "State written"). -/
theorem execBody_same {i : Instr} {s : State} {p : Piece} (hr : i ≠ .reset) (hp : mayWrite i p = false) :
    p.Same s (execBody i s).state := by
  have hrefl := Piece.Same.refl p s
  cases i <;> simp only [execBody]
  case reset => exact absurd rfl hr
  case wrcfg r => rw [Sub.none_state]; exact writeCfg_same hp
  case hwr h f =>
    simp only [mayWrite, Bool.or_eq_false_iff, beq_eq_false_iff_ne] at hp
    rw [Sub.none_state]
    rcases hw : writeHashField h.toNat f s.din s with ⟨x, t⟩ | ⟨c, t⟩
    · obtain ⟨g, rfl⟩ := writeHashField_ok hw; exact setHash_same hp.2
    · rw [(writeHashField_raised hw).1]; exact hrefl
  case gwr h f =>
    simp only [mayWrite, Bool.or_eq_false_iff, beq_eq_false_iff_ne] at hp
    rw [Sub.none_state]
    rcases hw : writeGenField h.toNat f s.din s with ⟨x, t⟩ | ⟨c, t⟩
    · obtain ⟨g, rfl⟩ := writeGenField_ok hw; exact setGen_same hp.2
    · rw [(writeGenField_raised hw).1]; exact hrefl
  case hrd h f =>
    rw [Sub.some_state]
    rcases hw : readHashField h.toNat f s with ⟨x, t⟩ | ⟨c, t⟩
    · rw [(readHashField_ok hw).1]; exact hrefl
    · rw [(readHashField_raised hw).1]; exact hrefl
  case grd h f =>
    rw [Sub.some_state]
    rcases hw : readGenField h.toNat f s with ⟨x, t⟩ | ⟨c, t⟩
    · rw [(readGenField_ok hw).1]; exact hrefl
    · rw [(readGenField_raised hw).1]; exact hrefl
  case tsize =>
    simp only [mayWrite, Bool.or_eq_false_iff, beq_eq_false_iff_ne] at hp
    refine check_state hrefl fun _ => resizeTable_same hp.1.2 ?_
    rintro r rfl; exact hp.2
  case tload x =>
    simp only [mayWrite, Bool.or_eq_false_iff, beq_eq_false_iff_ne] at hp
    exact check_state hrefl fun _ => check_state hrefl fun _ => storeWord_same hp.2
  case tread x => exact check_state hrefl fun _ => by split <;> exact hrefl
  case bitstr n =>
    refine check_state hrefl fun _ => ?_
    rw [Sub.some_state]; unfold readField; split <;> exact hrefl
  case fold n =>
    simp only [mayWrite, Bool.or_eq_false_iff, beq_eq_false_iff_ne] at hp
    exact check_state hrefl fun _ => setFoldSel_same hp.2
  case folda a n => exact check_state hrefl fun _ => hrefl
  case hupd h l =>
    simp only [mayWrite, Bool.or_eq_false_iff, beq_eq_false_iff_ne] at hp
    exact check_state hrefl fun _ => check_state hrefl fun _ => check_state hrefl fun _ => check_state hrefl fun _ =>
      setHash_same hp.2
  case hdig h => exact check_state hrefl fun _ => hrefl
  case hstep h =>
    simp only [mayWrite, Bool.or_eq_false_iff, beq_eq_false_iff_ne] at hp
    exact check_state hrefl fun _ => setHash_same hp.2
  case hnext h n b =>
    simp only [mayWrite, Bool.or_eq_false_iff, beq_eq_false_iff_ne] at hp
    refine check_state hrefl fun _ => check_state hrefl fun _ => check_state hrefl fun _ => ?_
    rw [Sub.some_state]; exact hashNext_same hp.1.1.2 hp.1.2 hp.2
  case gnext h n b =>
    simp only [mayWrite, Bool.or_eq_false_iff, beq_eq_false_iff_ne] at hp
    refine check_state hrefl fun _ => check_state hrefl fun _ => check_state hrefl fun _ => ?_
    rw [Sub.some_state]; exact genNext_same hp.1.1.2 hp.1.2 hp.2
  case gstep h =>
    simp only [mayWrite, Bool.or_eq_false_iff, beq_eq_false_iff_ne] at hp
    exact check_state hrefl fun _ => setGen_same hp.2
  case gspin h =>
    simp only [mayWrite, Bool.or_eq_false_iff, beq_eq_false_iff_ne] at hp
    exact check_state hrefl fun _ => check_state hrefl fun _ => setGen_same hp.2
  case whnext k =>
    simp only [mayWrite, Bool.or_eq_false_iff, beq_eq_false_iff_ne] at hp
    exact check_state hrefl fun _ => whNext_same hp.1.1.2 hp.1.2 hp.2
  case randint n =>
    refine check_state hrefl fun _ => check_state hrefl fun _ => ?_
    rw [Sub.some_state]; exact (randInt_frame_state n.toNat s).same hp
  case nrv i n =>
    simp only [mayWrite, Bool.or_eq_false_iff, beq_eq_false_iff_ne] at hp
    refine check_state hrefl fun _ => check_state hrefl fun _ => ?_
    rw [Sub.some_state, nextRandomValue]
    rcases nrvRounds_end (i := i.toNat) (width := n.toNat) (rounds := s.paranoia) (e := s.din) (r := 0) (s := s)
      with ⟨v, g, h⟩ | ⟨g, h⟩ | ⟨v, h⟩ | h <;> rw [h]
    · exact setHash_same hp.2
    · exact setHash_same hp.2
    · exact hrefl
    · exact hrefl
  case cnext n b =>
    refine check_state hrefl fun _ => check_state hrefl fun _ => check_state hrefl fun _ => ?_
    rw [Sub.some_state]
    refine (compositeNext_frame _ _ s).same (by rintro rfl; simp [mayWrite] at hp)
      (by rintro rfl; simp [mayWrite] at hp) (by rintro rfl; simp [mayWrite] at hp)
      (by rintro i rfl; simp [mayWrite] at hp) (by rintro i rfl; simp [mayWrite] at hp)
  case enc n =>
    refine check_state hrefl fun _ => check_state hrefl fun _ => ?_
    rw [Sub.some_state]
    refine (cipherByte_frame _ s).same (by rintro rfl; simp [mayWrite] at hp)
      (by rintro rfl; simp [mayWrite] at hp) (by rintro rfl; simp [mayWrite] at hp)
      (by rintro i rfl; simp [mayWrite] at hp) (by rintro i rfl; simp [mayWrite] at hp)
  case dec n =>
    refine check_state hrefl fun _ => check_state hrefl fun _ => ?_
    rw [Sub.some_state]
    refine (cipherByte_frame _ s).same (by rintro rfl; simp [mayWrite] at hp)
      (by rintro rfl; simp [mayWrite] at hp) (by rintro rfl; simp [mayWrite] at hp)
      (by rintro i rfl; simp [mayWrite] at hp) (by rintro i rfl; simp [mayWrite] at hp)
  all_goals exact hrefl

/-- What no body touches: the host's list, the ports, the latch, the fault record and the synthesis parameters. Only the
end of a command does. -/
def SameRecord (s t : State) : Prop :=
  t.pending = s.pending ∧ t.cmd = s.cmd ∧ t.din = s.din ∧ t.dout = s.dout ∧ t.res = s.res ∧ t.fault = s.fault ∧
    t.fcode = s.fcode ∧ t.fopc = s.fopc ∧ t.params = s.params

theorem SameRecord.refl (s : State) : SameRecord s s := ⟨rfl, rfl, rfl, rfl, rfl, rfl, rfl, rfl, rfl⟩

theorem CompositeFrame.record {s t : State} (h : CompositeFrame s t) : SameRecord s t := by
  obtain ⟨_, _, _, _, _, rfl⟩ := h
  exact ⟨rfl, rfl, rfl, rfl, rfl, rfl, rfl, rfl, rfl⟩

theorem RandIntFrame.record {s t : State} (h : RandIntFrame s t) : SameRecord s t := by
  obtain ⟨_, _, _, _, _, _, _, _, _, _, rfl⟩ := h
  exact ⟨rfl, rfl, rfl, rfl, rfl, rfl, rfl, rfl, rfl⟩

theorem setHash_record (i : Nat) (h : Hash) (s : State) : SameRecord s (setHash i h s) :=
  ⟨rfl, rfl, rfl, rfl, rfl, rfl, rfl, rfl, rfl⟩
theorem setGen_record (i : Nat) (g : Gen) (s : State) : SameRecord s (setGen i g s) :=
  ⟨rfl, rfl, rfl, rfl, rfl, rfl, rfl, rfl, rfl⟩

/-- No body touches what `SameRecord` lists. -/
theorem execBody_record (i : Instr) (s : State) : SameRecord s (execBody i s).state := by
  have hrefl := SameRecord.refl s
  cases i <;> simp only [execBody]
  case wrcfg r =>
    rw [Sub.none_state]
    rcases hw : writeCfg r s.din s with ⟨x, t⟩ | ⟨c, t⟩
    · obtain ⟨h1, h2, h3, h4, h5, h6, h7, h8, -, -, -, h9⟩ := writeCfg_frame hw
      exact ⟨h1, h2, h3, h4, h5, h6, h7, h8, h9⟩
    · rw [(writeCfg_raised hw).1]; exact hrefl
  case hwr h f =>
    rw [Sub.none_state]
    rcases hw : writeHashField h.toNat f s.din s with ⟨x, t⟩ | ⟨c, t⟩
    · obtain ⟨g, rfl⟩ := writeHashField_ok hw; exact setHash_record _ _ _
    · rw [(writeHashField_raised hw).1]; exact hrefl
  case gwr h f =>
    rw [Sub.none_state]
    rcases hw : writeGenField h.toNat f s.din s with ⟨x, t⟩ | ⟨c, t⟩
    · obtain ⟨g, rfl⟩ := writeGenField_ok hw; exact setGen_record _ _ _
    · rw [(writeGenField_raised hw).1]; exact hrefl
  case hrd h f =>
    rw [Sub.some_state]
    rcases hw : readHashField h.toNat f s with ⟨x, t⟩ | ⟨c, t⟩
    · rw [(readHashField_ok hw).1]; exact hrefl
    · rw [(readHashField_raised hw).1]; exact hrefl
  case grd h f =>
    rw [Sub.some_state]
    rcases hw : readGenField h.toNat f s with ⟨x, t⟩ | ⟨c, t⟩
    · rw [(readGenField_ok hw).1]; exact hrefl
    · rw [(readGenField_raised hw).1]; exact hrefl
  case tread x => exact check_state hrefl fun _ => by split <;> exact hrefl
  case bitstr n =>
    refine check_state hrefl fun _ => ?_
    rw [Sub.some_state]; unfold readField; split <;> exact hrefl
  case hnext h n b =>
    refine check_state hrefl fun _ => check_state hrefl fun _ => check_state hrefl fun _ => ?_
    rw [Sub.some_state]; exact (hashNext_frame _ _ _ _ s).record
  case gnext h n b =>
    refine check_state hrefl fun _ => check_state hrefl fun _ => check_state hrefl fun _ => ?_
    rw [Sub.some_state]; exact (genNext_frame _ _ _ _ s).record
  case randint n =>
    refine check_state hrefl fun _ => check_state hrefl fun _ => ?_
    rw [Sub.some_state]; exact (randInt_frame_state n.toNat s).record
  case nrv i n =>
    refine check_state hrefl fun _ => check_state hrefl fun _ => ?_
    rw [Sub.some_state, nextRandomValue]
    rcases nrvRounds_end (i := i.toNat) (width := n.toNat) (rounds := s.paranoia) (e := s.din) (r := 0) (s := s)
      with ⟨v, g, h⟩ | ⟨g, h⟩ | ⟨v, h⟩ | h <;> rw [h]
    · exact setHash_record _ _ _
    · exact setHash_record _ _ _
    · exact hrefl
    · exact hrefl
  case cnext n b =>
    refine check_state hrefl fun _ => check_state hrefl fun _ => check_state hrefl fun _ => ?_
    rw [Sub.some_state]; exact (compositeNext_frame _ _ s).record
  case enc n =>
    refine check_state hrefl fun _ => check_state hrefl fun _ => ?_
    rw [Sub.some_state]; exact (cipherByte_frame _ s).record
  case dec n =>
    refine check_state hrefl fun _ => check_state hrefl fun _ => ?_
    rw [Sub.some_state]; exact (cipherByte_frame _ s).record
  case hupd h l =>
    exact check_state hrefl fun _ => check_state hrefl fun _ => check_state hrefl fun _ => check_state hrefl fun _ =>
      setHash_record _ _ _
  case tload x => exact check_state hrefl fun _ => check_state hrefl fun _ => hrefl
  case gspin g => exact check_state hrefl fun _ => check_state hrefl fun _ => setGen_record _ _ _
  case hstep h => exact check_state hrefl fun _ => setHash_record _ _ _
  case gstep h => exact check_state hrefl fun _ => setGen_record _ _ _
  case tsize => exact check_state hrefl fun _ => hrefl
  case fold n => exact check_state hrefl fun _ => hrefl
  case folda a n => exact check_state hrefl fun _ => hrefl
  case hdig h => exact check_state hrefl fun _ => hrefl
  case whnext k => exact check_state hrefl fun _ => (whNext_frame k.toNat s).record
  all_goals exact hrefl

end Sys2Proof.Machine
end

