-- ==== Sys2Proof/Laws/Legal.lean ====
section
/-! SUPPORT. Each update keeps the legal states of 10_state.md R21 to R37, and so does the body of every command. -/

namespace Sys2Proof.Machine

variable {s : State}

theorem Legal.xw_ge (h : Legal s) : 960 ≤ xw s := by
  have := h.params.wmax_ge; unfold xw; omega

theorem Legal.lt_xw_of_lt {v k : Nat} (h : Legal s) (hv : v < 2 ^ k) (hk : k ≤ 960) : v < 2 ^ xw s :=
  Nat.lt_of_lt_of_le hv (Nat.pow_le_pow_right (by decide) (Nat.le_trans hk h.xw_ge))

/-- A value of `W` bits fits the ports (00_scope.md R7). -/
theorem Legal.lt_xw_of_lt_w {v : Nat} (h : Legal s) (hv : v < 2 ^ s.w) : v < 2 ^ xw s :=
  Nat.lt_of_lt_of_le hv (Nat.pow_le_pow_right (by decide) (by have := h.w_le; unfold xw; omega))

theorem Legal.genAt (h : Legal s) (i : Nat) : (genAt s i).Legal s.params.dmax s.w s.depth := by
  unfold Sys2Proof.Machine.genAt
  rw [List.getD_eq_getElem?_getD]
  cases hg : s.gens[i]? with
  | none =>
    have := h.depth_ge
    refine ⟨by simp [Gen.cleared], fun x hx => ?_, this, Nat.two_pow_pos _, Nat.two_pow_pos _, Nat.two_pow_pos _⟩
    have : x = 0 := by simpa [Gen.cleared] using (List.mem_replicate.1 hx).2
    rw [this]; exact Nat.two_pow_pos _
  | some g => exact h.gens g (List.mem_of_getElem? hg)

theorem Legal.hashAt (h : Legal s) (i : Nat) : (hashAt s i).Legal s.params.hdmax s.w s.hdepth := by
  unfold Sys2Proof.Machine.hashAt
  rw [List.getD_eq_getElem?_getD]
  cases hg : s.hashes[i]? with
  | none =>
    have := h.hdepth_ge
    refine ⟨by simp [Hash.cleared], fun x hx => ?_, this⟩
    have : x = 0 := by simpa [Hash.cleared] using (List.mem_replicate.1 hx).2
    rw [this]; exact Nat.two_pow_pos _
  | some g => exact h.hashes g (List.mem_of_getElem? hg)

/-! Updates. -/

theorem Legal.setGen (h : Legal s) {i : Nat} {g : Gen} (hg : g.Legal s.params.dmax s.w s.depth) :
    Legal (setGen i g s) :=
  ⟨h.params, h.din, h.dout, h.res, h.status, h.tbytes_pow, h.tbytes_le, h.table, h.w_ge, h.w_le, h.depth_ge,
    h.depth_le, h.hdepth_ge, h.hdepth_le, h.n_ge, h.n_le, h.paranoia_ge, h.paranoia_le, h.cidx, (List.length_set
    ..).trans h.gens_length, fun x hx => (List.mem_or_eq_of_mem_set hx).elim (h.gens x) (fun e => e ▸ hg),
    h.hashes_length, h.hashes, h.whS1, h.whS2, h.whS3⟩

theorem Legal.setHash (h : Legal s) {i : Nat} {g : Hash} (hg : g.Legal s.params.hdmax s.w s.hdepth) :
    Legal (setHash i g s) :=
  ⟨h.params, h.din, h.dout, h.res, h.status, h.tbytes_pow, h.tbytes_le, h.table, h.w_ge, h.w_le, h.depth_ge,
    h.depth_le, h.hdepth_ge, h.hdepth_le, h.n_ge, h.n_le, h.paranoia_ge, h.paranoia_le, h.cidx, h.gens_length,
    h.gens, (List.length_set ..).trans h.hashes_length, fun x hx => (List.mem_or_eq_of_mem_set hx).elim (h.hashes
    x) (fun e => e ▸ hg), h.whS1, h.whS2, h.whS3⟩

theorem Legal.setFoldSel (h : Legal s) {sel : BitVec 2} :
    Legal (setFoldSel sel s) :=
  ⟨h.params, h.din, h.dout, h.res, h.status, h.tbytes_pow, h.tbytes_le, h.table, h.w_ge, h.w_le, h.depth_ge,
    h.depth_le, h.hdepth_ge, h.hdepth_le, h.n_ge, h.n_le, h.paranoia_ge, h.paranoia_le, h.cidx, h.gens_length,
    h.gens, h.hashes_length, h.hashes, h.whS1, h.whS2, h.whS3⟩

theorem Legal.recordRetries (h : Legal s) {k : Nat} :
    Legal (recordRetries k s) :=
  ⟨h.params, h.din, h.dout, h.res, h.status, h.tbytes_pow, h.tbytes_le, h.table, h.w_ge, h.w_le, h.depth_ge,
    h.depth_le, h.hdepth_ge, h.hdepth_le, h.n_ge, h.n_le, h.paranoia_ge, h.paranoia_le, h.cidx, h.gens_length,
    h.gens, h.hashes_length, h.hashes, h.whS1, h.whS2, h.whS3⟩

theorem Legal.noValue (h : Legal s) :
    Legal (noValue s) :=
  ⟨h.params, h.din, Nat.two_pow_pos _, h.res, h.status, h.tbytes_pow, h.tbytes_le, h.table, h.w_ge, h.w_le,
    h.depth_ge, h.depth_le, h.hdepth_ge, h.hdepth_le, h.n_ge, h.n_le, h.paranoia_ge, h.paranoia_le, h.cidx,
    h.gens_length, h.gens, h.hashes_length, h.hashes, h.whS1, h.whS2, h.whS3⟩

theorem Legal.returnValue (h : Legal s) {v : Nat} (hv : v < 2 ^ xw s) :
    Legal (returnValue v s) :=
  ⟨h.params, h.din, hv, hv, h.status, h.tbytes_pow, h.tbytes_le, h.table, h.w_ge, h.w_le, h.depth_ge,
    h.depth_le, h.hdepth_ge, h.hdepth_le, h.n_ge, h.n_le, h.paranoia_ge, h.paranoia_le, h.cidx, h.gens_length,
    h.gens, h.hashes_length, h.hashes, h.whS1, h.whS2, h.whS3⟩

theorem Legal.driveOnly (h : Legal s) {v : Nat} (hv : v < 2 ^ xw s) :
    Legal (driveOnly v s) :=
  ⟨h.params, h.din, hv, h.res, h.status, h.tbytes_pow, h.tbytes_le, h.table, h.w_ge, h.w_le, h.depth_ge,
    h.depth_le, h.hdepth_ge, h.hdepth_le, h.n_ge, h.n_le, h.paranoia_ge, h.paranoia_le, h.cidx, h.gens_length,
    h.gens, h.hashes_length, h.hashes, h.whS1, h.whS2, h.whS3⟩

theorem Legal.setPending (h : Legal s) {p : List (CmdWord × Nat)} :
    Legal { s with pending := p } :=
  ⟨h.params, h.din, h.dout, h.res, h.status, h.tbytes_pow, h.tbytes_le, h.table, h.w_ge, h.w_le, h.depth_ge,
    h.depth_le, h.hdepth_ge, h.hdepth_le, h.n_ge, h.n_le, h.paranoia_ge, h.paranoia_le, h.cidx, h.gens_length,
    h.gens, h.hashes_length, h.hashes, h.whS1, h.whS2, h.whS3⟩

theorem Legal.present (h : Legal s) {c : CmdWord} {d : Nat} (hd : d < 2 ^ xw s) :
    Legal (present c d s) :=
  ⟨h.params, hd, h.dout, h.res, h.status, h.tbytes_pow, h.tbytes_le, h.table, h.w_ge, h.w_le, h.depth_ge,
    h.depth_le, h.hdepth_ge, h.hdepth_le, h.n_ge, h.n_le, h.paranoia_ge, h.paranoia_le, h.cidx, h.gens_length,
    h.gens, h.hashes_length, h.hashes, h.whS1, h.whS2, h.whS3⟩

theorem Legal.faultedWith (h : Legal s) {c : BitVec 4} (hc : 1 ≤ c.toNat ∧ c.toNat ≤ 5) :
    Legal (faultedWith c s) :=
  ⟨h.params, h.din, Nat.two_pow_pos _, h.res, ⟨fun e => absurd e (by simp [Sys2Proof.Machine.faultedWith]), fun
    _ => hc⟩, h.tbytes_pow, h.tbytes_le, h.table, h.w_ge, h.w_le, h.depth_ge, h.depth_le, h.hdepth_ge,
    h.hdepth_le, h.n_ge, h.n_le, h.paranoia_ge, h.paranoia_le, h.cidx, h.gens_length, h.gens, h.hashes_length,
    h.hashes, h.whS1, h.whS2, h.whS3⟩

theorem Legal.setCidx (h : Legal s) {k : Nat} (hk : k ≤ s.n - 2) :
    Legal { s with cidx := k } :=
  ⟨h.params, h.din, h.dout, h.res, h.status, h.tbytes_pow, h.tbytes_le, h.table, h.w_ge, h.w_le, h.depth_ge,
    h.depth_le, h.hdepth_ge, h.hdepth_le, h.n_ge, h.n_le, h.paranoia_ge, h.paranoia_le, hk, h.gens_length, h.gens,
    h.hashes_length, h.hashes, h.whS1, h.whS2, h.whS3⟩

theorem Legal.setSeeds (h : Legal s) {a b c : Nat} (ha : 1 ≤ a ∧ a ≤ 30268) (hb : 1 ≤ b ∧ b ≤ 30306) (hc : 1 ≤ c ∧ c ≤ 30322) :
    Legal { s with whS1 := a, whS2 := b, whS3 := c } :=
  ⟨h.params, h.din, h.dout, h.res, h.status, h.tbytes_pow, h.tbytes_le, h.table, h.w_ge, h.w_le, h.depth_ge,
    h.depth_le, h.hdepth_ge, h.hdepth_le, h.n_ge, h.n_le, h.paranoia_ge, h.paranoia_le, h.cidx, h.gens_length,
    h.gens, h.hashes_length, h.hashes, ha, hb, hc⟩

theorem Legal.setWalk (h : Legal s) {r : BitVec 64} {t : Bool} {a b c d : BitVec 32} :
    Legal { s with rhash := r, rtog := t, idx0 := a, idx1 := b, idx2 := c, idx3 := d } :=
  ⟨h.params, h.din, h.dout, h.res, h.status, h.tbytes_pow, h.tbytes_le, h.table, h.w_ge, h.w_le, h.depth_ge,
    h.depth_le, h.hdepth_ge, h.hdepth_le, h.n_ge, h.n_le, h.paranoia_ge, h.paranoia_le, h.cidx, h.gens_length,
    h.gens, h.hashes_length, h.hashes, h.whS1, h.whS2, h.whS3⟩

theorem Legal.storeWord (h : Legal s) {i : Nat} {v : TableWord} (hi : i < words s) :
    Legal (storeWord i v s) :=
  ⟨h.params, h.din, h.dout, h.res, h.status, h.tbytes_pow, h.tbytes_le, Table.wf_write hi h.table, h.w_ge,
    h.w_le, h.depth_ge, h.depth_le, h.hdepth_ge, h.hdepth_le, h.n_ge, h.n_le, h.paranoia_ge, h.paranoia_le,
    h.cidx, h.gens_length, h.gens, h.hashes_length, h.hashes, h.whS1, h.whS2, h.whS3⟩

theorem Legal.resizeTable (h : Legal s) {b : Nat} (hb : ∃ k, 12 ≤ k ∧ b = 2 ^ k) (hm : b ≤ s.params.tmaxBytes) :
    Legal (resizeTable b s) :=
  ⟨h.params, h.din, h.dout, h.res, h.status, hb, hm, rfl, h.w_ge, h.w_le, h.depth_ge, h.depth_le, h.hdepth_ge,
    h.hdepth_le, h.n_ge, h.n_le, h.paranoia_ge, h.paranoia_le, h.cidx, h.gens_length, h.gens, h.hashes_length,
    h.hashes, h.whS1, h.whS2, h.whS3⟩

theorem Legal.setPolicy (h : Legal s) {p : Nat} {r : BitVec 8} {c : Bool} (h1 : 1 ≤ p) (h4 : p ≤ 4) :
    Legal { s with paranoia := p, retryMax := r, cchk := c } :=
  ⟨h.params, h.din, h.dout, h.res, h.status, h.tbytes_pow, h.tbytes_le, h.table, h.w_ge, h.w_le, h.depth_ge,
    h.depth_le, h.hdepth_ge, h.hdepth_le, h.n_ge, h.n_le, h1, h4, h.cidx, h.gens_length, h.gens, h.hashes_length,
    h.hashes, h.whS1, h.whS2, h.whS3⟩

theorem clearedGen_legal {dmax w depth : Nat} (hd : 1 ≤ depth) : (Gen.cleared dmax).Legal dmax w depth := by
  refine ⟨by simp [Gen.cleared], fun x hx => ?_, hd, Nat.two_pow_pos _, Nat.two_pow_pos _, Nat.two_pow_pos _⟩
  rw [(List.mem_replicate.1 hx).2]; exact Nat.two_pow_pos _

theorem clearedHash_legal {hdmax w hdepth : Nat} (hd : 1 ≤ hdepth) : (Hash.cleared hdmax).Legal hdmax w hdepth := by
  refine ⟨by simp [Hash.cleared], fun x hx => ?_, hd⟩
  rw [(List.mem_replicate.1 hx).2]; exact Nat.two_pow_pos _

/-- A structural write: the new geometry is legal and every instance is cleared (10_state.md R32). -/
theorem Legal.setGeometry (h : Legal s) {w d hd' n : Nat} {m : Mode} (hw : 8 ≤ w ∧ w ≤ s.params.wmax)
    (hd : 1 ≤ d ∧ d ≤ s.params.dmax) (hh : 1 ≤ hd' ∧ hd' ≤ s.params.hdmax) (hn : 2 ≤ n ∧ n ≤ s.params.nmax) :
    Legal (clearInstances { s with w := w, depth := d, hdepth := hd', n := n, mode := m }) :=
  ⟨h.params, h.din, h.dout, h.res, h.status, h.tbytes_pow, h.tbytes_le, h.table, hw.1, hw.2, hd.1, hd.2, hh.1,
    hh.2, hn.1, hn.2, h.paranoia_ge, h.paranoia_le, Nat.zero_le _, List.length_replicate, fun _ hg =>
    (List.eq_of_mem_replicate hg) ▸ clearedGen_legal hd.1, List.length_replicate, fun _ hg =>
    (List.eq_of_mem_replicate hg) ▸ clearedHash_legal hh.1, h.whS1, h.whS2, h.whS3⟩

/-- `RESET` (10_state.md R37): the reset values are legal, and the ports keep theirs. -/
theorem Legal.resetBlock (h : Legal s) (hr : Legal (State.resetOf s.params)) : Legal (resetBlock s) :=
  ⟨hr.params, h.din, hr.dout, hr.res, hr.status, hr.tbytes_pow, hr.tbytes_le, hr.table, hr.w_ge, hr.w_le,
    hr.depth_ge, hr.depth_le, hr.hdepth_ge, hr.hdepth_le, hr.n_ge, hr.n_le, hr.paranoia_ge, hr.paranoia_le,
    hr.cidx, hr.gens_length, hr.gens, hr.hashes_length, hr.hashes, hr.whS1, hr.whS2, hr.whS3⟩

theorem Legal.enterFault (h : Legal s) (c : FaultCode) : Legal (enterFault c s) := by
  unfold Sys2Proof.Machine.enterFault
  split
  · exact h.noValue
  · exact h.faultedWith (c := c.code) (by cases c <;> decide)

theorem Legal.endNext (h : Legal s) {top : Bool} {v : Option Nat} {k : Nat} : Legal (endNext top v k s).state := by
  rw [endNext_state]; split
  · exact h.recordRetries
  · exact h

/-! Sub-operations. -/

theorem Legal.genNext (h : Legal s) (i bw steps : Nat) (top : Bool) : Legal (genNext i bw steps top s).state := by
  obtain ⟨v, k, g, sel, he, hd⟩ := genNext_shape (i := i) (bw := bw) (steps := steps) (top := top) (s := s)
  rw [he]
  have hg := drawLoop_inv (P := Gen.Legal s.params.dmax s.w s.depth) (w := s.w) (bw := bw) (steps := steps)
    (fun x hx => (genStep_legal h.depth_ge hx).2) s.retryMax.toNat 0 (Sys2Proof.Machine.genAt s i) s.foldSel (h.genAt i)
  rw [← hd] at hg
  exact ((h.setGen hg).setFoldSel).endNext

theorem Legal.hashNext (h : Legal s) (i bw steps : Nat) (top : Bool) : Legal (hashNext i bw steps top s).state := by
  obtain ⟨v, k, g, sel, he, hd⟩ := hashNext_shape (i := i) (bw := bw) (steps := steps) (top := top) (s := s)
  rw [he]
  have hw : 1 ≤ s.w := by have := h.w_ge; omega
  have hg := drawLoop_inv (P := Hash.Legal s.params.hdmax s.w s.hdepth) (w := s.w) (bw := bw) (steps := steps)
    (fun x hx => (hashStep_legal hw h.hdepth_ge hx).2) s.retryMax.toNat 0 (Sys2Proof.Machine.hashAt s i) s.foldSel
    (h.hashAt i)
  rw [← hd] at hg
  exact ((h.setHash hg).setFoldSel).endNext

/-- A drawn value fits the raw steps that made it (43_generators.md R133). -/
theorem Legal.genNext_lt (h : Legal s) {i bw steps v : Nat} {top : Bool} {t : State}
    (he : Sys2Proof.Machine.genNext i bw steps top s = .ok v t) : v < 2 ^ (steps * s.w) := by
  obtain ⟨hv, -⟩ := endNext_eq_ok.1 he
  exact (drawLoop_value (P := Gen.Legal s.params.dmax s.w s.depth) (fun x hx => (genStep_legal h.depth_ge hx).2)
    (fun x hx => (genStep_legal h.depth_ge hx).1) _ _ _ _ (h.genAt i) hv).2.2

theorem Legal.hashNext_lt (h : Legal s) {i bw steps v : Nat} {top : Bool} {t : State}
    (he : Sys2Proof.Machine.hashNext i bw steps top s = .ok v t) : v < 2 ^ (steps * s.w) := by
  obtain ⟨hv, -⟩ := endNext_eq_ok.1 he
  have hw : 1 ≤ s.w := by have := h.w_ge; omega
  exact (drawLoop_value (P := Hash.Legal s.params.hdmax s.w s.hdepth)
    (fun x hx => (hashStep_legal hw h.hdepth_ge hx).2) (fun x hx => (hashStep_legal hw h.hdepth_ge hx).1) _ _ _ _
    (h.hashAt i) hv).2.2

/-- A composition keeps legal states when its parts do. -/
theorem Sub.bind_legal {α β : Type} {r : Sub α} {k : α → State → Sub β} (hr : Legal r.state)
    (hk : ∀ a u, r = .ok a u → Legal u → Legal (k a u).state) : Legal (r.bind k).state := by
  cases r with
  | ok a u => exact hk a u rfl hr
  | raised c u => exact hr

theorem Legal.subNext (h : Legal s) (i bw : Nat) : Legal (subNext i bw s).state := by
  unfold Sys2Proof.Machine.subNext; split
  · exact h.genNext i bw 1 false
  · exact h.hashNext i bw 1 false

theorem Legal.compositeBit (h : Legal s) (bw : Nat) : Legal (compositeBit bw s).state := by
  refine Sub.bind_legal (h.subNext _ _) fun r s1 _ h1 => ?_
  refine Sub.bind_legal (Legal.subNext ?_ _ _) fun v s2 _ h2 => h2
  refine h1.setCidx ?_
  have := h1.n_ge
  have := Nat.mod_lt (s1.cidx + 1) (show 0 < s1.n - 1 by omega)
  omega

theorem Legal.compositeBits (bw : Nat) : ∀ (count p acc : Nat) {s : State}, Legal s →
    Legal (compositeBits bw count p acc s).state
  | 0, _, _, _, h => h
  | count + 1, _, _, _, h =>
    Sub.bind_legal (h.compositeBit bw) fun _ _ _ hu => Legal.compositeBits bw count _ _ hu

theorem Legal.compositeAttempt (h : Legal s) (bw steps : Nat) : Legal (compositeAttempt bw steps s).state :=
  Sub.bind_legal (Legal.compositeBits bw _ _ _ h) fun _ _ _ hu => hu.setFoldSel

theorem Legal.compositeLoop (bw steps : Nat) : ∀ (left k : Nat) {s : State}, Legal s →
    Legal (compositeLoop bw steps left k s).state
  | 0, _, _, h => Sub.bind_legal (h.compositeAttempt bw steps) fun _ _ _ hu => hu.endNext
  | left + 1, _, _, h => Sub.bind_legal (h.compositeAttempt bw steps) fun _ u _ hu => by
      split
      · exact Legal.compositeLoop bw steps left _ hu
      · exact hu.endNext

theorem Legal.compositeNext (h : Legal s) (bw steps : Nat) : Legal (compositeNext bw steps s).state :=
  Legal.compositeLoop bw steps _ _ h

theorem Legal.cipherByte (h : Legal s) (n : BitVec 4) : Legal (cipherByte n s).state :=
  Sub.bind_legal (h.compositeNext 8 n.toNat) fun _ _ _ hu => hu

theorem Legal.ofRandIntFrame (h : Legal s) {t : State} (hf : RandIntFrame s t) (hs : SeedsKept s t) : Legal t := by
  obtain ⟨h1, h2, h3⟩ := hs ⟨h.whS1, h.whS2, h.whS3⟩
  obtain ⟨_, _, _, _, _, _, _, _, _, _, rfl⟩ := hf
  exact ((h.setSeeds h1 h2 h3).setFoldSel).setWalk

theorem Legal.randInt (h : Legal s) (fw : Nat) : Legal (randInt fw s).state := by
  rcases he : Sys2Proof.Machine.randInt fw s with ⟨v, t⟩ | ⟨c, t⟩
  · exact h.ofRandIntFrame (randInt_frame he) (randInt_seeds he)
  · rw [Sub.state, (randInt_eq_raised he).2]
    exact h.ofRandIntFrame (walkIndices_frame fw s) (walkIndices_seeds fw s)

theorem Legal.nrvRounds (i width : Nat) : ∀ (rounds e r : Nat) {s : State}, Legal s →
    Legal (nrvRounds i width rounds e r s).state
  | 0, _, _, _, h => h
  | rounds + 1, e, r, s, h => by
    refine Sub.bind_legal ?_ fun v u hu' hu => ?_
    · unfold readField; split <;> exact h
    · exact Legal.nrvRounds i width rounds _ _
        (hu.setHash (hashBytes_legal (by have := hu.w_ge; omega) hu.hdepth_ge _ _ (hu.hashAt i)))

/-! Register writes. -/

/-- A register write that passes its check keeps legal states (10_state.md R30, R32). -/
theorem Legal.writeCfg (h : Legal s) (r : CfgReg) (v : Nat) : Legal (writeCfg r v s).state := by
  rcases hw : Sys2Proof.Machine.writeCfg r v s with ⟨x, t⟩ | ⟨c, t⟩
  · have g := And.intro h.w_ge h.w_le
    have d := And.intro h.depth_ge h.depth_le
    have e := And.intro h.hdepth_ge h.hdepth_le
    have n := And.intro h.n_ge h.n_le
    cases r <;> simp only [Sys2Proof.Machine.writeCfg, checkedWrite_eq_ok, reduceCtorEq, Bool.or_eq_false_iff,
      decide_eq_false_iff_not, Nat.not_lt] at hw <;> obtain ⟨hb, rfl⟩ := hw
    · exact h.setGeometry hb d e n
    · exact h.setGeometry g hb e n
    · exact h.setGeometry g d hb n
    · exact h.setGeometry g d e hb
    · exact h.setGeometry g d e n
    · exact h.setPolicy hb.1 hb.2
    · exact h.setPolicy h.paranoia_ge h.paranoia_le
    · exact h.setPolicy h.paranoia_ge h.paranoia_le
    · exact h.setFoldSel
    · exact h.setCidx hb
    · exact h.setSeeds hb h.whS2 h.whS3
    · exact h.setSeeds h.whS1 hb h.whS3
    · exact h.setSeeds h.whS1 h.whS2 hb
    all_goals exact h.setWalk
  · rw [(writeCfg_raised hw).1]; exact h

theorem Legal.writeGenField (h : Legal s) (i : Nat) (f : GenField) (v : Nat) : Legal (writeGenField i f v s).state := by
  have g := h.genAt i
  unfold Sys2Proof.Machine.writeGenField checkedWrite
  split
  · exact h
  · cases f <;> dsimp only
    · split
      · exact h
      · split
        · exact h
        · next hv =>
          exact h.setGen ⟨by simpa using g.length, set_elems_lt g.elems (by simpa using hv), g.index, g.mult, g.add, g.carry⟩
    · split
      · exact h
      · next hv => exact h.setGen ⟨g.length, g.elems, by simpa using hv, g.mult, g.add, g.carry⟩
    · split
      · exact h
      · next hv => exact h.setGen ⟨g.length, g.elems, g.index, by simpa using hv, g.add, g.carry⟩
    · split
      · exact h
      · next hv => exact h.setGen ⟨g.length, g.elems, g.index, g.mult, by simpa using hv, g.carry⟩
    · split
      · exact h
      · exact h.setGen ⟨g.length, g.elems, g.index, g.mult, g.add, g.carry⟩
    · split
      · exact h
      · next hv => exact h.setGen ⟨g.length, g.elems, g.index, g.mult, g.add, by simpa using hv⟩
    · split
      · exact h
      · exact h.setGen ⟨g.length, g.elems, g.index, g.mult, g.add, g.carry⟩

theorem Legal.writeHashField (h : Legal s) (i : Nat) (f : HashField) (v : Nat) : Legal (writeHashField i f v s).state := by
  have g := h.hashAt i
  unfold Sys2Proof.Machine.writeHashField checkedWrite
  split
  · exact h
  · cases f <;> dsimp only
    · split
      · exact h
      · split
        · exact h
        · next hv => exact h.setHash ⟨by simpa using g.length, set_elems_lt g.elems (by simpa using hv), g.idx⟩
    · split
      · exact h
      · next hv => exact h.setHash ⟨g.length, g.elems, by simpa using hv⟩
    · split
      · exact h
      · exact h.setHash ⟨g.length, g.elems, g.idx⟩

/-! Values read. -/

theorem GenVariant.number_le (x : GenVariant) : x.number ≤ 4 := by cases x <;> decide
theorem HashVariant.number_le (x : HashVariant) : x.number ≤ 1 := by cases x <;> decide

theorem Legal.depth_le_256 (h : Legal s) : s.depth ≤ 256 := Nat.le_trans h.depth_le h.params.dmax_le
theorem Legal.hdepth_le_256 (h : Legal s) : s.hdepth ≤ 256 := Nat.le_trans h.hdepth_le h.params.hdmax_le

theorem Legal.readGenField_lt (h : Legal s) {i v : Nat} {f : GenField} {t : State}
    (he : readGenField i f s = .ok v t) : v < 2 ^ xw s := by
  have g := h.genAt i
  have hd := h.depth_le_256
  unfold readGenField at he
  split at he
  · simp at he
  · cases f <;> simp only [Sub.ok.injEq] at he
    · split at he
      · simp at he
      · simp only [Sub.ok.injEq] at he; exact he.1 ▸ h.lt_xw_of_lt_w (slot_lt g.elems _)
    · exact he.1 ▸ h.lt_xw_of_lt (k := 8) (by have := g.index; omega) (by decide)
    · exact he.1 ▸ h.lt_xw_of_lt_w g.mult
    · exact he.1 ▸ h.lt_xw_of_lt_w g.add
    · exact he.1 ▸ h.lt_xw_of_lt (Sys2Proof.Machine.genAt s i).lag.isLt (by decide)
    · exact he.1 ▸ h.lt_xw_of_lt_w g.carry
    · exact he.1 ▸ h.lt_xw_of_lt (k := 3) (by have := (Sys2Proof.Machine.genAt s i).variant.number_le; omega) (by decide)

theorem Legal.readHashField_lt (h : Legal s) {i v : Nat} {f : HashField} {t : State}
    (he : readHashField i f s = .ok v t) : v < 2 ^ xw s := by
  have g := h.hashAt i
  have hd := h.hdepth_le_256
  unfold readHashField at he
  split at he
  · simp at he
  · cases f <;> simp only [Sub.ok.injEq] at he
    · split at he
      · simp at he
      · simp only [Sub.ok.injEq] at he; exact he.1 ▸ h.lt_xw_of_lt_w (slot_lt g.elems _)
    · exact he.1 ▸ h.lt_xw_of_lt (k := 8) (by have := g.idx; omega) (by decide)
    · exact he.1 ▸ h.lt_xw_of_lt (k := 1) (by have := (Sys2Proof.Machine.hashAt s i).variant.number_le; omega) (by decide)

theorem Legal.tbytes_lt (h : Legal s) : s.tbytes < 2 ^ 28 := by
  obtain ⟨k, -, hk, he⟩ := h.params.tmax_pow
  have := h.tbytes_le
  have : s.params.tmaxBytes ≤ 2 ^ 27 := he ▸ Nat.pow_le_pow_right (by decide) hk
  omega

/-- Every register fits the ports (10_state.md R30, R31). -/
theorem Legal.readCfg_lt (h : Legal s) (r : CfgReg) : readCfg r s < 2 ^ xw s := by
  have hx : xw s < 2 ^ xw s := Nat.lt_two_pow_self
  have hw : s.params.wmax ≤ xw s := by unfold xw; omega
  have := h.w_le; have := h.depth_le_256; have := h.hdepth_le_256; have := h.n_le; have := h.params.nmax_le
  have := h.paranoia_le; have := h.cidx; have := h.tbytes_lt; have := h.whS1.2; have := h.whS2.2; have := h.whS3.2
  have := h.params.dmax_le; have := h.params.hdmax_le
  obtain ⟨k, -, hk, he⟩ := h.params.tmax_pow
  have : s.params.tmaxBytes ≤ 2 ^ 27 := he ▸ Nat.pow_le_pow_right (by decide) hk
  cases r <;> simp only [readCfg, bitSize, bitIndexMask]
  case w => omega
  case mode => exact h.lt_xw_of_lt (k := 1) (by cases s.mode <;> decide) (by decide)
  case retryMax => exact h.lt_xw_of_lt s.retryMax.isLt (by decide)
  case cchk => exact h.lt_xw_of_lt (k := 1) (by cases s.cchk <;> decide) (by decide)
  case foldSel => exact h.lt_xw_of_lt s.foldSel.isLt (by decide)
  case rhash => exact h.lt_xw_of_lt s.rhash.isLt (by decide)
  case rtog => exact h.lt_xw_of_lt (k := 1) (by cases s.rtog <;> decide) (by decide)
  case idx0 => exact h.lt_xw_of_lt s.idx0.isLt (by decide)
  case idx1 => exact h.lt_xw_of_lt s.idx1.isLt (by decide)
  case idx2 => exact h.lt_xw_of_lt s.idx2.isLt (by decide)
  case idx3 => exact h.lt_xw_of_lt s.idx3.isLt (by decide)
  case wmax => omega
  case xw => exact hx
  all_goals exact h.lt_xw_of_lt (k := 32) (by omega) (by decide)

end Sys2Proof.Machine
end

