-- ==== Sys2Proof/Laws/LegalBody.lean ====
section
/-! SUPPORT. The body of every command keeps the legal states, and its value fits the ports. -/

namespace Sys2Proof.Machine

variable {s : State}

/-- A check keeps a legal state legal when what follows it does. -/
theorem check_legal {bad : Prop} [Decidable bad] {c : FaultCode} {rest : Sub (Option Nat)} (hs : Legal s)
    (h : ¬ bad → Legal rest.state) : Legal (check bad c s rest).state := check_state hs h

/-- The table sizes `TSIZE` accepts (40_table.md R91). -/
theorem onePower_ge_4096 {v : Nat} (h1 : 4096 ≤ v) (h : onePower v = true) : ∃ k, 12 ≤ k ∧ v = 2 ^ k := by
  obtain ⟨k, rfl⟩ := (onePower_iff (by omega)).1 h
  refine ⟨k, ?_, rfl⟩
  by_contra hk
  have : 2 ^ k ≤ 2 ^ 11 := Nat.pow_le_pow_right (by decide) (by omega)
  omega

/-- The digest that a round of `Nrv` XORs in fits `W` bits and the requested width (45_bootstrap_draw.md R154). -/
theorem nrvRounds_lt_w {i width v : Nat} : ∀ {rounds e r : Nat} {s t : State}, Legal s → r < 2 ^ s.w →
    nrvRounds i width rounds e r s = .ok v t → v < 2 ^ s.w
  | 0, _, _, _, _, _, hr, h => by simp only [nrvRounds, Sub.ok.injEq] at h; exact h.1 ▸ hr
  | rounds + 1, e, r, s, t, hl, hr, h => by
    obtain ⟨x, u, hu, h'⟩ := Sub.bind_eq_ok.1 h
    obtain ⟨-, rfl⟩ := readField_eq_ok.1 hu
    have hg := hashBytes_legal (by have := hl.w_ge; omega) hl.hdepth_ge (ceilDiv width 8) x (hl.hashAt i)
    refine nrvRounds_lt_w (s := setHash i _ u) (hl.setHash hg) ?_ h'
    exact Nat.xor_lt_two_pow hr (Nat.lt_of_le_of_lt Nat.and_le_left (hashDigest_lt hg.elems))

/-- The body of every command keeps legal states, whether it completes or raises. -/
theorem execBody_legal {i : Instr} (h : Legal s) : Legal (execBody i s).state := by
  have hw : 1 ≤ s.w := by have := h.w_ge; omega
  cases i <;> simp only [execBody]
  case wrcfg r => rw [Sub.none_state]; exact h.writeCfg _ _
  case hwr => rw [Sub.none_state]; exact h.writeHashField _ _ _
  case gwr => rw [Sub.none_state]; exact h.writeGenField _ _ _
  case hrd a f =>
    rw [Sub.some_state]
    rcases hw : readHashField a.toNat f s with ⟨x, t⟩ | ⟨c, t⟩
    · rw [(readHashField_ok hw).1]; exact h
    · rw [(readHashField_raised hw).1]; exact h
  case grd a f =>
    rw [Sub.some_state]
    rcases hw : readGenField a.toNat f s with ⟨x, t⟩ | ⟨c, t⟩
    · rw [(readGenField_ok hw).1]; exact h
    · rw [(readGenField_raised hw).1]; exact h
  case tsize => 
    refine check_legal h fun hb => ?_
    simp at hb
    exact h.resizeTable (onePower_ge_4096 hb.1.1 hb.2) hb.1.2
  case tload x => refine check_legal h fun hb => check_legal h fun _ => h.storeWord (by omega)
  case tread x => exact check_state h fun _ => by split <;> exact h
  case bitstr n =>
    refine check_state h fun _ => ?_
    rw [Sub.some_state]; unfold readField; split <;> exact h
  case fold n => exact check_legal h fun _ => h.setFoldSel
  case folda a n => exact check_legal h fun _ => h
  case hupd a l =>
    exact check_legal h fun _ => check_legal h fun _ => check_legal h fun _ => check_legal h fun _ =>
      h.setHash (hashBytes_legal hw h.hdepth_ge _ _ (h.hashAt _))
  case hdig a => exact check_legal h fun _ => h
  case hstep a => exact check_legal h fun _ => h.setHash (hashStep_legal hw h.hdepth_ge (h.hashAt _)).2
  case hnext a n b =>
    refine check_state h fun _ => check_state h fun _ => check_state h fun _ => ?_
    rw [Sub.some_state]; exact h.hashNext _ _ _ _
  case gnext a n b =>
    refine check_state h fun _ => check_state h fun _ => check_state h fun _ => ?_
    rw [Sub.some_state]; exact h.genNext _ _ _ _
  case gstep a => exact check_legal h fun _ => h.setGen (genStep_legal h.depth_ge (h.genAt _)).2
  case gspin a => exact check_legal h fun _ => check_legal h fun _ => h.setGen (genSpin_legal h.depth_ge _ (h.genAt _))
  case whnext k => exact check_legal h fun _ => h.ofRandIntFrame (whNext_frame _ _) (whAdvance_seeds s)
  case randint n =>
    refine check_state h fun _ => check_state h fun _ => ?_
    rw [Sub.some_state]; exact h.randInt _
  case nrv i n =>
    refine check_state h fun _ => check_state h fun _ => ?_
    rw [Sub.some_state]; exact Legal.nrvRounds _ _ _ _ _ h
  case cnext n b =>
    refine check_state h fun _ => check_state h fun _ => check_state h fun _ => ?_
    rw [Sub.some_state]; exact h.compositeNext _ _
  case enc n =>
    refine check_state h fun _ => check_state h fun _ => ?_
    rw [Sub.some_state]; exact h.cipherByte _
  case dec n =>
    refine check_state h fun _ => check_state h fun _ => ?_
    rw [Sub.some_state]; exact h.cipherByte _
  all_goals exact h

/-- Every value a command returns fits the ports (10_state.md R22). -/
theorem execBody_value_lt {i : Instr} {t : State} {v : Nat} (h : Legal s) (hb : execBody i s = .ok (some v) t) :
    v < 2 ^ xw s := by
  have hw : 1 ≤ s.w := by have := h.w_ge; omega
  cases i <;> simp only [execBody, check_eq_ok, Sub.some_eq_ok,
    Sub.none_eq_ok, Option.some.injEq, reduceCtorEq, false_and, and_false, Sub.ok.injEq] at hb
  case rdres => exact hb.1 ▸ h.res
  case rdcfg r => exact hb.1 ▸ h.readCfg_lt r
  case tread x =>
    obtain ⟨-, hb⟩ := hb
    split at hb
    · simp at hb
    · simp at hb; exact hb.1 ▸ h.lt_xw_of_lt (BitVec.isLt _) (by decide)
  case bitstr n =>
    obtain ⟨-, x, rfl, hb⟩ := hb
    exact bitRead_lt_xw (readField_eq_ok.1 hb).1
  case fold n =>
    obtain ⟨-, x, rfl, hb⟩ := hb
    simp only [foldState, Sub.ok.injEq] at hb
    exact hb.1 ▸ fold_lt_of_lt h.din
  case folda a n => exact hb.2.1 ▸ foldAlg_lt_of_lt h.din
  case hrd a f => obtain ⟨x, rfl, hb⟩ := hb; exact h.readHashField_lt hb
  case grd a f => obtain ⟨x, rfl, hb⟩ := hb; exact h.readGenField_lt hb
  case hdig a => exact hb.2.1 ▸ h.lt_xw_of_lt_w (hashDigest_lt (h.hashAt _).elems)
  case hstep a => exact hb.2.1 ▸ h.lt_xw_of_lt_w (hashStep_legal hw h.hdepth_ge (h.hashAt _)).1
  case gstep a => exact hb.2.1 ▸ h.lt_xw_of_lt_w (genStep_legal h.depth_ge (h.genAt _)).1
  case hnext a n b =>
    obtain ⟨-, -, -, x, rfl, hb⟩ := hb
    refine Nat.lt_of_lt_of_le (h.hashNext_lt hb) (Nat.pow_le_pow_right (by decide) ?_)
    have := n.isLt; have := h.w_le
    exact Nat.mul_le_mul (by omega) this
  case gnext a n b =>
    obtain ⟨-, -, -, x, rfl, hb⟩ := hb
    refine Nat.lt_of_lt_of_le (h.genNext_lt hb) (Nat.pow_le_pow_right (by decide) ?_)
    have := n.isLt; have := h.w_le
    exact Nat.mul_le_mul (by omega) this
  case cnext n b =>
    obtain ⟨h1, -, h3, x, rfl, hb⟩ := hb
    refine Nat.lt_of_lt_of_le (compositeNext_value hb).1 (Nat.pow_le_pow_right (by decide) ?_)
    have : 1 ≤ n.toNat := by
      rcases Nat.eq_zero_or_pos n.toNat with h0 | h0
      · exact absurd (BitVec.eq_of_toNat_eq (by simpa using h0)) h1
      · exact h0
    have : 1 * b.toNat ≤ n.toNat * b.toNat := Nat.mul_le_mul_right _ this
    omega
  case enc n =>
    obtain ⟨-, h3, x, rfl, hb⟩ := hb
    obtain ⟨k, hk, rfl⟩ := cipherByte_ok hb
    exact h.lt_xw_of_lt (k := 8) (Nat.xor_lt_two_pow (by omega) (compositeNext_value hk).1) (by decide)
  case dec n =>
    obtain ⟨-, h3, x, rfl, hb⟩ := hb
    obtain ⟨k, hk, rfl⟩ := cipherByte_ok hb
    exact h.lt_xw_of_lt (k := 8) (Nat.xor_lt_two_pow (by omega) (compositeNext_value hk).1) (by decide)
  case whnext k => 
    obtain ⟨h3, rfl, -⟩ := hb
    exact h.lt_xw_of_lt (whNext_lt _ _) (by omega)
  case randint n =>
    obtain ⟨-, h3, x, rfl, hb⟩ := hb
    exact Nat.lt_of_lt_of_le (randInt_lt hb) (Nat.pow_le_pow_right (by decide) (by omega))
  case nrv a n =>
    obtain ⟨-, -, x, rfl, hb⟩ := hb
    exact h.lt_xw_of_lt_w (nrvRounds_lt_w h (Nat.two_pow_pos _) hb)

end Sys2Proof.Machine
end

