-- ==== Sys2Proof/Laws/DrawSpec.lean ====
section
/-! SUPPORT. The draws of the `next` contract as Safety.lean writes them (43_generators.md R132, R133; 42_hash.md R117),
and the loops of the model that make them. -/

namespace Sys2Proof.Machine

variable {ι : Type}

/-- The first raw output stands above the others (43_generators.md R133). -/
theorem concatenated_succ (raw : ι → Nat × ι) (w k : Nat) (x : ι) :
    concatenated raw w (k + 1) x = (raw x).1 * 2 ^ (w * k) + concatenated raw w k (raw x).2 := by
  unfold concatenated
  rw [List.range_succ_eq_map, List.map_cons, List.sum_cons, List.map_map]
  congr 2
  refine List.map_congr_left fun t ht => ?_
  simp only [Function.comp, afterSteps]
  rw [show k + 1 - 1 - (t + 1) = k - 1 - t by omega]

/-- The accumulator is the concatenation of the raw outputs, when each of them has `w` bits. -/
theorem accumulate_eq {raw : ι → Nat × ι} {w : Nat} {P : ι → Prop} (hP : ∀ x, P x → P (raw x).2)
    (hraw : ∀ x, P x → (raw x).1 < 2 ^ w) : ∀ (k acc : Nat) (x : ι), P x →
      accumulate raw w k acc x = (acc * 2 ^ (w * k) + concatenated raw w k x, afterSteps raw k x)
  | 0, acc, x, _ => by simp [accumulate, concatenated, afterSteps]
  | k + 1, acc, x, h => by
    simp only [accumulate, afterSteps]
    rw [shiftLeft_or_eq (hraw x h), accumulate_eq hP hraw k _ _ (hP x h), concatenated_succ]
    congr 1
    rw [Nat.mul_succ, Nat.pow_add]; ring

theorem afterSteps_inv {raw : ι → Nat × ι} {P : ι → Prop} (hP : ∀ x, P x → P (raw x).2) :
    ∀ (k : Nat) (x : ι), P x → P (afterSteps raw k x)
  | 0, _, h => h
  | k + 1, x, h => afterSteps_inv hP k _ (hP x h)

/-- One pass of the model's loop is one draw of the contract. -/
theorem drawOnce_eq {raw : ι → Nat × ι} {w bw steps : Nat} {P : ι → Prop} (hP : ∀ x, P x → P (raw x).2)
    (hraw : ∀ x, P x → (raw x).1 < 2 ^ w) {x : ι} (sel : BitVec 2) (h : P x) :
    drawOnce raw w bw steps x sel = drawFrom raw w bw steps x sel := by
  unfold drawOnce drawFrom
  rw [accumulate_eq hP hraw _ _ _ h]
  simp only [Nat.zero_mul, Nat.zero_add, fold]
  split <;> rfl

theorem drawFrom_inst (raw : ι → Nat × ι) (w bw steps : Nat) (x : ι) (sel : BitVec 2) :
    (drawFrom raw w bw steps x sel).inst = afterSteps raw steps x := by
  unfold drawFrom; simp only; split <;> rfl

/-- The draws of the model's loop are those of the contract, and the instance keeps its invariant. -/
theorem drawNumber_eq {raw : ι → Nat × ι} {w bw steps : Nat} {P : ι → Prop} (hP : ∀ x, P x → P (raw x).2)
    (hraw : ∀ x, P x → (raw x).1 < 2 ^ w) {x : ι} (sel : BitVec 2) (h : P x) : ∀ k,
    drawNumber raw w bw steps x sel k = drawAt raw w bw steps x sel k ∧ P (drawAt raw w bw steps x sel k).inst
  | 0 => ⟨drawOnce_eq hP hraw sel h, by rw [drawAt, drawFrom_inst]; exact afterSteps_inv hP _ _ h⟩
  | k + 1 => by
    obtain ⟨h1, h2⟩ := drawNumber_eq hP hraw sel h k
    have e : drawNumber raw w bw steps x sel (k + 1) =
        drawOnce raw w bw steps (drawNumber raw w bw steps x sel k).inst (drawNumber raw w bw steps x sel k).sel := rfl
    rw [e, h1, drawOnce_eq hP hraw _ h2]
    exact ⟨rfl, by rw [drawAt, drawFrom_inst]; exact afterSteps_inv hP _ _ h2⟩

/-! The two kinds of instance. -/

theorem genDraw_eq {s : State} (h : Legal s) (i bw steps k : Nat) :
    drawNumber (genStep s.w s.depth) s.w bw steps (genAt s i) s.foldSel k = genDraw s i bw steps k :=
  (drawNumber_eq (P := fun g => g.Legal s.params.dmax s.w s.depth) (fun _ hg => (genStep_legal h.depth_ge hg).2)
    (fun _ hg => (genStep_legal h.depth_ge hg).1) s.foldSel (h.genAt i) k).1

theorem hashDraw_eq {s : State} (h : Legal s) (i bw steps k : Nat) :
    drawNumber (hashStep s.w s.hdepth) s.w bw steps (hashAt s i) s.foldSel k = hashDraw s i bw steps k :=
  (drawNumber_eq (P := fun g => g.Legal s.params.hdmax s.w s.hdepth)
    (fun _ hg => (hashStep_legal (by have := h.w_ge; omega) h.hdepth_ge hg).2)
    (fun _ hg => (hashStep_legal (by have := h.w_ge; omega) h.hdepth_ge hg).1) s.foldSel (h.hashAt i) k).1

/-- `GNext` returns its first draw that is not degenerate (43_generators.md R133). -/
theorem genNext_drawn {s : State} (h : Legal s) {i bw steps k : Nat} {top : Bool} (hk : k ≤ s.retryMax.toNat)
    (hpre : ∀ j < k, Degenerate bw (genDraw s i bw steps j).value)
    (hd : ¬ Degenerate bw (genDraw s i bw steps k).value) :
    genNext i bw steps top s = endNext top (some (genDraw s i bw steps k).value) k
      (setFoldSel (genDraw s i bw steps k).sel (setGen i (genDraw s i bw steps k).inst s)) := by
  unfold genNext
  rw [drawLoop_drawn _ _ k _ _ hk (fun j hj => by rw [genDraw_eq h]; exact hpre j hj) (by rwa [genDraw_eq h]),
    genDraw_eq h, Nat.zero_add]

/-- `GNext` is exhausted when its `RETRY_MAX + 1` draws are degenerate (43_generators.md R133). -/
theorem genNext_exhausted {s : State} (h : Legal s) {i bw steps : Nat} {top : Bool}
    (hd : ∀ j ≤ s.retryMax.toNat, Degenerate bw (genDraw s i bw steps j).value) :
    ∃ g sel, genNext i bw steps top s = endNext top none s.retryMax.toNat (setFoldSel sel (setGen i g s)) := by
  unfold genNext
  rw [drawLoop_exhausted _ _ _ _ (fun j hj => by rw [genDraw_eq h]; exact hd j hj), Nat.zero_add]
  exact ⟨_, _, rfl⟩

/-- `HNext` returns its first draw that is not degenerate (42_hash.md R117). -/
theorem hashNext_drawn {s : State} (h : Legal s) {i bw steps k : Nat} {top : Bool} (hk : k ≤ s.retryMax.toNat)
    (hpre : ∀ j < k, Degenerate bw (hashDraw s i bw steps j).value)
    (hd : ¬ Degenerate bw (hashDraw s i bw steps k).value) :
    hashNext i bw steps top s = endNext top (some (hashDraw s i bw steps k).value) k
      (setFoldSel (hashDraw s i bw steps k).sel (setHash i (hashDraw s i bw steps k).inst s)) := by
  unfold hashNext
  rw [drawLoop_drawn _ _ k _ _ hk (fun j hj => by rw [hashDraw_eq h]; exact hpre j hj) (by rwa [hashDraw_eq h]),
    hashDraw_eq h, Nat.zero_add]

/-- `HNext` is exhausted when its `RETRY_MAX + 1` draws are degenerate (42_hash.md R117). -/
theorem hashNext_exhausted {s : State} (h : Legal s) {i bw steps : Nat} {top : Bool}
    (hd : ∀ j ≤ s.retryMax.toNat, Degenerate bw (hashDraw s i bw steps j).value) :
    ∃ g sel, hashNext i bw steps top s = endNext top none s.retryMax.toNat (setFoldSel sel (setHash i g s)) := by
  unfold hashNext
  rw [drawLoop_exhausted _ _ _ _ (fun j hj => by rw [hashDraw_eq h]; exact hd j hj), Nat.zero_add]
  exact ⟨_, _, rfl⟩

end Sys2Proof.Machine
end

