-- ==== Sys2Proof/Laws/Encoding.lean ====
section
/-! SUPPORT. The four formats as numbers, and each field read back from a word built of fields (30_encoding.md R70 to
R75). -/

namespace Sys2Proof

/-- Concatenation as arithmetic (00_scope.md R12). -/
theorem toNat_append_eq {m n : Nat} (x : BitVec m) (y : BitVec n) : (x ++ y).toNat = x.toNat * 2 ^ n + y.toNat := by
  rw [BitVec.toNat_append, Nat.shiftLeft_eq, Nat.mul_comm, ← Nat.two_pow_add_eq_or_of_lt y.isLt]

/-- Format N (R72). -/
theorem wordN_toNat (opc inst : BitVec 8) (steps : BitVec 4) (width : BitVec 12) :
    (wordN opc inst steps width).toNat =
      opc.toNat * 2 ^ 24 + inst.toNat * 2 ^ 16 + steps.toNat * 2 ^ 12 + width.toNat := by
  rw [wordN, toNat_append_eq, toNat_append_eq, toNat_append_eq]; ring

/-- Format R (R73). -/
theorem wordR_toNat (opc inst reg elem : BitVec 8) :
    (wordR opc inst reg elem).toNat =
      opc.toNat * 2 ^ 24 + inst.toNat * 2 ^ 16 + reg.toNat * 2 ^ 8 + elem.toNat := by
  rw [wordR, toNat_append_eq, toNat_append_eq, toNat_append_eq]; ring

/-- Formats T and Z (R74, R71). -/
theorem wordT_toNat (opc : BitVec 8) (widx : BitVec 24) :
    (wordT opc widx).toNat = opc.toNat * 2 ^ 24 + widx.toNat := by
  rw [wordT, toNat_append_eq]

/-- A field of a word as arithmetic (00_scope.md R11). -/
theorem extract_toNat {w : Nat} (c : BitVec w) (lo len : Nat) :
    (c.extractLsb' lo len).toNat = c.toNat / 2 ^ lo % 2 ^ len := by
  simp [Nat.shiftRight_eq_div_pow]

section

variable (opc inst reg elem : BitVec 8) (steps : BitVec 4) (width : BitVec 12) (widx : BitVec 24)

@[simp] theorem opcOf_wordN : opcOf (wordN opc inst steps width) = opc := by
  apply BitVec.eq_of_toNat_eq
  have := opc.isLt; have := inst.isLt; have := steps.isLt; have := width.isLt
  rw [opcOf, extract_toNat, wordN_toNat]; omega

@[simp] theorem instOf_wordN : instOf (wordN opc inst steps width) = inst := by
  apply BitVec.eq_of_toNat_eq
  have := opc.isLt; have := inst.isLt; have := steps.isLt; have := width.isLt
  rw [instOf, extract_toNat, wordN_toNat]; omega

@[simp] theorem stepsOf_wordN : stepsOf (wordN opc inst steps width) = steps := by
  apply BitVec.eq_of_toNat_eq
  have := opc.isLt; have := inst.isLt; have := steps.isLt; have := width.isLt
  rw [stepsOf, extract_toNat, wordN_toNat]; omega

@[simp] theorem widthOf_wordN : widthOf (wordN opc inst steps width) = width := by
  apply BitVec.eq_of_toNat_eq
  have := opc.isLt; have := inst.isLt; have := steps.isLt; have := width.isLt
  rw [widthOf, extract_toNat, wordN_toNat]; omega

@[simp] theorem opcOf_wordR : opcOf (wordR opc inst reg elem) = opc := by
  apply BitVec.eq_of_toNat_eq
  have := opc.isLt; have := inst.isLt; have := reg.isLt; have := elem.isLt
  rw [opcOf, extract_toNat, wordR_toNat]; omega

@[simp] theorem instOf_wordR : instOf (wordR opc inst reg elem) = inst := by
  apply BitVec.eq_of_toNat_eq
  have := opc.isLt; have := inst.isLt; have := reg.isLt; have := elem.isLt
  rw [instOf, extract_toNat, wordR_toNat]; omega

@[simp] theorem regOf_wordR : regOf (wordR opc inst reg elem) = reg := by
  apply BitVec.eq_of_toNat_eq
  have := opc.isLt; have := inst.isLt; have := reg.isLt; have := elem.isLt
  rw [regOf, extract_toNat, wordR_toNat]; omega

@[simp] theorem elemOf_wordR : elemOf (wordR opc inst reg elem) = elem := by
  apply BitVec.eq_of_toNat_eq
  have := opc.isLt; have := inst.isLt; have := reg.isLt; have := elem.isLt
  rw [elemOf, extract_toNat, wordR_toNat]; omega

@[simp] theorem opcOf_wordT : opcOf (wordT opc widx) = opc := by
  apply BitVec.eq_of_toNat_eq
  have := opc.isLt; have := widx.isLt
  rw [opcOf, extract_toNat, wordT_toNat]; omega

@[simp] theorem widxOf_wordT : widxOf (wordT opc widx) = widx := by
  apply BitVec.eq_of_toNat_eq
  have := opc.isLt; have := widx.isLt
  rw [widxOf, extract_toNat, wordT_toNat]; omega

/-- The algorithm field of `FOLDA`, bits 17:16 (R76). -/
@[simp] theorem algOf_wordN (alg : BitVec 2) :
    (wordN opc (alg.setWidth 8) steps width).extractLsb' 16 2 = alg := by
  apply BitVec.eq_of_toNat_eq
  have := opc.isLt; have := alg.isLt; have := steps.isLt; have := width.isLt
  have h : (alg.setWidth 8).toNat = alg.toNat := by simp; omega
  rw [extract_toNat, wordN_toNat, h]; omega

/-- The must-be-zero field of `FOLDA`, bits 23:18 (R76). -/
@[simp] theorem aboveAlgOf_wordN (alg : BitVec 2) :
    (wordN opc (alg.setWidth 8) steps width).extractLsb' 18 6 = 0 := by
  apply BitVec.eq_of_toNat_eq
  have := opc.isLt; have := alg.isLt; have := steps.isLt; have := width.isLt
  have h : (alg.setWidth 8).toNat = alg.toNat := by simp; omega
  rw [extract_toNat, wordN_toNat, h]; simp; omega

end

/-! A word is determined by its fields. -/

theorem eq_wordN (c : CmdWord) : c = wordN (opcOf c) (instOf c) (stepsOf c) (widthOf c) := by
  apply BitVec.eq_of_toNat_eq
  have := c.isLt
  rw [wordN_toNat, opcOf, instOf, stepsOf, widthOf, extract_toNat, extract_toNat, extract_toNat, extract_toNat]; omega

theorem eq_wordR (c : CmdWord) : c = wordR (opcOf c) (instOf c) (regOf c) (elemOf c) := by
  apply BitVec.eq_of_toNat_eq
  have := c.isLt
  rw [wordR_toNat, opcOf, instOf, regOf, elemOf, extract_toNat, extract_toNat, extract_toNat, extract_toNat]; omega

theorem eq_wordT (c : CmdWord) : c = wordT (opcOf c) (widxOf c) := by
  apply BitVec.eq_of_toNat_eq
  have := c.isLt
  rw [wordT_toNat, opcOf, widxOf, extract_toNat, extract_toNat]; omega

/-! Numbers of registers and fields. -/

@[simp] theorem CfgReg.ofNumber_number (r : CfgReg) : CfgReg.ofNumber r.number = some r := by cases r <;> rfl

theorem CfgReg.number_of_ofNumber {b : BitVec 8} {r : CfgReg} (h : CfgReg.ofNumber b = some r) : r.number = b := by
  revert h
  unfold CfgReg.ofNumber
  split <;> intro h <;> simp only [Option.some.injEq, reduceCtorEq] at h
  all_goals
    subst h
    apply BitVec.eq_of_toNat_eq
    simp_all [CfgReg.number]

@[simp] theorem genFieldOf_number (f : GenField) : genFieldOf f.number f.elem = .ok f := by
  cases f <;> rfl

@[simp] theorem hashFieldOf_number (f : HashField) : hashFieldOf f.number f.elem = .ok f := by
  cases f <;> rfl

/-- A condition of legality that passed (R77). -/
theorem need_eq_ok {ok : Bool} {why : DecodeError} {rest : Decoded} {i : Instr} :
    need ok why rest = .ok i ↔ ok = true ∧ rest = .ok i := by
  unfold need; split <;> simp_all

theorem scalarField_eq_ok {α : Type} {e : BitVec 8} {f g : α} : scalarField e f = .ok g ↔ e = 0 ∧ f = g := by
  unfold scalarField; split <;> simp_all

theorem genFieldOf_eq_ok {reg elem : BitVec 8} {f : GenField} (h : genFieldOf reg elem = .ok f) :
    f.number = reg ∧ f.elem = elem := by
  revert h
  unfold genFieldOf
  split <;> intro h <;> simp only [scalarField_eq_ok, Except.ok.injEq, reduceCtorEq] at h
  · subst h; refine ⟨BitVec.eq_of_toNat_eq ?_, rfl⟩; simp_all [GenField.number]
  all_goals
    obtain ⟨rfl, rfl⟩ := h
    refine ⟨BitVec.eq_of_toNat_eq ?_, rfl⟩; simp_all [GenField.number]

theorem hashFieldOf_eq_ok {reg elem : BitVec 8} {f : HashField} (h : hashFieldOf reg elem = .ok f) :
    f.number = reg ∧ f.elem = elem := by
  revert h
  unfold hashFieldOf
  split <;> intro h <;> simp only [scalarField_eq_ok, Except.ok.injEq, reduceCtorEq] at h
  · subst h; refine ⟨BitVec.eq_of_toNat_eq ?_, rfl⟩; simp_all [HashField.number]
  all_goals
    obtain ⟨rfl, rfl⟩ := h
    refine ⟨BitVec.eq_of_toNat_eq ?_, rfl⟩; simp_all [HashField.number]

/-! What each shape of legal word is, as the word built of its fields. -/

theorem decodeZ_eq_ok {c : CmdWord} {j i : Instr} : decodeZ c j = .ok i ↔ c = wordT (opcOf c) 0 ∧ j = i := by
  simp only [decodeZ, need_eq_ok, beq_iff_eq, Except.ok.injEq]
  refine and_congr_left fun _ => ⟨fun h => ?_, fun h => ?_⟩
  · conv_lhs => rw [eq_wordT c, h]
  · rw [h, widxOf_wordT]

theorem decodeWidth_eq_ok {c : CmdWord} {j : BitVec 12 → Instr} {i : Instr} :
    decodeWidth c j = .ok i ↔ ∃ b, c = wordN (opcOf c) 0 0 b ∧ j b = i := by
  simp only [decodeWidth, need_eq_ok, Bool.and_eq_true, beq_iff_eq, Except.ok.injEq]
  constructor
  · rintro ⟨⟨h1, h2⟩, h3⟩
    exact ⟨_, by conv_lhs => rw [eq_wordN c, h1, h2], h3⟩
  · rintro ⟨b, h, rfl⟩
    rw [h]; simp

theorem decodeInst_eq_ok {c : CmdWord} {j : BitVec 8 → Instr} {i : Instr} :
    decodeInst c j = .ok i ↔ ∃ a, c = wordN (opcOf c) a 0 0 ∧ j a = i := by
  simp only [decodeInst, need_eq_ok, Bool.and_eq_true, beq_iff_eq, Except.ok.injEq]
  constructor
  · rintro ⟨⟨h1, h2⟩, h3⟩
    exact ⟨_, by conv_lhs => rw [eq_wordN c, h1, h2], h3⟩
  · rintro ⟨b, h, rfl⟩
    rw [h]; simp

theorem decodeInstWidth_eq_ok {c : CmdWord} {j : BitVec 8 → BitVec 12 → Instr} {i : Instr} :
    decodeInstWidth c j = .ok i ↔ ∃ a b, c = wordN (opcOf c) a 0 b ∧ j a b = i := by
  simp only [decodeInstWidth, need_eq_ok, beq_iff_eq, Except.ok.injEq]
  constructor
  · rintro ⟨h1, h3⟩
    exact ⟨_, _, by conv_lhs => rw [eq_wordN c, h1], h3⟩
  · rintro ⟨a, b, h, rfl⟩
    rw [h]; simp

theorem decodeNext_eq_ok {c : CmdWord} {j : BitVec 8 → BitVec 4 → BitVec 12 → Instr} {i : Instr} :
    decodeNext c j = .ok i ↔ ∃ a t b, t ≠ 0 ∧ c = wordN (opcOf c) a t b ∧ j a t b = i := by
  simp only [decodeNext, need_eq_ok, bne_iff_ne, Except.ok.injEq]
  constructor
  · rintro ⟨h1, h3⟩
    exact ⟨_, _, _, h1, eq_wordN c, h3⟩
  · rintro ⟨a, t, b, ht, h, rfl⟩
    rw [h]; simpa using ht

theorem decodeByte_eq_ok {c : CmdWord} {j : BitVec 4 → Instr} {i : Instr} :
    decodeByte c j = .ok i ↔ ∃ t, t ≠ 0 ∧ c = wordN (opcOf c) 0 t 8 ∧ j t = i := by
  simp only [decodeByte, need_eq_ok, beq_iff_eq, bne_iff_ne, Except.ok.injEq]
  constructor
  · rintro ⟨h1, h2, h3, h4⟩
    exact ⟨_, h3, by conv_lhs => rw [eq_wordN c, h1, h2], h4⟩
  · rintro ⟨t, ht, h, rfl⟩
    rw [h]; simpa using ht

theorem decodeCfg_eq_ok {c : CmdWord} {j : CfgReg → Decoded} {i : Instr} :
    decodeCfg c j = .ok i ↔ ∃ r, c = wordR (opcOf c) 0 r.number 0 ∧ j r = .ok i := by
  simp only [decodeCfg, need_eq_ok, Bool.and_eq_true, beq_iff_eq]
  constructor
  · rintro ⟨⟨h1, h2⟩, h3⟩
    split at h3
    · next r hr =>
      exact ⟨r, by conv_lhs => rw [eq_wordR c, h1, h2, ← CfgReg.number_of_ofNumber hr], h3⟩
    · simp at h3
  · rintro ⟨r, h, hj⟩
    rw [h]; simpa using hj

theorem decodeGenField_eq_ok {c : CmdWord} {j : GenField → Instr} {i : Instr} :
    (genFieldOf (regOf c) (elemOf c)).map j = .ok i ↔
      ∃ f, c = wordR (opcOf c) (instOf c) f.number f.elem ∧ j f = i := by
  constructor
  · intro h
    cases hf : genFieldOf (regOf c) (elemOf c) with
    | error e => simp [hf, Except.map] at h
    | ok f =>
      rw [hf] at h
      obtain ⟨h1, h2⟩ := genFieldOf_eq_ok hf
      exact ⟨f, by rw [h1, h2]; exact eq_wordR c, by simpa [Except.map] using h⟩
  · rintro ⟨f, h, rfl⟩
    rw [h]; simp [Except.map]

theorem decodeHashField_eq_ok {c : CmdWord} {j : HashField → Instr} {i : Instr} :
    (hashFieldOf (regOf c) (elemOf c)).map j = .ok i ↔
      ∃ f, c = wordR (opcOf c) (instOf c) f.number f.elem ∧ j f = i := by
  constructor
  · intro h
    cases hf : hashFieldOf (regOf c) (elemOf c) with
    | error e => simp [hf, Except.map] at h
    | ok f =>
      rw [hf] at h
      obtain ⟨h1, h2⟩ := hashFieldOf_eq_ok hf
      exact ⟨f, by rw [h1, h2]; exact eq_wordR c, by simpa [Except.map] using h⟩
  · rintro ⟨f, h, rfl⟩
    rw [h]; simp [Except.map]

end Sys2Proof
end

