-- ==== Sys2Proof/Laws/Illegal.lean ====
section
/-! SUPPORT. A word the decoder refuses raises `E_ILLEGAL` (30_encoding.md R77, R78). -/

namespace Sys2Proof.Machine

theorem raisesIllegal_of_error {c : CmdWord} {e : DecodeError} (h : decode c = .error e) : RaisesIllegal c :=
  fun d s hs hd => by
    rw [command, if_neg (Nat.not_le.2 hd), runWord, show (present c d s).cmd = c from rfl, h]
    have hp : (present c d s).fault = false := hs
    simp only [illegalWord, unlessFaulted, raiseFault, enterFault, hp]
    rfl

end Sys2Proof.Machine
end

