-- ==== Sys2Proof/Laws/Pending.lean ====
section
/-! SUPPORT. What a command does neither depends on the host's list of commands nor changes it
(70_reset_and_hazards.md R210). -/

namespace Sys2Proof.Machine

/-- A state with another list of the host. -/
def withPending (p : List (CmdWord × Nat)) (s : State) : State := { s with pending := p }

theorem check_pending {bad : Prop} [Decidable bad] {c : FaultCode} {s : State} {rest rest' : Sub (Option Nat)}
    {f : State → State} (h : ¬ bad → rest' = Sub.mapState f rest) :
    check bad c (f s) rest' = (check bad c s rest).mapState f := by
  unfold check; split
  · rfl
  · exact h ‹_›

theorem Sub.some_mapState (f : State → State) (r : Sub Nat) : (r.mapState f).some = r.some.mapState f := by
  cases r <;> rfl
theorem Sub.none_mapState (f : State → State) (r : Sub Unit) : (r.mapState f).none = r.none.mapState f := by
  cases r <;> rfl

theorem checkedWrite_mapState (f : State → State) (bad : Bool) (c : FaultCode) (s t : State) :
    checkedWrite bad c (f s) (f t) = (checkedWrite bad c s t).mapState f := by cases bad <;> rfl

theorem endNext_pending (p : List (CmdWord × Nat)) (top : Bool) (v : Option Nat) (k : Nat) (s : State) :
    endNext top v k (withPending p s) = (endNext top v k s).mapState (withPending p) := by
  unfold endNext; cases v <;> cases top <;> rfl

theorem readField_pending (p : List (CmdWord × Nat)) (s : State) (b n : Nat) :
    readField (withPending p s) b n = (readField s b n).mapState (withPending p) := by
  unfold readField
  have : bitRead (withPending p s) b n = bitRead s b n := rfl
  rw [this]; cases bitRead s b n <;> rfl

theorem nrvRounds_pending (p : List (CmdWord × Nat)) (i w : Nat) : ∀ (k e r : Nat) (s : State),
    nrvRounds i w k e r (withPending p s) = (nrvRounds i w k e r s).mapState (withPending p)
  | 0, e, r, s => rfl
  | k+1, e, r, s => by
    refine Sub.bind_ports (readField_pending p s _ w) fun a u => ?_
    exact nrvRounds_pending p i w k _ _ (setHash i (hashBytes u.w u.hdepth (ceilDiv w 8) a (hashAt u i)) u)

theorem withPending_eq_withPorts (p : List (CmdWord × Nat)) (s : State) :
    withPending p s = withPorts p s.cmd s.din s.dout s.res s := rfl
theorem Sub.mapState_congr {α : Type} {r : Sub α} {f g : State → State} (h : f r.state = g r.state) :
    r.mapState f = r.mapState g := by
  cases r <;> simp only [Sub.state] at h <;> simp [Sub.mapState, h]
theorem compositeNext_pending (p : List (CmdWord × Nat)) (bw n : Nat) (s : State) :
    compositeNext bw n (withPending p s) = (compositeNext bw n s).mapState (withPending p) := by
  rw [withPending_eq_withPorts, compositeNext_ports]
  apply Sub.mapState_congr
  obtain ⟨_, _, _, _, _, h⟩ := compositeNext_frame bw n s
  rw [h]; rfl

/-- The body of a command neither reads nor writes the host's list. -/
theorem execBody_pending (p : List (CmdWord × Nat)) (i : Instr) (s : State) :
    execBody i (withPending p s) = (execBody i s).mapState (withPending p) := by
  cases i <;> simp only [execBody]
  case wrcfg r =>
    rw [← Sub.none_mapState]; congr 1
    cases r <;> simp only [writeCfg] <;>
      first | rfl | (refine Eq.trans ?_ (checkedWrite_mapState (withPending p) _ _ _ _); rfl)
  case hwr h f =>
    rw [← Sub.none_mapState]; congr 1
    have e : (withPending p s).params.nmax = s.params.nmax := rfl
    have e' : (withPending p s).hdepth = s.hdepth := rfl
    unfold writeHashField
    rw [e]; split; · rfl
    cases f <;> simp only
    · rw [e']; split; · rfl
      (refine Eq.trans ?_ (checkedWrite_mapState (withPending p) _ _ _ _); rfl)
    · (refine Eq.trans ?_ (checkedWrite_mapState (withPending p) _ _ _ _); rfl)
    · have e : (withPending p s).din = s.din := rfl
      rw [e]; cases HashVariant.ofNumber s.din <;> rfl
  case gwr h f =>
    rw [← Sub.none_mapState]; congr 1
    have e : (withPending p s).params.nmax = s.params.nmax := rfl
    have e' : (withPending p s).depth = s.depth := rfl
    unfold writeGenField
    rw [e]; split; · rfl
    cases f <;> simp only
    case vec a =>
      rw [e']; split; · rfl
      (refine Eq.trans ?_ (checkedWrite_mapState (withPending p) _ _ _ _); rfl)
    case variant =>
      have e : (withPending p s).din = s.din := rfl
      rw [e]; cases GenVariant.ofNumber s.din <;> rfl
    all_goals (refine Eq.trans ?_ (checkedWrite_mapState (withPending p) _ _ _ _); rfl)
  case hrd h f =>
    rw [← Sub.some_mapState]; congr 1
    have e : (withPending p s).params.nmax = s.params.nmax := rfl
    have e' : (withPending p s).hdepth = s.hdepth := rfl
    unfold readHashField
    rw [e]; split; · rfl
    cases f <;> simp only
    · rw [e']; split <;> rfl
    all_goals rfl
  case grd h f =>
    rw [← Sub.some_mapState]; congr 1
    have e : (withPending p s).params.nmax = s.params.nmax := rfl
    have e' : (withPending p s).depth = s.depth := rfl
    unfold readGenField
    rw [e]; split; · rfl
    cases f <;> simp only
    · rw [e']; split <;> rfl
    all_goals rfl
  case tread x =>
    refine check_pending fun _ => ?_
    have e : (withPending p s).table = s.table := rfl
    rw [e]; cases Table.read s.table x.toNat <;> rfl
  case bitstr n =>
    refine check_pending fun _ => ?_
    rw [← Sub.some_mapState]; congr 1; exact readField_pending _ _ _ _
  case hnext h n b =>
    refine check_pending fun _ => check_pending fun _ => check_pending fun _ => ?_
    rw [← Sub.some_mapState]; congr 1
    unfold hashNext; refine Eq.trans ?_ (endNext_pending p _ _ _ _); rfl
  case gnext h n b =>
    refine check_pending fun _ => check_pending fun _ => check_pending fun _ => ?_
    rw [← Sub.some_mapState]; congr 1
    unfold genNext; refine Eq.trans ?_ (endNext_pending p _ _ _ _); rfl
  case cnext n b =>
    refine check_pending fun _ => check_pending fun _ => check_pending fun _ => ?_
    rw [← Sub.some_mapState]; congr 1
    exact compositeNext_pending _ _ _ _
  case enc n =>
    refine check_pending fun _ => check_pending fun _ => ?_
    rw [← Sub.some_mapState]; congr 1
    unfold cipherByte
    exact Sub.bind_ports (compositeNext_pending _ _ _ _) fun a u => rfl
  case dec n =>
    refine check_pending fun _ => check_pending fun _ => ?_
    rw [← Sub.some_mapState]; congr 1
    unfold cipherByte
    exact Sub.bind_ports (compositeNext_pending _ _ _ _) fun a u => rfl
  case randint n =>
    refine check_pending fun _ => check_pending fun _ => ?_
    rw [← Sub.some_mapState]; congr 1
    unfold randInt
    have e : walkIndices n.toNat (withPending p s) = withPending p (walkIndices n.toNat s) := by
      have : (withPending p s).rtog = s.rtog := rfl
      unfold walkIndices; rw [this]; split <;> rfl
    simp only [e]
    exact Sub.bind_ports (readField_pending _ _ _ _) fun _ _ => Sub.bind_ports (readField_pending _ _ _ _) fun _ _ =>
      Sub.bind_ports (readField_pending _ _ _ _) fun _ _ => Sub.bind_ports (readField_pending _ _ _ _) fun _ _ => rfl
  case nrv i n =>
    refine check_pending fun _ => check_pending fun _ => ?_
    rw [← Sub.some_mapState]; congr 1
    exact nrvRounds_pending p _ _ _ _ _ _
  case hupd => exact check_pending fun _ => check_pending fun _ => check_pending fun _ => check_pending fun _ => rfl
  case tload => exact check_pending fun _ => check_pending fun _ => rfl
  case gspin => exact check_pending fun _ => check_pending fun _ => rfl
  case tsize => exact check_pending fun _ => rfl
  case fold => exact check_pending fun _ => rfl
  case folda => exact check_pending fun _ => rfl
  case hdig => exact check_pending fun _ => rfl
  case hstep => exact check_pending fun _ => rfl
  case gstep => exact check_pending fun _ => rfl
  case whnext => exact check_pending fun _ => rfl
  all_goals rfl

/-- A command neither reads nor writes the host's list. -/
theorem exec_pending (p : List (CmdWord × Nat)) {i : Instr} {s t : State} (h : exec i s = .next t) :
    exec i (withPending p s) = .next (withPending p t) := by
  by_cases h1 : i = .reset
  · subst h1; simp only [exec, execReset, Host.Outcome.next.injEq] at h ⊢; subst h; rfl
  by_cases h2 : i = .rdstat
  · subst h2; simp only [exec, execRdstat, Host.Outcome.next.injEq] at h ⊢; subst h; rfl
  rw [exec_eq_body h1 h2] at h ⊢
  unfold unlessFaulted at h ⊢
  have e : (withPending p s).fault = s.fault := rfl
  rw [e]
  split
  · rw [if_pos ‹_›] at h; simp only [Host.Outcome.next.injEq] at h ⊢; subst h; rfl
  · rw [if_neg ‹_›] at h; rw [execBody_pending]
    rcases hb : execBody i s with ⟨_ | v, u⟩ | ⟨c, u⟩ <;> rw [hb] at h <;>
      simp only [endCommand, Sub.mapState, raiseFault, Host.Outcome.next.injEq] at h ⊢ <;> subst h
    · rfl
    · rfl
    · have e : (withPending p u).fault = u.fault := rfl
      unfold enterFault; rw [e]; split <;> rfl

/-- No command changes the host's list. -/
theorem exec_keeps_pending {i : Instr} {s t : State} (he : exec i s = .next t) : t.pending = s.pending := by
  by_cases h1 : i = .reset
  · subst h1; simp only [exec, execReset, Host.Outcome.next.injEq] at he; subst he; rfl
  by_cases h2 : i = .rdstat
  · subst h2; simp only [exec, execRdstat, Host.Outcome.next.injEq] at he; subst he; rfl
  by_cases hf : s.fault = true
  · rw [exec_eq_body h1 h2, unlessFaulted_faulted hf] at he; simp only [Host.Outcome.next.injEq] at he; subst he; rfl
  have hr := execBody_record i s
  rcases exec_end h1 h2 (by simpa using hf) he with ⟨v, w, hw, rfl⟩ | ⟨w, hw, rfl⟩ | ⟨c, w, hw, rfl⟩ <;> rw [hw] at hr
  · exact hr.1
  · exact hr.1
  · have := hr.1
    unfold enterFault; split <;> exact hr.1

/-- Presenting and running a command neither depends on the host's list nor changes it. -/
theorem command_pending {c : CmdWord} {d : Nat} {s t : State} (p : List (CmdWord × Nat)) (h : command c d s = .next t) :
    command c d (withPending p s) = .next (withPending p t) ∧ t.pending = s.pending := by
  unfold command at h ⊢
  have e : xw (withPending p s) = xw s := rfl
  rw [e]
  split at h
  · simp at h
  · rename_i hd
    rw [if_neg hd]
    unfold runWord at h ⊢
    have e : (present c d (withPending p s)).cmd = (present c d s).cmd := rfl
    rw [e]
    split at h
    · exact ⟨exec_pending p h, by have := exec_keeps_pending h; exact this⟩
    · have e : (present c d (withPending p s)).fault = (present c d s).fault := rfl
      unfold illegalWord unlessFaulted raiseFault enterFault at h ⊢
      rw [e]
      split at h
      · rename_i hf; rw [if_pos hf]; simp only [Host.Outcome.next.injEq] at h; subst h; exact ⟨rfl, rfl⟩
      · rename_i hf; try rw [if_neg hf] at h
        rw [if_neg hf, if_neg hf]; simp only [Host.Outcome.next.injEq] at h; subst h; exact ⟨rfl, rfl⟩

end Sys2Proof.Machine
end

