-- ==== Sys2Proof/Laws/PerInstr.lean ====
section
/-! SUPPORT. Statements for all commands, made per command. -/

namespace Sys2Proof.Laws.EncodeOpcode

/-- The encoded word carries the opcode byte of its row of 30_encoding.md R76, which a fault records in `FOPC`. -/
def Statement (i : Instr) : Prop := opcOf (encode i) = i.opcode

theorem nop : Statement .nop := opcOf_wordT _ _
theorem reset : Statement .reset := opcOf_wordT _ _
theorem rdstat : Statement .rdstat := opcOf_wordT _ _
theorem rdres : Statement .rdres := opcOf_wordT _ _
theorem wrcfg (r : CfgReg) : Statement (.wrcfg r) := opcOf_wordR _ _ _ _
theorem rdcfg (r : CfgReg) : Statement (.rdcfg r) := opcOf_wordR _ _ _ _
theorem tsize : Statement .tsize := opcOf_wordT _ _
theorem tload (x : BitVec 24) : Statement (.tload x) := opcOf_wordT _ _
theorem tread (x : BitVec 24) : Statement (.tread x) := opcOf_wordT _ _
theorem bitstr (b : BitVec 12) : Statement (.bitstr b) := opcOf_wordN _ _ _ _
theorem fold (b : BitVec 12) : Statement (.fold b) := opcOf_wordN _ _ _ _
theorem folda (a : BitVec 2) (b : BitVec 12) : Statement (.folda a b) := opcOf_wordN _ _ _ _
theorem hwr (h : BitVec 8) (f : HashField) : Statement (.hwr h f) := opcOf_wordR _ _ _ _
theorem hrd (h : BitVec 8) (f : HashField) : Statement (.hrd h f) := opcOf_wordR _ _ _ _
theorem hupd (h : BitVec 8) (l : BitVec 12) : Statement (.hupd h l) := opcOf_wordN _ _ _ _
theorem hdig (h : BitVec 8) : Statement (.hdig h) := opcOf_wordN _ _ _ _
theorem hstep (h : BitVec 8) : Statement (.hstep h) := opcOf_wordN _ _ _ _
theorem hnext (h : BitVec 8) (t : BitVec 4) (b : BitVec 12) : Statement (.hnext h t b) := opcOf_wordN _ _ _ _
theorem gwr (g : BitVec 8) (f : GenField) : Statement (.gwr g f) := opcOf_wordR _ _ _ _
theorem grd (g : BitVec 8) (f : GenField) : Statement (.grd g f) := opcOf_wordR _ _ _ _
theorem gstep (g : BitVec 8) : Statement (.gstep g) := opcOf_wordN _ _ _ _
theorem gspin (g : BitVec 8) : Statement (.gspin g) := opcOf_wordN _ _ _ _
theorem gnext (g : BitVec 8) (t : BitVec 4) (b : BitVec 12) : Statement (.gnext g t b) := opcOf_wordN _ _ _ _
theorem cnext (t : BitVec 4) (b : BitVec 12) : Statement (.cnext t b) := opcOf_wordN _ _ _ _
theorem enc (t : BitVec 4) : Statement (.enc t) := opcOf_wordN _ _ _ _
theorem dec (t : BitVec 4) : Statement (.dec t) := opcOf_wordN _ _ _ _
theorem whnext (b : BitVec 12) : Statement (.whnext b) := opcOf_wordN _ _ _ _
theorem randint (b : BitVec 12) : Statement (.randint b) := opcOf_wordN _ _ _ _
theorem nrv (h : BitVec 8) (b : BitVec 12) : Statement (.nrv h b) := opcOf_wordN _ _ _ _

end Sys2Proof.Laws.EncodeOpcode
end

