-- ==== Sys2Proof/Tests/Slice0.lean ====
section
/-! SUPPORT. Tests of the model on the spec's own examples (the expected values are those of the rules' "Example" lines and
of 95_test_vectors.md), and a witness for the hypotheses of every statement. -/

namespace Sys2Proof.Machine.Tests

-- One evaluation after the other: side by side they each hold a thread while they wait for the kernel.
set_option Elab.async false

/-! States. -/

/-- A small legal instance: `XW = 960`. -/
def small : Params := { wmax := 64, dmax := 10, hdmax := 10, nmax := 3, tmaxBytes := 8192 }

/-- A block after reset. -/
def block : State := State.resetOf small

/-- A block after `TSIZE 5000` has raised `E_CONFIG`. -/
def broken : State := { block with fault := true, fcode := 2, fopc := 0x10 }

/-- The start state of 42_hash.md. -/
def hashStart : State :=
  { block with
    w := 16, hdepth := 10
    hashes :=
      [{ vec := [0x1111, 0x2222, 0x3333, 0x4444, 0x5555, 0x6666, 0x7777, 0x8888, 0x9999, 0xAAAA], idx := 0,
         variant := .hash0 }, Hash.cleared 10, Hash.cleared 10] }

/-- The start state of 42_hash.md with HASH1. -/
def hash1Start : State :=
  { hashStart with hashes := hashStart.hashes.set 0 { hashAt hashStart 0 with variant := .hash1 } }

/-- A generator on a vector of `DMAX = 10` elements. -/
def gen (v : GenVariant) (vec : List Nat) (mult add : Nat) (lag : BitVec 16) (carry : Nat) : Gen :=
  { vec := vec ++ List.replicate 6 0, index := 0, mult := mult, add := add, lag := lag, carry := carry, variant := v }

/-- The start state of 43_generators.md with the given variant. -/
def genStart (v : GenVariant) : State :=
  { block with
    w := 16, depth := 4
    gens := [gen v [0x1234, 0x5678, 0x9ABC, 0xDEF0] 0x6255 0x3619 1 7, Gen.cleared 10, Gen.cleared 10] }

/-- The start state of the retry example of 43_generators.md R138. -/
def retryStart : State :=
  { genStart .lfib with gens := [gen .lfib [0x0001, 0x0100, 0x0033, 0x0002] 0 0 1 0, Gen.cleared 10, Gen.cleared 10] }

/-- The start state of the example of 44_composite.md R143. -/
def compositeStart : State :=
  { genStart .lcg with
    n := 3
    gens :=
      [gen .lcg [0x1234, 0x5678, 0x9ABC, 0xDEF0] 0x6255 0x3619 1 0,
       gen .mwc [0x0F1E, 0x2D3C, 0x4B5A, 0x6978] 0x7FED 0 3 0x0011, gen .lfib [0xCAFE, 0xBABE, 0xDEAD, 0xBEEF] 0 0 1 0] }

/-- Word `i` of the test pattern of 95_test_vectors.md section 2.1. -/
def pattern (i : Nat) : TableWord := BitVec.ofNat 64 (0x9E3779B97F4A7C15 * (i + 1))

/-- A block whose table holds the pattern at the given words. -/
def patterned (indices : List Nat) (s : State) : State := { s with table := indices.map fun i => (i, pattern i) }

/-- A block whose whole table is written. -/
def full : State := patterned (List.range 512) hashStart

/-- What the host observes after one command: `DOUT` and `STATUS`. -/
def seen (c : CmdWord) (d : Nat) (s : State) : Option (Nat × BitVec 32) :=
  match command c d s with
  | .next t => some (observed t)
  | _ => none

/-- A field of the state after one command. -/
def after {α : Type} (c : CmdWord) (d : Nat) (s : State) (field : State → α) : Option α :=
  match command c d s with
  | .next t => some (field t)
  | _ => none

/-! WellFormed. -/

theorem test_wellFormed_refuses_read_only_registers :
    ∀ r ∈ [CfgReg.tbytes, .bitSize, .bitIndexMask, .wmax, .dmax, .hdmax, .nmax, .tmaxBytes, .xw],
      (Instr.wrcfg r).wellFormed = false := by decide

theorem test_wellFormed_refuses_zero_steps :
    (Instr.hnext 0 0 8).wellFormed = false ∧ (Instr.gnext 0 0 8).wellFormed = false ∧
      (Instr.cnext 0 8).wellFormed = false ∧ (Instr.enc 0).wellFormed = false ∧ (Instr.dec 0).wellFormed = false := by
  decide

theorem test_wellFormed_accepts :
    (Instr.wrcfg .idx3).wellFormed = true ∧ (Instr.hnext 0 15 8).wellFormed = true ∧ (Instr.dec 1).wellFormed = true := by
  decide

/-! Decoding, word by word from 30_encoding.md R76 and the rules' encodings. -/

theorem test_decode_system :
    decode 0x00000000 = .ok .nop ∧ decode 0x01000000 = .ok .reset ∧ decode 0x02000000 = .ok .rdstat ∧
      decode 0x03000000 = .ok .rdres ∧ decode 0x04000300 = .ok (.wrcfg .n) ∧ decode 0x04001300 = .ok (.wrcfg .idx3) ∧
      decode 0x05002100 = .ok (.rdcfg .bitSize) ∧ decode 0x05003500 = .ok (.rdcfg .xw) := by decide

theorem test_decode_table :
    decode 0x10000000 = .ok .tsize ∧ decode 0x110001FF = .ok (.tload 511) ∧ decode 0x12FFFFFF = .ok (.tread 0xFFFFFF) ∧
      decode 0x13000FFF = .ok (.bitstr 4095) := by decide

theorem test_decode_fold : decode 0x18000010 = .ok (.fold 16) ∧ decode 0x19030010 = .ok (.folda 3 16) := by decide

theorem test_decode_hash :
    decode 0x2001000A = .ok (.hwr 1 (.vec 10)) ∧ decode 0x20000200 = .ok (.hwr 0 .variant) ∧
      decode 0x21FF0100 = .ok (.hrd 255 .idx) ∧ decode 0x22000003 = .ok (.hupd 0 3) ∧ decode 0x23100000 = .ok (.hdig 16) ∧
      decode 0x24000000 = .ok (.hstep 0) ∧ decode 0x25002008 = .ok (.hnext 0 2 8) := by decide

theorem test_decode_generators :
    decode 0x300000FF = .ok (.gwr 0 (.vec 255)) ∧ decode 0x30010200 = .ok (.gwr 1 .mult) ∧
      decode 0x31000400 = .ok (.grd 0 .lag) ∧ decode 0x32000000 = .ok (.gstep 0) ∧ decode 0x33020000 = .ok (.gspin 2) ∧
      decode 0x3400F010 = .ok (.gnext 0 15 16) := by decide

theorem test_decode_composite :
    decode 0x40001004 = .ok (.cnext 1 4) ∧ decode 0x41001008 = .ok (.enc 1) ∧ decode 0x42001008 = .ok (.dec 1) := by decide

theorem test_decode_bootstrap :
    decode 0x50000040 = .ok (.whnext 64) ∧ decode 0x51000010 = .ok (.randint 16) ∧
      decode 0x52000010 = .ok (.nrv 0 16) := by decide

/-- The illegal words the rules name, and one for each other reason to refuse. -/
theorem test_decode_refuses :
    ∀ w ∈ [0x10000001, 0x19040008, 0x21000300, 0x25000008, 0x04002000, 0x04000F00, 0x05000001,
        0x06000000, 0x20000101, 0x30000700, 0x41001009, 0x41000008, 0x40010008, 0x13001008,
        0x22001001, 0x23000001, 0xFF000000],
      decodeTableWord 32 w = none := by decide +kernel

theorem test_table_word : decodeTableWord 32 0x25002008 = some (.hnext 0 2 8) := by decide

theorem test_fetch_word :
    (match step (State.reset.withFetchWord 32 0x05002000) with
      | .next t => some (t.dout, t.res, t.pending)
      | _ => none) = some (4096, 4096, []) := by decide +kernel

/-! System commands (46_system.md). -/

theorem test_nop_keeps_res : after 0x00000000 0 { block with dout := 7, res := 5 } (fun t => (t.dout, t.res)) = some (0, 5) := by
  decide +kernel

theorem test_reset_after_a_fault : seen 0x01000000 0 broken = some (0, 0) := by decide +kernel

theorem test_rdstat_after_a_fault : seen 0x02000000 0 broken = some (0x1021, 0x1021) := by decide +kernel

theorem test_rdres_again : seen 0x03000000 0 { block with res := 0xBBBB } = some (0xBBBB, 0) := by decide +kernel

theorem test_wrcfg_w_clears : after 0x04000000 16 (genStart .lcg) (fun t => (t.w, t.gens)) =
    some (16, List.replicate 3 (Gen.cleared 10)) := by decide +kernel

theorem test_wrcfg_paranoia_5 : seen 0x04000500 5 block = some (0, 0x421) := by decide +kernel

theorem test_rdcfg_bit_index_mask : seen 0x05002200 0 block = some (0x7FFF, 0) := by decide +kernel

/-! Table commands (40_table.md). -/

theorem test_tsize_8192 : after 0x10000000 8192 (patterned [0] block) (fun t => (bitSize t, t.table)) =
    some (0x10000, []) := by decide +kernel

theorem test_tsize_5000 : seen 0x10000000 5000 block = some (0, 0x1021) := by decide +kernel

theorem test_tload_beyond_the_table : seen 0x11000200 1 block = some (0, 0x1131) := by decide +kernel

theorem test_tload_wider_than_a_word : seen 0x11000000 0x10000000000000000 block = some (0, 0x1131) := by decide +kernel

theorem test_tread_first_word : seen 0x12000000 0 (patterned [0, 1] block) = some (0x9E3779B97F4A7C15, 0) := by
  decide +kernel

theorem test_tread_never_written : seen 0x12000000 0 block = some (0, 0x1251) := by decide +kernel

theorem test_bitstr_wraps : seen 0x13000010 0x7FF8 (patterned [0, 511] block) = some (0x009E, 0) := by decide +kernel

theorem test_bitstr_reaches_an_unwritten_word : seen 0x13000008 60 { block with table := [(0, 5)] } =
    some (0, 0x1351) := by decide +kernel

/-! Fold commands (41_fold.md). -/

theorem test_fold_with_selector_1 : after 0x18000010 0x0123456789ABCDEF { block with foldSel := 1 }
    (fun t => (t.dout, t.foldSel)) = some (0xC791, 2) := by decide +kernel

theorem test_fold_with_selector_3 : after 0x18000010 0x0123456789ABCDEF { block with foldSel := 3 }
    (fun t => (t.dout, t.foldSel)) = some (0xE66F, 0) := by decide +kernel

theorem test_folda_2 : seen 0x19020010 0x0123456789ABCDEF block = some (0x1420, 0) := by decide +kernel

theorem test_folda_0_to_one_bit : seen 0x19000001 0xB block = some (1, 0) := by decide +kernel

/-! Hash commands (42_hash.md). -/

theorem test_hwr_element : after 0x20000003 0x4445 hashStart (fun t => slot (hashAt t 0).vec 3) = some 0x4445 := by
  decide +kernel

theorem test_hwr_hash2 : seen 0x20000200 2 block = some (0, 0x2021) := by decide +kernel

theorem test_hrd_element : seen 0x21000003 0 hashStart = some (0x4444, 0) := by decide +kernel

theorem test_hupd_A5 : after 0x22000001 0xA5 hashStart (fun t => ((hashAt t 0).vec, (hashAt t 0).idx)) =
    some ([0xFFF5, 0x4444, 0x9999, 0x8888, 0xAAAA, 0x3333, 0xEEEE, 0x4444, 0x3333, 0xAAAA], 1) := by decide +kernel

theorem test_hupd_zero_byte_hash1 : after 0x22000001 0 hash1Start (fun t => (hashAt t 0).vec) =
    some [0x7777, 0x2222, 0x3333, 0x1111, 0x5555, 0x6666, 0x7777, 0x2222, 0x9999, 0x5555] := by decide +kernel

theorem test_hdig : seen 0x23000000 0 hashStart = some (0xBBBB, 0) := by decide +kernel

theorem test_hstep : seen 0x24000000 0 hashStart = some (0x223E, 0) := by decide +kernel

theorem test_hnext : after 0x25002008 0 hashStart (fun t => (t.dout, t.foldSel, t.rcnt)) = some (0x70, 1, 0) := by
  decide +kernel

theorem test_hnext_all_zero : seen 0x25001008 0 block = some (0, 0x00082541) := by decide +kernel

/-! Generator commands (43_generators.md). -/

theorem test_gwr_mult : after 0x30000200 0x6255 block (fun t => (genAt t 0).mult) = some 0x6255 := by decide +kernel

theorem test_grd_element : seen 0x31000002 0 (genStart .lcg) = some (0x9ABC, 0) := by decide +kernel

theorem test_gstep_mwc : after 0x32000000 0 (genStart .mwc) (fun t => (t.dout, (genAt t 0).carry)) =
    some (0xA5DF, 0x2136) := by decide +kernel

theorem test_gstep_lfib : seen 0x32000000 0 (genStart .lfib) = some (0x68AC, 0) := by decide +kernel

theorem test_gspin_5 : after 0x33000000 5 (genStart .lcg) (fun t => ((genAt t 0).vec.take 4, (genAt t 0).index)) =
    some ([0x7242, 0x8E85, 0x1BC9, 0x7F1E], 1) := by decide +kernel

theorem test_gnext_folds : after 0x34002008 0 (genStart .lcg) (fun t => (t.dout, t.foldSel, (genAt t 0).index)) =
    some (0x21, 1, 2) := by decide +kernel

theorem test_gnext_retries : after 0x34001008 0 retryStart (fun t => (observed t, t.foldSel)) =
    some ((0x32, 0x00010000), 2) := by decide +kernel

/-! Composite commands (44_composite.md). -/

theorem test_cnext : after 0x40001004 0 compositeStart (fun t => (t.dout, t.foldSel, t.cidx, (genAt t 1).carry)) =
    some (0xE, 0, 0, 0x1611) := by decide +kernel

theorem test_cnext_on_a_reset_block : seen 0x40001008 0 block = some (0, 0x00004041) := by decide +kernel

theorem test_enc : seen 0x41001008 0x74 compositeStart = some (0x13, 0) := by decide +kernel

theorem test_dec : seen 0x42001008 0x13 compositeStart = some (0x74, 0) := by decide +kernel

/-! Bootstrap draws (45_bootstrap_draw.md). -/

theorem test_whnext_16 : after 0x50000010 0 block (fun t => (t.dout, t.whS1, t.whS2, t.whS3)) =
    some (0x0455, 171, 172, 170) := by decide +kernel

theorem test_whnext_64 : seen 0x50000040 0 block = some (0x045595786B4EB532, 0) := by decide +kernel

theorem test_randint_first : after 0x51000010 0 (patterned [8, 57, 458, 481] block)
    (fun t => (t.dout, t.rhash, t.rtog, t.foldSel, t.idx0, t.whS1)) =
      some (0x0470, 0x609864E8, true, 1, 0x022A, 27638) := by decide +kernel

theorem test_randint_second :
    after 0x51000010 0
      { patterned [57, 72, 411, 481, 482] block with
        rtog := true, rhash := 0x609864E8, foldSel := 1, idx0 := 0x022A, idx1 := 0x7297, idx2 := 0x0E45, idx3 := 0x7842 }
      (fun t => (t.dout, t.rhash, t.rtog, t.idx0, t.idx1)) = some (0x9BF2, 0xA5343626, false, 0x66D2, 0x121F) := by
  decide +kernel

theorem test_nrv : after 0x52000010 0x1234 (patterned [72, 73] hashStart) (fun t => (t.dout, (hashAt t 0).idx)) =
    some (0xAAC0, 2) := by decide +kernel

theorem test_nrv_twelve_bits : seen 0x5200000C 0x1234 (patterned [72, 73] hashStart) = some (0xEFF, 0) := by decide +kernel

/-! Witnesses: for each statement with hypotheses, states and operands that meet them, each clause at the edge of its
range. -/

theorem small_legal : small.Legal := ⟨by decide, by decide, by decide, by decide, by decide, by decide, by decide, 13, by decide⟩

theorem witness_ResetStateIsLegal : Params.ofVectors.Legal ∧ small.Legal :=
  ⟨⟨by decide, by decide, by decide, by decide, by decide, by decide, by decide, 16, by decide⟩, small_legal⟩

/-- The instance lists of the states below are legal by evaluation; the rest of `Legal` is arithmetic. -/
theorem block_legal : Legal block where
  params := small_legal
  din := Nat.two_pow_pos _
  dout := Nat.two_pow_pos _
  res := Nat.two_pow_pos _
  status := ⟨fun _ => ⟨rfl, rfl⟩, fun h => by simp [block, State.resetOf] at h⟩
  tbytes_pow := ⟨12, by decide, by decide⟩
  tbytes_le := by decide
  table := rfl
  w_ge := by decide
  w_le := by decide
  depth_ge := by decide
  depth_le := by decide
  hdepth_ge := by decide
  hdepth_le := by decide
  n_ge := by decide
  n_le := by decide
  paranoia_ge := by decide
  paranoia_le := by decide
  cidx := by decide
  gens_length := by decide
  gens := by
    intro g hg
    obtain rfl : g = Gen.cleared 10 := List.eq_of_mem_replicate hg
    exact ⟨by decide, by decide +kernel, by decide, by decide, by decide, by decide⟩
  hashes_length := by decide
  hashes := by
    intro h hh
    obtain rfl : h = Hash.cleared 10 := List.eq_of_mem_replicate hh
    exact ⟨by decide, by decide +kernel, by decide⟩
  whS1 := by decide
  whS2 := by decide
  whS3 := by decide

theorem witness_RdresReturnsTheLatch : block.fault = false ∧ broken.fault = true := by decide

theorem witness_WrcfgWritesTheRegisterOrFaults :
    block.fault = false ∧ CfgOperandLegal .w 8 block ∧ CfgOperandLegal .w 64 block ∧ 64 < 2 ^ 16 ∧ ¬ CfgOperandLegal .w 7 block ∧
      ¬ CfgOperandLegal .w 65 block ∧ CfgOperandLegal .cidx 0 block ∧ ¬ CfgOperandLegal .cidx 1 block ∧
      0x14 ≤ (0x14 : BitVec 8).toNat ∧ CfgReg.w.writable = true ∧ CfgReg.structural .w = true ∧ CfgReg.structural .cidx = false := by
  simp only [CfgOperandLegal]; decide

theorem witness_RdcfgReturnsTheRegister :
    block.fault = false ∧ (0x20, 4096) ∈ cfgFile block ∧ (0x35, 960) ∈ cfgFile block ∧
      ∀ k ∈ [0x0F, 0x14, 0x36, 255], ∀ row ∈ cfgFile block, row.1 ≠ k := by decide

theorem witness_IllegalWordRaisesIllegal :
    legalWord 0x10000001 = false ∧ legalWord 0xFFFFFFFF = false ∧ block.fault = false ∧ 0 < 2 ^ xw block := by
  decide +kernel

theorem witness_FaultedBlockRefusesEveryOtherWord :
    broken.fault = true ∧ 0 < 2 ^ xw broken ∧ (0x01000001 : CmdWord) ≠ 0x01000000#32 ∧
      (0x01000001 : CmdWord) ≠ 0x02000000#32 := by decide +kernel

/-- A word that decodes is run by `exec`. -/
theorem command_of_decode {s : State} {c : CmdWord} {d : Nat} {i : Instr} (e : decode c = .ok i) (h : d < 2 ^ xw s) :
    command c d s = exec i (present c d s) := by
  rw [command, if_neg (Nat.not_le.2 h), runWord, show (present c d s).cmd = c from rfl, e]

theorem witness_OnlyResetLeavesTheFaultedState :
    ∃ t, broken.fault = true ∧ (0x02000000 : CmdWord) ≠ 0x01000000#32 ∧ command 0x02000000 0 broken = .next t ∧
      0 < 2 ^ xw broken := by
  have e : decode 0x02000000 = .ok .rdstat := by decide
  exact ⟨driveOnly (statusWord broken).toNat (present 0x02000000 0 broken), rfl, by decide, command_of_decode e (Nat.two_pow_pos _), Nat.two_pow_pos _⟩

/-- `TSIZE 5000`. -/
theorem witness_FaultEntryRecordsTheCommand :
    ∃ t, block.fault = false ∧ command 0x10000000 5000 block = .next t ∧ t.fault = true := by
  have e : decode 0x10000000 = .ok .tsize := by decide
  have h : 5000 < 2 ^ xw block := by decide +kernel
  have hx : exec .tsize (present 0x10000000 5000 block) = .next (faultedWith 2 (present 0x10000000 5000 block)) := rfl
  exact ⟨_, rfl, (command_of_decode e h).trans hx, rfl⟩

theorem witness_CheckedFaultsChangeNothingElse :
    ∃ t, block.fault = false ∧ exec .tsize { block with din := 5000 } = .next t ∧ t.fault = true ∧ t.fcode.toNat ≤ 3 :=
  ⟨faultedWith 2 { block with din := 5000 }, rfl, rfl, rfl, by decide⟩

theorem witness_CommandsRaiseOnlyTheirFaults :
    ∃ t, Instr.tsize.wellFormed = true ∧ block.fault = false ∧ exec .tsize { block with din := 5000 } = .next t ∧
      t.fault = true := ⟨faultedWith 2 { block with din := 5000 }, rfl, rfl, rfl, rfl⟩

theorem not_two_pow {v : Nat} (h : onePower v = false) (h0 : v ≠ 0) : ¬ ∃ k, v = 2 ^ k := fun hk => by
  rw [(onePower_iff h0).2 hk] at h; exact absurd h (by decide)

theorem witness_TsizeSetsTheSizeAndEmptiesTheTable :
    block.fault = false ∧
      (4096 ≤ 4096 ∧ 4096 ≤ block.params.tmaxBytes ∧ ∃ k, 4096 = 2 ^ k) ∧
      (4096 ≤ 8192 ∧ 8192 ≤ block.params.tmaxBytes ∧ ∃ k, 8192 = 2 ^ k) ∧
      ¬ (4096 ≤ 2048 ∧ 2048 ≤ block.params.tmaxBytes ∧ ∃ k, 2048 = 2 ^ k) ∧
      ¬ (4096 ≤ 16384 ∧ 16384 ≤ block.params.tmaxBytes ∧ ∃ k, 16384 = 2 ^ k) ∧
      ¬ (4096 ≤ 5000 ∧ 5000 ≤ block.params.tmaxBytes ∧ ∃ k, 5000 = 2 ^ k) :=
  ⟨rfl, ⟨by decide, by decide, 12, by decide⟩, ⟨by decide, by decide, 13, by decide⟩, fun h => absurd h.1 (by decide),
    fun h => absurd h.2.1 (by decide), fun h => not_two_pow (by decide) (by decide) h.2.2⟩

theorem witness_TloadWritesOneWord :
    block.fault = false ∧ ((511 : BitVec 24).toNat < block.tbytes / 8 ∧ 2 ^ 64 - 1 < 2 ^ 64) ∧
      ¬ ((512 : BitVec 24).toNat < block.tbytes / 8 ∧ 0 < 2 ^ 64) ∧
      ¬ ((0 : BitVec 24).toNat < block.tbytes / 8 ∧ 2 ^ 64 < 2 ^ 64) := by decide

theorem witness_TreadReturnsAWrittenWord :
    block.fault = false ∧ block.tbytes / 8 ≤ (512 : BitVec 24).toNat ∧ Table.read block.table (511 : BitVec 24).toNat = none ∧
      (511 : BitVec 24).toNat < block.tbytes / 8 ∧
      Table.read (patterned [511] block).table (511 : BitVec 24).toNat = some (pattern 511) := by decide

/-- The first 64 words of the pattern: enough for a field of 961 bits, wider than `XW`. -/
def someWords : State := patterned (List.range 64) block

theorem witness_BitstrReturnsTheBitField :
    someWords.fault = false ∧ (∃ k, 12 ≤ k ∧ someWords.tbytes = 2 ^ k) ∧ (960 : BitVec 12) ≠ 0 ∧
      ¬ FieldWritten block 0 1 ∧ ¬ FieldWritten someWords 4095 2 ∧ FieldWritten someWords 4095 1 ∧
      FieldWritten someWords 0 960 ∧ (960 : BitVec 12).toNat ≤ xw someWords := by
  refine ⟨rfl, ⟨12, by decide, rfl⟩, by decide, ?_⟩
  simp only [FieldWritten]
  decide +kernel

theorem witness_AlignedAndSpanningFields :
    (∃ k, 12 ≤ k ∧ full.tbytes = 2 ^ k) ∧ 128 ≤ xw full ∧ 511 < words full ∧ 509 + 2 < words full ∧
      Table.read full.table 509 = some (pattern 509) ∧ Table.read full.table 510 = some (pattern 510) ∧
      Table.read full.table 511 = some (pattern 511) := by
  refine ⟨⟨12, by decide, rfl⟩, ?_⟩
  decide +kernel

theorem witness_TfillWritesConsecutiveWords :
    block.fault = false ∧ 64 ≤ xw block ∧ 510 + [pattern 0, pattern 1].length ≤ block.tbytes / 8 ∧
      510 + [pattern 0, pattern 1].length ≤ 2 ^ 24 := by decide

theorem witness_FoldFitsAndAdvancesOnlyWhenReducing : 0xFFFF < 2 ^ 16 ∧ 2 ^ 16 ≤ 0x10000 := by decide

theorem witness_FoldAlgCombinesTheChunks :
    1 ≤ 16 ∧ 2 ^ 48 - 1 < 2 ^ chunkStart false 16 3 ∧ 2 ^ 45 - 1 < 2 ^ chunkStart true 16 3 ∧ 0 < 2 ^ chunkStart true 1 0 := by
  decide

theorem witness_XorFoldOfTheDigits : 1 ≤ 1 ∧ 4 ≤ 4 := by decide

/-- The two operands where the clauses of `FoldCommandUsesTheSelector` and `FoldaIsPure` meet. -/
theorem witness_FoldCommandUsesTheSelector :
    block.fault = false ∧ (16 : BitVec 12) ≠ 0 ∧ 0xFFFF < 2 ^ (16 : BitVec 12).toNat ∧ 2 ^ (16 : BitVec 12).toNat ≤ 0x10000 := by
  decide

theorem witness_FoldaIsPure :
    block.fault = false ∧ (1 : BitVec 12) ≠ 0 ∧ (4095 : BitVec 12) ≠ 0 ∧ 3 < (4 : BitVec 8).toNat := by decide

theorem witness_HwrWritesTheFieldOrFaults :
    hashStart.fault = false ∧ hashStart.params.nmax ≤ (3 : BitVec 8).toNat ∧ (2 : BitVec 8).toNat < hashStart.params.nmax ∧
      ((9 : BitVec 8).toNat < hashStart.hdepth ∧ 0xFFFF < 2 ^ hashStart.w) ∧
      ¬ ((10 : BitVec 8).toNat < hashStart.hdepth ∧ 0 < 2 ^ hashStart.w) ∧
      ¬ ((9 : BitVec 8).toNat < hashStart.hdepth ∧ 0x10000 < 2 ^ hashStart.w) ∧ 9 < hashStart.hdepth ∧
      hashStart.hdepth ≤ 10 ∧ 2 < (3 : BitVec 8).toNat ∧ (1 : BitVec 8) ≠ 0 := by decide

theorem witness_HrdReturnsTheField :
    hashStart.params.nmax ≤ (3 : BitVec 8).toNat ∧ hashStart.hdepth ≤ (10 : BitVec 8).toNat ∧
      (9 : BitVec 8).toNat < hashStart.hdepth ∧ (hashAt hashStart 0).variant = .hash0 ∧
      (2, HashField.variant, 0) ∈ hashScalars (hashAt hashStart 0) ∧
      (2, HashField.variant, 1) ∈ hashScalars (hashAt hash1Start 0) := by decide

theorem witness_HashKernelWalksTheSlots :
    (hashAt hash1Start 0).Legal 10 16 10 ∧ (hashAt hash1Start 0).variant = .hash1 ∧
      (hashAt hashStart 0).Legal 10 16 10 ∧ (hashAt hashStart 0).variant = .hash0 :=
  ⟨⟨by decide, by decide, by decide⟩, by decide, ⟨by decide, by decide, by decide⟩, by decide⟩

theorem witness_HupdConsumesTheBytes :
    ((2 : BitVec 8).toNat < hashStart.params.nmax ∧ (120 : BitVec 12) ≠ 0 ∧ 8 * (120 : BitVec 12).toNat ≤ xw hashStart ∧
        256 ^ 120 - 1 < 256 ^ (120 : BitVec 12).toNat) ∧
      ¬ (8 * (121 : BitVec 12).toNat ≤ xw hashStart) ∧ ¬ (256 < 256 ^ (1 : BitVec 12).toNat) := by decide +kernel

theorem witness_HupdOfAStringByteByByte :
    hashStart.fault = false ∧ (0 : BitVec 8).toNat < hashStart.params.nmax ∧
      (0 : BitVec 8).toNat < hashStart.hashes.length ∧ [0x61#8, 0x62#8, 0x63#8] ≠ [] ∧
      8 * [0x61#8, 0x62#8, 0x63#8].length ≤ xw hashStart ∧ [0x61#8, 0x62#8, 0x63#8].length < 4096 := by decide

theorem witness_HdigReturnsTheXorOfTheSlots :
    hashStart.fault = false ∧ hashStart.params.nmax ≤ (3 : BitVec 8).toNat ∧ (2 : BitVec 8).toNat < hashStart.params.nmax := by
  decide

/-- Instance 2 has an all-zero vector. -/
theorem witness_HstepFeedsTheDigestBack :
    hashStart.fault = false ∧ hashStart.params.nmax ≤ (3 : BitVec 8).toNat ∧ (2 : BitVec 8).toNat < hashStart.params.nmax ∧
      ∀ x ∈ (hashAt hashStart 2).vec, x = 0 := by decide

/-- The start state of 42_hash.md is legal. -/
theorem hashStart_legal : Legal hashStart :=
  { block_legal with
    w_ge := by decide
    w_le := by decide
    hdepth_ge := by decide
    hdepth_le := by decide
    gens := by
      intro g hg
      obtain rfl : g = Gen.cleared 10 := List.eq_of_mem_replicate hg
      exact ⟨by decide, by decide, by decide, by decide, by decide, by decide⟩
    hashes_length := by decide
    hashes := by
      intro h hh
      simp only [hashStart, List.mem_cons, List.not_mem_nil, or_false] at hh
      rcases hh with rfl | rfl | rfl
      · exact ⟨by decide, by decide, by decide⟩
      · exact ⟨by decide, by decide, by decide⟩
      · exact ⟨by decide, by decide, by decide⟩ }

/-- Legal states do not look at `MODE`. -/
theorem hashes_legal : Legal { hashStart with mode := .hashes } := { hashStart_legal with }

/-- The first draw of the example of 42_hash.md R123 is accepted; on a block just reset every draw is degenerate. -/
theorem witness_HnextDrawsUntilNotDegenerate :
    (Legal hashStart ∧ hashStart.fault = false ∧ (2 : BitVec 4) ≠ 0 ∧ (0 : BitVec 8).toNat < hashStart.params.nmax ∧
      2 ≤ (8 : BitVec 12).toNat ∧ ¬ Degenerate 8 (hashDraw hashStart 0 8 2 0).value) ∧
    Legal block ∧ block.fault = false ∧ (1 : BitVec 4) ≠ 0 ∧ (0 : BitVec 8).toNat < block.params.nmax ∧
      ∀ j ≤ block.retryMax.toNat, Degenerate 8 (hashDraw block 0 8 1 j).value := by
  refine ⟨⟨hashStart_legal, rfl, by decide, by decide, by decide, ?_⟩, block_legal, rfl, by decide, by decide, ?_⟩
  · simp only [Degenerate]; decide +kernel
  · simp only [Degenerate]; decide +kernel

theorem witness_GwrWritesTheFieldOrFaults :
    (genStart .lcg).params.nmax ≤ (3 : BitVec 8).toNat ∧ (2 : BitVec 8).toNat < (genStart .lcg).params.nmax ∧
      ((3 : BitVec 8).toNat < (genStart .lcg).depth ∧ 0xFFFF < 2 ^ (genStart .lcg).w) ∧
      ¬ ((4 : BitVec 8).toNat < (genStart .lcg).depth ∧ 0 < 2 ^ (genStart .lcg).w) ∧ 3 < (genStart .lcg).depth ∧
      (genStart .lcg).depth ≤ 4 ∧ 2 ^ (genStart .lcg).w ≤ 0x10000 ∧
      6 < (7 : BitVec 8).toNat ∧ (4, GenVariant.fsr) ∈ [(0, GenVariant.lcg), (1, .mcg), (2, .mwc), (3, .lfib), (4, .fsr)] := by decide

theorem witness_GrdReturnsTheField :
    (genStart .lcg).depth ≤ (4 : BitVec 8).toNat ∧ (3 : BitVec 8).toNat < (genStart .lcg).depth ∧
      (2, GenField.mult, 0x6255) ∈ genScalars (genAt (genStart .lcg) 0) := by decide

/-- The five recurrences each have a generator that runs them. -/
theorem witness_GstepRunsTheRecurrence :
    (∀ v ∈ [GenVariant.lcg, .mcg, .mwc, .lfib, .fsr],
      (genAt (genStart v) 0).variant = v ∧ (genStart v).fault = false) ∧
      (0 : BitVec 8).toNat < (genStart .lcg).params.nmax := by decide

theorem witness_GspinIteratesTheRawStep :
    (genStart .lcg).fault = false ∧ 2 ^ 32 - 1 < 2 ^ 32 ∧ (2 : BitVec 8).toNat < (genStart .lcg).params.nmax ∧
      (genStart .lcg).params.nmax ≤ (3 : BitVec 8).toNat := by decide

theorem retryStart_legal : Legal retryStart :=
  { block_legal with
    w_ge := by decide
    w_le := by decide
    depth_ge := by decide
    depth_le := by decide
    gens_length := by decide
    gens := by
      intro g hg
      simp only [retryStart, List.mem_cons, List.not_mem_nil, or_false] at hg
      rcases hg with rfl | rfl | rfl
      · exact ⟨by decide, by decide, by decide, by decide, by decide, by decide⟩
      · exact ⟨by decide, by decide, by decide, by decide, by decide, by decide⟩
      · exact ⟨by decide, by decide, by decide, by decide, by decide, by decide⟩
    hashes := by
      intro h hh
      obtain rfl : h = Hash.cleared 10 := List.eq_of_mem_replicate hh
      exact ⟨by decide, by decide, by decide⟩ }

theorem witness_GnextDrawsUntilNotDegenerate :
    Legal retryStart ∧ retryStart.fault = false ∧ (1 : BitVec 4) ≠ 0 ∧ (0 : BitVec 8).toNat < retryStart.params.nmax ∧
      2 ≤ (8 : BitVec 12).toNat ∧ 1 ≤ retryStart.retryMax.toNat ∧
      (∀ j < 1, Degenerate 8 (genDraw retryStart 0 8 1 j).value) ∧ ¬ Degenerate 8 (genDraw retryStart 0 8 1 1).value ∧
      ∀ j ≤ block.retryMax.toNat, Degenerate 8 (genDraw block 0 8 1 j).value := by
  refine ⟨retryStart_legal, rfl, by decide, by decide, by decide, by decide, ?_⟩
  simp only [Degenerate]
  decide +kernel

/-- In either mode, a legal state with an accepted draw and one whose draws are all degenerate. -/
theorem witness_SubNextDrawsFromTheSelectedKind :
    (Legal retryStart ∧ retryStart.mode = .generators ∧ 0 < retryStart.params.nmax ∧ 1 ≤ retryStart.retryMax.toNat ∧
      (∀ j < 1, Degenerate 8 (genDraw retryStart 0 8 1 j).value) ∧ ¬ Degenerate 8 (genDraw retryStart 0 8 1 1).value) ∧
    (Legal { hashStart with mode := .hashes } ∧ 0 < hashStart.params.nmax ∧
      ¬ Degenerate 8 (hashDraw { hashStart with mode := .hashes } 0 8 1 0).value ∧
      ∀ j ≤ hashStart.retryMax.toNat, Degenerate 8 (hashDraw { hashStart with mode := .hashes } 1 8 1 j).value) ∧
    Legal block ∧ block.mode = .generators ∧
      ∀ j ≤ block.retryMax.toNat, Degenerate 8 (genDraw block 0 8 1 j).value := by
  refine ⟨⟨retryStart_legal, rfl, by decide, by decide, ?_⟩, ⟨hashes_legal, by decide, ?_⟩, block_legal, rfl, ?_⟩
  · simp only [Degenerate]; decide +kernel
  · simp only [Degenerate]; decide +kernel
  · simp only [Degenerate]; decide +kernel

theorem witness_ResetBlockCannotDraw :
    small.Legal ∧ (1 : BitVec 4) ≠ 0 ∧ (2 : BitVec 12) ≠ 0 ∧ (2 : BitVec 8).toNat < small.nmax ∧
      (∃ k, (2 : BitVec 12).toNat = 2 ^ k) ∧ (15 : BitVec 4).toNat * (64 : BitVec 12).toNat ≤ xw block ∧
      2 * (479 : BitVec 12).toNat + 1 ≤ xw block := ⟨small_legal, by decide, by decide, by decide, ⟨1, rfl⟩, by decide, by decide⟩

/-- A composite whose sub-generators all answer 1, so that every attempt selects a zero bit at every position. -/
def rejectStart : State :=
  { compositeStart with gens := List.replicate 3 (gen .lcg [1, 1, 1, 1] 1 0 0 0) }

theorem compositeStart_draws : ∃ k r t, k ≤ compositeStart.retryMax.toNat ∧ CompositeDraws 4 1 compositeStart k r t := by
  have h : (match compositeNext 4 1 compositeStart with
    | .ok _ _ => true
    | .raised _ _ => false) = true := by decide +kernel
  rcases hc : compositeNext 4 1 compositeStart with ⟨r, t⟩ | ⟨c, t⟩
  · obtain ⟨k, u, hk, hd⟩ := compositeLoop_draws (bw := 4) ⟨2, rfl⟩ hc
    exact ⟨k, r, u, hk, hd⟩
  · simp [hc] at h

/-- The loop ends at its bound, `RCNT` changed, so every attempt was rejected. -/
theorem rejectStart_rejects {bw : Nat} (hb : ∃ k, bw = 2 ^ k) (hbw : bw = 4 ∨ bw = 8) :
    ∃ u, RejectedAttempts bw 1 (rejectStart.retryMax.toNat + 1) rejectStart u := by
  have h : (match compositeNext bw 1 rejectStart with
    | .ok _ _ => true
    | .raised _ t => t.rcnt == rejectStart.rcnt) = false := by rcases hbw with rfl | rfl <;> decide +kernel
  rcases hc : compositeNext bw 1 rejectStart with ⟨r, t⟩ | ⟨c, t⟩
  · simp [hc] at h
  · rcases compositeLoop_raised hb hc with ⟨u, hu, -⟩ | he
    · exact ⟨u, hu⟩
    · rw [hc] at h; simp [he] at h

/-- On a block just reset the first sub-generator ends its draws, so no attempt is made to its end. -/
theorem block_rejects_nothing {bw : Nat} (hb : ∃ k, bw = 2 ^ k) (hbw : bw = 4 ∨ bw = 8) :
    ¬ ∃ u, RejectedAttempts bw 1 (block.retryMax.toNat + 1) block u := by
  rintro ⟨u, r, v, ha, -⟩
  have h : (match compositeAttempt bw 1 block with
    | .ok _ _ => true
    | .raised _ _ => false) = false := by rcases hbw with rfl | rfl <;> decide +kernel
  simp [(compositeAttempt_eq_ok hb).2 ha] at h

theorem block_draws_nothing {bw : Nat} (hb : ∃ k, bw = 2 ^ k) (hbw : bw = 4 ∨ bw = 8) :
    ¬ ∃ k r t, k ≤ block.retryMax.toNat ∧ CompositeDraws bw 1 block k r t := by
  rintro ⟨k, r, t, hk, hd⟩
  have h : (match compositeNext bw 1 block with
    | .ok _ _ => true
    | .raised _ _ => false) = false := by rcases hbw with rfl | rfl <;> decide +kernel
  simp [compositeNext, compositeLoop_of_draws hb hk hd] at h

theorem witness_CnextPlacesTheSelectedBits :
    compositeStart.fault = false ∧ (1 : BitVec 4) ≠ 0 ∧ 2 ≤ (4 : BitVec 12).toNat ∧ (∃ k, (4 : BitVec 12).toNat = 2 ^ k) ∧
      (1 : BitVec 4).toNat * (4 : BitVec 12).toNat ≤ xw compositeStart ∧
      ¬ (15 : BitVec 4).toNat * (128 : BitVec 12).toNat ≤ xw compositeStart ∧
      (∃ k r t, k ≤ compositeStart.retryMax.toNat ∧ CompositeDraws 4 1 compositeStart k r t) ∧
      rejectStart.fault = false ∧ (∃ u, RejectedAttempts 4 1 (rejectStart.retryMax.toNat + 1) rejectStart u) ∧
      (¬ ∃ k r t, k ≤ block.retryMax.toNat ∧ CompositeDraws 4 1 block k r t) ∧
      ¬ ∃ u, RejectedAttempts 4 1 (block.retryMax.toNat + 1) block u :=
  ⟨rfl, by decide, by decide, ⟨2, rfl⟩, by decide, by decide, compositeStart_draws, rfl,
    rejectStart_rejects ⟨2, rfl⟩ (.inl rfl), block_draws_nothing ⟨2, rfl⟩ (.inl rfl),
    block_rejects_nothing ⟨2, rfl⟩ (.inl rfl)⟩

/-- An accepted keystream byte and none; the same state and byte serve `EncNeverReturnsItsOperand`. -/
theorem witness_EncAndDecXorTheKeystreamByte :
    compositeStart.fault = false ∧ compositeStart.cchk = true ∧ (1 : BitVec 4) ≠ 0 ∧ 255 ≤ 255 ∧ 255 < 256 ∧
      (7 : BitVec 12) ≠ 8 ∧
      (∃ k r t, k ≤ compositeStart.retryMax.toNat ∧ CompositeDraws 8 1 compositeStart k r t) ∧
      (∃ u, RejectedAttempts 8 1 (rejectStart.retryMax.toNat + 1) rejectStart u) ∧ rejectStart.din ≤ 255 ∧
      (¬ ∃ k r t, k ≤ block.retryMax.toNat ∧ CompositeDraws 8 1 block k r t) ∧
      ¬ ∃ u, RejectedAttempts 8 1 (block.retryMax.toNat + 1) block u := by
  refine ⟨rfl, rfl, by decide, by decide, by decide, by decide, ?_, rejectStart_rejects ⟨3, rfl⟩ (.inr rfl), by decide,
    block_draws_nothing ⟨3, rfl⟩ (.inr rfl), block_rejects_nothing ⟨3, rfl⟩ (.inr rfl)⟩
  have h : (match compositeNext 8 1 compositeStart with
    | .ok _ _ => true
    | .raised _ _ => false) = true := by decide +kernel
  rcases hc : compositeNext 8 1 compositeStart with ⟨r, t⟩ | ⟨c, t⟩
  · obtain ⟨k, u, hk, hd⟩ := compositeLoop_draws (bw := 8) ⟨3, rfl⟩ hc
    exact ⟨k, r, u, hk, hd⟩
  · simp [hc] at h

/-- The sub-generators of R144 with the byte `t` presented. -/
def encStart : State := { compositeStart with din := 0x74 }

theorem witness_EncNeverReturnsItsOperand :
    ∃ t, exec (.enc 1) encStart = .next t ∧ t.fault = false := by
  have h : (match exec (.enc 1) encStart with
    | .next t => t.fault
    | _ => true) = false := by decide +kernel
  rcases he : exec (.enc 1) encStart with t | f | f
  · rw [he] at h; exact ⟨t, rfl, h⟩
  · rw [he] at h; simp at h
  · rw [he] at h; simp at h

theorem witness_CompositeTouchesOnlyItsSubGenerators :
    2 ≤ compositeStart.n ∧ compositeStart.cidx ≤ compositeStart.n - 2 ∧ compositeStart.mode = .generators := by decide

/-- `ENCRYPT` of "test" runs to the ciphertext of 44_composite.md R144 without a fault. -/
theorem witness_DecryptInvertsEncrypt :
    (1 : BitVec 4) ≠ 0 ∧ SameButPorts compositeStart { compositeStart with res := 7 } ∧ 8 ≤ xw compositeStart ∧
      (runProgram (Pseudo.encrypt [0x74, 0x65, 0x73, 0x74] 1) compositeStart).map
        (fun p => (p.1.map Prod.fst, p.2.fault)) = some ([0x13, 0x51, 0x29, 0xC9], false) :=
  ⟨by decide, rfl, by decide, by decide +kernel⟩

theorem witness_WhnextAdvancesTheSeeds :
    block.fault = false ∧ 64 < (65 : BitVec 12).toNat ∧ (64 : BitVec 12).toNat ≤ 64 ∧
      (1 ≤ block.whS1 ∧ block.whS1 ≤ 30268) := by decide

theorem read_patterned : ∀ (indices : List Nat) (i : Nat), i ∈ indices →
    Table.read (indices.map fun i => (i, pattern i)) i = some (pattern i)
  | j :: rest, i, h => by
    by_cases e : j = i
    · simp [Table.read, e]
    · simpa [Table.read, e] using read_patterned rest i ((List.mem_cons.1 h).resolve_left (Ne.symm e))

theorem full_is_full : TableFull full := fun i hi => by
  have hi : i < 512 := Nat.lt_of_lt_of_le hi (by decide)
  rw [full, patterned, read_patterned _ _ (List.mem_range.2 hi)]
  rfl

theorem full_sized : ∃ k, 12 ≤ k ∧ full.tbytes = 2 ^ k := ⟨12, by decide, rfl⟩

theorem witness_RandintCombinesFourFields :
    full.fault = false ∧ (∃ k, 12 ≤ k ∧ full.tbytes = 2 ^ k) ∧ TableFull full ∧ (479 : BitVec 12) ≠ 0 ∧
      2 * (479 : BitVec 12).toNat + 1 ≤ xw full ∧ xw full < 2 * (480 : BitVec 12).toNat + 1 ∧
      FieldWritten full full.idx0.toNat 479 ∧ ¬ FieldWritten (walkedIndices 479 block) 0 479 := by
  refine ⟨rfl, full_sized, full_is_full, by decide, by decide, by decide, fieldWritten_of_full full_sized full_is_full _ _, ?_⟩
  simp only [FieldWritten]
  decide +kernel

/-- On a full table one round of any width goes through. -/
theorem full_rounds (w : Nat) : ∃ ds t, ds.length = full.paranoia ∧ NrvRounds 0 w ds full.din full t := by
  obtain ⟨v, hv⟩ := bitRead_isSome full_sized
    (fieldWritten_of_full full_sized full_is_full (full.din % bitSize full) w)
  exact ⟨[_], _, rfl, v, hv, rfl, rfl⟩

/-- On a block just reset no round of a width above 0 does. -/
theorem block_no_rounds {w : Nat} (hw : 0 < w) :
    ¬ ∃ ds t, ds.length = block.paranoia ∧ NrvRounds 0 w ds block.din block t := by
  rintro ⟨ds, t, hl, hr⟩
  obtain ⟨d, rfl⟩ := List.length_eq_one_iff.1 hl
  obtain ⟨v, hv, -⟩ := hr
  rw [bitRead_eq_none ⟨12, by decide, rfl⟩ fun h => absurd (h 0 (by omega)) (by simp [block, State.resetOf, Table.read])] at hv
  exact absurd hv (by simp)

theorem witness_NrvXorsTheRoundDigests :
    full.fault = false ∧ TableFull full ∧ (0 : BitVec 8).toNat < full.params.nmax ∧ (960 : BitVec 12) ≠ 0 ∧
      (960 : BitVec 12).toNat ≤ xw full ∧ FieldWritten full 0 960 ∧ ¬ FieldWritten block 0 960 ∧
      (∃ ds t, ds.length = full.paranoia ∧ NrvRounds 0 960 ds full.din full t) ∧
      ¬ ∃ ds t, ds.length = block.paranoia ∧ NrvRounds 0 960 ds block.din block t :=
  ⟨rfl, full_is_full, by decide, by decide, by decide, fieldWritten_of_full full_sized full_is_full _ _,
    fun h => absurd (h 0 (by omega)) (by simp [block, State.resetOf, Table.read]), full_rounds 960,
    block_no_rounds (by decide)⟩

theorem witness_StepRunsTheDecodedCommand :
    decode 0x23000000 = .ok (.hdig 0) ∧ decode 0x23000001 = .error .mustBeZero ∧ hashStart.fault = false ∧
      0 < 2 ^ xw hashStart ∧
      ({ hashStart with pending := [(0x23000000, 0)] } : State).pending = (0x23000000, 0) :: [] := by decide +kernel

/-- A block with `WMAX` of 65536, given that width. -/
def wideBlock : State := { block with params := { block.params with wmax := 65536 }, din := 65536 }

theorem witness_ChoicesOfTheModel :
    (wideBlock.fault = false ∧ 2 ^ 16 ≤ wideBlock.din ∧ wideBlock.din ≤ wideBlock.params.wmax) ∧ block.pending = [] ∧ 2 ^ xw block ≤ 2 ^ xw block ∧
      ({ block with pending := [(0, 2 ^ xw block)] } : State).pending = (0, 2 ^ xw block) :: [] ∧
      full.fault = false ∧ (∃ k, 12 ≤ k ∧ full.tbytes = 2 ^ k) ∧ xw full < (961 : BitVec 12).toNat ∧
      FieldWritten full full.din 961 ∧ (0 : BitVec 8).toNat < full.params.nmax ∧ TableFull full ∧
      (∃ ds t, ds.length = full.paranoia ∧ NrvRounds 0 961 ds full.din full t) ∧
      ¬ ∃ ds t, ds.length = block.paranoia ∧ NrvRounds 0 961 ds block.din block t :=
  ⟨by decide, rfl, Nat.le_refl _, rfl, rfl, full_sized, by decide, fieldWritten_of_full full_sized full_is_full _ _, by decide,
    full_is_full, full_rounds 961, block_no_rounds (by decide)⟩

theorem witness_RunOfAProgramIsOneStepPerCommand :
    block.pending = [] ∧ (runProgram [(0x50000010, 0), (0x03000000, 0)] block).isSome = true := by decide +kernel

theorem witness_FaultedBlocksLookAlike :
    broken.fault = true ∧ SameFaultView broken { broken with res := 9, w := 16, table := [(3, 4)] } :=
  ⟨rfl, rfl, rfl, rfl, rfl, rfl, rfl, rfl, rfl, rfl⟩

theorem witness_DecodeOfEncode : (Instr.hnext 255 15 4095).wellFormed = true ∧ (Instr.wrcfg .idx3).wellFormed = true := by
  decide

theorem witness_EncodeOfDecode :
    decode 0x25002008 = .ok (.hnext 0 2 8) ∧ (Instr.hnext 0 2 8).wellFormed = true := by decide

theorem witness_OpcodeMapIsTheDecoder :
    ∃ r ∈ opcodeTable, r.accepts 0x25002008 = true ∧ r.mnemonic = "HNEXT" :=
  ⟨⟨"HNEXT", 0x25000000, 0xFF000000, .stepsNonzero⟩, by decide, by decide, rfl⟩

/-- The same block with a `NOP` presented next. -/
theorem witness_EveryStepKeepsLegalStates :
    ∃ t, Legal { block with pending := [(0, 0)] } ∧ step { block with pending := [(0, 0)] } = .next t := by
  have e : decode 0 = .ok .nop := by decide
  have hs : step { block with pending := [(0, 0)] } = command 0 0 block := rfl
  have hn : exec .nop (present 0 0 block) = .next (noValue (present 0 0 block)) := rfl
  exact ⟨noValue (present 0 0 block), { block_legal with }, by rw [hs, command_of_decode e (Nat.two_pow_pos _), hn]⟩

theorem witness_CommandsWriteOnlyTheirPieces :
    exec .nop block = .next (noValue block) ∧ mayWrite .nop .host = false ∧ mayWrite (.gnext 0 1 8) (.generator 1) = false :=
  ⟨rfl, rfl, by decide⟩

end Sys2Proof.Machine.Tests
end

/-! PROOFS of the family 10_state.md: the reset state, the command port, the frame and the invariant of every step. -/

namespace Sys2Proof.Machine

/-! The reset state (10_state.md R37). -/

/-- Settles O3, field by field from the table of R37. -/
theorem resetStateHasTheResetValues : Obligations.ResetStateHasTheResetValues := fun _ =>
  { res := rfl
    status := by simp [statusWord, State.resetOf]
    tbytes := rfl
    unwritten := fun _ => rfl
    foldSel := rfl
    geometry := ⟨rfl, rfl, rfl, rfl, rfl⟩
    bounds := ⟨rfl, rfl, rfl⟩
    cidx := rfl
    gens_length := List.length_replicate
    gens := fun g hg => by
      obtain rfl : g = Gen.cleared _ := List.eq_of_mem_replicate hg
      exact ⟨List.length_replicate, fun _ hx => List.eq_of_mem_replicate hx, rfl, rfl, rfl, rfl, rfl, rfl⟩
    hashes_length := List.length_replicate
    hashes := fun h hh => by
      obtain rfl : h = Hash.cleared _ := List.eq_of_mem_replicate hh
      exact ⟨List.length_replicate, fun _ hx => List.eq_of_mem_replicate hx, rfl, rfl⟩
    seeds := ⟨rfl, rfl, rfl⟩
    randint := ⟨rfl, rfl, rfl, rfl, rfl, rfl⟩ }

/-- The smallest table fits every legal capacity (00_scope.md R7). -/
theorem tmaxBytes_ge {p : Params} (hp : p.Legal) : 4096 ≤ p.tmaxBytes := by
  obtain ⟨k, hk, -, h⟩ := hp.tmax_pow
  rw [h]
  calc 4096 = 2 ^ 12 := rfl
    _ ≤ 2 ^ k := Nat.pow_le_pow_right (by decide) hk

/-- The reset values are within the ranges of 10_state.md for every choice 00_scope.md R7 allows. -/
theorem resetOf_legal {p : Params} (hp : p.Legal) : Legal (State.resetOf p) where
  params := hp
  din := Nat.two_pow_pos _
  dout := Nat.two_pow_pos _
  res := Nat.two_pow_pos _
  status := ⟨fun _ => ⟨rfl, rfl⟩, fun h => Bool.noConfusion h⟩
  tbytes_pow := ⟨12, le_rfl, rfl⟩
  tbytes_le := tmaxBytes_ge hp
  table := rfl
  w_ge := show 8 ≤ 64 by decide
  w_le := hp.wmax_ge
  depth_ge := le_rfl
  depth_le := hp.dmax_ge
  hdepth_ge := le_rfl
  hdepth_le := hp.hdmax_ge
  n_ge := le_rfl
  n_le := hp.nmax_ge
  paranoia_ge := le_rfl
  paranoia_le := show 1 ≤ 4 by decide
  cidx := le_rfl
  gens_length := List.length_replicate
  gens := fun _ hg => List.eq_of_mem_replicate hg ▸ clearedGen_legal le_rfl
  hashes_length := List.length_replicate
  hashes := fun _ hh => List.eq_of_mem_replicate hh ▸ clearedHash_legal le_rfl
  whS1 := show 1 ≤ 1 ∧ 1 ≤ 30268 by decide
  whS2 := show 1 ≤ 1 ∧ 1 ≤ 30306 by decide
  whS3 := show 1 ≤ 1 ∧ 1 ≤ 30322 by decide

/-- The parameters of `State.reset` are a legal choice (log entry 3). -/
theorem ofVectors_legal : Params.ofVectors.Legal :=
  ⟨by decide, by decide, by decide, by decide, by decide, by decide, by decide, 16, by decide⟩

/-- Settles O4. -/
theorem resetStateIsLegal : Obligations.ResetStateIsLegal :=
  ⟨fun _ => resetOf_legal, resetOf_legal ofVectors_legal⟩

/-! The command port (10_state.md R21, 30_encoding.md R78). -/

theorem runWord_of_decode {s : State} {i : Instr} (h : decode s.cmd = .ok i) : runWord s = exec i s := by
  rw [runWord, h]

theorem runWord_of_error {s : State} {e : DecodeError} (h : decode s.cmd = .error e) : runWord s = illegalWord s := by
  rw [runWord, h]

theorem illegalWord_ready {s : State} (h : s.fault = false) : illegalWord s = .next (faultedWith 1 s) := by
  rw [illegalWord, unlessFaulted_ready h, raiseFault_eq h]; rfl

/-- An illegal word in a block without a fault (30_encoding.md R77, 60_exceptions.md R172). -/
theorem runWord_illegal {s : State} {e : DecodeError} (he : decode s.cmd = .error e) (hf : s.fault = false) :
    runWord s = .next (faultedWith 1 s) := by
  rw [runWord_of_error he, illegalWord_ready hf]

theorem step_nil {s : State} (h : s.pending = []) : step s = .next s := by
  rw [step, stepCommand, h]

theorem step_cons {s : State} {c : CmdWord} {d : Nat} {rest : List (CmdWord × Nat)} (h : s.pending = (c, d) :: rest) :
    step s = command c d { s with pending := rest } := by
  rw [step, stepCommand, h]

/-- An operand within the port is presented with its word, and the word is run. -/
theorem command_of_lt {c : CmdWord} {d : Nat} {s : State} (h : d < 2 ^ xw s) :
    command c d s = runWord (present c d s) := if_neg (Nat.not_le.2 h)

/-- A command that answers a state was given an operand within the port (log entry 2). -/
theorem lt_of_command_next {c : CmdWord} {d : Nat} {s t : State} (h : command c d s = .next t) : d < 2 ^ xw s := by
  by_contra hd
  rw [command, if_pos (Nat.not_lt.1 hd)] at h
  cases h

/-- Settles O50: the step presents the pair, and `runWord` splits on what its word decodes to. -/
theorem stepRunsTheDecodedCommand : Obligations.StepRunsTheDecodedCommand := by
  intro s c d rest hp hd
  have hstep : step s = runWord (present c d { s with pending := rest }) := (step_cons hp).trans (command_of_lt hd)
  refine ⟨fun i hi => ?_, fun e he hf => ?_⟩
  · exact hstep.trans (runWord_of_decode hi)
  · exact hstep.trans (runWord_illegal he hf)

/-! How a command can end. -/

/-- Every way a command can end: the two that run in any state, the refusal of a faulted block, and the three ends of a
body (30_encoding.md R78, 60_exceptions.md R172, R174). -/
inductive CommandEnd (i : Instr) (s : State) : State → Prop
  | reset (hi : i = .reset) : CommandEnd i s (noValue (resetBlock s))
  | status (hi : i = .rdstat) : CommandEnd i s (driveOnly (statusWord s).toNat s)
  | refused : CommandEnd i s (refuseCommand s)
  | returned (v : Nat) (u : State) (hi : i ≠ .reset) (hb : execBody i s = .ok (some v) u) : CommandEnd i s (returnValue v u)
  | completed (u : State) (hi : i ≠ .reset) (hb : execBody i s = .ok none u) : CommandEnd i s (noValue u)
  | raised (c : FaultCode) (u : State) (hi : i ≠ .reset) (hb : execBody i s = .raised c u) : CommandEnd i s (enterFault c u)

theorem commandEnd_of_exec {i : Instr} {s t : State} (he : exec i s = .next t) : CommandEnd i s t := by
  by_cases hr : i = .reset
  · subst hr
    cases he
    exact .reset rfl
  by_cases hd : i = .rdstat
  · subst hd
    cases he
    exact .status rfl
  cases hf : s.fault with
  | true =>
    rw [exec_eq_body hr hd, unlessFaulted_faulted hf] at he
    cases he
    exact .refused
  | false =>
    rcases exec_end hr hd hf he with ⟨v, u, hb, rfl⟩ | ⟨u, hb, rfl⟩ | ⟨c, u, hb, rfl⟩
    · exact .returned v u hr hb
    · exact .completed u hr hb
    · exact .raised c u hr hb

/-! The frame of every command. -/

/-- Driving `DOUT` changes no piece. -/
theorem driveOnly_same (p : Piece) (v : Nat) (s : State) : p.Same s (driveOnly v s) := by
  cases p with
  | config r => cases r <;> rfl
  | host => exact ⟨rfl, rfl, rfl⟩
  | faultRecord => exact ⟨rfl, rfl, rfl⟩
  | _ => rfl

theorem noValue_same (p : Piece) (s : State) : p.Same s (noValue s) := driveOnly_same p 0 s

theorem refuseCommand_same (p : Piece) (s : State) : p.Same s (refuseCommand s) := driveOnly_same p 0 s

theorem returnValue_same {p : Piece} {v : Nat} {s : State} (hp : p ≠ .result) : p.Same s (returnValue v s) := by
  cases p with
  | result => exact absurd rfl hp
  | config r => cases r <;> rfl
  | host => exact ⟨rfl, rfl, rfl⟩
  | faultRecord => exact ⟨rfl, rfl, rfl⟩
  | _ => rfl

/-- Taking a fault writes the fault record and nothing else (60_exceptions.md R172). -/
theorem enterFault_same {p : Piece} {c : FaultCode} {s : State} (hp : p ≠ .faultRecord) : p.Same s (enterFault c s) := by
  unfold enterFault
  split
  · exact noValue_same p s
  · refine Piece.Same.trans ?_ (noValue_same p _)
    cases p with
    | faultRecord => exact absurd rfl hp
    | config r => cases r <;> rfl
    | host => exact ⟨rfl, rfl, rfl⟩
    | _ => rfl

/-- `RESET` keeps what the host drives (log entry 8) and the synthesis parameters. -/
theorem resetBlock_same {p : Piece} {s : State} (hp : mayWrite .reset p = false) : p.Same s (resetBlock s) := by
  cases p with
  | host => exact ⟨rfl, rfl, rfl⟩
  | config r =>
    have hr : CfgReg.fixed r = true := by simpa [mayWrite] using hp
    cases r with
    | wmax | dmax | hdmax | nmax | tmaxBytes | xw => rfl
    | _ => cases hr
  | _ => cases hp

/-- A command whose body returns a value lists the latch (10_state.md R22). -/
theorem mayWrite_result_of_value {i : Instr} {s u : State} {v : Nat} (hb : execBody i s = .ok (some v) u) :
    mayWrite i .result = true := by
  cases i with
  | nop | reset | rdstat | wrcfg | tsize | tload | hwr | hupd | gwr | gspin =>
    simp [execBody, check_eq_ok, Sub.none_eq_ok] at hb
  | _ => rfl

/-- A command whose body can raise lists the fault record (10_state.md R23). -/
theorem mayWrite_faultRecord_of_raised {i : Instr} {s u : State} {c : FaultCode} (hb : execBody i s = .raised c u) :
    mayWrite i .faultRecord = true := by
  cases i with
  | nop | rdstat | rdres | rdcfg => cases hb
  | _ => rfl

/-- Settles O60: a body keeps the pieces its rule does not list (`execBody_same`), and each end of a command touches only
the latch, the fault record or, for `RESET`, what `resetBlock` clears. -/
theorem commandsWriteOnlyTheirPieces : Obligations.CommandsWriteOnlyTheirPieces := by
  intro i s t p he hp
  have keeps (hi : i ≠ .reset) : p.Same s (execBody i s).state := execBody_same hi hp
  have unlisted {q : Piece} (hq : mayWrite i q = true) : p ≠ q := by
    rintro rfl
    rw [hq] at hp
    cases hp
  cases commandEnd_of_exec he with
  | reset hi =>
    subst hi
    exact (resetBlock_same hp).trans (noValue_same p _)
  | status => exact driveOnly_same p _ s
  | refused => exact refuseCommand_same p s
  | returned v u hi hb =>
    have hu := keeps hi
    rw [hb] at hu
    exact hu.trans (returnValue_same (unlisted (mayWrite_result_of_value hb)))
  | completed u hi hb =>
    have hu := keeps hi
    rw [hb] at hu
    exact hu.trans (noValue_same p u)
  | raised c u hi hb =>
    have hu := keeps hi
    rw [hb] at hu
    exact hu.trans (enterFault_same (unlisted (mayWrite_faultRecord_of_raised hb)))

/-! The invariant. -/

/-- The body of a command leaves the width of the ports alone. -/
theorem execBody_xw (i : Instr) (s : State) : xw (execBody i s).state = xw s := by
  obtain ⟨-, -, -, -, -, -, -, -, hparams⟩ := execBody_record i s
  rw [xw, xw, hparams]

/-- Every command keeps a legal state legal, however it ends. -/
theorem exec_legal {i : Instr} {s t : State} (h : Legal s) (he : exec i s = .next t) : Legal t := by
  have hbody : Legal (execBody i s).state := execBody_legal h
  have hxw := execBody_xw i s
  cases commandEnd_of_exec he with
  | reset => exact (h.resetBlock (resetOf_legal h.params)).noValue
  | status => exact h.driveOnly (h.lt_xw_of_lt (statusWord s).isLt (by decide))
  | refused => exact h.noValue
  | returned v u _ hb =>
    rw [hb] at hbody hxw
    refine hbody.returnValue ?_
    rw [hxw]
    exact execBody_value_lt h hb
  | completed u _ hb =>
    rw [hb] at hbody
    exact hbody.noValue
  | raised c u _ hb =>
    rw [hb] at hbody
    exact hbody.enterFault c

theorem illegalWord_legal {s t : State} (h : Legal s) (he : illegalWord s = .next t) : Legal t := by
  cases hf : s.fault with
  | true =>
    rw [illegalWord, unlessFaulted_faulted hf] at he
    cases he
    exact h.noValue
  | false =>
    rw [illegalWord_ready hf] at he
    cases he
    exact h.faultedWith (by decide)

theorem runWord_legal {s t : State} (h : Legal s) (he : runWord s = .next t) : Legal t := by
  cases hd : decode s.cmd with
  | ok i => exact exec_legal h ((runWord_of_decode hd).symm.trans he)
  | error e => exact illegalWord_legal h ((runWord_of_error hd).symm.trans he)

theorem command_legal {c : CmdWord} {d : Nat} {s t : State} (h : Legal s) (he : command c d s = .next t) : Legal t := by
  have hd := lt_of_command_next he
  exact runWord_legal (h.present hd) ((command_of_lt hd).symm.trans he)

/-- Settles O59, by what the step does: with nothing pending it holds its state, else it is a command of the host. -/
theorem everyStepKeepsLegalStates : Obligations.EveryStepKeepsLegalStates := by
  intro s t h he
  cases hp : s.pending with
  | nil =>
    rw [step_nil hp] at he
    cases he
    exact h
  | cons pair rest => exact command_legal h.setPending ((step_cons hp).symm.trans he)

end Sys2Proof.Machine

/-! PROOFS of the family 20_memory.md: fields of the entropy table that span words, and strings fed to a hash. -/

namespace Sys2Proof.Machine

/-! Fields at a known place of a word (20_memory.md R54, R55). -/

/-- A written word is appended below what was concatenated before it (20_memory.md R54). -/
theorem concatWords_of_read {t : Table} {nwords wi : Nat} {v : TableWord} (count acc : Nat) (hi : wi < nwords)
    (hv : Table.read t wi = some v) :
    concatWords t nwords (count + 1) wi acc = concatWords t nwords count (wi + 1) (acc * 2 ^ 64 + v.toNat) := by
  rw [concatWords, Nat.mod_eq_of_lt hi, hv]
  exact congrArg _ (shiftLeft_or_eq v.isLt)

/-- A field that starts at bit `o` of word `i` is cut out of the `nw` words it touches (20_memory.md R54). -/
theorem bitReadExact_of_concat {s : State} (hs : TableSized s) {i o n nw cat : Nat} (hi : i < words s) (ho : o < 64)
    (hn : ceilDiv (o + n) 64 = nw) (hc : concatWords s.table (words s) nw i 0 = some cat) :
    bitReadExact s (64 * i + o) n = some (cat / 2 ^ (64 * nw - o - n) % 2 ^ n) := by
  have hb : (64 * i + o) % bitSize s = 64 * i + o := Nat.mod_eq_of_lt (by rw [bitSize_eq_words hs]; omega)
  have hwi : (64 * i + o) >>> 6 = i := by rw [Nat.shiftRight_eq_div_pow]; omega
  have hoff : (64 * i + o) &&& 63 = o := by
    rw [show 63 = 2 ^ 6 - 1 from rfl, Nat.and_two_pow_sub_one_eq_mod]; omega
  simp only [bitReadExact, and_bitIndexMask hs, hb, hwi, hoff, hn, hc, and_mask, Nat.shiftRight_eq_div_pow]

/-- Three words of `a * b` values each, cut after the low `a` values of the last and the high `b` of the first. -/
theorem three_words_div_mod {a b x y z : Nat} (hy : y < a * b) (hz : z < a * b) :
    ((x * (a * b) + y) * (a * b) + z) / a % (a * b * (a * b)) = x % a * (a * b * b) + y * b + z / a := by
  have ha : 0 < a := Nat.pos_of_mul_pos_right (Nat.zero_lt_of_lt hy)
  have hzb : z / a < b := Nat.div_lt_of_lt_mul hz
  have hyz : y * b + z / a < a * b * b := by
    calc y * b + z / a < (y + 1) * b := by rw [Nat.succ_mul]; omega
      _ ≤ a * b * b := Nat.mul_le_mul_right b hy
  have hlt : x % a * (a * b * b) + y * b + z / a < a * b * (a * b) := by
    calc x % a * (a * b * b) + y * b + z / a < (x % a + 1) * (a * b * b) := by rw [Nat.succ_mul]; omega
      _ ≤ a * (a * b * b) := Nat.mul_le_mul_right _ (Nat.mod_lt x ha)
      _ = a * b * (a * b) := by ring
  have hdiv : ((x * (a * b) + y) * (a * b) + z) / a =
      x % a * (a * b * b) + y * b + z / a + a * b * (a * b) * (x / a) := by
    have hx : x * (a * b * b) = x % a * (a * b * b) + a * b * (a * b) * (x / a) := by
      conv_lhs => rw [← Nat.mod_add_div x a]
      ring
    rw [show (x * (a * b) + y) * (a * b) + z = z + a * (x * (a * b * b) + y * b) by ring,
      Nat.add_mul_div_left _ _ ha, hx]
    omega
  rw [hdiv, Nat.add_mul_mod_self_left, Nat.mod_eq_of_lt hlt]

/-- A field of 64 bits at a word boundary is the word (20_memory.md R55). -/
theorem bitReadExact_aligned {s : State} (hs : TableSized s) {i : Nat} {v : TableWord} (hi : i < words s)
    (hv : Table.read s.table i = some v) : bitReadExact s (64 * i) 64 = some v.toNat := by
  have hc : concatWords s.table (words s) 1 i 0 = some v.toNat := by
    rw [concatWords_of_read 0 0 hi hv, concatWords, Nat.zero_mul, Nat.zero_add]
  have h := bitReadExact_of_concat hs (o := 0) (n := 64) (nw := 1) hi (by decide) rfl hc
  rwa [Nat.add_zero, show 64 * 1 - 0 - 64 = 0 from rfl, Nat.pow_zero, Nat.div_one, Nat.mod_eq_of_lt v.isLt] at h

/-- A field of 128 bits that starts inside a word ends in the second word after it (20_memory.md R55). -/
theorem bitReadExact_spanning {s : State} (hs : TableSized s) {i o : Nat} {v0 v1 v2 : TableWord} (hi : i + 2 < words s)
    (h1 : 1 ≤ o) (h63 : o ≤ 63) (hv0 : Table.read s.table i = some v0) (hv1 : Table.read s.table (i + 1) = some v1)
    (hv2 : Table.read s.table (i + 2) = some v2) :
    bitReadExact s (64 * i + o) 128 =
      some (v0.toNat % 2 ^ (64 - o) * 2 ^ (64 + o) + v1.toNat * 2 ^ o + v2.toNat / 2 ^ (64 - o)) := by
  have hc : concatWords s.table (words s) 3 i 0 = some ((v0.toNat * 2 ^ 64 + v1.toNat) * 2 ^ 64 + v2.toNat) := by
    rw [concatWords_of_read 2 0 (by omega) hv0, concatWords_of_read 1 _ (by omega) hv1,
      concatWords_of_read 0 _ hi hv2, concatWords, Nat.zero_mul, Nat.zero_add]
  have hnw : ceilDiv (o + 128) 64 = 3 := by unfold ceilDiv; omega
  have h64 : 2 ^ 64 = 2 ^ (64 - o) * 2 ^ o := by rw [← Nat.pow_add, Nat.sub_add_cancel (by omega)]
  have h128 : 2 ^ 128 = 2 ^ 64 * 2 ^ 64 := by rw [← Nat.pow_add]
  rw [bitReadExact_of_concat hs (by omega) (by omega) hnw hc, show 64 * 3 - o - 128 = 64 - o by omega, h128, h64,
    three_words_div_mod (h64 ▸ v1.isLt) (h64 ▸ v2.isLt), Nat.pow_add 2 64 o, h64]

/-- Settles O20: one word, and three words, concatenated and cut. -/
theorem alignedAndSpanningFields : Obligations.AlignedAndSpanningFields := by
  intro s hs hx
  constructor
  · intro i v hi hv
    rw [bitRead_of_le (by omega), Nat.mul_comm]
    exact bitReadExact_aligned hs hi hv
  · intro i o v0 v1 v2 hi h1 h63 hv0 hv1 hv2
    rw [bitRead_of_le hx]
    exact bitReadExact_spanning hs hi h1 h63 hv0 hv1 hv2

/-! Strings (20_memory.md R60, 30_encoding.md R81). -/

theorem decode_hupd (h : BitVec 8) (l : BitVec 12) : decode (encode (.hupd h l)) = .ok (.hupd h l) := by
  simp [encode, Instr.opcode, decode, decodeInstWidth, need]

/-- A word that decodes, presented with an operand within the port, is run by `exec`. -/
theorem command_eq_exec {c : CmdWord} {i : Instr} {d : Nat} {s : State} (hc : decode c = .ok i) (hd : d < 2 ^ xw s) :
    command c d s = exec i (present c d s) := by
  rw [command_of_lt hd, runWord_of_decode (show decode (present c d s).cmd = .ok i from hc)]

/-- `HUPD` with its four checks passed (42_hash.md R120). -/
theorem exec_hupd {h : BitVec 8} {l : BitVec 12} {s : State} (hf : s.fault = false) (hh : h.toNat < s.params.nmax)
    (hl : l ≠ 0) (hx : 8 * l.toNat ≤ xw s) (hd : s.din < 2 ^ (8 * l.toNat)) :
    exec (.hupd h l) s =
      .next (noValue (setHash h.toNat (hashBytes s.w s.hdepth l.toNat s.din (hashAt s h.toNat)) s)) := by
  rw [exec, execHupd, unlessFaulted_ready hf, if_neg (Nat.not_le.2 hh), if_neg hl, if_neg (Nat.not_lt.2 hx),
    if_neg (Nat.not_le.2 hd)]

theorem hashAt_of_set {s : State} {l : List Hash} {i : Nat} {g : Hash} (hi : i < l.length) (hs : s.hashes = l.set i g) :
    hashAt s i = g := by
  rw [hashAt, hs, List.getD_eq_getElem?_getD, List.getElem?_set_self hi, Option.getD_some]

theorem set_hashAt {s : State} {i : Nat} (hi : i < s.hashes.length) : s.hashes.set i (hashAt s i) = s.hashes := by
  rw [hashAt, List.getD_eq_getElem _ _ hi, List.set_getElem_self]

/-- The operand with character `t` of the string in byte `t` (20_memory.md R60). -/
def packedString (string : List (BitVec 8)) : Nat := Nat.ofDigits 256 (string.map BitVec.toNat)

theorem packedString_cons (b : BitVec 8) (rest : List (BitVec 8)) :
    packedString (b :: rest) = b.toNat + 256 * packedString rest := Nat.ofDigits_cons

theorem packedString_lt (string : List (BitVec 8)) : packedString string < 2 ^ (8 * string.length) := by
  have h := Nat.ofDigits_lt_base_pow_length (b := 256) (l := string.map BitVec.toNat) (by decide) fun x hx => by
    obtain ⟨b, -, rfl⟩ := List.mem_map.1 hx
    exact b.isLt
  rwa [List.length_map, show (256 : Nat) = 2 ^ 8 from rfl, ← Nat.pow_mul] at h

theorem packedString_eq_sum (string : List (BitVec 8)) :
    packedString string = ((List.range string.length).map fun j => (string.getD j 0).toNat * 256 ^ j).sum := by
  induction string with
  | nil => rfl
  | cons b rest ih =>
    rw [packedString_cons, ih, List.length_cons, List.range_succ_eq_map, List.map_cons, List.sum_cons, List.map_map,
      ← List.sum_map_mul_left]
    congr 2
    · simp
    · simp [Function.comp_def, Nat.pow_succ', Nat.mul_left_comm]

/-- The bytes of the packed string are consumed in string order (42_hash.md R115). -/
theorem hashBytes_packedString (w hdepth : Nat) (string : List (BitVec 8)) :
    ∀ g : Hash, hashBytes w hdepth string.length (packedString string) g =
      string.foldl (fun g b => hashByte w hdepth b.toNat g) g := by
  induction string with
  | nil => exact fun _ => rfl
  | cons b rest ih =>
    intro g
    have hb := b.isLt
    have hrest : packedString (b :: rest) >>> 8 = packedString rest := by
      rw [packedString_cons, Nat.shiftRight_eq_div_pow]; omega
    have hlow : packedString (b :: rest) &&& 0xFF = b.toNat := by
      rw [show 0xFF = 2 ^ 8 - 1 from rfl, Nat.and_two_pow_sub_one_eq_mod, packedString_cons]; omega
    rw [List.length_cons, hashBytes, hrest, hlow, ih, List.foldl_cons]

/-- Instance `h` has consumed the string, and nothing else changed but `DOUT`. -/
def fedString (h : BitVec 8) (string : List (BitVec 8)) (s : State) : State :=
  noValue (setHash h.toNat (string.foldl (fun g b => hashByte s.w s.hdepth b.toNat g) (hashAt s h.toNat)) s)

theorem fedString_hashes (h : BitVec 8) (string : List (BitVec 8)) (s : State) :
    (fedString h string s).hashes =
      s.hashes.set h.toNat (string.foldl (fun g b => hashByte s.w s.hdepth b.toNat g) (hashAt s h.toNat)) := rfl

/-- One `HUPD` whose operand is the packed string (20_memory.md R60). -/
theorem exec_hupd_packedString {h : BitVec 8} {string : List (BitVec 8)} {s : State} (hf : s.fault = false)
    (hh : h.toNat < s.params.nmax) (hne : string ≠ []) (hx : 8 * string.length ≤ xw s) (hl : string.length < 4096)
    (hd : s.din = packedString string) :
    exec (.hupd h (BitVec.ofNat 12 string.length)) s = .next (fedString h string s) := by
  have hlen : (BitVec.ofNat 12 string.length).toNat = string.length := by
    rw [BitVec.toNat_ofNat, Nat.mod_eq_of_lt hl]
  have hl0 : BitVec.ofNat 12 string.length ≠ 0 := fun e => by
    rw [e] at hlen
    exact hne (List.length_eq_zero_iff.1 hlen.symm)
  rw [exec_hupd hf hh hl0 (hlen.symm ▸ hx) (hlen.symm ▸ hd.symm ▸ packedString_lt string), hlen, hd,
    hashBytes_packedString, fedString]

/-- A `HUPD` of one byte, presented on the port. -/
theorem command_hupd_byte {h b : BitVec 8} {s : State} (hf : s.fault = false) (hh : h.toNat < s.params.nmax)
    (hx : 8 ≤ xw s) :
    command (encode (.hupd h 1)) b.toNat s = .next (fedString h [b] (present (encode (.hupd h 1)) b.toNat s)) := by
  have hd : b.toNat < 2 ^ xw s := Nat.lt_of_lt_of_le b.isLt (Nat.pow_le_pow_right (by decide) hx)
  have hb : b.toNat = packedString [b] := Nat.ofDigits_singleton.symm
  have he := exec_hupd_packedString (h := h) (string := [b]) (s := present (encode (.hupd h 1)) b.toNat s) hf hh
    (List.cons_ne_nil b []) hx (show 1 < 4096 by decide) hb
  exact (command_eq_exec (decode_hupd h 1) hd).trans he

/-- A string fed byte by byte: no fault, and the hash has consumed the bytes in string order (30_encoding.md R81). -/
theorem runProgram_hupds (h : BitVec 8) (string : List (BitVec 8)) :
    ∀ s : State, s.fault = false → h.toNat < s.params.nmax → h.toNat < s.hashes.length → 8 ≤ xw s →
      ∃ obs t, runProgram (Pseudo.hupds h string) s = some (obs, t) ∧ t.fault = false ∧
        t.hashes = (fedString h string s).hashes := by
  induction string with
  | nil => exact fun s hf _ hi _ => ⟨[], s, rfl, hf, (set_hashAt hi).symm⟩
  | cons b rest ih =>
    intro s hf hh hi hx
    have hc := command_hupd_byte (b := b) hf hh hx
    generalize hu : fedString h [b] (present (encode (.hupd h 1)) b.toNat s) = u at hc
    obtain ⟨hw, hhd⟩ : u.w = s.w ∧ u.hdepth = s.hdepth := hu ▸ ⟨rfl, rfl⟩
    have hset : u.hashes = s.hashes.set h.toNat (hashByte s.w s.hdepth b.toNat (hashAt s h.toNat)) := hu ▸ rfl
    obtain ⟨obs, t, hrun, htf, hth⟩ := ih u (hu ▸ hf) (hu ▸ hh) (by rwa [hset, List.length_set]) (hu ▸ hx)
    refine ⟨observed u :: obs, t, ?_, htf, ?_⟩
    · rw [Pseudo.hupds] at hrun ⊢
      rw [List.map_cons, runProgram, hc]
      simp only [hrun]
    · rw [hth, fedString_hashes, hashAt_of_set hi hset, hset, List.set_set, hw, hhd, fedString_hashes, List.foldl_cons]

/-- Settles O31: either way the hash has consumed the bytes in string order. -/
theorem hupdOfAStringByteByByte : Obligations.HupdOfAStringByteByByte := by
  intro h string s hf hh hi hne hx hl
  have hpos : 0 < string.length := List.length_pos_iff.2 hne
  obtain ⟨obs, t, hrun, htf, hth⟩ := runProgram_hupds h string s hf hh hi (by omega)
  rw [← packedString_eq_sum]
  exact ⟨obs, t, _, hrun, exec_hupd_packedString hf hh hne hx hl rfl, htf, hf, hth⟩

end Sys2Proof.Machine

/-! PROOFS of the family 30_encoding.md: the decoder, the encoder and the opcode map agree; illegal words, the end of every
command, and TFILL. -/

namespace Sys2Proof

/-- The opcode byte of a command's word (30_encoding.md R76). -/
theorem opcOf_encode (i : Instr) : opcOf (encode i) = i.opcode := by
  cases i with
  | nop | reset | rdstat | rdres | tsize | tload | tread => exact opcOf_wordT _ _
  | wrcfg | rdcfg | hwr | hrd | gwr | grd => exact opcOf_wordR _ _ _ _
  | _ => exact opcOf_wordN _ _ _ _

/-! Each shape of word, read back by the decoder for its format (30_encoding.md R71 to R76). -/

section

variable (opc inst : BitVec 8) (steps : BitVec 4) (width : BitVec 12)

theorem decodeZ_wordT (i : Instr) : decodeZ (wordT opc 0) i = .ok i :=
  decodeZ_eq_ok.2 ⟨by rw [opcOf_wordT], rfl⟩

theorem decodeWidth_wordN (j : BitVec 12 → Instr) : decodeWidth (wordN opc 0 0 width) j = .ok (j width) :=
  decodeWidth_eq_ok.2 ⟨width, by rw [opcOf_wordN], rfl⟩

theorem decodeInst_wordN (j : BitVec 8 → Instr) : decodeInst (wordN opc inst 0 0) j = .ok (j inst) :=
  decodeInst_eq_ok.2 ⟨inst, by rw [opcOf_wordN], rfl⟩

theorem decodeInstWidth_wordN (j : BitVec 8 → BitVec 12 → Instr) :
    decodeInstWidth (wordN opc inst 0 width) j = .ok (j inst width) :=
  decodeInstWidth_eq_ok.2 ⟨inst, width, by rw [opcOf_wordN], rfl⟩

theorem decodeNext_wordN (j : BitVec 8 → BitVec 4 → BitVec 12 → Instr) (h : steps ≠ 0) :
    decodeNext (wordN opc inst steps width) j = .ok (j inst steps width) :=
  decodeNext_eq_ok.2 ⟨inst, steps, width, h, by rw [opcOf_wordN], rfl⟩

theorem decodeByte_wordN (j : BitVec 4 → Instr) (h : steps ≠ 0) : decodeByte (wordN opc 0 steps 8) j = .ok (j steps) :=
  decodeByte_eq_ok.2 ⟨steps, h, by rw [opcOf_wordN], rfl⟩

theorem decodeCfg_wordR (r : CfgReg) (j : CfgReg → Decoded) : decodeCfg (wordR opc 0 r.number 0) j = j r := by
  simp [decodeCfg, need]

theorem decodeHashField_wordR (f : HashField) (j : BitVec 8 → HashField → Instr) :
    (hashFieldOf (regOf (wordR opc inst f.number f.elem)) (elemOf (wordR opc inst f.number f.elem))).map
      (j (instOf (wordR opc inst f.number f.elem))) = .ok (j inst f) := by
  rw [regOf_wordR, elemOf_wordR, instOf_wordR, hashFieldOf_number, Except.map]

theorem decodeGenField_wordR (f : GenField) (j : BitVec 8 → GenField → Instr) :
    (genFieldOf (regOf (wordR opc inst f.number f.elem)) (elemOf (wordR opc inst f.number f.elem))).map
      (j (instOf (wordR opc inst f.number f.elem))) = .ok (j inst f) := by
  rw [regOf_wordR, elemOf_wordR, instOf_wordR, genFieldOf_number, Except.map]

end

/-- Settles O54: the opcode byte selects the arm of the decoder, and the arm reads its fields back. -/
theorem decodeOfEncode : Obligations.DecodeOfEncode := by
  intro i hw
  rw [decode, opcOf_encode]
  cases i with
  | nop | reset | rdstat | rdres | tsize => exact decodeZ_wordT _ _
  | wrcfg r => exact (decodeCfg_wordR _ r _).trans (if_pos hw)
  | rdcfg r => exact decodeCfg_wordR _ r _
  | tload x => exact congrArg (Except.ok <| Instr.tload ·) (widxOf_wordT _ x)
  | tread x => exact congrArg (Except.ok <| Instr.tread ·) (widxOf_wordT _ x)
  | bitstr b | fold b | whnext b | randint b => exact decodeWidth_wordN _ b _
  | folda a b => simp [encode, Instr.opcode, need]
  | hwr h f | hrd h f => exact decodeHashField_wordR _ h f _
  | gwr g f | grd g f => exact decodeGenField_wordR _ g f _
  | hupd h b | nrv h b => exact decodeInstWidth_wordN _ h b _
  | hdig a | hstep a | gstep a | gspin a => exact decodeInst_wordN _ a _
  | hnext a t b | gnext a t b => exact decodeNext_wordN _ a t b _ (bne_iff_ne.1 hw)
  | cnext t b => simpa [encode, Instr.opcode, need] using bne_iff_ne.1 hw
  | enc t | dec t => exact decodeByte_wordN _ t _ (bne_iff_ne.1 hw)

/-! Each arm of the decoder answers only the command whose word it was given (30_encoding.md R77). -/

/-- `c` is the word of `i`, a command whose further conditions hold. -/
def IsWordOf (c : CmdWord) (i : Instr) : Prop := encode i = c ∧ i.wellFormed = true

/-- With bits 23:18 zero, `INST` is the algorithm field of `FOLDA`. -/
theorem instOf_of_alg {c : CmdWord} (h : c.extractLsb' 18 6 = 0) : instOf c = (c.extractLsb' 16 2).setWidth 8 := by
  have hzero : c.toNat / 2 ^ 18 % 2 ^ 6 = 0 := by rw [← extract_toNat, h]; rfl
  apply BitVec.eq_of_toNat_eq
  rw [instOf, BitVec.toNat_setWidth, extract_toNat, extract_toNat]
  omega

section

variable {c : CmdWord} {i : Instr} (opc : BitVec 8) (ho : (opcOf c).toNat = opc.toNat)
include ho

theorem isWordOf_of_decodeZ {j : Instr} (h : decodeZ c j = .ok i) (hj : IsWordOf (wordT opc 0) j) : IsWordOf c i := by
  obtain ⟨hc, rfl⟩ := decodeZ_eq_ok.1 h
  rwa [hc, BitVec.eq_of_toNat_eq ho]

theorem isWordOf_of_widx {j : BitVec 24 → Instr} (h : (.ok (j (widxOf c)) : Decoded) = .ok i)
    (hj : ∀ x, IsWordOf (wordT opc x) (j x)) : IsWordOf c i := by
  cases h
  have hw := hj (widxOf c)
  rwa [← BitVec.eq_of_toNat_eq ho, ← eq_wordT c] at hw

theorem isWordOf_of_decodeWidth {j : BitVec 12 → Instr} (h : decodeWidth c j = .ok i)
    (hj : ∀ b, IsWordOf (wordN opc 0 0 b) (j b)) : IsWordOf c i := by
  obtain ⟨b, hc, rfl⟩ := decodeWidth_eq_ok.1 h
  rw [hc, BitVec.eq_of_toNat_eq ho]
  exact hj b

theorem isWordOf_of_folda {j : BitVec 2 → BitVec 12 → Instr}
    (h : need (c.extractLsb' 18 6 == 0) .noSuchFoldAlgorithm
      (need (stepsOf c == 0) .mustBeZero (.ok (j (c.extractLsb' 16 2) (widthOf c)))) = .ok i)
    (hj : ∀ a b, IsWordOf (wordN opc (a.setWidth 8) 0 b) (j a b)) : IsWordOf c i := by
  obtain ⟨halg, h⟩ := need_eq_ok.1 h
  obtain ⟨hsteps, h⟩ := need_eq_ok.1 h
  cases h
  have hw := hj (c.extractLsb' 16 2) (widthOf c)
  rwa [← instOf_of_alg (beq_iff_eq.1 halg), ← beq_iff_eq.1 hsteps, ← BitVec.eq_of_toNat_eq ho, ← eq_wordN c] at hw

theorem isWordOf_of_decodeInst {j : BitVec 8 → Instr} (h : decodeInst c j = .ok i)
    (hj : ∀ a, IsWordOf (wordN opc a 0 0) (j a)) : IsWordOf c i := by
  obtain ⟨a, hc, rfl⟩ := decodeInst_eq_ok.1 h
  rw [hc, BitVec.eq_of_toNat_eq ho]
  exact hj a

theorem isWordOf_of_decodeInstWidth {j : BitVec 8 → BitVec 12 → Instr} (h : decodeInstWidth c j = .ok i)
    (hj : ∀ a b, IsWordOf (wordN opc a 0 b) (j a b)) : IsWordOf c i := by
  obtain ⟨a, b, hc, rfl⟩ := decodeInstWidth_eq_ok.1 h
  rw [hc, BitVec.eq_of_toNat_eq ho]
  exact hj a b

theorem isWordOf_of_decodeNext {j : BitVec 8 → BitVec 4 → BitVec 12 → Instr} (h : decodeNext c j = .ok i)
    (hj : ∀ a t b, t ≠ 0 → IsWordOf (wordN opc a t b) (j a t b)) : IsWordOf c i := by
  obtain ⟨a, t, b, ht, hc, rfl⟩ := decodeNext_eq_ok.1 h
  rw [hc, BitVec.eq_of_toNat_eq ho]
  exact hj a t b ht

theorem isWordOf_of_cnext {j : BitVec 4 → BitVec 12 → Instr}
    (h : need (instOf c == 0) .mustBeZero
      (need (stepsOf c != 0) .stepsZero (.ok (j (stepsOf c) (widthOf c)))) = .ok i)
    (hj : ∀ t b, t ≠ 0 → IsWordOf (wordN opc 0 t b) (j t b)) : IsWordOf c i := by
  obtain ⟨hinst, h⟩ := need_eq_ok.1 h
  obtain ⟨hsteps, h⟩ := need_eq_ok.1 h
  cases h
  have hw := hj (stepsOf c) (widthOf c) (bne_iff_ne.1 hsteps)
  rwa [← beq_iff_eq.1 hinst, ← BitVec.eq_of_toNat_eq ho, ← eq_wordN c] at hw

theorem isWordOf_of_decodeByte {j : BitVec 4 → Instr} (h : decodeByte c j = .ok i)
    (hj : ∀ t, t ≠ 0 → IsWordOf (wordN opc 0 t 8) (j t)) : IsWordOf c i := by
  obtain ⟨t, ht, hc, rfl⟩ := decodeByte_eq_ok.1 h
  rw [hc, BitVec.eq_of_toNat_eq ho]
  exact hj t ht

theorem isWordOf_of_decodeCfg {j : CfgReg → Decoded} (h : decodeCfg c j = .ok i)
    (hj : ∀ r, j r = .ok i → IsWordOf (wordR opc 0 r.number 0) i) : IsWordOf c i := by
  obtain ⟨r, hc, hi⟩ := decodeCfg_eq_ok.1 h
  rw [hc, BitVec.eq_of_toNat_eq ho]
  exact hj r hi

theorem isWordOf_of_hashField {j : BitVec 8 → HashField → Instr}
    (h : (hashFieldOf (regOf c) (elemOf c)).map (j (instOf c)) = .ok i)
    (hj : ∀ a f, IsWordOf (wordR opc a f.number f.elem) (j a f)) : IsWordOf c i := by
  obtain ⟨f, hc, rfl⟩ := decodeHashField_eq_ok.1 h
  have hw := hj (instOf c) f
  rwa [← BitVec.eq_of_toNat_eq ho, ← hc] at hw

theorem isWordOf_of_genField {j : BitVec 8 → GenField → Instr}
    (h : (genFieldOf (regOf c) (elemOf c)).map (j (instOf c)) = .ok i)
    (hj : ∀ a f, IsWordOf (wordR opc a f.number f.elem) (j a f)) : IsWordOf c i := by
  obtain ⟨f, hc, rfl⟩ := decodeGenField_eq_ok.1 h
  have hw := hj (instOf c) f
  rwa [← BitVec.eq_of_toNat_eq ho, ← hc] at hw

end

/-- Settles O55, arm by arm of the decoder. -/
theorem encodeOfDecode : Obligations.EncodeOfDecode := by
  intro c i h
  show IsWordOf c i
  rw [decode] at h
  split at h
  all_goals rename_i ho
  · exact isWordOf_of_decodeZ 0x00 ho h ⟨rfl, rfl⟩
  · exact isWordOf_of_decodeZ 0x01 ho h ⟨rfl, rfl⟩
  · exact isWordOf_of_decodeZ 0x02 ho h ⟨rfl, rfl⟩
  · exact isWordOf_of_decodeZ 0x03 ho h ⟨rfl, rfl⟩
  · refine isWordOf_of_decodeCfg 0x04 ho h fun r hr => ?_
    obtain ⟨hw, hi⟩ := need_eq_ok.1 hr
    cases hi
    exact ⟨rfl, hw⟩
  · refine isWordOf_of_decodeCfg 0x05 ho h fun r hr => ?_
    cases hr
    exact ⟨rfl, rfl⟩
  · exact isWordOf_of_decodeZ 0x10 ho h ⟨rfl, rfl⟩
  · exact isWordOf_of_widx 0x11 ho h fun _ => ⟨rfl, rfl⟩
  · exact isWordOf_of_widx 0x12 ho h fun _ => ⟨rfl, rfl⟩
  · exact isWordOf_of_decodeWidth 0x13 ho h fun _ => ⟨rfl, rfl⟩
  · exact isWordOf_of_decodeWidth 0x18 ho h fun _ => ⟨rfl, rfl⟩
  · exact isWordOf_of_folda 0x19 ho h fun _ _ => ⟨rfl, rfl⟩
  · exact isWordOf_of_hashField 0x20 ho h fun _ _ => ⟨rfl, rfl⟩
  · exact isWordOf_of_hashField 0x21 ho h fun _ _ => ⟨rfl, rfl⟩
  · exact isWordOf_of_decodeInstWidth 0x22 ho h fun _ _ => ⟨rfl, rfl⟩
  · exact isWordOf_of_decodeInst 0x23 ho h fun _ => ⟨rfl, rfl⟩
  · exact isWordOf_of_decodeInst 0x24 ho h fun _ => ⟨rfl, rfl⟩
  · exact isWordOf_of_decodeNext 0x25 ho h fun _ _ _ ht => ⟨rfl, bne_iff_ne.2 ht⟩
  · exact isWordOf_of_genField 0x30 ho h fun _ _ => ⟨rfl, rfl⟩
  · exact isWordOf_of_genField 0x31 ho h fun _ _ => ⟨rfl, rfl⟩
  · exact isWordOf_of_decodeInst 0x32 ho h fun _ => ⟨rfl, rfl⟩
  · exact isWordOf_of_decodeInst 0x33 ho h fun _ => ⟨rfl, rfl⟩
  · exact isWordOf_of_decodeNext 0x34 ho h fun _ _ _ ht => ⟨rfl, bne_iff_ne.2 ht⟩
  · exact isWordOf_of_cnext 0x40 ho h fun _ _ ht => ⟨rfl, bne_iff_ne.2 ht⟩
  · exact isWordOf_of_decodeByte 0x41 ho h fun _ ht => ⟨rfl, bne_iff_ne.2 ht⟩
  · exact isWordOf_of_decodeByte 0x42 ho h fun _ ht => ⟨rfl, bne_iff_ne.2 ht⟩
  · exact isWordOf_of_decodeWidth 0x50 ho h fun _ => ⟨rfl, rfl⟩
  · exact isWordOf_of_decodeWidth 0x51 ho h fun _ => ⟨rfl, rfl⟩
  · exact isWordOf_of_decodeInstWidth 0x52 ho h fun _ _ => ⟨rfl, rfl⟩
  · cases h

/-! Rows of the opcode map and opcode bytes (30_encoding.md R76). -/

/-- The opcode byte of a row of R76. -/
def OpcodeRow.opcode (r : OpcodeRow) : BitVec 8 := opcOf r.fixed

theorem OpcodeRow.accepts_iff {r : OpcodeRow} {c : CmdWord} :
    r.accepts c = true ↔ c &&& r.mask = r.fixed ∧ r.further.holds c = true := by
  rw [accepts, Bool.and_eq_true, beq_iff_eq]

/-- The mask of every row keeps the whole opcode byte. -/
theorem opcOf_mask : ∀ r ∈ opcodeTable, opcOf r.mask = BitVec.allOnes 8 := by decide

/-- Each opcode byte has one row. -/
theorem opcodes_nodup : (opcodeTable.map OpcodeRow.opcode).Nodup := by decide

theorem opcOf_and (c m : CmdWord) : opcOf (c &&& m) = opcOf c &&& opcOf m := BitVec.extractLsb'_and

theorem opcOf_of_accepts {r : OpcodeRow} {c : CmdWord} (hr : r ∈ opcodeTable) (h : r.accepts c = true) :
    opcOf c = r.opcode := by
  obtain ⟨hc, -⟩ := OpcodeRow.accepts_iff.1 h
  rw [OpcodeRow.opcode, ← hc, opcOf_and, opcOf_mask r hr, BitVec.and_allOnes]

/-! Masks and fixed bits, field by field. -/

theorem wordN_and (a a' b b' : BitVec 8) (s s' : BitVec 4) (w w' : BitVec 12) :
    wordN a b s w &&& wordN a' b' s' w' = wordN (a &&& a') (b &&& b') (s &&& s') (w &&& w') := by
  have h1 : (a ++ b) &&& (a' ++ b') = (a &&& a') ++ (b &&& b') := BitVec.and_append
  have h2 : (a ++ b ++ s) &&& (a' ++ b' ++ s') = ((a ++ b) &&& (a' ++ b')) ++ (s &&& s') := BitVec.and_append
  rw [wordN, wordN, wordN, ← h1, ← h2]
  exact BitVec.and_append

theorem wordR_and (a a' b b' d d' e e' : BitVec 8) :
    wordR a b d e &&& wordR a' b' d' e' = wordR (a &&& a') (b &&& b') (d &&& d') (e &&& e') := by
  have h1 : (a ++ b) &&& (a' ++ b') = (a &&& a') ++ (b &&& b') := BitVec.and_append
  have h2 : (a ++ b ++ d) &&& (a' ++ b' ++ d') = ((a ++ b) &&& (a' ++ b')) ++ (d &&& d') := BitVec.and_append
  rw [wordR, wordR, wordR, ← h1, ← h2]
  exact BitVec.and_append

theorem wordT_and (a a' : BitVec 8) (x x' : BitVec 24) : wordT a x &&& wordT a' x' = wordT (a &&& a') (x &&& x') :=
  BitVec.and_append

theorem wordN_inj {opc a a' : BitVec 8} {s s' : BitVec 4} {w w' : BitVec 12} :
    wordN opc a s w = wordN opc a' s' w' ↔ a = a' ∧ s = s' ∧ w = w' := by
  constructor
  · intro h
    exact ⟨by simpa using congrArg instOf h, by simpa using congrArg stepsOf h, by simpa using congrArg widthOf h⟩
  · rintro ⟨rfl, rfl, rfl⟩
    rfl

theorem wordR_inj {opc a a' d d' e e' : BitVec 8} :
    wordR opc a d e = wordR opc a' d' e' ↔ a = a' ∧ d = d' ∧ e = e' := by
  constructor
  · intro h
    exact ⟨by simpa using congrArg instOf h, by simpa using congrArg regOf h, by simpa using congrArg elemOf h⟩
  · rintro ⟨rfl, rfl, rfl⟩
    rfl

theorem wordT_inj {opc : BitVec 8} {x x' : BitVec 24} : wordT opc x = wordT opc x' ↔ x = x' := by
  constructor
  · intro h
    simpa using congrArg widxOf h
  · rintro rfl
    rfl

/-! The further conditions: number by number, the reserved numbers being those outside the ranges. -/

theorem Further.writableReg_iff {c : CmdWord} :
    Further.writableReg.holds c = true ↔ ∃ r, CfgReg.ofNumber (regOf c) = some r ∧ r.writable = true := by
  rw [Further.holds, CfgReg.ofNumber]
  split <;> simp_all [CfgReg.writable]
  omega

theorem Further.anyReg_iff {c : CmdWord} :
    Further.anyReg.holds c = true ↔ ∃ r, CfgReg.ofNumber (regOf c) = some r := by
  rw [Further.holds, CfgReg.ofNumber]
  split <;> simp_all
  omega

theorem Further.hashField_iff {c : CmdWord} :
    Further.hashField.holds c = true ↔ ∃ f, hashFieldOf (regOf c) (elemOf c) = .ok f := by
  rw [Further.holds, hashFieldOf]
  split <;> simp_all [scalarField_eq_ok]
  omega

theorem Further.genField_iff {c : CmdWord} :
    Further.genField.holds c = true ↔ ∃ f, genFieldOf (regOf c) (elemOf c) = .ok f := by
  rw [Further.holds, genFieldOf]
  split <;> simp_all [scalarField_eq_ok]
  omega

/-- The mask of `FOLDA` in `INST` tests bits 23:18. -/
theorem instOf_and_mask_iff {c : CmdWord} : instOf c &&& 0xFC = 0 ↔ c.extractLsb' 18 6 = 0 := by
  have hmask : ∀ b : BitVec 8, b &&& 0xFC = 0 ↔ b.extractLsb' 2 6 = 0 := by decide
  have hbits : (instOf c).extractLsb' 2 6 = c.extractLsb' 18 6 := by
    apply BitVec.eq_of_toNat_eq
    rw [extract_toNat, instOf, extract_toNat, extract_toNat]
    omega
  rw [hmask, hbits]

section

variable {c : CmdWord} {opc : BitVec 8} {m : String} (ho : opcOf c = opc)
include ho

/-- A row of format N (R72). -/
theorem accepts_wordN_iff {a a' : BitVec 8} {s s' : BitVec 4} {w w' : BitVec 12} {f : Further} :
    (⟨m, wordN opc a s w, wordN (.allOnes 8) a' s' w', f⟩ : OpcodeRow).accepts c = true ↔
      (instOf c &&& a' = a ∧ stepsOf c &&& s' = s ∧ widthOf c &&& w' = w) ∧ f.holds c = true := by
  have hc : c &&& wordN (.allOnes 8) a' s' w' = wordN opc (instOf c &&& a') (stepsOf c &&& s') (widthOf c &&& w') := by
    conv_lhs => rw [eq_wordN c, wordN_and, BitVec.and_allOnes, ho]
  rw [OpcodeRow.accepts_iff, hc, wordN_inj]

/-- A row of format R (R73). -/
theorem accepts_wordR_iff {a a' d d' e e' : BitVec 8} {f : Further} :
    (⟨m, wordR opc a d e, wordR (.allOnes 8) a' d' e', f⟩ : OpcodeRow).accepts c = true ↔
      (instOf c &&& a' = a ∧ regOf c &&& d' = d ∧ elemOf c &&& e' = e) ∧ f.holds c = true := by
  have hc : c &&& wordR (.allOnes 8) a' d' e' = wordR opc (instOf c &&& a') (regOf c &&& d') (elemOf c &&& e') := by
    conv_lhs => rw [eq_wordR c, wordR_and, BitVec.and_allOnes, ho]
  rw [OpcodeRow.accepts_iff, hc, wordR_inj]

/-- A row of formats T and Z (R74, R71). -/
theorem accepts_wordT_iff {x x' : BitVec 24} {f : Further} :
    (⟨m, wordT opc x, wordT (.allOnes 8) x', f⟩ : OpcodeRow).accepts c = true ↔
      widxOf c &&& x' = x ∧ f.holds c = true := by
  have hc : c &&& wordT (.allOnes 8) x' = wordT opc (widxOf c &&& x') := by
    conv_lhs => rw [eq_wordT c, wordT_and, BitVec.and_allOnes, ho]
  rw [OpcodeRow.accepts_iff, hc, wordT_inj]

/-! Each shape of row against the arm of the decoder for its opcodes. -/

theorem accepts_zero_iff {j : Instr} :
    (⟨m, wordT opc 0, wordT (.allOnes 8) (.allOnes 24), .none⟩ : OpcodeRow).accepts c = true ↔
      ∃ i, decodeZ c j = .ok i := by
  rw [accepts_wordT_iff ho, BitVec.and_allOnes]
  simp [Further.holds, decodeZ, need_eq_ok]

theorem accepts_any_iff {i : Instr} :
    (⟨m, wordT opc 0, wordT (.allOnes 8) 0, .none⟩ : OpcodeRow).accepts c = true ↔
      ∃ j, (.ok i : Decoded) = .ok j := by
  rw [accepts_wordT_iff ho]
  simp [Further.holds]

theorem accepts_width_iff {j : BitVec 12 → Instr} :
    (⟨m, wordN opc 0 0 0, wordN (.allOnes 8) (.allOnes 8) (.allOnes 4) 0, .none⟩ : OpcodeRow).accepts c = true ↔
      ∃ i, decodeWidth c j = .ok i := by
  rw [accepts_wordN_iff ho, BitVec.and_allOnes, BitVec.and_allOnes]
  simp [Further.holds, decodeWidth, need_eq_ok]

theorem accepts_folda_iff {j : BitVec 2 → BitVec 12 → Instr} :
    (⟨m, wordN opc 0 0 0, wordN (.allOnes 8) 0xFC (.allOnes 4) 0, .none⟩ : OpcodeRow).accepts c = true ↔
      ∃ i, need (c.extractLsb' 18 6 == 0) .noSuchFoldAlgorithm
        (need (stepsOf c == 0) .mustBeZero (.ok (j (c.extractLsb' 16 2) (widthOf c)))) = .ok i := by
  rw [accepts_wordN_iff ho, BitVec.and_allOnes, instOf_and_mask_iff]
  simp [Further.holds, need_eq_ok]

theorem accepts_inst_iff {j : BitVec 8 → Instr} :
    (⟨m, wordN opc 0 0 0, wordN (.allOnes 8) 0 (.allOnes 4) (.allOnes 12), .none⟩ : OpcodeRow).accepts c = true ↔
      ∃ i, decodeInst c j = .ok i := by
  rw [accepts_wordN_iff ho, BitVec.and_allOnes, BitVec.and_allOnes]
  simp [Further.holds, decodeInst, need_eq_ok]

theorem accepts_instWidth_iff {j : BitVec 8 → BitVec 12 → Instr} :
    (⟨m, wordN opc 0 0 0, wordN (.allOnes 8) 0 (.allOnes 4) 0, .none⟩ : OpcodeRow).accepts c = true ↔
      ∃ i, decodeInstWidth c j = .ok i := by
  rw [accepts_wordN_iff ho, BitVec.and_allOnes]
  simp [Further.holds, decodeInstWidth, need_eq_ok]

theorem accepts_next_iff {j : BitVec 8 → BitVec 4 → BitVec 12 → Instr} :
    (⟨m, wordN opc 0 0 0, wordN (.allOnes 8) 0 0 0, .stepsNonzero⟩ : OpcodeRow).accepts c = true ↔
      ∃ i, decodeNext c j = .ok i := by
  rw [accepts_wordN_iff ho]
  simp [Further.holds, decodeNext, need_eq_ok]

theorem accepts_cnext_iff {j : BitVec 4 → BitVec 12 → Instr} :
    (⟨m, wordN opc 0 0 0, wordN (.allOnes 8) (.allOnes 8) 0 0, .stepsNonzero⟩ : OpcodeRow).accepts c = true ↔
      ∃ i, need (instOf c == 0) .mustBeZero
        (need (stepsOf c != 0) .stepsZero (.ok (j (stepsOf c) (widthOf c)))) = .ok i := by
  rw [accepts_wordN_iff ho, BitVec.and_allOnes]
  simp [Further.holds, need_eq_ok]

theorem accepts_byte_iff {j : BitVec 4 → Instr} :
    (⟨m, wordN opc 0 0 8, wordN (.allOnes 8) (.allOnes 8) 0 (.allOnes 12), .stepsNonzero⟩ : OpcodeRow).accepts c = true ↔
      ∃ i, decodeByte c j = .ok i := by
  rw [accepts_wordN_iff ho, BitVec.and_allOnes, BitVec.and_allOnes]
  simp [Further.holds, decodeByte, need_eq_ok, and_assoc]

theorem accepts_writableReg_iff {j : CfgReg → Instr} :
    (⟨m, wordR opc 0 0 0, wordR (.allOnes 8) (.allOnes 8) 0 (.allOnes 8), .writableReg⟩ : OpcodeRow).accepts c = true ↔
      ∃ i, decodeCfg c (fun r => need r.writable .readOnlyRegister (.ok (j r))) = .ok i := by
  rw [accepts_wordR_iff ho, BitVec.and_allOnes, BitVec.and_allOnes, Further.writableReg_iff]
  cases hr : CfgReg.ofNumber (regOf c) <;> simp [decodeCfg, need_eq_ok, hr]

theorem accepts_anyReg_iff {j : CfgReg → Instr} :
    (⟨m, wordR opc 0 0 0, wordR (.allOnes 8) (.allOnes 8) 0 (.allOnes 8), .anyReg⟩ : OpcodeRow).accepts c = true ↔
      ∃ i, decodeCfg c (fun r => .ok (j r)) = .ok i := by
  rw [accepts_wordR_iff ho, BitVec.and_allOnes, BitVec.and_allOnes, Further.anyReg_iff]
  cases hr : CfgReg.ofNumber (regOf c) <;> simp [decodeCfg, need_eq_ok, hr]

theorem accepts_hashField_iff {j : HashField → Instr} :
    (⟨m, wordR opc 0 0 0, wordR (.allOnes 8) 0 0 0, .hashField⟩ : OpcodeRow).accepts c = true ↔
      ∃ i, (hashFieldOf (regOf c) (elemOf c)).map j = .ok i := by
  rw [accepts_wordR_iff ho, Further.hashField_iff]
  cases hf : hashFieldOf (regOf c) (elemOf c) <;> simp [Except.map]

theorem accepts_genField_iff {j : GenField → Instr} :
    (⟨m, wordR opc 0 0 0, wordR (.allOnes 8) 0 0 0, .genField⟩ : OpcodeRow).accepts c = true ↔
      ∃ i, (genFieldOf (regOf c) (elemOf c)).map j = .ok i := by
  rw [accepts_wordR_iff ho, Further.genField_iff]
  cases hf : genFieldOf (regOf c) (elemOf c) <;> simp [Except.map]

end

/-- A word with the opcode byte of a row decodes exactly when the row accepts it: the shapes of the rows, in the order of
R76, by the units of the block. -/
theorem accepts_iff_decodes {r : OpcodeRow} {c : CmdWord} (hr : r ∈ opcodeTable) (ho : opcOf c = r.opcode) :
    r.accepts c = true ↔ ∃ i, decode c = .ok i := by
  rw [decode, ho]
  simp only [opcodeTable, List.cons_append, List.nil_append, List.mem_cons, List.not_mem_nil, or_false] at hr
  rcases hr with rfl | rfl | rfl | rfl | rfl | rfl | rfl | rfl | rfl | rfl | rfl | rfl | rfl | rfl | rfl | rfl | rfl |
    rfl | rfl | rfl | rfl | rfl | rfl | rfl | rfl | rfl | rfl | rfl | rfl
  exacts [accepts_zero_iff ho, accepts_zero_iff ho, accepts_zero_iff ho, accepts_zero_iff ho,
    accepts_writableReg_iff ho, accepts_anyReg_iff ho,
    accepts_zero_iff ho, accepts_any_iff ho, accepts_any_iff ho, accepts_width_iff ho,
    accepts_width_iff ho, accepts_folda_iff ho,
    accepts_hashField_iff ho, accepts_hashField_iff ho, accepts_instWidth_iff ho, accepts_inst_iff ho,
    accepts_inst_iff ho, accepts_next_iff ho,
    accepts_genField_iff ho, accepts_genField_iff ho, accepts_inst_iff ho, accepts_inst_iff ho, accepts_next_iff ho,
    accepts_cnext_iff ho, accepts_byte_iff ho, accepts_byte_iff ho,
    accepts_width_iff ho, accepts_width_iff ho, accepts_instWidth_iff ho]

theorem opcode_mem_opcodes (i : Instr) : i.opcode ∈ opcodeTable.map OpcodeRow.opcode := by
  cases i <;> rw [Instr.opcode] <;> decide

theorem legalWord_iff {c : CmdWord} : legalWord c = true ↔ ∃ r ∈ opcodeTable, r.accepts c = true := List.any_eq_true

/-- The words that decode are those the opcode map accepts (30_encoding.md R77). -/
theorem legalWord_iff_decodes {c : CmdWord} : legalWord c = true ↔ ∃ i, decode c = .ok i := by
  rw [legalWord_iff]
  constructor
  · rintro ⟨r, hr, ha⟩
    exact (accepts_iff_decodes hr (opcOf_of_accepts hr ha)).1 ha
  · rintro ⟨i, hi⟩
    obtain ⟨hc, -⟩ := encodeOfDecode c i hi
    obtain ⟨r, hr, ho⟩ := List.mem_map.1 (opcode_mem_opcodes i)
    have hopc : opcOf c = r.opcode := by rw [← hc, opcOf_encode, ho]
    exact ⟨r, hr, (accepts_iff_decodes hr hopc).2 ⟨i, hi⟩⟩

/-- Settles O56: a row and the decoder agree on the words of its opcode byte, and no two rows share an opcode byte. -/
theorem opcodeMapIsTheDecoder : Obligations.OpcodeMapIsTheDecoder := by
  refine ⟨fun _ => legalWord_iff_decodes, fun c r r' hr hr' ha ha' => ?_⟩
  have hopc : r.opcode = r'.opcode := (opcOf_of_accepts hr ha).symm.trans (opcOf_of_accepts hr' ha')
  exact List.inj_on_of_nodup_map opcodes_nodup hr hr' hopc

/-- Settles O58: each sample is the word the encoder writes for its command. -/
theorem sampleWordsDecode : Obligations.SampleWordsDecode :=
  ⟨decodeOfEncode (.wrcfg .n) rfl, decodeOfEncode (.tload 3) rfl, decodeOfEncode (.bitstr 8) rfl,
    decodeOfEncode (.folda 2 8) rfl, decodeOfEncode (.hwr 0 (.vec 3)) rfl, decodeOfEncode (.hnext 0 2 8) rfl,
    decodeOfEncode (.gwr 0 .mult) rfl, decodeOfEncode (.gnext 0 1 8) rfl, decodeOfEncode (.enc 1) rfl,
    decodeOfEncode (.nrv 0 16) rfl⟩

end Sys2Proof

namespace Sys2Proof.Machine

/-- Settles O57: each format as a number, with the opcode byte and the fields of the command put in. -/
theorem encodedWordIsTheRulesWord : Obligations.EncodedWordIsTheRulesWord := by
  intro i
  cases i with
  | nop | reset | rdstat | rdres | tsize => exact wordT_toNat _ _
  | tload | tread =>
    rw [encode, wordT_toNat]
    simp [Instr.opcode, ruleWord]
  | wrcfg | rdcfg | hwr | hrd | gwr | grd =>
    rw [encode, wordR_toNat]
    simp [Instr.opcode, ruleWord, Nat.mul_comm]
  | folda a b =>
    rw [encode, wordN_toNat, BitVec.toNat_setWidth_of_le (by decide)]
    simp [Instr.opcode, ruleWord, Nat.mul_comm]
  | enc | dec =>
    rw [encode, wordN_toNat]
    simp [Instr.opcode, ruleWord, Nat.mul_comm, Nat.add_right_comm]
  | _ =>
    rw [encode, wordN_toNat]
    simp [Instr.opcode, ruleWord, Nat.mul_comm]

/-- Settles O9: a word the opcode map does not accept is one the decoder refuses. -/
theorem illegalWordRaisesIllegal : Obligations.IllegalWordRaisesIllegal := by
  intro c hc
  cases hd : decode c with
  | ok i =>
    have hl : legalWord c = true := legalWord_iff_decodes.2 ⟨i, hd⟩
    rw [hc] at hl
    cases hl
  | error e => exact raisesIllegal_of_error hd

/-- Settles O15: `RESET` and `RDSTAT` always answer, any other command is refused or ends its body. -/
theorem everyCommandAnswersAState : Obligations.EveryCommandAnswersAState := by
  intro i s
  by_cases hr : i = .reset
  · subst hr
    exact ⟨_, rfl⟩
  by_cases hd : i = .rdstat
  · subst hd
    exact ⟨_, rfl⟩
  rw [exec_eq_body hr hd]
  exact unlessFaulted_next (endCommand_next _)

/-! Filling the table (30_encoding.md R81, 40_table.md R92). -/

/-- The word `v` stands at index `i`, and nothing else changed but `DOUT`. -/
def loadedWord (i : Nat) (v : TableWord) (s : State) : State := noValue (storeWord i v s)

theorem loadedWord_read (i : Nat) (v : TableWord) (s : State) (j : Nat) :
    Table.read (loadedWord i v s).table j = if j = i then some v else Table.read s.table j :=
  Table.read_write s.table i v j

/-- `TLOAD` of a word at an index inside the table (40_table.md R92). -/
theorem exec_tload {x : BitVec 24} {v : TableWord} {s : State} (hf : s.fault = false) (hx : x.toNat < words s)
    (hd : s.din = v.toNat) : exec (.tload x) s = .next (loadedWord x.toNat v s) := by
  rw [exec, execTload, unlessFaulted_ready hf, if_neg (Nat.not_le.2 hx), hd, if_neg (Nat.not_le.2 v.isLt),
    BitVec.ofNat_toNat, BitVec.setWidth_eq, loadedWord]

/-- One pair of `TFILL`, presented on the port. -/
theorem command_tload {i : Nat} {v : TableWord} {s : State} (hf : s.fault = false) (hxw : 64 ≤ xw s)
    (hi : i < words s) (hi24 : i < 2 ^ 24) :
    command (encode (.tload (BitVec.ofNat 24 i))) v.toNat s =
      .next (loadedWord i v (present (encode (.tload (BitVec.ofNat 24 i))) v.toNat s)) := by
  have hd : v.toNat < 2 ^ xw s := Nat.lt_of_lt_of_le v.isLt (Nat.pow_le_pow_right (by decide) hxw)
  have hidx : (BitVec.ofNat 24 i).toNat = i := by rw [BitVec.toNat_ofNat, Nat.mod_eq_of_lt hi24]
  have he := exec_tload (x := BitVec.ofNat 24 i) (v := v) (s := present (encode (.tload (BitVec.ofNat 24 i))) v.toNat s)
    hf (hidx.symm ▸ hi) rfl
  rw [command_eq_exec (decodeOfEncode (.tload _) rfl) hd, he, hidx]

/-- The listed words from index `base` on, and the words of `t` elsewhere. -/
def readFilled (base : Nat) (vs : List TableWord) (t : Table) (j : Nat) : Option TableWord :=
  if base ≤ j ∧ j < base + vs.length then vs[j - base]? else Table.read t j

/-- The first word, then the others from the next index on. -/
theorem readFilled_cons {base : Nat} {v : TableWord} {rest : List TableWord} {t u : Table} {j : Nat}
    (hu : Table.read u j = if j = base then some v else Table.read t j) :
    readFilled (base + 1) rest u j = readFilled base (v :: rest) t j := by
  unfold readFilled
  rw [hu, List.length_cons]
  rcases Nat.lt_trichotomy j base with hlt | rfl | hgt
  · rw [if_neg (by omega), if_neg (by omega), if_neg (by omega)]
  · rw [if_neg (by omega), if_pos rfl, if_pos (by omega), Nat.sub_self, List.getElem?_cons_zero]
  · rw [if_neg (show ¬ j = base by omega), show j - base = j - (base + 1) + 1 by omega, List.getElem?_cons_succ]
    congr 1
    exact propext (by omega)

/-- A `TFILL` inside the table runs to its end without a fault, writing its words one after the other. -/
theorem runProgram_tfill (vs : List TableWord) :
    ∀ (base : Nat) (s : State), s.fault = false → 64 ≤ xw s → base + vs.length ≤ words s →
      base + vs.length ≤ 2 ^ 24 →
      ∃ obs t, runProgram (Pseudo.tfill base vs) s = some (obs, t) ∧ t.fault = false ∧
        ∀ j, Table.read t.table j = readFilled base vs s.table j := by
  induction vs with
  | nil =>
    intro base s hf _ _ _
    refine ⟨[], s, rfl, hf, fun j => (if_neg ?_).symm⟩
    rw [List.length_nil]
    omega
  | cons v rest ih =>
    intro base s hf hxw hwords h24
    rw [List.length_cons] at hwords h24
    have hc := command_tload (v := v) hf hxw (i := base) (by omega) (by omega)
    generalize hu : loadedWord base v (present (encode (.tload (BitVec.ofNat 24 base))) v.toNat s) = u at hc
    have hread (j : Nat) : Table.read u.table j = if j = base then some v else Table.read s.table j :=
      hu ▸ loadedWord_read base v _ j
    have huw : words u = words s := hu ▸ rfl
    obtain ⟨obs, t, hrun, htf, ht⟩ := ih (base + 1) u (hu ▸ hf) (hu ▸ hxw) (by omega) (by omega)
    refine ⟨observed u :: obs, t, ?_, htf, fun j => (ht j).trans (readFilled_cons (hread j))⟩
    rw [Pseudo.tfill, runProgram, hc]
    simp only [hrun]

/-- Settles O21, by induction on the list of words. -/
theorem tfillWritesConsecutiveWords : Obligations.TfillWritesConsecutiveWords :=
  fun vs base s hf hxw hwords h24 => runProgram_tfill vs base s hf hxw hwords h24

end Sys2Proof.Machine

/-! PROOFS of the family 40_table.md: TSIZE, TLOAD, TREAD and BITSTR in a block without a fault. -/

namespace Sys2Proof.Machine

/-! The table size (40_table.md R91). -/

/-- The sizes a block of capacity `tmax` accepts (40_table.md R91). -/
def AcceptedSize (tmax bytes : Nat) : Prop := 4096 ≤ bytes ∧ bytes ≤ tmax ∧ ∃ k, bytes = 2 ^ k

/-- The three checks of `TSIZE` reject exactly the sizes that are not accepted. -/
theorem sizeChecks_iff {tmax bytes : Nat} :
    (bytes < 4096 || tmax < bytes || !onePower bytes) = true ↔ ¬ AcceptedSize tmax bytes := by
  by_cases hlow : bytes < 4096
  · simp [AcceptedSize, hlow]
  · have hpow : onePower bytes = true ↔ ∃ k, bytes = 2 ^ k := onePower_iff (by omega)
    simp only [AcceptedSize, ← hpow, hlow, decide_false, Bool.false_or, Bool.or_eq_true, decide_eq_true_eq,
      Bool.not_eq_true', Nat.not_lt.1 hlow, true_and, not_and_or, Nat.not_le, Bool.not_eq_true]

theorem exec_tsize_accepted {s : State} (hf : s.fault = false) (h : AcceptedSize s.params.tmaxBytes s.din) :
    exec .tsize s = .next (noValue (resizeTable s.din s)) := by
  rw [exec, execTsize, unlessFaulted_ready hf, if_neg (fun hbad => sizeChecks_iff.1 hbad h)]

theorem exec_tsize_rejected {s : State} (hf : s.fault = false) (h : ¬ AcceptedSize s.params.tmaxBytes s.din) :
    exec .tsize s = .next (faultedWith FaultCode.config.code s) := by
  rw [exec, execTsize, unlessFaulted_ready hf, if_pos (sizeChecks_iff.2 h), raiseFault_eq hf]

/-- Settles O16, by whether the operand is an accepted size. -/
theorem tsizeSetsTheSizeAndEmptiesTheTable : Obligations.TsizeSetsTheSizeAndEmptiesTheTable := by
  refine ⟨encodedWordIsTheRulesWord .tsize, fun s hf => ⟨fun h => ?_, exec_tsize_rejected hf⟩⟩
  exact ⟨_, exec_tsize_accepted hf h, fun _ => rfl, rfl⟩

/-! Writing a word (40_table.md R92). The write itself is `exec_tload`. -/

theorem exec_tload_rejected {x : BitVec 24} {s : State} (hf : s.fault = false)
    (h : ¬ (x.toNat < words s ∧ s.din < 2 ^ 64)) :
    exec (.tload x) s = .next (faultedWith FaultCode.operand.code s) := by
  rw [exec, execTload, unlessFaulted_ready hf, raiseFault_eq hf]
  by_cases hx : words s ≤ x.toNat
  · rw [if_pos hx]
  · rw [if_neg hx, if_pos (Nat.not_lt.1 fun hd => h ⟨Nat.not_le.1 hx, hd⟩)]

/-- Settles O17: `exec_tload` with the operand as a word, or a failed check. -/
theorem tloadWritesOneWord : Obligations.TloadWritesOneWord := by
  refine ⟨fun x => encodedWordIsTheRulesWord (.tload x), fun x s hf => ⟨?_, exec_tload_rejected hf⟩⟩
  rintro ⟨hx, hd⟩
  have hword : s.din = (BitVec.ofNat 64 s.din).toNat := by rw [BitVec.toNat_ofNat, Nat.mod_eq_of_lt hd]
  exact ⟨_, exec_tload hf hx hword, loadedWord_read x.toNat (BitVec.ofNat 64 s.din) s, rfl⟩

/-! Reading a word (40_table.md R93). -/

theorem exec_tread_outside {x : BitVec 24} {s : State} (hf : s.fault = false) (hx : words s ≤ x.toNat) :
    exec (.tread x) s = .next (faultedWith FaultCode.operand.code s) := by
  rw [exec, execTread, unlessFaulted_ready hf, if_pos hx, raiseFault_eq hf]

theorem exec_tread_unwritten {x : BitVec 24} {s : State} (hf : s.fault = false) (hx : x.toNat < words s)
    (hr : Table.read s.table x.toNat = none) :
    exec (.tread x) s = .next (faultedWith FaultCode.uninit.code s) := by
  rw [exec, execTread, unlessFaulted_ready hf, if_neg (Nat.not_le.2 hx), hr]
  exact raiseFault_eq hf .uninit

theorem exec_tread_written {x : BitVec 24} {v : TableWord} {s : State} (hf : s.fault = false) (hx : x.toNat < words s)
    (hr : Table.read s.table x.toNat = some v) : exec (.tread x) s = .next (returnValue v.toNat s) := by
  rw [exec, execTread, unlessFaulted_ready hf, if_neg (Nat.not_le.2 hx), hr]

/-- Settles O18, one lemma per check and one for the value. -/
theorem treadReturnsAWrittenWord : Obligations.TreadReturnsAWrittenWord :=
  ⟨fun x => encodedWordIsTheRulesWord (.tread x), fun _ _ hf =>
    ⟨exec_tread_outside hf, exec_tread_unwritten hf, fun _ => exec_tread_written hf⟩⟩

/-! Reading a bit field (40_table.md R94, 20_memory.md R53, R59). -/

theorem exec_bitstr_zero {s : State} (hf : s.fault = false) :
    exec (.bitstr 0) s = .next (faultedWith FaultCode.operand.code s) := by
  rw [exec, execBitstr, unlessFaulted_ready hf, if_pos rfl, raiseFault_eq hf]

/-- A nonzero width ends the command as the field's read ends. -/
theorem exec_bitstr_pos {n : BitVec 12} {s : State} (hf : s.fault = false) (hn : n ≠ 0) :
    exec (.bitstr n) s = (readField s s.din n.toNat).answer := by
  rw [exec, execBitstr, unlessFaulted_ready hf, if_neg hn]

/-- Settles O19: the width check, then the two ends of the field's read. -/
theorem bitstrReturnsTheBitField : Obligations.BitstrReturnsTheBitField := by
  refine ⟨fun n => encodedWordIsTheRulesWord (.bitstr n), fun n s hf hs => ⟨?_, ?_, ?_⟩⟩
  · rintro rfl
    exact exec_bitstr_zero hf
  · intro hn hw
    have hread : readField s s.din n.toNat = .raised .uninit s := readField_eq_raised.2 ⟨bitRead_eq_none hs hw, rfl, rfl⟩
    rw [exec_bitstr_pos hf hn, hread]
    exact raiseFault_eq hf .uninit
  · intro hn hw hxw
    have hread : readField s s.din n.toNat = .ok (fieldValue s s.din n.toNat) s :=
      readField_eq_ok.2 ⟨bitRead_eq_fieldValue hs hw hxw, rfl⟩
    rw [exec_bitstr_pos hf hn, hread]
    rfl

end Sys2Proof.Machine

/-! PROOFS of the family 41_fold.md: the fold variants chunk by chunk, `Fold`, FOLD and FOLDA. -/

namespace Sys2Proof.Machine

/-! The window (41_fold.md R104). -/

theorem chunkWidth_zero (shrink : Bool) (w : Nat) : chunkWidth shrink w 0 = w := by
  cases shrink with
  | false => rfl
  | true => exact Nat.max_eq_right (Nat.min_le_left w 4)

/-- The window of the loop after a chunk is that of the next chunk. -/
theorem chunkWidth_succ (shrink : Bool) (w t : Nat) :
    chunkWidth shrink w (t + 1) =
      if shrink && decide (4 < chunkWidth shrink w t) then chunkWidth shrink w t - 1 else chunkWidth shrink w t := by
  cases shrink with
  | false => rfl
  | true =>
    simp only [chunkWidth, if_true, Bool.true_and, decide_eq_true_eq]
    split <;> omega

theorem chunkWidth_le (shrink : Bool) (w t : Nat) : chunkWidth shrink w t ≤ w := by
  cases shrink with
  | false => exact Nat.le_refl w
  | true => exact Nat.max_le.2 ⟨Nat.min_le_left w 4, Nat.sub_le w t⟩

theorem chunkWidth_pos (shrink : Bool) {w : Nat} (hw : 1 ≤ w) (t : Nat) : 1 ≤ chunkWidth shrink w t := by
  cases shrink with
  | false => exact hw
  | true => exact Nat.le_trans (Nat.le_min.2 ⟨hw, by decide⟩) (Nat.le_max_left _ _)

/-- A window of at most 4 bits does not shrink. -/
theorem chunkWidth_of_le_four (shrink : Bool) {w : Nat} (hw : w ≤ 4) (t : Nat) : chunkWidth shrink w t = w := by
  cases shrink with
  | false => rfl
  | true =>
    simp only [chunkWidth, if_true]
    omega

theorem chunkStart_zero (shrink : Bool) (w : Nat) : chunkStart shrink w 0 = 0 := rfl

theorem chunkStart_succ (shrink : Bool) (w t : Nat) :
    chunkStart shrink w (t + 1) = chunkStart shrink w t + chunkWidth shrink w t := by
  simp [chunkStart, List.range_succ]

/-- Without shrinking the chunks are aligned. -/
theorem chunkStart_false (w t : Nat) : chunkStart false w t = w * t := by
  induction t with
  | zero => rfl
  | succ t ih => rw [chunkStart_succ, ih]; rfl

theorem chunkStart_of_le_four (shrink : Bool) {w : Nat} (hw : w ≤ 4) (t : Nat) :
    chunkStart shrink w t = chunkStart false w t := by
  induction t with
  | zero => rfl
  | succ t ih => rw [chunkStart_succ, chunkStart_succ, ih, chunkWidth_of_le_four shrink hw]; rfl

theorem chunkStart_mono (shrink : Bool) (w : Nat) : Monotone (chunkStart shrink w) :=
  monotone_nat_of_le_succ fun t => by rw [chunkStart_succ]; exact Nat.le_add_right _ _

/-- Every chunk takes at least one bit, so `m` chunks cover `m` bits. -/
theorem le_chunkStart (shrink : Bool) {w : Nat} (hw : 1 ≤ w) (m : Nat) : m ≤ chunkStart shrink w m := by
  induction m with
  | zero => exact Nat.zero_le _
  | succ m ih =>
    have hpos := chunkWidth_pos shrink hw m
    rw [chunkStart_succ]
    omega

/-! The chunks and their combination (41_fold.md R102, R103, R105). -/

theorem chunk_lt (shrink : Bool) (w v t : Nat) : chunk shrink w v t < 2 ^ w :=
  Nat.lt_of_lt_of_le (mod_two_pow_lt _ _) (Nat.pow_le_pow_right (by decide) (chunkWidth_le shrink w t))

theorem chunk_of_lt {shrink : Bool} {w v t : Nat} (h : v < 2 ^ chunkStart shrink w t) : chunk shrink w v t = 0 := by
  rw [chunk, Nat.div_eq_of_lt h, Nat.zero_mod]

theorem chunk_of_le_four (shrink : Bool) {w : Nat} (hw : w ≤ 4) (v t : Nat) :
    chunk shrink w v t = chunk false w v t := by
  rw [chunk, chunkStart_of_le_four shrink hw, chunkWidth_of_le_four shrink hw]
  rfl

/-- The accumulator `acc` with the chunk `ch` combined in: the two operations of 41_fold.md R103 and R105. -/
def combineChunk (addmode : Bool) (w acc ch : Nat) : Nat :=
  if addmode = true ∧ acc % 2 = 1 then (acc + ch) % 2 ^ w else acc ^^^ ch

theorem combineChunk_lt (addmode : Bool) {w acc ch : Nat} (ha : acc < 2 ^ w) (hc : ch < 2 ^ w) :
    combineChunk addmode w acc ch < 2 ^ w := by
  unfold combineChunk
  split
  · exact mod_two_pow_lt _ _
  · exact Nat.xor_lt_two_pow ha hc

theorem combineChunk_zero (addmode : Bool) {w acc : Nat} (ha : acc < 2 ^ w) : combineChunk addmode w acc 0 = acc := by
  unfold combineChunk
  split
  · exact Nat.mod_eq_of_lt ha
  · exact Nat.xor_zero acc

theorem chunkFold_eq_foldl (shrink addmode : Bool) (w v m : Nat) :
    chunkFold shrink addmode w v m =
      (List.range m).foldl (fun acc t => combineChunk addmode w acc (chunk shrink w v t)) 0 := rfl

theorem chunkFold_zero (shrink addmode : Bool) (w v : Nat) : chunkFold shrink addmode w v 0 = 0 := rfl

theorem chunkFold_succ (shrink addmode : Bool) (w v m : Nat) :
    chunkFold shrink addmode w v (m + 1) =
      combineChunk addmode w (chunkFold shrink addmode w v m) (chunk shrink w v m) := by
  rw [chunkFold_eq_foldl, chunkFold_eq_foldl, List.range_succ, List.foldl_append, List.foldl_cons, List.foldl_nil]

theorem chunkFold_lt (shrink addmode : Bool) (w v m : Nat) : chunkFold shrink addmode w v m < 2 ^ w := by
  induction m with
  | zero => exact Nat.two_pow_pos w
  | succ m ih => rw [chunkFold_succ]; exact combineChunk_lt addmode ih (chunk_lt shrink w v m)

theorem chunkFold_of_le_four (shrink addmode : Bool) {w : Nat} (hw : w ≤ 4) (v m : Nat) :
    chunkFold shrink addmode w v m = chunkFold false addmode w v m := by
  induction m with
  | zero => rfl
  | succ m ih => rw [chunkFold_succ, chunkFold_succ, ih, chunk_of_le_four shrink hw]

/-- Chunks past the value are zero and leave the accumulator. -/
theorem chunkFold_of_covers {shrink : Bool} {w v m : Nat} (addmode : Bool) (hv : v < 2 ^ chunkStart shrink w m)
    (k : Nat) : chunkFold shrink addmode w v (m + k) = chunkFold shrink addmode w v m := by
  induction k with
  | zero => rfl
  | succ k ih =>
    have hpast : v < 2 ^ chunkStart shrink w (m + k) :=
      Nat.lt_of_lt_of_le hv (Nat.pow_le_pow_right (by decide) (chunkStart_mono shrink w (Nat.le_add_right m k)))
    rw [← Nat.add_assoc, chunkFold_succ, chunk_of_lt hpast, combineChunk_zero addmode (chunkFold_lt ..), ih]

/-- Any two numbers of chunks that cover the value combine to the same result. -/
theorem chunkFold_covers_unique {shrink : Bool} {w v m n : Nat} (addmode : Bool) (hm : v < 2 ^ chunkStart shrink w m)
    (hn : v < 2 ^ chunkStart shrink w n) : chunkFold shrink addmode w v m = chunkFold shrink addmode w v n := by
  rw [← chunkFold_of_covers addmode hm n, ← chunkFold_of_covers addmode hn m, Nat.add_comm]

/-- A value that fits is one chunk. -/
theorem chunkFold_one_of_lt {w v : Nat} (shrink addmode : Bool) (hv : v < 2 ^ w) :
    chunkFold shrink addmode w v 1 = v := by
  rw [chunkFold_succ, chunkFold_zero, chunk, chunkStart_zero, chunkWidth_zero, Nat.pow_zero, Nat.div_one,
    Nat.mod_eq_of_lt hv]
  simp [combineChunk]

/-! The loop takes the chunks in turn (41_fold.md R102). -/

/-- One turn of the loop on a value that is not used up. -/
theorem foldLoop_succ {v : Nat} (shrink addmode : Bool) (w fuel acc c : Nat) (hv : v ≠ 0) :
    foldLoop shrink addmode w (fuel + 1) v acc c =
      foldLoop shrink addmode w fuel (v / 2 ^ c) (combineChunk addmode w acc (v % 2 ^ c))
        (if shrink && decide (4 < c) then c - 1 else c) := by
  rw [foldLoop, if_neg hv]
  simp only [combineChunk, and_mask, Nat.and_one_is_mod, Nat.shiftRight_eq_div_pow, Bool.and_eq_true, beq_iff_eq]

theorem foldLoop_zero_value (shrink addmode : Bool) (w fuel acc c : Nat) :
    foldLoop shrink addmode w fuel 0 acc c = acc := by
  cases fuel <;> simp [foldLoop]

/-- Started before chunk `t` with the first `t` chunks combined, the loop combines as many more as it has fuel. -/
theorem foldLoop_eq_chunkFold (shrink addmode : Bool) (w v fuel : Nat) :
    ∀ t, foldLoop shrink addmode w fuel (v / 2 ^ chunkStart shrink w t) (chunkFold shrink addmode w v t)
      (chunkWidth shrink w t) = chunkFold shrink addmode w v (t + fuel) := by
  induction fuel with
  | zero => exact fun _ => rfl
  | succ fuel ih =>
    intro t
    by_cases hv : v / 2 ^ chunkStart shrink w t = 0
    · have hcovers : v < 2 ^ chunkStart shrink w t := Nat.lt_of_div_eq_zero (Nat.two_pow_pos _) hv
      rw [hv, foldLoop_zero_value, chunkFold_of_covers addmode hcovers]
    · rw [foldLoop_succ _ _ _ _ _ _ hv, Nat.div_div_eq_div_mul, ← Nat.pow_add, ← chunkStart_succ, ← chunkWidth_succ,
        ← chunk, ← chunkFold_succ, ih, Nat.add_right_comm, Nat.add_assoc]

/-- `FoldAlg` combines as many chunks as the value has bits. -/
theorem foldAlg_eq_chunkFold_log2 (a : BitVec 2) {v w : Nat} (hv : 2 ^ w ≤ v) :
    foldAlg a v w = chunkFold (a == 1 || a == 3) (a == 2 || a == 3) w v (v.log2 + 1) := by
  have hloop := foldLoop_eq_chunkFold (a == 1 || a == 3) (a == 2 || a == 3) w v (v.log2 + 1) 0
  rw [chunkStart_zero, Nat.pow_zero, Nat.div_one, chunkFold_zero, chunkWidth_zero, Nat.zero_add] at hloop
  rw [foldAlg, if_neg (Nat.not_lt.2 hv), hloop]

/-- Settles O23: a value that fits is its first chunk, and the loop takes enough chunks to cover any other; two covering
numbers of chunks agree. -/
theorem foldAlgCombinesTheChunks : Obligations.FoldAlgCombinesTheChunks := by
  intro a v w m hw hm
  by_cases hv : v < 2 ^ w
  · have hone : v < 2 ^ chunkStart (a == 1 || a == 3) w 1 := by
      rwa [chunkStart_succ, chunkStart_zero, chunkWidth_zero, Nat.zero_add]
    rw [foldAlg, if_pos hv, chunkFold_covers_unique _ hm hone, chunkFold_one_of_lt _ _ hv]
  · have hbits : v < 2 ^ chunkStart (a == 1 || a == 3) w (v.log2 + 1) :=
      Nat.lt_of_lt_of_le Nat.lt_log2_self (Nat.pow_le_pow_right (by decide) (le_chunkStart _ hw _))
    rw [foldAlg_eq_chunkFold_log2 a (Nat.not_lt.1 hv), chunkFold_covers_unique _ hbits hm]

/-! Algorithm 0 and the base-`2^w` digits (41_fold.md R103, R104). -/

/-- The chunks of an unshrinking window are the base-`2^w` digits. -/
theorem digits_eq_map_chunk {w : Nat} (hw : 1 ≤ w) (v : Nat) :
    Nat.digits (2 ^ w) v = (List.range (Nat.digits (2 ^ w) v).length).map (chunk false w v) := by
  have hbase : 2 ≤ 2 ^ w := Nat.le_self_pow (Nat.ne_of_gt hw) 2
  refine List.ext_getElem (by simp) fun t ht _ => ?_
  have hdigit := Nat.getD_digits v t hbase
  rw [List.getD_eq_getElem _ _ ht, ← Nat.pow_mul, ← chunkStart_false] at hdigit
  rw [hdigit, List.getElem_map, List.getElem_range]
  rfl

theorem foldAlg_zero_eq_digits {w : Nat} (hw : 1 ≤ w) (v : Nat) :
    foldAlg 0 v w = (Nat.digits (2 ^ w) v).foldl (· ^^^ ·) 0 := by
  have hcovers : v < 2 ^ chunkStart false w (Nat.digits (2 ^ w) v).length := by
    rw [chunkStart_false, Nat.pow_mul]
    exact Nat.lt_base_pow_length_digits (Nat.one_lt_two_pow (Nat.ne_of_gt hw))
  calc foldAlg 0 v w = chunkFold false false w v (Nat.digits (2 ^ w) v).length :=
        foldAlgCombinesTheChunks 0 v w _ hw hcovers
    _ = ((List.range (Nat.digits (2 ^ w) v).length).map (chunk false w v)).foldl (· ^^^ ·) 0 := by
        simp [chunkFold, List.foldl_map]
    _ = (Nat.digits (2 ^ w) v).foldl (· ^^^ ·) 0 := by rw [← digits_eq_map_chunk hw]

/-- For `w <= 4` only the operation of a variant matters. -/
theorem foldAlg_of_le_four {a b : BitVec 2} {w : Nat} (hw : w ≤ 4) (v : Nat)
    (hab : (a == 2 || a == 3) = (b == 2 || b == 3)) : foldAlg a v w = foldAlg b v w := by
  by_cases hv : v < 2 ^ w
  · rw [foldAlg, foldAlg, if_pos hv, if_pos hv]
  · rw [foldAlg_eq_chunkFold_log2 a (Nat.not_lt.1 hv), foldAlg_eq_chunkFold_log2 b (Nat.not_lt.1 hv), hab,
      chunkFold_of_le_four _ _ hw, chunkFold_of_le_four (b == 1 || b == 3) _ hw]

/-- Settles O24. -/
theorem xorFoldOfTheDigits : Obligations.XorFoldOfTheDigits :=
  fun v _ hw => ⟨foldAlg_zero_eq_digits hw v, fun h4 =>
    ⟨foldAlg_of_le_four h4 v (by decide), foldAlg_of_le_four h4 v (by decide)⟩⟩

/-! `Fold` and the selector (41_fold.md R101). -/

/-- Settles O22: the two ways `Fold` can answer. -/
theorem foldFitsAndAdvancesOnlyWhenReducing : Obligations.FoldFitsAndAdvancesOnlyWhenReducing := by
  refine fun sel v w => ⟨fold_lt sel v w, fold_of_lt, fun h => ?_⟩
  rw [fold_of_ge h]
  exact ⟨rfl, BitVec.toNat_add sel 1⟩

/-! FOLD (41_fold.md R107). -/

theorem foldState_of_lt {v w : Nat} {s : State} (h : v < 2 ^ w) : foldState v w s = .ok v s := by
  rw [foldState, fold_of_lt h]
  rfl

theorem foldState_of_ge {v w : Nat} {s : State} (h : 2 ^ w ≤ v) :
    foldState v w s = .ok (foldAlg s.foldSel v w) (setFoldSel (s.foldSel + 1) s) := by
  rw [foldState, fold_of_ge h]

theorem exec_fold_zero {s : State} (hf : s.fault = false) :
    exec (.fold 0) s = .next (faultedWith FaultCode.operand.code s) := by
  rw [exec, execFold, unlessFaulted_ready hf, if_pos rfl, raiseFault_eq hf]

/-- A nonzero width ends the command as `Fold` ends. -/
theorem exec_fold_pos {n : BitVec 12} {s : State} (hf : s.fault = false) (hn : n ≠ 0) :
    exec (.fold n) s = (foldState s.din n.toNat s).answer := by
  rw [exec, execFold, unlessFaulted_ready hf, if_neg hn]

/-- Settles O25: the width check, then the two ends of `Fold` on the selector. -/
theorem foldCommandUsesTheSelector : Obligations.FoldCommandUsesTheSelector := by
  refine ⟨fun n => encodedWordIsTheRulesWord (.fold n), fun n s hf => ⟨?_, fun hn hv => ?_, fun hn hv => ?_⟩⟩
  · rintro rfl
    exact exec_fold_zero hf
  · rw [exec_fold_pos hf hn, foldState_of_lt hv]
    rfl
  · rw [exec_fold_pos hf hn, foldState_of_ge hv]
    rfl

/-! FOLDA (41_fold.md R108). -/

/-- The algorithm field has two bits, and those above it must be zero (30_encoding.md R76). -/
theorem aboveAlg_ne_zero {opc a : BitVec 8} {steps : BitVec 4} {n : BitVec 12} (ha : 3 < a.toNat) :
    (wordN opc a steps n).extractLsb' 18 6 ≠ 0 := by
  intro h
  have hinst := instOf_of_alg h
  rw [instOf_wordN] at hinst
  have halg := ((wordN opc a steps n).extractLsb' 16 2).isLt
  rw [hinst, BitVec.toNat_setWidth_of_le (by decide)] at ha
  omega

/-- The word of an algorithm that does not exist is refused (30_encoding.md R77). -/
theorem decode_folda_noSuchAlgorithm {a : BitVec 8} (n : BitVec 12) (ha : 3 < a.toNat) :
    decode (wordN 0x19 a 0 n) = .error .noSuchFoldAlgorithm := by
  rw [decode, opcOf_wordN]
  exact if_neg (mt beq_iff_eq.1 (aboveAlg_ne_zero ha))

theorem exec_folda_zero (a : BitVec 2) {s : State} (hf : s.fault = false) :
    exec (.folda a 0) s = .next (faultedWith FaultCode.operand.code s) := by
  rw [exec, execFolda, unlessFaulted_ready hf, if_pos rfl, raiseFault_eq hf]

theorem exec_folda_pos (a : BitVec 2) {n : BitVec 12} {s : State} (hf : s.fault = false) (hn : n ≠ 0) :
    exec (.folda a n) s = .next (returnValue (foldAlg a s.din n.toNat) s) := by
  rw [exec, execFolda, unlessFaulted_ready hf, if_neg hn]

/-- Settles O26: the word, the algorithms that do not exist, and the two ends of the command. -/
theorem foldaIsPure : Obligations.FoldaIsPure := by
  refine ⟨fun a n => encodedWordIsTheRulesWord (.folda a n),
    fun _ n ha => raisesIllegal_of_error (decode_folda_noSuchAlgorithm n ha), fun a n s hf => ⟨?_, exec_folda_pos a hf⟩⟩
  rintro rfl
  exact exec_folda_zero a hf

end Sys2Proof.Machine

/-! PROOFS of the family 42_hash.md: the fields of a hash instance, its kernel, and HUPD, HDIG, HSTEP and HNEXT. -/

namespace Sys2Proof

/-- A register above 2, or an element of a scalar, names no hash field (30_encoding.md R77). -/
theorem hashFieldOf_error {r e : BitVec 8} (h : 2 < r.toNat ∨ r ≠ 0 ∧ e ≠ 0) : ∃ why, hashFieldOf r e = .error why := by
  cases hf : hashFieldOf r e with
  | error why => exact ⟨why, rfl⟩
  | ok f =>
    obtain ⟨rfl, rfl⟩ := hashFieldOf_eq_ok hf
    cases f <;> simp [HashField.number, HashField.elem] at h

/-- The words of HWR and HRD that name no hash field are refused (30_encoding.md R77). -/
theorem decode_noSuchHashField {opc r e : BitVec 8} (i : BitVec 8) (hopc : opc = 0x20 ∨ opc = 0x21)
    (h : 2 < r.toNat ∨ r ≠ 0 ∧ e ≠ 0) : ∃ why, decode (wordR opc i r e) = .error why := by
  obtain ⟨why, hwhy⟩ := hashFieldOf_error h
  refine ⟨why, ?_⟩
  rw [decode, opcOf_wordR, regOf_wordR, elemOf_wordR, hwhy]
  rcases hopc with rfl | rfl
  · rfl
  · rfl

/-- `HNEXT` without steps is no command (30_encoding.md R77). -/
theorem decode_hnext_zero_steps (i : BitVec 8) (b : BitVec 12) : decode (wordN 0x25 i 0 b) = .error .stepsZero := by
  rw [decode, opcOf_wordN]
  exact if_neg (by simp)

end Sys2Proof

namespace Sys2Proof.Machine

/-! The fields of a hash instance (42_hash.md R118, R119), one equation per field. -/

theorem writeHashField_noInstance {i v : Nat} {s : State} (hi : s.params.nmax ≤ i) (f : HashField) :
    writeHashField i f v s = .raised .operand s := if_pos hi

theorem writeHashField_vec {i v : Nat} {s : State} (hi : i < s.params.nmax) (e : BitVec 8) :
    writeHashField i (.vec e) v s =
      if e.toNat < s.hdepth ∧ v < 2 ^ s.w then
        .ok () (setHash i { hashAt s i with vec := (hashAt s i).vec.set e.toNat v } s)
      else .raised .operand s := by
  simp only [writeHashField, if_neg (Nat.not_le.2 hi)]
  rcases Nat.lt_or_ge e.toNat s.hdepth with he | he
  · rw [if_neg (Nat.not_le.2 he)]
    rcases Nat.lt_or_ge v (2 ^ s.w) with hv | hv
    · rw [if_pos ⟨he, hv⟩, checkedWrite_of_ok (decide_eq_false (Nat.not_le.2 hv))]
    · rw [if_neg fun hok => Nat.not_le.2 hok.2 hv, checkedWrite_of_bad (decide_eq_true hv)]
  · rw [if_pos he, if_neg fun hok => Nat.not_le.2 hok.1 he]

theorem writeHashField_idx {i v : Nat} {s : State} (hi : i < s.params.nmax) :
    writeHashField i .idx v s =
      if s.hdepth ≤ v then .raised .operand s else .ok () (setHash i { hashAt s i with idx := v } s) := by
  rw [writeHashField, if_neg (Nat.not_le.2 hi)]
  simp [checkedWrite]

theorem writeHashField_variant {i v : Nat} {s : State} {x : HashVariant} (hi : i < s.params.nmax)
    (hx : HashVariant.ofNumber v = some x) :
    writeHashField i .variant v s = .ok () (setHash i { hashAt s i with variant := x } s) := by
  rw [writeHashField, if_neg (Nat.not_le.2 hi)]
  simp only [hx]

/-- HASH2 and the numbers above it cannot be selected (42_hash.md R114). -/
theorem HashVariant.ofNumber_eq_none {v : Nat} (h : 1 < v) : HashVariant.ofNumber v = none := by
  unfold HashVariant.ofNumber
  split
  · omega
  · omega
  · rfl

theorem writeHashField_noVariant {i v : Nat} {s : State} (hi : i < s.params.nmax) (hv : 1 < v) :
    writeHashField i .variant v s = .raised .config s := by
  rw [writeHashField, if_neg (Nat.not_le.2 hi)]
  simp only [HashVariant.ofNumber_eq_none hv]

theorem readHashField_noInstance {i : Nat} {s : State} (hi : s.params.nmax ≤ i) (f : HashField) :
    readHashField i f s = .raised .operand s := if_pos hi

theorem readHashField_vec {i : Nat} {s : State} (hi : i < s.params.nmax) (e : BitVec 8) :
    readHashField i (.vec e) s =
      if s.hdepth ≤ e.toNat then .raised .operand s else .ok (slot (hashAt s i).vec e.toNat) s := by
  rw [readHashField, if_neg (Nat.not_le.2 hi)]

/-- The scalar fields read as the table of R118 lists them. -/
theorem readHashField_scalar {i : Nat} {s : State} (hi : i < s.params.nmax) :
    ∀ row ∈ hashScalars (hashAt s i), row.2.1.number.toNat = row.1 ∧ readHashField i row.2.1 s = .ok row.2.2 s := by
  intro row hrow
  rcases List.mem_pair.1 hrow with rfl | rfl
  · exact ⟨rfl, if_neg (Nat.not_le.2 hi)⟩
  · refine ⟨rfl, ?_⟩
    rw [readHashField, if_neg (Nat.not_le.2 hi)]
    cases (hashAt s i).variant <;> rfl

/-! HWR and HRD (42_hash.md R118, R119). -/

theorem exec_hwr {h : BitVec 8} {f : HashField} {s : State} (hf : s.fault = false) :
    exec (.hwr h f) s = (writeHashField h.toNat f s.din s).finish := by
  rw [exec, execHwr, unlessFaulted_ready hf]

theorem exec_hwr_ok {h : BitVec 8} {f : HashField} {s t : State} (hf : s.fault = false)
    (hw : writeHashField h.toNat f s.din s = .ok () t) : exec (.hwr h f) s = .next (noValue t) := by
  rw [exec_hwr hf, hw, Sub.finish_ok]

theorem exec_hwr_raised {h : BitVec 8} {f : HashField} {c : FaultCode} {s : State} (hf : s.fault = false)
    (hw : writeHashField h.toNat f s.din s = .raised c s) : exec (.hwr h f) s = .next (faultedWith c.code s) := by
  rw [exec_hwr hf, hw, Sub.finish_raised, raiseFault_eq hf]

/-- Settles O27: the words, then one equation of the field write per field and check. -/
theorem hwrWritesTheFieldOrFaults : Obligations.HwrWritesTheFieldOrFaults := by
  refine ⟨fun h f => encodedWordIsTheRulesWord (.hwr h f), fun _ => ⟨rfl, rfl⟩, by decide, fun i r e h => ?_,
    fun h s hf => ⟨fun hi f => exec_hwr_raised hf (writeHashField_noInstance hi f), fun hi =>
      ⟨fun e => ⟨fun hok => ?_, fun hbad => ?_⟩, fun hv => ?_, fun hv => ?_, fun hv => ?_, fun hv => ?_, fun hv => ?_⟩⟩⟩
  · obtain ⟨_, he⟩ := decode_noSuchHashField i (.inl rfl) h
    exact raisesIllegal_of_error he
  · exact exec_hwr_ok hf ((writeHashField_vec hi e).trans (if_pos hok))
  · exact exec_hwr_raised hf ((writeHashField_vec hi e).trans (if_neg hbad))
  · exact exec_hwr_ok hf ((writeHashField_idx hi).trans (if_neg (Nat.not_le.2 hv)))
  · exact exec_hwr_raised hf ((writeHashField_idx hi).trans (if_pos hv))
  · exact exec_hwr_ok hf (writeHashField_variant hi (hv ▸ rfl))
  · exact exec_hwr_ok hf (writeHashField_variant hi (hv ▸ rfl))
  · exact exec_hwr_raised hf (writeHashField_noVariant hi hv)

theorem exec_hrd {h : BitVec 8} {f : HashField} {s : State} (hf : s.fault = false) :
    exec (.hrd h f) s = (readHashField h.toNat f s).answer := by
  rw [exec, execHrd, unlessFaulted_ready hf]

theorem exec_hrd_ok {h : BitVec 8} {f : HashField} {v : Nat} {s : State} (hf : s.fault = false)
    (hr : readHashField h.toNat f s = .ok v s) : exec (.hrd h f) s = .next (returnValue v s) := by
  rw [exec_hrd hf, hr, Sub.answer_ok]

theorem exec_hrd_raised {h : BitVec 8} {f : HashField} {c : FaultCode} {s : State} (hf : s.fault = false)
    (hr : readHashField h.toNat f s = .raised c s) : exec (.hrd h f) s = .next (faultedWith c.code s) := by
  rw [exec_hrd hf, hr, Sub.answer_raised, raiseFault_eq hf]

/-- Settles O28: the words, then one equation of the field read per field and check. -/
theorem hrdReturnsTheField : Obligations.HrdReturnsTheField := by
  refine ⟨fun h f => encodedWordIsTheRulesWord (.hrd h f), fun _ => ⟨rfl, rfl⟩, by decide, fun i r e h => ?_,
    fun h s hf => ⟨fun hi f => exec_hrd_raised hf (readHashField_noInstance hi f), fun hi =>
      ⟨fun e he => ?_, fun e he => ?_, fun row hrow => ?_⟩⟩⟩
  · obtain ⟨_, he⟩ := decode_noSuchHashField i (.inr rfl) h
    exact raisesIllegal_of_error he
  · exact exec_hrd_raised hf ((readHashField_vec hi e).trans (if_pos he))
  · exact exec_hrd_ok hf ((readHashField_vec hi e).trans (if_neg (Nat.not_le.2 he)))
  · obtain ⟨hnumber, hread⟩ := readHashField_scalar hi row hrow
    exact ⟨hnumber, exec_hrd_ok hf hread⟩

/-! The kernel (42_hash.md R112, R113). -/

/-- The vector before the walk of byte `b`: the slot at the cursor is multiplied (42_hash.md R112). -/
def multipliedVec (w b : Nat) (h : Hash) : List Nat := h.vec.set h.idx ((slot h.vec h.idx * b) &&& mask w)

/-- The vector after the eight steps of the walk of byte `b` (42_hash.md R112). -/
def walkedVec (w hdepth b : Nat) (h : Hash) : List Nat :=
  walkSlots hdepth h.idx (shiftSlot w b) 8 (multipliedVec w b h)

/-- The vector before the walk of HASH1: the slot at the cursor has received the old digest (42_hash.md R113). -/
def injectedVec (w hdepth b : Nat) (h : Hash) : List Nat :=
  (walkedVec w hdepth b h).set h.idx (slot (walkedVec w hdepth b h) h.idx ^^^ hashDigest hdepth h)

theorem hashByte_vec_of_no_injection {w hdepth b : Nat} {h : Hash} (hv : h.variant = .hash0 ∨ b ≠ 0) :
    (hashByte w hdepth b h).vec = walkedVec w hdepth b h := by
  refine if_neg ?_
  rintro ⟨h1, hb⟩
  rcases hv with h0 | hb'
  · rw [h0] at h1
    cases h1
  · exact hb' hb

theorem hashByte_vec_of_injection {w hdepth b : Nat} {h : Hash} (hv : h.variant = .hash1) (hb : b = 0) :
    (hashByte w hdepth b h).vec =
      walkSlots hdepth h.idx (rotateSlot w (hashDigest hdepth h)) hdepth (injectedVec w hdepth b h) :=
  if_pos ⟨hv, hb⟩

theorem slot_multipliedVec {w b : Nat} {h : Hash} (hi : h.idx < h.vec.length) (j : Nat) :
    slot (multipliedVec w b h) j = if j = h.idx then slot h.vec h.idx * b % 2 ^ w else slot h.vec j := by
  rw [multipliedVec, slot_set hi, and_mask]

theorem multipliedVec_length (w b : Nat) (h : Hash) : (multipliedVec w b h).length = h.vec.length := List.length_set

theorem multipliedVec_lt {w b : Nat} {h : Hash} (hv : ∀ x ∈ h.vec, x < 2 ^ w) : ∀ x ∈ multipliedVec w b h, x < 2 ^ w :=
  set_elems_lt hv (by rw [and_mask]; exact mod_two_pow_lt _ _)

theorem walkedVec_length (w hdepth b : Nat) (h : Hash) : (walkedVec w hdepth b h).length = h.vec.length := by
  rw [walkedVec, walkSlots_length, multipliedVec_length]

theorem walkedVec_lt {w hdepth b : Nat} {h : Hash} (hw : 1 ≤ w) (hv : ∀ x ∈ h.vec, x < 2 ^ w) :
    ∀ x ∈ walkedVec w hdepth b h, x < 2 ^ w :=
  (walkSlots_legal (fun _ _ => shiftSlot_lt hw) 8 (multipliedVec_lt hv)).2

theorem slot_injectedVec {w hdepth b : Nat} {h : Hash} (hi : h.idx < h.vec.length) (j : Nat) :
    slot (injectedVec w hdepth b h) j =
      if j = h.idx then slot (walkedVec w hdepth b h) j ^^^ hashDigest hdepth h
      else slot (walkedVec w hdepth b h) j := by
  rw [injectedVec, slot_set (walkedVec_length w hdepth b h ▸ hi)]
  split
  · subst j
    rfl
  · rfl

theorem injectedVec_length (w hdepth b : Nat) (h : Hash) : (injectedVec w hdepth b h).length = h.vec.length := by
  rw [injectedVec, List.length_set, walkedVec_length]

theorem injectedVec_lt {w hdepth b : Nat} {h : Hash} (hw : 1 ≤ w) (hv : ∀ x ∈ h.vec, x < 2 ^ w) :
    ∀ x ∈ injectedVec w hdepth b h, x < 2 ^ w :=
  set_elems_lt (walkedVec_lt hw hv) (Nat.xor_lt_two_pow (slot_lt (walkedVec_lt hw hv) _) (hashDigest_lt hv))

/-- Settles O29: the sequences are the vectors the model's two walks pass through. -/
theorem hashKernelWalksTheSlots : Obligations.HashKernelWalksTheSlots := by
  intro w hdmax hdepth b h hw hd hmax _ hh
  have hlen : hdepth ≤ h.vec.length := hh.length.symm ▸ hmax
  have hi : h.idx < h.vec.length := Nat.lt_of_lt_of_le hh.idx hlen
  refine ⟨fun k => slot (walkSlots hdepth h.idx (shiftSlot w b) k (multipliedVec w b h)), slot_multipliedVec hi,
    walkSlots_walk hd (multipliedVec_length w b h ▸ hlen) (multipliedVec_lt hh.elems) (fun _ _ => shiftSlot_lt hw)
      (fun _ _ _ => shiftSlot_eq _ _ _ _),
    fun hv j => congrArg (slot · j) (hashByte_vec_of_no_injection hv), fun hv hb => ?_,
    (hashByte_legal hw hd hh).length.trans hh.length.symm, rfl, rfl⟩
  exact ⟨fun k => slot (walkSlots hdepth h.idx (rotateSlot w (hashDigest hdepth h)) k (injectedVec w hdepth b h)),
    slot_injectedVec hi,
    walkSlots_walk hd (injectedVec_length w hdepth b h ▸ hlen) (injectedVec_lt hw hh.elems)
      (fun _ _ => rotateSlot_lt hw) (fun _ _ => rotateSlot_eq hw),
    fun j => congrArg (slot · j) (hashByte_vec_of_injection hv hb)⟩

/-! HUPD (42_hash.md R120). The update itself is `exec_hupd`. -/

/-- The four checks of `HUPD` (42_hash.md R120). -/
def HupdAccepts (h : BitVec 8) (l : BitVec 12) (s : State) : Prop :=
  h.toNat < s.params.nmax ∧ l ≠ 0 ∧ 8 * l.toNat ≤ xw s ∧ s.din < 256 ^ l.toNat

theorem two_pow_eight_mul (l : Nat) : 2 ^ (8 * l) = 256 ^ l := Nat.pow_mul 2 8 l

theorem exec_hupd_rejected {h : BitVec 8} {l : BitVec 12} {s : State} (hf : s.fault = false)
    (hbad : ¬ HupdAccepts h l s) :
    exec (.hupd h l) s = .next (faultedWith FaultCode.operand.code s) := by
  rw [exec, execHupd, unlessFaulted_ready hf, raiseFault_eq hf, two_pow_eight_mul]
  by_cases hi : s.params.nmax ≤ h.toNat
  · rw [if_pos hi]
  by_cases hl : l = 0
  · rw [if_neg hi, if_pos hl]
  by_cases hx : xw s < 8 * l.toNat
  · rw [if_neg hi, if_neg hl, if_pos hx]
  have hd : 256 ^ l.toNat ≤ s.din := Nat.not_lt.1 fun hlt => hbad ⟨Nat.not_le.1 hi, hl, Nat.not_lt.1 hx, hlt⟩
  rw [if_neg hi, if_neg hl, if_neg hx, if_pos hd]

/-- Settles O30: `exec_hupd` with the bytes in the order of R115, or a failed check. -/
theorem hupdConsumesTheBytes : Obligations.HupdConsumesTheBytes := by
  refine ⟨fun h l => encodedWordIsTheRulesWord (.hupd h l), fun h l s hf => ⟨?_, exec_hupd_rejected hf⟩⟩
  rintro ⟨hi, hl, hx, hd⟩
  rw [exec_hupd hf hi hl hx (two_pow_eight_mul l.toNat ▸ hd), hashBytes_eq]
  rfl

/-! HDIG (42_hash.md R121). -/

theorem exec_hdig_noInstance {h : BitVec 8} {s : State} (hf : s.fault = false) (hi : s.params.nmax ≤ h.toNat) :
    exec (.hdig h) s = .next (faultedWith FaultCode.operand.code s) := by
  rw [exec, execHdig, unlessFaulted_ready hf, if_pos hi, raiseFault_eq hf]

theorem exec_hdig {h : BitVec 8} {s : State} (hf : s.fault = false) (hi : h.toNat < s.params.nmax) :
    exec (.hdig h) s = .next (returnValue (hashDigest s.hdepth (hashAt s h.toNat)) s) := by
  rw [exec, execHdig, unlessFaulted_ready hf, if_neg (Nat.not_le.2 hi)]

/-- Settles O32: the digest is the XOR of the used slots (`hashDigest_eq`). -/
theorem hdigReturnsTheXorOfTheSlots : Obligations.HdigReturnsTheXorOfTheSlots := by
  refine ⟨fun h => encodedWordIsTheRulesWord (.hdig h), fun h s hf => ⟨exec_hdig_noInstance hf, fun hi d hd => ?_⟩⟩
  rw [exec_hdig hf hi, hashDigest_eq, ← hd]
  rfl

/-! HSTEP (42_hash.md R122). -/

/-- The instance after it is fed the low byte of its digest (42_hash.md R116). -/
def fedBack (w hdepth : Nat) (h : Hash) : Hash := hashByte w hdepth (hashDigest hdepth h % 256) h

theorem hashStep_eq (w hdepth : Nat) (h : Hash) :
    hashStep w hdepth h = (hashDigest hdepth (fedBack w hdepth h), fedBack w hdepth h) := by
  have hlow : hashDigest hdepth h &&& 0xFF = hashDigest hdepth h % 256 := Nat.and_two_pow_sub_one_eq_mod _ 8
  rw [hashStep, hlow]
  rfl

/-- An all-zero vector stays all zero and has digest 0 (42_hash.md R116). -/
theorem fedBack_zero {w hdepth : Nat} {h : Hash} (hz : ∀ x ∈ h.vec, x = 0) :
    hashDigest hdepth (fedBack w hdepth h) = 0 ∧ (fedBack w hdepth h).vec = h.vec := by
  have hv : h.vec = List.replicate h.vec.length 0 := List.eq_replicate_of_mem hz
  have hg : (fedBack w hdepth h).vec = List.replicate h.vec.length 0 := hashByte_zero hv
  exact ⟨hashDigest_zero hg, hg.trans hv.symm⟩

theorem exec_hstep_noInstance {h : BitVec 8} {s : State} (hf : s.fault = false) (hi : s.params.nmax ≤ h.toNat) :
    exec (.hstep h) s = .next (faultedWith FaultCode.operand.code s) := by
  rw [exec, execHstep, unlessFaulted_ready hf, if_pos hi, raiseFault_eq hf]

theorem exec_hstep {h : BitVec 8} {s : State} (hf : s.fault = false) (hi : h.toNat < s.params.nmax) :
    exec (.hstep h) s =
      .next (returnValue (hashDigest s.hdepth (fedBack s.w s.hdepth (hashAt s h.toNat)))
        (setHash h.toNat (fedBack s.w s.hdepth (hashAt s h.toNat)) s)) := by
  rw [exec, execHstep, unlessFaulted_ready hf, if_neg (Nat.not_le.2 hi), hashStep_eq]

/-- Settles O33: the instance is fed back, and an all-zero one keeps its vector (`fedBack_zero`). -/
theorem hstepFeedsTheDigestBack : Obligations.HstepFeedsTheDigestBack := by
  refine ⟨fun h => encodedWordIsTheRulesWord (.hstep h), fun h s hf => ⟨exec_hstep_noInstance hf, ?_⟩⟩
  rintro hi g rfl
  exact ⟨exec_hstep hf hi, fedBack_zero⟩

/-! HNEXT (42_hash.md R123). -/

theorem exec_hnext_rejected {h : BitVec 8} {n : BitVec 4} {b : BitVec 12} {s : State} (hf : s.fault = false)
    (hn : n ≠ 0) (hbad : s.params.nmax ≤ h.toNat ∨ b.toNat < 2) :
    exec (.hnext h n b) s = .next (faultedWith FaultCode.operand.code s) := by
  rw [exec, execHnext, unlessFaulted_ready hf, if_neg hn, raiseFault_eq hf]
  by_cases hi : s.params.nmax ≤ h.toNat
  · rw [if_pos hi]
  · rw [if_neg hi, if_pos (hbad.resolve_left hi)]

/-- With its checks passed `HNEXT` ends as `HNext` ends. -/
theorem exec_hnext {h : BitVec 8} {n : BitVec 4} {b : BitVec 12} {s : State} (hf : s.fault = false) (hn : n ≠ 0)
    (hi : h.toNat < s.params.nmax) (hb : 2 ≤ b.toNat) :
    exec (.hnext h n b) s = (hashNext h.toNat b.toNat n.toNat true s).answer := by
  rw [exec, execHnext, unlessFaulted_ready hf, if_neg hn, if_neg (Nat.not_le.2 hi), if_neg (Nat.not_lt.2 hb)]

/-- A retry count of 8 bits is recorded as it is. -/
theorem recordRetries_of_le {k : Nat} {s : State} (hk : k ≤ 255) :
    recordRetries k s = { s with rcnt := BitVec.ofNat 8 k } := by
  rw [recordRetries, Nat.min_eq_left hk]

theorem endNext_top_some (r k : Nat) (s : State) : endNext true (some r) k s = .ok r (recordRetries k s) := rfl

theorem endNext_top_none (k : Nat) (s : State) : endNext true none k s = .raised .integrity (recordRetries k s) := rfl

theorem retryMax_le (s : State) : s.retryMax.toNat ≤ 255 := Nat.le_of_lt_succ s.retryMax.isLt

/-- `RETRY_MAX` itself is recorded as it is. -/
theorem recordRetries_exhausted_rcnt (s t : State) : (recordRetries s.retryMax.toNat t).rcnt = s.retryMax := by
  rw [recordRetries_rcnt, Nat.min_eq_left (retryMax_le s)]
  exact (BitVec.ofNat_toNat 8 _).trans (BitVec.setWidth_eq _)

/-- Settles O34: the checks, then the two ends of `HNext` (`hashNext_drawn`, `hashNext_exhausted`). -/
theorem hnextDrawsUntilNotDegenerate : Obligations.HnextDrawsUntilNotDegenerate := by
  refine ⟨fun h n b => encodedWordIsTheRulesWord (.hnext h n b),
    fun h b => raisesIllegal_of_error (decode_hnext_zero_steps h b),
    fun h n b s hl hf hn => ⟨exec_hnext_rejected hf hn, fun hi hb => ⟨fun k hk hpre d hd hdraw => ?_, fun hall => ?_⟩⟩⟩
  · subst hd
    rw [exec_hnext hf hn hi hb, hashNext_drawn hl hk hpre hdraw, endNext_top_some,
      recordRetries_of_le (hk.trans (retryMax_le s))]
    rfl
  · obtain ⟨g, sel, hnext⟩ := hashNext_exhausted (top := true) hl hall
    have hready : (recordRetries s.retryMax.toNat (setFoldSel sel (setHash h.toNat g s))).fault = false := hf
    rw [exec_hnext hf hn hi hb, hnext, endNext_top_none, Sub.answer_raised, raiseFault_eq hready]
    exact ⟨_, rfl, rfl, rfl, recordRetries_exhausted_rcnt s (setFoldSel sel (setHash h.toNat g s)), rfl, rfl⟩

end Sys2Proof.Machine

/-! PROOFS of the family 43_generators.md: the fields of a generator instance, its recurrences, and GSTEP, GSPIN and
GNEXT. -/

namespace Sys2Proof

/-- A register above 6, or an element of a scalar, names no generator field (30_encoding.md R77). -/
theorem genFieldOf_error {r e : BitVec 8} (h : 6 < r.toNat ∨ r ≠ 0 ∧ e ≠ 0) : ∃ why, genFieldOf r e = .error why := by
  cases hf : genFieldOf r e with
  | error why => exact ⟨why, rfl⟩
  | ok f =>
    obtain ⟨rfl, rfl⟩ := genFieldOf_eq_ok hf
    cases f <;> simp [GenField.number, GenField.elem] at h

/-- The words of GWR and GRD that name no generator field are refused (30_encoding.md R77). -/
theorem decode_noSuchGenField {opc r e : BitVec 8} (i : BitVec 8) (hopc : opc = 0x30 ∨ opc = 0x31)
    (h : 6 < r.toNat ∨ r ≠ 0 ∧ e ≠ 0) : ∃ why, decode (wordR opc i r e) = .error why := by
  obtain ⟨why, hwhy⟩ := genFieldOf_error h
  refine ⟨why, ?_⟩
  rw [decode, opcOf_wordR, regOf_wordR, elemOf_wordR, hwhy]
  rcases hopc with rfl | rfl
  · rfl
  · rfl

/-- `GNEXT` without steps is no command (30_encoding.md R77). -/
theorem decode_gnext_zero_steps (i : BitVec 8) (b : BitVec 12) : decode (wordN 0x34 i 0 b) = .error .stepsZero := by
  rw [decode, opcOf_wordN]
  exact if_neg (by simp)

end Sys2Proof

namespace Sys2Proof.Machine

/-! The fields of a generator instance (43_generators.md R134, R135), one equation per field. -/

/-- A register write whose check is a proposition. -/
theorem checkedWrite_decide (bad : Prop) [Decidable bad] (c : FaultCode) (s t : State) :
    checkedWrite (decide bad) c s t = if bad then .raised c s else .ok () t := by
  by_cases h : bad
  · rw [if_pos h, checkedWrite_of_bad (decide_eq_true h)]
  · rw [if_neg h, checkedWrite_of_ok (decide_eq_false h)]

theorem writeGenField_noInstance {i v : Nat} {s : State} (hi : s.params.nmax ≤ i) (f : GenField) :
    writeGenField i f v s = .raised .operand s := if_pos hi

theorem writeGenField_vec {i v : Nat} {s : State} (hi : i < s.params.nmax) (e : BitVec 8) :
    writeGenField i (.vec e) v s =
      if e.toNat < s.depth ∧ v < 2 ^ s.w then
        .ok () (setGen i { genAt s i with vec := (genAt s i).vec.set e.toNat v } s)
      else .raised .operand s := by
  simp only [writeGenField, if_neg (Nat.not_le.2 hi), checkedWrite_decide]
  by_cases he : s.depth ≤ e.toNat
  · rw [if_pos he, if_neg fun hok => Nat.not_le.2 hok.1 he]
  by_cases hv : 2 ^ s.w ≤ v
  · rw [if_neg he, if_pos hv, if_neg fun hok => Nat.not_le.2 hok.2 hv]
  · rw [if_neg he, if_neg hv, if_pos ⟨Nat.not_le.1 he, Nat.not_le.1 hv⟩]

theorem writeGenField_index {i v : Nat} {s : State} (hi : i < s.params.nmax) :
    writeGenField i .index v s =
      if s.depth ≤ v then .raised .operand s else .ok () (setGen i { genAt s i with index := v } s) :=
  (if_neg (Nat.not_le.2 hi)).trans (checkedWrite_decide ..)

theorem writeGenField_mult {i v : Nat} {s : State} (hi : i < s.params.nmax) :
    writeGenField i .mult v s =
      if 2 ^ s.w ≤ v then .raised .operand s else .ok () (setGen i { genAt s i with mult := v } s) :=
  (if_neg (Nat.not_le.2 hi)).trans (checkedWrite_decide ..)

theorem writeGenField_add {i v : Nat} {s : State} (hi : i < s.params.nmax) :
    writeGenField i .add v s =
      if 2 ^ s.w ≤ v then .raised .operand s else .ok () (setGen i { genAt s i with add := v } s) :=
  (if_neg (Nat.not_le.2 hi)).trans (checkedWrite_decide ..)

theorem writeGenField_lag {i v : Nat} {s : State} (hi : i < s.params.nmax) :
    writeGenField i .lag v s =
      if 65536 ≤ v then .raised .operand s else .ok () (setGen i { genAt s i with lag := BitVec.ofNat 16 v } s) :=
  (if_neg (Nat.not_le.2 hi)).trans (checkedWrite_decide ..)

theorem writeGenField_carry {i v : Nat} {s : State} (hi : i < s.params.nmax) :
    writeGenField i .carry v s =
      if 2 ^ s.w ≤ v then .raised .operand s else .ok () (setGen i { genAt s i with carry := v } s) :=
  (if_neg (Nat.not_le.2 hi)).trans (checkedWrite_decide ..)

/-- The fields of `W` bits refuse a wider operand (43_generators.md R134). -/
theorem writeGenField_tooWide {i v : Nat} {s : State} {f : GenField} (hi : i < s.params.nmax) (hv : 2 ^ s.w ≤ v)
    (hf : f = .mult ∨ f = .add ∨ f = .carry) : writeGenField i f v s = .raised .operand s := by
  rcases hf with rfl | rfl | rfl
  · exact (writeGenField_mult hi).trans (if_pos hv)
  · exact (writeGenField_add hi).trans (if_pos hv)
  · exact (writeGenField_carry hi).trans (if_pos hv)

theorem writeGenField_variant {i v : Nat} {s : State} {x : GenVariant} (hi : i < s.params.nmax)
    (hx : GenVariant.ofNumber v = some x) :
    writeGenField i .variant v s = .ok () (setGen i { genAt s i with variant := x } s) := by
  rw [writeGenField, if_neg (Nat.not_le.2 hi)]
  simp only [hx]

/-- The numbers of the variants (10_state.md R26). -/
theorem GenVariant.ofNumber_of_mem {v : Nat} {x : GenVariant}
    (h : (v, x) ∈ [(0, GenVariant.lcg), (1, .mcg), (2, .mwc), (3, .lfib), (4, .fsr)]) :
    GenVariant.ofNumber v = some x := by
  have hall : ∀ row ∈ [(0, GenVariant.lcg), (1, .mcg), (2, .mwc), (3, .lfib), (4, .fsr)],
      GenVariant.ofNumber row.1 = some row.2 := by decide
  exact hall (v, x) h

theorem GenVariant.ofNumber_eq_none {v : Nat} (h : 4 < v) : GenVariant.ofNumber v = none := by
  obtain ⟨k, rfl⟩ := Nat.exists_eq_add_of_le' h
  rfl

theorem writeGenField_noVariant {i v : Nat} {s : State} (hi : i < s.params.nmax) (hv : 4 < v) :
    writeGenField i .variant v s = .raised .config s := by
  rw [writeGenField, if_neg (Nat.not_le.2 hi)]
  simp only [GenVariant.ofNumber_eq_none hv]

theorem readGenField_noInstance {i : Nat} {s : State} (hi : s.params.nmax ≤ i) (f : GenField) :
    readGenField i f s = .raised .operand s := if_pos hi

theorem readGenField_vec {i : Nat} {s : State} (hi : i < s.params.nmax) (e : BitVec 8) :
    readGenField i (.vec e) s =
      if s.depth ≤ e.toNat then .raised .operand s else .ok (slot (genAt s i).vec e.toNat) s := by
  rw [readGenField, if_neg (Nat.not_le.2 hi)]

/-- The table of R134 gives the variant its number of 10_state.md R26. -/
theorem genScalars_eq (g : Gen) :
    genScalars g =
      [(1, .index, g.index), (2, .mult, g.mult), (3, .add, g.add), (4, .lag, g.lag.toNat), (5, .carry, g.carry),
        (6, .variant, g.variant.number)] := by
  unfold genScalars
  cases g.variant <;> rfl

/-- The scalar fields read as the table of R134 lists them. -/
theorem readGenField_scalar {i : Nat} {s : State} (hi : i < s.params.nmax) :
    ∀ row ∈ genScalars (genAt s i), row.2.1.number.toNat = row.1 ∧ readGenField i row.2.1 s = .ok row.2.2 s := by
  have hn : ¬ s.params.nmax ≤ i := Nat.not_le.2 hi
  rw [genScalars_eq]
  simp only [List.forall_mem_cons, List.not_mem_nil, false_imp_iff, implies_true, and_true]
  exact ⟨⟨rfl, if_neg hn⟩, ⟨rfl, if_neg hn⟩, ⟨rfl, if_neg hn⟩, ⟨rfl, if_neg hn⟩, ⟨rfl, if_neg hn⟩, ⟨rfl, if_neg hn⟩⟩

/-! GWR and GRD (43_generators.md R134, R135). -/

theorem exec_gwr {g : BitVec 8} {f : GenField} {s : State} (hf : s.fault = false) :
    exec (.gwr g f) s = (writeGenField g.toNat f s.din s).finish := by
  rw [exec, execGwr, unlessFaulted_ready hf]

theorem exec_gwr_ok {g : BitVec 8} {f : GenField} {s t : State} (hf : s.fault = false)
    (hw : writeGenField g.toNat f s.din s = .ok () t) : exec (.gwr g f) s = .next (noValue t) := by
  rw [exec_gwr hf, hw, Sub.finish_ok]

theorem exec_gwr_raised {g : BitVec 8} {f : GenField} {c : FaultCode} {s : State} (hf : s.fault = false)
    (hw : writeGenField g.toNat f s.din s = .raised c s) : exec (.gwr g f) s = .next (faultedWith c.code s) := by
  rw [exec_gwr hf, hw, Sub.finish_raised, raiseFault_eq hf]

/-- Settles O35: the words, then one equation of the field write per field and check. -/
theorem gwrWritesTheFieldOrFaults : Obligations.GwrWritesTheFieldOrFaults := by
  refine ⟨fun g f => encodedWordIsTheRulesWord (.gwr g f), fun _ => ⟨rfl, rfl⟩, by decide, fun i r e h => ?_,
    fun g s hf => ⟨fun hi f => exec_gwr_raised hf (writeGenField_noInstance hi f), fun hi =>
      ⟨fun e => ⟨fun hok => ?_, fun hbad => ?_⟩, fun hv => ?_, fun hv => ?_, fun hv => ⟨?_, ?_, ?_⟩, fun hv f hwide => ?_,
        fun hv => ?_, fun hv => ?_, fun x hx => ?_, fun hv => ?_⟩⟩⟩
  · obtain ⟨_, he⟩ := decode_noSuchGenField i (.inl rfl) h
    exact raisesIllegal_of_error he
  · exact exec_gwr_ok hf ((writeGenField_vec hi e).trans (if_pos hok))
  · exact exec_gwr_raised hf ((writeGenField_vec hi e).trans (if_neg hbad))
  · exact exec_gwr_ok hf ((writeGenField_index hi).trans (if_neg (Nat.not_le.2 hv)))
  · exact exec_gwr_raised hf ((writeGenField_index hi).trans (if_pos hv))
  · exact exec_gwr_ok hf ((writeGenField_mult hi).trans (if_neg (Nat.not_le.2 hv)))
  · exact exec_gwr_ok hf ((writeGenField_add hi).trans (if_neg (Nat.not_le.2 hv)))
  · exact exec_gwr_ok hf ((writeGenField_carry hi).trans (if_neg (Nat.not_le.2 hv)))
  · exact exec_gwr_raised hf (writeGenField_tooWide hi hv hwide)
  · exact exec_gwr_ok hf ((writeGenField_lag hi).trans (if_neg (Nat.not_le.2 hv)))
  · exact exec_gwr_raised hf ((writeGenField_lag hi).trans (if_pos hv))
  · exact exec_gwr_ok hf (writeGenField_variant hi (GenVariant.ofNumber_of_mem hx))
  · exact exec_gwr_raised hf (writeGenField_noVariant hi hv)

theorem exec_grd {g : BitVec 8} {f : GenField} {s : State} (hf : s.fault = false) :
    exec (.grd g f) s = (readGenField g.toNat f s).answer := by
  rw [exec, execGrd, unlessFaulted_ready hf]

theorem exec_grd_ok {g : BitVec 8} {f : GenField} {v : Nat} {s : State} (hf : s.fault = false)
    (hr : readGenField g.toNat f s = .ok v s) : exec (.grd g f) s = .next (returnValue v s) := by
  rw [exec_grd hf, hr, Sub.answer_ok]

theorem exec_grd_raised {g : BitVec 8} {f : GenField} {c : FaultCode} {s : State} (hf : s.fault = false)
    (hr : readGenField g.toNat f s = .raised c s) : exec (.grd g f) s = .next (faultedWith c.code s) := by
  rw [exec_grd hf, hr, Sub.answer_raised, raiseFault_eq hf]

/-- Settles O36: the words, then one equation of the field read per field and check. -/
theorem grdReturnsTheField : Obligations.GrdReturnsTheField := by
  refine ⟨fun g f => encodedWordIsTheRulesWord (.grd g f), fun _ => ⟨rfl, rfl⟩, by decide, fun i r e h => ?_,
    fun g s hf => ⟨fun hi f => exec_grd_raised hf (readGenField_noInstance hi f), fun hi =>
      ⟨fun e he => ?_, fun e he => ?_, fun row hrow => ?_⟩⟩⟩
  · obtain ⟨_, he⟩ := decode_noSuchGenField i (.inr rfl) h
    exact raisesIllegal_of_error he
  · exact exec_grd_raised hf ((readGenField_vec hi e).trans (if_pos he))
  · exact exec_grd_ok hf ((readGenField_vec hi e).trans (if_neg (Nat.not_le.2 he)))
  · obtain ⟨hnumber, hread⟩ := readGenField_scalar hi row hrow
    exact ⟨hnumber, exec_grd_ok hf hread⟩

/-! The recurrences (43_generators.md R126 to R130), one equation per variant. -/

theorem recurrence_lcg {w vp vq : Nat} {g : Gen} (h : g.variant = .lcg) :
    recurrence w g vp vq = ((vq * g.mult + g.add) % 2 ^ w, g.carry) := by
  rw [recurrence, h, ← and_mask]

theorem recurrence_mcg {w vp vq : Nat} {g : Gen} (h : g.variant = .mcg) :
    recurrence w g vp vq = (vq * g.mult % 2 ^ w, g.carry) := by
  rw [recurrence, h, ← and_mask]

theorem recurrence_mwc {w vp vq : Nat} {g : Gen} (h : g.variant = .mwc) :
    recurrence w g vp vq = ((vq * g.mult + g.carry) % 2 ^ w, (vq * g.mult + g.carry) / 2 ^ w) := by
  rw [recurrence, h, ← and_mask, ← Nat.shiftRight_eq_div_pow]

theorem recurrence_lfib {w vp vq : Nat} {g : Gen} (h : g.variant = .lfib) :
    recurrence w g vp vq = ((vp + vq) % 2 ^ w, g.carry) := by
  rw [recurrence, h, ← and_mask]

theorem recurrence_fsr {w vp vq : Nat} {g : Gen} (h : g.variant = .fsr) :
    recurrence w g vp vq = (vp ^^^ vq, g.carry) := by
  rw [recurrence, h]

/-- A raw step puts what the recurrence gives into the instance and moves the cursor (43_generators.md R131). -/
theorem genStep_of_recurrence {w depth v c : Nat} {g : Gen}
    (h : recurrence w g (slot g.vec g.index) (slot g.vec ((g.index + g.lag.toNat) % depth)) = (v, c)) :
    genStep w depth g =
      (v, { g with vec := g.vec.set g.index v, index := (g.index + 1) % depth, carry := c }) := by
  simp only [genStep, h]

/-! GSTEP (43_generators.md R136). -/

theorem exec_gstep_noInstance {g : BitVec 8} {s : State} (hf : s.fault = false) (hi : s.params.nmax ≤ g.toNat) :
    exec (.gstep g) s = .next (faultedWith FaultCode.operand.code s) := by
  rw [exec, execGstep, unlessFaulted_ready hf, if_pos hi, raiseFault_eq hf]

theorem exec_gstep {g : BitVec 8} {s : State} {v : Nat} {x : Gen} (hf : s.fault = false) (hi : g.toNat < s.params.nmax)
    (hx : genStep s.w s.depth (genAt s g.toNat) = (v, x)) :
    exec (.gstep g) s = .next (returnValue v (setGen g.toNat x s)) := by
  rw [exec, execGstep, unlessFaulted_ready hf, if_neg (Nat.not_le.2 hi), hx]

/-- Settles O37: the hypothesis of the instance's own variant is the equation of its recurrence. -/
theorem gstepRunsTheRecurrence : Obligations.GstepRunsTheRecurrence := by
  refine ⟨fun g => encodedWordIsTheRulesWord (.gstep g), fun g s hf => ⟨exec_gstep_noInstance hf, ?_⟩⟩
  rintro hi x p xp xq v c rfl rfl rfl rfl hlcg hmcg hmwc hlfib hfsr
  refine exec_gstep hf hi (genStep_of_recurrence ?_)
  cases hx : (genAt s g.toNat).variant with
  | lcg =>
    obtain ⟨rfl, rfl⟩ := hlcg hx
    exact recurrence_lcg hx
  | mcg =>
    obtain ⟨rfl, rfl⟩ := hmcg hx
    exact recurrence_mcg hx
  | mwc =>
    obtain ⟨rfl, rfl⟩ := hmwc hx
    exact recurrence_mwc hx
  | lfib =>
    obtain ⟨rfl, rfl⟩ := hlfib hx
    exact recurrence_lfib hx
  | fsr =>
    obtain ⟨rfl, rfl⟩ := hfsr hx
    exact recurrence_fsr hx

/-! GSPIN (43_generators.md R137). -/

theorem exec_gspin_rejected {g : BitVec 8} {s : State} (hf : s.fault = false)
    (hbad : s.params.nmax ≤ g.toNat ∨ 2 ^ 32 ≤ s.din) :
    exec (.gspin g) s = .next (faultedWith FaultCode.operand.code s) := by
  rw [exec, execGspin, unlessFaulted_ready hf, raiseFault_eq hf]
  by_cases hi : s.params.nmax ≤ g.toNat
  · rw [if_pos hi]
  · rw [if_neg hi, if_pos (hbad.resolve_left hi)]

theorem exec_gspin {g : BitVec 8} {s : State} (hf : s.fault = false) (hi : g.toNat < s.params.nmax)
    (hd : s.din < 2 ^ 32) :
    exec (.gspin g) s =
      .next (noValue (setGen g.toNat (genSpin s.w s.depth s.din (genAt s g.toNat)) s)) := by
  rw [exec, execGspin, unlessFaulted_ready hf, if_neg (Nat.not_le.2 hi), if_neg (Nat.not_le.2 hd)]

/-- Settles O38: the two checks, then the spin is the raw step iterated (`genSpin_eq_iterate`). -/
theorem gspinIteratesTheRawStep : Obligations.GspinIteratesTheRawStep := by
  refine ⟨fun g => encodedWordIsTheRulesWord (.gspin g), fun g s hf => ⟨exec_gspin_rejected hf, fun hi hd => ?_⟩⟩
  rw [exec_gspin hf hi hd, genSpin_eq_iterate]
  rfl

/-! GNEXT (43_generators.md R138). -/

theorem exec_gnext_rejected {g : BitVec 8} {n : BitVec 4} {b : BitVec 12} {s : State} (hf : s.fault = false)
    (hn : n ≠ 0) (hbad : s.params.nmax ≤ g.toNat ∨ b.toNat < 2) :
    exec (.gnext g n b) s = .next (faultedWith FaultCode.operand.code s) := by
  rw [exec, execGnext, unlessFaulted_ready hf, if_neg hn, raiseFault_eq hf]
  by_cases hi : s.params.nmax ≤ g.toNat
  · rw [if_pos hi]
  · rw [if_neg hi, if_pos (hbad.resolve_left hi)]

/-- With its checks passed `GNEXT` ends as `GNext` ends. -/
theorem exec_gnext {g : BitVec 8} {n : BitVec 4} {b : BitVec 12} {s : State} (hf : s.fault = false) (hn : n ≠ 0)
    (hi : g.toNat < s.params.nmax) (hb : 2 ≤ b.toNat) :
    exec (.gnext g n b) s = (genNext g.toNat b.toNat n.toNat true s).answer := by
  rw [exec, execGnext, unlessFaulted_ready hf, if_neg hn, if_neg (Nat.not_le.2 hi), if_neg (Nat.not_lt.2 hb)]

/-- Settles O39: the checks, then the two ends of `GNext` (`genNext_drawn`, `genNext_exhausted`). -/
theorem gnextDrawsUntilNotDegenerate : Obligations.GnextDrawsUntilNotDegenerate := by
  refine ⟨fun g n b => encodedWordIsTheRulesWord (.gnext g n b),
    fun g b => raisesIllegal_of_error (decode_gnext_zero_steps g b),
    fun g n b s hl hf hn => ⟨exec_gnext_rejected hf hn, fun hi hb => ⟨fun k hk hpre d hd hdraw => ?_, fun hall => ?_⟩⟩⟩
  · subst hd
    rw [exec_gnext hf hn hi hb, genNext_drawn hl hk hpre hdraw, endNext_top_some,
      recordRetries_of_le (hk.trans (retryMax_le s))]
    rfl
  · obtain ⟨x, sel, hnext⟩ := genNext_exhausted (top := true) hl hall
    have hready : (recordRetries s.retryMax.toNat (setFoldSel sel (setGen g.toNat x s))).fault = false := hf
    rw [exec_gnext hf hn hi hb, hnext, endNext_top_none, Sub.answer_raised, raiseFault_eq hready]
    exact ⟨_, rfl, rfl, rfl, recordRetries_exhausted_rcnt s (setFoldSel sel (setGen g.toNat x s)), rfl, rfl⟩

end Sys2Proof.Machine

/-! PROOFS of the family 44_composite.md: the draws of a sub-generator, CNEXT, ENC and DEC, and ENCRYPT undone by
DECRYPT. -/

namespace Sys2Proof

/-- `CNEXT` without steps is no command (30_encoding.md R77). -/
theorem decode_cnext_zero_steps (b : BitVec 12) : decode (wordN 0x40 0 0 b) = .error .stepsZero := by
  rw [decode, opcOf_wordN]
  simp [need]

/-- ENC and DEC take no word without steps or with another width (30_encoding.md R77). -/
theorem decodeByte_error {opc : BitVec 8} {n : BitVec 4} {b : BitVec 12} (j : BitVec 4 → Instr) (h : n = 0 ∨ b ≠ 8) :
    ∃ why, decodeByte (wordN opc 0 n b) j = .error why := by
  cases hd : decodeByte (wordN opc 0 n b) j with
  | error why => exact ⟨why, rfl⟩
  | ok i =>
    obtain ⟨m, hm, hword, -⟩ := decodeByte_eq_ok.1 hd
    rw [opcOf_wordN] at hword
    obtain ⟨-, rfl, rfl⟩ := wordN_inj.1 hword
    exact absurd rfl (h.resolve_left hm)

theorem decode_noSuchByte {n : BitVec 4} {b : BitVec 12} (h : n = 0 ∨ b ≠ 8) :
    (∃ why, decode (wordN 0x41 0 n b) = .error why) ∧ ∃ why, decode (wordN 0x42 0 n b) = .error why := by
  rw [decode, decode, opcOf_wordN, opcOf_wordN]
  exact ⟨decodeByte_error .enc h, decodeByte_error .dec h⟩

end Sys2Proof

namespace Sys2Proof.Machine

/-! The draws of a sub-generator (44_composite.md R141). -/

theorem subNext_of_generators {i bw : Nat} {s : State} (h : s.mode = .generators) :
    subNext i bw s = genNext i bw 1 false s := by rw [subNext, h]

theorem subNext_of_hashes {i bw : Nat} {s : State} (h : s.mode = .hashes) :
    subNext i bw s = hashNext i bw 1 false s := by rw [subNext, h]

/-- Settles O41: one `next` of one step, in either mode; no inner call writes `RCNT` (`endNext`). -/
theorem subNextDrawsFromTheSelectedKind : Obligations.SubNextDrawsFromTheSelectedKind := by
  refine fun i bw s hl _ => ⟨fun hm => ⟨fun k hk hpre hd => ?_, fun hall => ?_⟩,
    fun hm => ⟨fun k hk hpre hd => ?_, fun hall => ?_⟩⟩
  · rw [subNext_of_generators hm, genNext_drawn hl hk hpre hd]
    rfl
  · obtain ⟨g, sel, hnext⟩ := genNext_exhausted (top := false) hl hall
    exact ⟨_, (subNext_of_generators hm).trans hnext, rfl, rfl⟩
  · rw [subNext_of_hashes hm, hashNext_drawn hl hk hpre hd]
    rfl
  · obtain ⟨h, sel, hnext⟩ := hashNext_exhausted (top := false) hl hall
    exact ⟨_, (subNext_of_hashes hm).trans hnext, rfl, rfl⟩

/-! `CNext` and the commands that return a function of its value (44_composite.md R142 to R145). -/

/-- A command that returns `f r` for the value `r` of `CNext`. -/
def answerOfNext (bw steps : Nat) (f : Nat → Nat) (s : State) : Result :=
  ((compositeNext bw steps s).bind fun r t => .ok (f r) t).answer

theorem answerOfNext_ok {bw steps r : Nat} {f : Nat → Nat} {s t : State} (h : compositeNext bw steps s = .ok r t) :
    answerOfNext bw steps f s = .next (returnValue (f r) t) := by
  rw [answerOfNext, h, Sub.bind_ok, Sub.answer_ok]

/-- `CNext` raises `E_INTEGRITY` alone and leaves the fault record and the latch to the end of the command. -/
theorem answerOfNext_raised {bw steps : Nat} {f : Nat → Nat} {c : FaultCode} {s t : State} (hf : s.fault = false)
    (h : compositeNext bw steps s = .raised c t) :
    answerOfNext bw steps f s = .next (faultedWith FaultCode.integrity.code t) ∧ t.res = s.res := by
  have hrecord := (compositeNext_frame bw steps s).record
  rw [h] at hrecord
  obtain ⟨-, -, -, -, hres, hfault, -, -, -⟩ := hrecord
  have hready : t.fault = false := hfault.trans hf
  rw [answerOfNext, h, Sub.bind_raised, Sub.answer_raised, compositeNext_fault h, raiseFault_eq hready]
  exact ⟨rfl, hres⟩

/-- Without a fault at the end, `CNext` returned a value. -/
theorem answerOfNext_ready {bw steps : Nat} {f : Nat → Nat} {s t : State} (hf : s.fault = false)
    (h : answerOfNext bw steps f s = .next t) (ht : t.fault = false) :
    ∃ r u, compositeNext bw steps s = .ok r u ∧ t = returnValue (f r) u := by
  cases hc : compositeNext bw steps s with
  | ok r u =>
    rw [answerOfNext_ok hc] at h
    cases h
    exact ⟨r, u, rfl, rfl⟩
  | raised c u =>
    rw [(answerOfNext_raised hf hc).1] at h
    cases h
    cases ht

section

variable {bw steps : Nat} {f : Nat → Nat} {s : State}

/-- The first accepted attempt gives the value, and `RCNT` is the number of attempts before it. -/
theorem answerOfNext_of_draws {k r : Nat} {t : State} (hb : ∃ k, bw = 2 ^ k) (hk : k ≤ s.retryMax.toNat)
    (h : CompositeDraws bw steps s k r t) :
    answerOfNext bw steps f s = .next { t with rcnt := BitVec.ofNat 8 k, dout := f r, res := f r } := by
  rw [answerOfNext_ok (compositeLoop_of_draws hb hk h), Nat.zero_add, recordRetries_of_le (hk.trans (retryMax_le s))]
  rfl

/-- After `RETRY_MAX + 1` rejected attempts the command ends in `E_INTEGRITY` with `RCNT = RETRY_MAX`. -/
theorem answerOfNext_of_rejected {u : State} (hb : ∃ k, bw = 2 ^ k) (hf : s.fault = false)
    (h : RejectedAttempts bw steps (s.retryMax.toNat + 1) s u) :
    ∃ t, answerOfNext bw steps f s = .next t ∧ t.fault = true ∧ t.fcode = 4 ∧ t.rcnt = s.retryMax ∧ t.dout = 0 ∧
      t.res = s.res := by
  have hraised := compositeLoop_of_rejected hb (k0 := 0) h
  rw [Nat.zero_add] at hraised
  obtain ⟨hanswer, hres⟩ := answerOfNext_raised (f := f) hf hraised
  exact ⟨_, hanswer, rfl, rfl, recordRetries_exhausted_rcnt s u, rfl, hres⟩

/-- With no accepted attempt the command ends in `E_INTEGRITY`; `RCNT` is as before unless every attempt was rejected. -/
theorem answerOfNext_of_no_draw (hb : ∃ k, bw = 2 ^ k) (hf : s.fault = false)
    (h : ¬ ∃ k r t, k ≤ s.retryMax.toNat ∧ CompositeDraws bw steps s k r t) :
    ∃ t, answerOfNext bw steps f s = .next t ∧ t.fault = true ∧ t.fcode = 4 ∧ t.dout = 0 ∧ t.res = s.res ∧
      ((¬ ∃ u, RejectedAttempts bw steps (s.retryMax.toNat + 1) s u) → t.rcnt = s.rcnt) := by
  cases hc : compositeNext bw steps s with
  | ok r t =>
    obtain ⟨k, u, hk, hdraws⟩ := compositeLoop_draws hb hc
    exact absurd ⟨k, r, u, hk, hdraws⟩ h
  | raised c t =>
    obtain ⟨hanswer, hres⟩ := answerOfNext_raised (f := f) hf hc
    refine ⟨_, hanswer, rfl, rfl, rfl, hres, fun hrejected => ?_⟩
    exact (compositeLoop_raised hb hc).resolve_left fun ⟨u, hu, _⟩ => hrejected ⟨u, hu⟩

end

/-! CNEXT (44_composite.md R143). -/

/-- The operands `CNEXT` accepts: a power of two from 2, and an accumulator that fits the port. -/
def CnextAccepts (steps width port : Nat) : Prop := 2 ≤ width ∧ (∃ k, width = 2 ^ k) ∧ steps * width ≤ port

theorem exec_cnext_rejected {n : BitVec 4} {b : BitVec 12} {s : State} (hf : s.fault = false) (hn : n ≠ 0)
    (hbad : ¬ CnextAccepts n.toNat b.toNat (xw s)) :
    exec (.cnext n b) s = .next (faultedWith FaultCode.operand.code s) := by
  rw [exec, execCnext, unlessFaulted_ready hf, if_neg hn, raiseFault_eq hf]
  by_cases hw : (b.toNat < 2 || !onePower b.toNat) = true
  · rw [if_pos hw]
  · rw [if_neg hw, if_pos]
    simp only [Bool.or_eq_true, decide_eq_true_eq, Bool.not_eq_true', not_or, Nat.not_lt, Bool.not_eq_false] at hw
    obtain ⟨h2, hpow⟩ := hw
    exact Nat.not_le.1 fun hx => hbad ⟨h2, (onePower_iff (by omega)).1 hpow, hx⟩

/-- With its checks passed `CNEXT` returns the value of `CNext` as it is. -/
theorem exec_cnext {n : BitVec 4} {b : BitVec 12} {s : State} (hf : s.fault = false) (hn : n ≠ 0)
    (hok : CnextAccepts n.toNat b.toNat (xw s)) : exec (.cnext n b) s = answerOfNext b.toNat n.toNat id s := by
  obtain ⟨h2, hpow, hx⟩ := hok
  have hone : onePower b.toNat = true := (onePower_iff (by omega)).2 hpow
  have hw : ¬ (b.toNat < 2 || !onePower b.toNat) = true := by simpa [hone] using Nat.lt_of_succ_le h2
  rw [exec, execCnext, unlessFaulted_ready hf, if_neg hn, if_neg hw, if_neg (Nat.not_lt.2 hx), answerOfNext]
  cases compositeNext b.toNat n.toNat s with
  | ok r t => rfl
  | raised c t => rfl

/-- Settles O42: the checks, then the three ends of `CNext`. -/
theorem cnextPlacesTheSelectedBits : Obligations.CnextPlacesTheSelectedBits := by
  refine ⟨fun n b => encodedWordIsTheRulesWord (.cnext n b),
    fun b => raisesIllegal_of_error (decode_cnext_zero_steps b),
    fun n b s hf hn => ⟨exec_cnext_rejected hf hn, fun h2 hb hx => ?_⟩⟩
  rw [exec_cnext hf hn ⟨h2, hb, hx⟩]
  exact ⟨fun _ _ _ hk => answerOfNext_of_draws hb hk, fun _ => answerOfNext_of_rejected hb hf,
    answerOfNext_of_no_draw hb hf⟩

/-! ENC and DEC (44_composite.md R144, R145): one function under two opcodes, and what no ciphertext byte is. -/

section

variable {i : Instr} {n : BitVec 4} {s : State}

/-- `ENC` and `DEC` with their checks, in one form. -/
theorem exec_cipher_checks (hi : i = .enc n ∨ i = .dec n) :
    exec i s = unlessFaulted s (if n = 0 then raiseFault .illegal s
      else if 255 < s.din then raiseFault .operand s else answerOfNext 8 n.toNat (s.din ^^^ ·) s) := by
  rcases hi with rfl | rfl
  · rfl
  · rfl

theorem exec_cipher_tooWide (hi : i = .enc n ∨ i = .dec n) (hf : s.fault = false) (hn : n ≠ 0) (hd : 255 < s.din) :
    exec i s = .next (faultedWith FaultCode.operand.code s) := by
  rw [exec_cipher_checks hi, unlessFaulted_ready hf, if_neg hn, if_pos hd, raiseFault_eq hf]

theorem exec_cipher (hi : i = .enc n ∨ i = .dec n) (hf : s.fault = false) (hn : n ≠ 0) (hd : s.din ≤ 255) :
    exec i s = answerOfNext 8 n.toNat (s.din ^^^ ·) s := by
  rw [exec_cipher_checks hi, unlessFaulted_ready hf, if_neg hn, if_neg (Nat.not_lt.2 hd)]

theorem exec_cipher_faulted (hi : i = .enc n ∨ i = .dec n) (hf : s.fault = true) : exec i s = .next (refuseCommand s) := by
  rw [exec_cipher_checks hi, unlessFaulted_faulted hf]

theorem cipher_wellFormed (hi : i = .enc n ∨ i = .dec n) (hn : n ≠ 0) : i.wellFormed = true := by
  rcases hi with rfl | rfl
  · exact bne_iff_ne.2 hn
  · exact bne_iff_ne.2 hn

end

/-- A keystream byte is a byte (44_composite.md R142). -/
theorem keystream_lt {steps k : Nat} {s u : State} (h : compositeNext 8 steps s = .ok k u) : k < 256 :=
  (compositeNext_value h).1

theorem xor_byte_lt {d k : Nat} (hd : d < 256) (hk : k < 256) : d ^^^ k < 256 := Nat.xor_lt_two_pow (n := 8) hd hk

/-- The keystream byte, the rejected attempts and the state left are the same for every operand. -/
theorem CompositeDraws.withDin {bw steps k r : Nat} {s t : State} (hb : ∃ k, bw = 2 ^ k) (d : Nat)
    (h : CompositeDraws bw steps s k r t) : CompositeDraws bw steps { s with din := d } k r { t with din := d } := by
  have hports := h.ports s.pending s.cmd d s.dout s.res hb
  obtain ⟨_, _, _, _, _, rfl⟩ := h.frame hb
  exact hports

/-- Settles O43: the checks, then the three ends of `CNext(8, steps)`. -/
theorem encAndDecXorTheKeystreamByte : Obligations.EncAndDecXorTheKeystreamByte := by
  refine ⟨fun n => ⟨encodedWordIsTheRulesWord (.enc n), encodedWordIsTheRulesWord (.dec n)⟩, fun n b h => ?_,
    fun n s hf hn i hi => ⟨exec_cipher_tooWide hi hf hn, fun hd => ?_⟩⟩
  · obtain ⟨⟨_, henc⟩, _, hdec⟩ := decode_noSuchByte h
    exact ⟨raisesIllegal_of_error henc, raisesIllegal_of_error hdec⟩
  · have hb : ∃ k, 8 = 2 ^ k := ⟨3, rfl⟩
    rw [exec_cipher hi hf hn hd]
    exact ⟨fun _ _ _ hk => answerOfNext_of_draws hb hk, fun _ => answerOfNext_of_rejected hb hf,
      answerOfNext_of_no_draw hb hf, fun d _ _ _ h => h.withDin hb d⟩

/-- The complement of a number of `w` bits is its XOR with all ones. -/
theorem complement_eq_xor {w d : Nat} (hd : d < 2 ^ w) : 2 ^ w - 1 - d = d ^^^ (2 ^ w - 1) := by
  refine Nat.eq_of_testBit_eq fun i => ?_
  rw [show 2 ^ w - 1 - d = 2 ^ w - (d + 1) by omega, Nat.testBit_two_pow_sub_succ hd, Nat.testBit_xor,
    Nat.testBit_two_pow_sub_one]
  by_cases hi : i < w
  · simp [hi]
  · have hbit : d.testBit i = false := Nat.testBit_lt_two_pow
      (lt_of_lt_of_le hd (Nat.pow_le_pow_right (by decide) (Nat.not_lt.1 hi)))
    simp [hi, hbit]

/-- Settles O44: an accepted keystream byte is neither 0 nor 255, and XOR with it moves the operand accordingly. -/
theorem encNeverReturnsItsOperand : Obligations.EncNeverReturnsItsOperand := by
  intro n s t hf hcchk hn hd he ht
  rw [exec_cipher (.inl rfl) hf hn (Nat.le_of_lt_succ hd)] at he
  obtain ⟨k, u, hk, rfl⟩ := answerOfNext_ready hf he ht
  have hk_eq : s.din ^^^ (s.din ^^^ k) = k := Nat.xor_xor_cancel_left s.din k
  have haccepted : ¬ Degenerate 8 k := by
    rw [← degenerate_iff, (compositeNext_value hk).2 hcchk]
    exact Bool.false_ne_true
  refine ⟨xor_byte_lt hd (keystream_lt hk), fun hsame => haccepted (.inl ?_), fun hcomplement => haccepted (.inr ?_)⟩
  · rw [returnValue_dout] at hsame
    rw [← hk_eq, hsame, Nat.xor_self]
  · rw [returnValue_dout] at hcomplement
    rw [← hk_eq, hcomplement]
    exact (congrArg (s.din ^^^ ·) (complement_eq_xor (w := 8) hd)).trans (Nat.xor_xor_cancel_left s.din _)

/-! DECRYPT undoes ENCRYPT (44_composite.md R146). -/

/-- States equal but for the ports and the latch are one state with other values on them. -/
theorem sameButPorts_iff {s t : State} : SameButPorts s t ↔ ∃ c d o r, t = withPorts s.pending c d o r s := by
  constructor
  · intro h
    have hst : withPorts s.pending 0 0 0 0 s = withPorts t.pending 0 0 0 0 t := h
    have hp : s.pending = t.pending := by simpa [withPorts] using congrArg State.pending hst
    refine ⟨t.cmd, t.din, t.dout, t.res, ?_⟩
    calc t = withPorts s.pending t.cmd t.din t.dout t.res (withPorts t.pending 0 0 0 0 t) := by rw [hp]; rfl
      _ = withPorts s.pending t.cmd t.din t.dout t.res s := by rw [← hst]; rfl
  · rintro ⟨c, d, o, r, rfl⟩
    rfl

/-- `CNext` does not see the pair just presented (44_composite.md R144). -/
theorem compositeNext_present (bw steps : Nat) (c : CmdWord) (d : Nat) (s : State) :
    compositeNext bw steps (present c d s) =
      (compositeNext bw steps s).mapState (withPorts s.pending c d s.dout s.res) :=
  compositeNext_ports s.pending c d s.dout s.res bw steps s

section

variable {i : Instr} {n : BitVec 4} {d : Nat} {s t : State}

theorem command_eq_exec_cipher (hi : i = .enc n ∨ i = .dec n) (hn : n ≠ 0) (hd : d < 2 ^ xw s) :
    command (encode i) d s = exec i (present (encode i) d s) :=
  command_eq_exec (decodeOfEncode i (cipher_wellFormed hi hn)) hd

/-- A byte presented to `ENC` or `DEC`, when `CNext` returns the keystream byte `k`. -/
theorem command_cipher {k : Nat} {u : State} (hi : i = .enc n ∨ i = .dec n) (hn : n ≠ 0) (hd : d ≤ 255)
    (hx : d < 2 ^ xw s) (hf : s.fault = false) (hk : compositeNext 8 n.toNat s = .ok k u) :
    command (encode i) d s = .next (withPorts s.pending (encode i) d (d ^^^ k) (d ^^^ k) u) := by
  have hport := compositeNext_present 8 n.toNat (encode i) d s
  rw [hk] at hport
  rw [command_eq_exec_cipher hi hn hx, exec_cipher hi (s := present (encode i) d s) hf hn hd, answerOfNext_ok hport]
  rfl

/-- `ENC` or `DEC` that leaves the block without a fault: the block had none, and `CNext` returned a byte. -/
theorem command_cipher_ready (hi : i = .enc n ∨ i = .dec n) (hn : n ≠ 0) (hd : d ≤ 255)
    (h : command (encode i) d s = .next t) (ht : t.fault = false) :
    s.fault = false ∧ ∃ k u, compositeNext 8 n.toNat s = .ok k u ∧
      t = withPorts s.pending (encode i) d (d ^^^ k) (d ^^^ k) u := by
  have hx := lt_of_command_next h
  have hexec := (command_eq_exec_cipher hi hn hx).symm.trans h
  cases hf : s.fault with
  | true =>
    rw [exec_cipher_faulted hi (s := present (encode i) d s) hf] at hexec
    cases hexec
    exact absurd (hf.symm.trans ht) (by decide)
  | false =>
    rw [exec_cipher hi (s := present (encode i) d s) hf hn hd] at hexec
    obtain ⟨k, v, hk, -⟩ := answerOfNext_ready (s := present (encode i) d s) hf hexec ht
    rw [compositeNext_present] at hk
    cases hc : compositeNext 8 n.toNat s with
    | ok k u => exact ⟨rfl, k, u, rfl, Host.Outcome.next.inj (h.symm.trans (command_cipher hi hn hd hx hf hc))⟩
    | raised c u =>
      rw [hc] at hk
      cases hk

end

/-- One byte there and back: the block `a₂`, equal to `a` but for the ports, answers `DEC` of the ciphertext byte with the
plaintext byte. -/
theorem dec_undoes_enc {n : BitVec 4} {p : BitVec 8} {a a₂ t : State} (hn : n ≠ 0) (hsame : SameButPorts a a₂)
    (hx : 8 ≤ xw a) (he : command (encode (.enc n)) p.toNat a = .next t) (ht : t.fault = false) :
    ∃ t₂, command (encode (.dec n)) (BitVec.ofNat 8 t.dout).toNat a₂ = .next t₂ ∧ t₂.dout = p.toNat ∧
      SameButPorts t t₂ ∧ xw t = xw a := by
  obtain ⟨hf, k, u, hk, rfl⟩ := command_cipher_ready (.inl rfl) hn (Nat.le_of_lt_succ p.isLt) he ht
  obtain ⟨c, d, o, r, rfl⟩ := sameButPorts_iff.1 hsame
  have hlt : p.toNat ^^^ k < 256 := xor_byte_lt p.isLt (keystream_lt hk)
  have hbyte : (BitVec.ofNat 8 (p.toNat ^^^ k)).toNat = p.toNat ^^^ k := by
    rw [BitVec.toNat_ofNat, Nat.mod_eq_of_lt hlt]
  have hport : p.toNat ^^^ k < 2 ^ xw a := lt_of_lt_of_le hlt (Nat.pow_le_pow_right (n := 2) (by decide) hx)
  have hk₂ := compositeNext_ports a.pending c d o r 8 n.toNat a
  rw [hk] at hk₂
  have hdec := command_cipher (s := withPorts a.pending c d o r a) (.inr rfl) hn (Nat.le_of_lt_succ hlt) hport hf hk₂
  obtain ⟨_, _, _, _, _, rfl⟩ := compositeNext_ok_frame hk
  refine ⟨_, (congrArg (command (encode (.dec n)) · _) hbyte).trans hdec, ?_, rfl, rfl⟩
  exact Nat.xor_xor_cancel_right p.toNat k

/-- The pairs a run observes, command by command (70_reset_and_hazards.md R210). -/
theorem runProgram_cons_iff {c : CmdWord} {d : Nat} {rest : List (CmdWord × Nat)} {s t : State}
    {obs : List (Nat × BitVec 32)} :
    runProgram ((c, d) :: rest) s = some (obs, t) ↔
      ∃ u obs', command c d s = .next u ∧ runProgram rest u = some (obs', t) ∧ obs = observed u :: obs' := by
  cases hc : command c d s with
  | next u =>
    cases hr : runProgram rest u with
    | none => simp [runProgram, hc, hr]
    | some pair => simp [runProgram, hc, hr, Prod.ext_iff, eq_comm, and_comm]
  | fault r => simp [runProgram, hc]
  | refused r => simp [runProgram, hc]

/-- An `ENCRYPT` that ends without a fault began without one. -/
theorem runProgram_encrypt_ready {n : BitVec 4} (hn : n ≠ 0) (message : List (BitVec 8)) :
    ∀ {s t : State} {obs : List (Nat × BitVec 32)},
      runProgram (Pseudo.encrypt message n) s = some (obs, t) → t.fault = false → s.fault = false := by
  induction message with
  | nil =>
    intro s t obs h ht
    cases h
    exact ht
  | cons p rest ih =>
    intro s t obs h ht
    obtain ⟨u, obs', hcommand, hrest, -⟩ := runProgram_cons_iff.1 h
    exact (command_cipher_ready (.inl rfl) hn (Nat.le_of_lt_succ p.isLt) hcommand (ih hrest ht)).1

/-- Settles O46, by induction on the message: byte by byte the two blocks stay equal but for the ports
(`dec_undoes_enc`). -/
theorem decryptInvertsEncrypt : Obligations.DecryptInvertsEncrypt := by
  intro message n
  induction message with
  | nil =>
    intro a b a' obs _ hsame _ hrun hf
    cases hrun
    exact ⟨[], b, rfl, rfl, (congrArg State.fault hsame.symm).trans hf, hsame⟩
  | cons p rest ih =>
    intro a b a' obs hn hsame hx hrun hf
    obtain ⟨u, obs', hcommand, hrest, rfl⟩ := runProgram_cons_iff.1 hrun
    have hu : u.fault = false := runProgram_encrypt_ready hn rest hrest hf
    obtain ⟨v, hdec, hdout, hsame', hxw⟩ := dec_undoes_enc hn hsame hx hcommand hu
    obtain ⟨obsRest, b', hrun', hmap, hf', hsame''⟩ := ih u v a' obs' hn hsame' (hxw.symm ▸ hx) hrest hf
    refine ⟨observed v :: obsRest, b', runProgram_cons_iff.2 ⟨v, obsRest, hdec, hrun', rfl⟩, ?_, hf', hsame''⟩
    rw [List.map_cons, List.map_cons, hmap]
    exact congrArg (· :: _) hdout

/-! What the composite leaves alone (44_composite.md R140). -/

/-- There are two sub-generators or more, and `CIDX` names one below the last (10_state.md R30). -/
def CursorInRange (s : State) : Prop := 2 ≤ s.n ∧ s.cidx ≤ s.n - 2

/-- `t` differs from `s` in no instance but the first `N` of the kind `MODE` selects. -/
structure OtherInstancesKept (s t : State) : Prop where
  mode : t.mode = s.mode
  n : t.n = s.n
  hashes : s.mode = .generators → t.hashes = s.hashes
  gens : s.mode = .hashes → t.gens = s.gens
  beyond : ∀ k, s.n ≤ k → t.gens[k]? = s.gens[k]? ∧ t.hashes[k]? = s.hashes[k]?

/-- From a cursor in range, an operation ends with a cursor in range and has kept the other instances. -/
def DrawsFromSubGenerators (s t : State) : Prop := CursorInRange s → CursorInRange t ∧ OtherInstancesKept s t

/-- An operation that writes neither an instance nor what selects one. -/
theorem DrawsFromSubGenerators.of_instances_eq {s t : State} (hmode : t.mode = s.mode) (hn : t.n = s.n)
    (hcidx : t.cidx = s.cidx) (hgens : t.gens = s.gens) (hhashes : t.hashes = s.hashes) : DrawsFromSubGenerators s t :=
  fun hs => ⟨by rwa [CursorInRange, hn, hcidx], hmode, hn, fun _ => hhashes, fun _ => hgens, fun k _ => by
    rw [hgens, hhashes]; exact ⟨rfl, rfl⟩⟩

theorem DrawsFromSubGenerators.refl (s : State) : DrawsFromSubGenerators s s := .of_instances_eq rfl rfl rfl rfl rfl

theorem OtherInstancesKept.trans {s t u : State} (h : OtherInstancesKept s t) (h' : OtherInstancesKept t u) :
    OtherInstancesKept s u where
  mode := h'.mode.trans h.mode
  n := h'.n.trans h.n
  hashes hm := (h'.hashes (h.mode.trans hm)).trans (h.hashes hm)
  gens hm := (h'.gens (h.mode.trans hm)).trans (h.gens hm)
  beyond k hk :=
    have ⟨hg, hh⟩ := h.beyond k hk
    have ⟨hg', hh'⟩ := h'.beyond k (h.n.trans_le hk)
    ⟨hg'.trans hg, hh'.trans hh⟩

theorem DrawsFromSubGenerators.trans {s t u : State} (h : DrawsFromSubGenerators s t) (h' : DrawsFromSubGenerators t u) :
    DrawsFromSubGenerators s u := fun hs =>
  have ⟨ht, hkept⟩ := h hs
  have ⟨hu, hkept'⟩ := h' ht
  ⟨hu, hkept.trans hkept'⟩

theorem Sub.bind_drawsFromSubs {α β : Type} {r : Sub α} {k : α → State → Sub β} {s : State}
    (hr : DrawsFromSubGenerators s r.state) (hk : ∀ a u, DrawsFromSubGenerators u (k a u).state) :
    DrawsFromSubGenerators s (r.bind k).state := by
  cases r with
  | ok a u => exact hr.trans (hk a u)
  | raised c u => exact hr

theorem setGen_drawsFromSubs {i : Nat} {g : Gen} {s : State} (hm : s.mode = .generators) (hi : i < s.n) :
    DrawsFromSubGenerators s (setGen i g s) := fun hs =>
  ⟨hs, rfl, rfl, fun _ => rfl, fun hm' => absurd (hm.symm.trans hm') (by decide), fun k hk =>
    ⟨List.getElem?_set_ne (lt_of_lt_of_le hi hk).ne, rfl⟩⟩

theorem setHash_drawsFromSubs {i : Nat} {h : Hash} {s : State} (hm : s.mode = .hashes) (hi : i < s.n) :
    DrawsFromSubGenerators s (setHash i h s) := fun hs =>
  ⟨hs, rfl, rfl, fun hm' => absurd (hm.symm.trans hm') (by decide), fun _ => rfl, fun k hk =>
    ⟨rfl, List.getElem?_set_ne (lt_of_lt_of_le hi hk).ne⟩⟩

theorem endNext_drawsFromSubs (top : Bool) (v : Option Nat) (k : Nat) (s : State) :
    DrawsFromSubGenerators s (endNext top v k s).state := by
  rw [endNext_state]
  cases top with
  | false => exact .refl s
  | true => exact .of_instances_eq rfl rfl rfl rfl rfl

theorem setFoldSel_drawsFromSubs (sel : BitVec 2) (s : State) : DrawsFromSubGenerators s (setFoldSel sel s) :=
  .of_instances_eq rfl rfl rfl rfl rfl

/-- A draw of a sub-generator changes the instance it names, which is below `N`. -/
theorem subNext_drawsFromSubs {i bw : Nat} {s : State} (hi : i < s.n) :
    DrawsFromSubGenerators s (subNext i bw s).state := by
  cases hm : s.mode with
  | generators =>
    rw [subNext_of_generators hm]
    exact ((setGen_drawsFromSubs hm hi).trans (setFoldSel_drawsFromSubs _ _)).trans (endNext_drawsFromSubs _ _ _ _)
  | hashes =>
    rw [subNext_of_hashes hm]
    exact ((setHash_drawsFromSubs hm hi).trans (setFoldSel_drawsFromSubs _ _)).trans (endNext_drawsFromSubs _ _ _ _)

/-- The cursor moves modulo `N - 1` (44_composite.md R142). -/
theorem advanceCidx_drawsFromSubs (s : State) : DrawsFromSubGenerators s (advanceCidx s) := fun ⟨hn, _⟩ =>
  have hmod : (s.cidx + 1) % (s.n - 1) < s.n - 1 := Nat.mod_lt _ (by omega)
  ⟨⟨hn, by simp only [advanceCidx]; omega⟩, rfl, rfl, fun _ => rfl, fun _ => rfl, fun _ _ => ⟨rfl, rfl⟩⟩

/-- The selector is drawn from the last sub-generator, the source from the one at the cursor. -/
theorem compositeBit_drawsFromSubs (bw : Nat) (s : State) : DrawsFromSubGenerators s (compositeBit bw s).state := by
  intro hs
  have hlast : s.n - 1 < s.n := Nat.sub_one_lt_of_lt hs.1
  refine Sub.bind_drawsFromSubs (subNext_drawsFromSubs hlast) (fun r u hu => ?_) hs
  have hsource : u.cidx < u.n := by
    obtain ⟨hn, hcidx⟩ := hu
    omega
  refine Sub.bind_drawsFromSubs ?_ (fun v t => .refl t) hu
  exact (advanceCidx_drawsFromSubs u).trans (subNext_drawsFromSubs hsource)

theorem compositeBits_drawsFromSubs (bw : Nat) : ∀ (count p acc : Nat) (s : State),
    DrawsFromSubGenerators s (compositeBits bw count p acc s).state
  | 0, _, _, s => .refl s
  | count + 1, _, _, s =>
    Sub.bind_drawsFromSubs (compositeBit_drawsFromSubs bw s) fun _ u => compositeBits_drawsFromSubs bw count _ _ u

theorem compositeAttempt_drawsFromSubs (bw steps : Nat) (s : State) :
    DrawsFromSubGenerators s (compositeAttempt bw steps s).state :=
  Sub.bind_drawsFromSubs (compositeBits_drawsFromSubs bw _ _ _ s) fun _ u => setFoldSel_drawsFromSubs _ u

theorem compositeLoop_drawsFromSubs (bw steps : Nat) : ∀ (left k : Nat) (s : State),
    DrawsFromSubGenerators s (compositeLoop bw steps left k s).state
  | 0, _, s =>
    Sub.bind_drawsFromSubs (compositeAttempt_drawsFromSubs bw steps s) fun _ u => endNext_drawsFromSubs _ _ _ u
  | left + 1, k, s => Sub.bind_drawsFromSubs (compositeAttempt_drawsFromSubs bw steps s) fun r u => by
      split
      · exact compositeLoop_drawsFromSubs bw steps left _ u
      · exact endNext_drawsFromSubs _ _ _ u

theorem compositeNext_drawsFromSubs (bw steps : Nat) (s : State) :
    DrawsFromSubGenerators s (compositeNext bw steps s).state :=
  compositeLoop_drawsFromSubs bw steps _ _ s

/-- `CNEXT`, `ENC` and `DEC`. -/
def IsComposite (i : Instr) : Prop := (∃ n b, i = .cnext n b) ∨ ∃ n, i = .enc n ∨ i = .dec n

theorem cipherByte_drawsFromSubs (n : BitVec 4) (s : State) : DrawsFromSubGenerators s (cipherByte n s).state :=
  Sub.bind_drawsFromSubs (compositeNext_drawsFromSubs 8 n.toNat s) fun _ u => .refl u

/-- The checks change nothing, and the effect is that of `CNext`. -/
theorem execBody_drawsFromSubs {i : Instr} {s : State} (hi : IsComposite i) :
    DrawsFromSubGenerators s (execBody i s).state := by
  have hrefl := DrawsFromSubGenerators.refl s
  rcases hi with ⟨n, b, rfl⟩ | ⟨n, rfl | rfl⟩
  · refine check_state hrefl fun _ => check_state hrefl fun _ => check_state hrefl fun _ => ?_
    rw [Sub.some_state]
    exact compositeNext_drawsFromSubs b.toNat n.toNat s
  · refine check_state hrefl fun _ => check_state hrefl fun _ => ?_
    rw [Sub.some_state]
    exact cipherByte_drawsFromSubs n s
  · refine check_state hrefl fun _ => check_state hrefl fun _ => ?_
    rw [Sub.some_state]
    exact cipherByte_drawsFromSubs n s

theorem enterFault_instances (c : FaultCode) (s : State) :
    (enterFault c s).gens = s.gens ∧ (enterFault c s).hashes = s.hashes := by
  unfold enterFault
  split
  · exact ⟨rfl, rfl⟩
  · exact ⟨rfl, rfl⟩

/-- A command other than `RESET` leaves the instances as they were, or as its body does. -/
theorem exec_instances {i : Instr} {s t : State} (hi : i ≠ .reset) (he : exec i s = .next t) :
    ∃ u, (u = s ∨ u = (execBody i s).state) ∧ t.gens = u.gens ∧ t.hashes = u.hashes := by
  cases commandEnd_of_exec he with
  | reset hr => exact absurd hr hi
  | status => exact ⟨s, .inl rfl, rfl, rfl⟩
  | refused => exact ⟨s, .inl rfl, rfl, rfl⟩
  | returned v u _ hb => exact ⟨u, .inr (by rw [hb]; rfl), rfl, rfl⟩
  | completed u _ hb => exact ⟨u, .inr (by rw [hb]; rfl), rfl, rfl⟩
  | raised c u _ hb => exact ⟨u, .inr (by rw [hb]; rfl), enterFault_instances c u⟩

/-- Settles O45: every draw names an instance below `N` (`compositeBit_drawsFromSubs`), and the end of a command touches
none. -/
theorem compositeTouchesOnlyItsSubGenerators : Obligations.CompositeTouchesOnlyItsSubGenerators := by
  intro i s t hi hn hcidx he
  have hreset : i ≠ .reset := by rcases hi with ⟨n, b, rfl⟩ | ⟨n, rfl | rfl⟩ <;> exact Instr.noConfusion
  obtain ⟨u, hu, hgens, hhashes⟩ := exec_instances hreset he
  have hdraws : DrawsFromSubGenerators s u := by
    rcases hu with rfl | rfl
    · exact .refl u
    · exact execBody_drawsFromSubs hi
  obtain ⟨-, hkept⟩ := hdraws ⟨hn, hcidx⟩
  rw [hgens, hhashes]
  exact ⟨hkept.hashes, hkept.gens, hkept.beyond⟩

end Sys2Proof.Machine

/-! PROOFS of the family 45_bootstrap_draw.md: WHNEXT, RANDINT and NRV in a block without a fault. -/

namespace Sys2Proof.Machine

/-! WHNEXT (45_bootstrap_draw.md R155). -/

theorem exec_whnext_tooWide {k : BitVec 12} {s : State} (hf : s.fault = false) (hk : 64 < k.toNat) :
    exec (.whnext k) s = .next (faultedWith FaultCode.operand.code s) := by
  rw [exec, execWhnext, unlessFaulted_ready hf, if_pos hk, raiseFault_eq hf]

theorem exec_whnext {k : BitVec 12} {s : State} (hf : s.fault = false) (hk : k.toNat ≤ 64) :
    exec (.whnext k) s = .next (returnValue (whDrawn s 1 k.toNat) (whAdvance s)) := by
  rw [exec, execWhnext, unlessFaulted_ready hf, if_neg (Nat.not_lt.2 hk), ← whNext_eq]
  rfl

theorem whDrawn_one_lt (s : State) (k : Nat) : whDrawn s 1 k < 2 ^ k := whNext_eq s k ▸ whNext_lt k s

/-- Settles O47: the scaled draw is `whNext_eq`, and a step with a prime modulus keeps each seed off 0. -/
theorem whnextAdvancesTheSeeds : Obligations.WhnextAdvancesTheSeeds :=
  ⟨fun k => encodedWordIsTheRulesWord (.whnext k), fun k s hf =>
    ⟨exec_whnext_tooWide hf, fun hk => ⟨exec_whnext hf hk, whDrawn_one_lt s k.toNat,
      fun h1 => (seed1_legal h1).1, fun h2 => (seed2_legal h2).1, fun h3 => (seed3_legal h3).1⟩⟩⟩

/-! An unwritten word (20_memory.md R59, 60_exceptions.md R172). -/

/-- A body that raises `E_UNINIT` and left the fault record and the latch alone: how its command ends. -/
theorem answer_uninit {s u : State} (hf : s.fault = false) (hrecord : SameRecord s u) :
    ∃ t, (Sub.raised .uninit u).answer = .next t ∧ t.fault = true ∧ t.fcode = 5 ∧ t.dout = 0 ∧ t.res = s.res := by
  obtain ⟨-, -, -, -, hres, hfault, -, -, -⟩ := hrecord
  exact ⟨_, raiseFault_eq (hfault.trans hf) .uninit, rfl, rfl, rfl, hres⟩

/-- Only a field whose words are all written has a value. -/
theorem fieldWritten_of_bitRead {s : State} (hs : TableSized s) {b n v : Nat} (h : bitRead s b n = some v) :
    FieldWritten s b n := by
  by_contra hw
  rw [bitRead_eq_none hs hw] at h
  cases h

/-! The index walk of RANDINT (45_bootstrap_draw.md R153): it moves the seeds and the indices alone. -/

section

variable (fw : Nat) (s : State)

@[simp] theorem walkedIndices_tbytes : (walkedIndices fw s).tbytes = s.tbytes := by
  unfold walkedIndices; split <;> rfl
@[simp] theorem walkedIndices_table : (walkedIndices fw s).table = s.table := by
  unfold walkedIndices; split <;> rfl
@[simp] theorem walkedIndices_params : (walkedIndices fw s).params = s.params := by
  unfold walkedIndices; split <;> rfl
@[simp] theorem walkedIndices_foldSel : (walkedIndices fw s).foldSel = s.foldSel := by
  unfold walkedIndices; split <;> rfl
@[simp] theorem walkedIndices_rhash : (walkedIndices fw s).rhash = s.rhash := by
  unfold walkedIndices; split <;> rfl
@[simp] theorem walkedIndices_rtog : (walkedIndices fw s).rtog = s.rtog := by
  unfold walkedIndices; split <;> rfl

@[simp] theorem walkedIndices_xw : xw (walkedIndices fw s) = xw s := by
  rw [xw, walkedIndices_params, xw]

end

theorem walkedIndices_sized {s : State} (hs : TableSized s) (fw : Nat) : TableSized (walkedIndices fw s) := by
  simpa [TableSized] using hs

theorem walkedIndices_full {s : State} (h : TableFull s) (fw : Nat) : TableFull (walkedIndices fw s) := by
  simpa [TableFull, words] using h

/-! RANDINT (45_bootstrap_draw.md R153, R156). -/

/-- Every word of the four fields the indices of `u` point at is written. -/
def FourFieldsWritten (fw : Nat) (u : State) : Prop :=
  FieldWritten u u.idx0.toNat fw ∧ FieldWritten u u.idx1.toNat fw ∧ FieldWritten u u.idx2.toNat fw ∧
    FieldWritten u u.idx3.toNat fw

/-- The four fields the indices of `u` point at, combined (R153). -/
def combinedFields (fw : Nat) (u : State) : Nat :=
  fieldValue u u.idx0.toNat fw * fieldValue u u.idx1.toNat fw +
    (fieldValue u u.idx2.toNat fw ^^^ fieldValue u u.idx3.toNat fw)

theorem fourFieldsWritten_of_full {u : State} (hs : TableSized u) (h : TableFull u) (fw : Nat) :
    FourFieldsWritten fw u :=
  ⟨fieldWritten_of_full hs h _ fw, fieldWritten_of_full hs h _ fw, fieldWritten_of_full hs h _ fw,
    fieldWritten_of_full hs h _ fw⟩

/-- The state after a draw `t` from the walked indices of `s`. -/
def drawnState (fw t : Nat) (s : State) : State :=
  { walkedIndices fw s with
    rhash := s.rhash.rotateLeft 1 ^^^ BitVec.ofNat 64 t, rtog := !s.rtog, foldSel := (fold s.foldSel t fw).2 }

/-- Absorbing the draw and folding it, after the walk. -/
theorem foldState_absorbDraw (fw t : Nat) (s : State) :
    foldState t fw (absorbDraw t (walkedIndices fw s)) = .ok (fold s.foldSel t fw).1 (drawnState fw t s) := by
  simp only [foldState, absorbDraw, setFoldSel, walkedIndices_foldSel, walkedIndices_rhash, walkedIndices_rtog]
  rfl

/-- With its four fields written `RandInt` returns their combination, folded. -/
theorem randInt_of_written {fw : Nat} {s : State} (hs : TableSized s) (hfw : fw ≤ xw s)
    (h : FourFieldsWritten fw (walkedIndices fw s)) :
    randInt fw s = .ok (fold s.foldSel (combinedFields fw (walkedIndices fw s)) fw).1
      (drawnState fw (combinedFields fw (walkedIndices fw s)) s) := by
  obtain ⟨h0, h1, h2, h3⟩ := h
  have hread {b : Nat} (hb : FieldWritten (walkedIndices fw s) b fw) :=
    bitRead_eq_fieldValue (walkedIndices_sized hs fw) hb (hfw.trans_eq (walkedIndices_xw fw s).symm)
  rw [randInt_eq_ok, walkIndices_eq hs]
  exact ⟨_, _, _, _, hread h0, hread h1, hread h2, hread h3, foldState_absorbDraw fw _ s⟩

/-- `RandInt` returns only with its four fields written. -/
theorem fourFieldsWritten_of_randInt {fw v : Nat} {s t : State} (hs : TableSized s) (h : randInt fw s = .ok v t) :
    FourFieldsWritten fw (walkedIndices fw s) := by
  rw [randInt_eq_ok, walkIndices_eq hs] at h
  obtain ⟨a, b, c, d, h0, h1, h2, h3, -⟩ := h
  have hu := walkedIndices_sized hs fw
  exact ⟨fieldWritten_of_bitRead hu h0, fieldWritten_of_bitRead hu h1, fieldWritten_of_bitRead hu h2,
    fieldWritten_of_bitRead hu h3⟩

theorem exec_randint_rejected {n : BitVec 12} {s : State} (hf : s.fault = false)
    (hbad : n = 0 ∨ xw s < 2 * n.toNat + 1) :
    exec (.randint n) s = .next (faultedWith FaultCode.operand.code s) := by
  rw [exec, execRandint, unlessFaulted_ready hf, ← ite_or, if_pos hbad, raiseFault_eq hf]

/-- With its checks passed `RANDINT` ends as `RandInt` ends. -/
theorem exec_randint {n : BitVec 12} {s : State} (hf : s.fault = false) (hn : n ≠ 0) (hx : 2 * n.toNat + 1 ≤ xw s) :
    exec (.randint n) s = (randInt n.toNat s).answer := by
  rw [exec, execRandint, unlessFaulted_ready hf, if_neg hn, if_neg (Nat.not_lt.2 hx)]

/-- Reading an unwritten word ends `RandInt` in `E_UNINIT`. -/
theorem randInt_of_unwritten {fw : Nat} {s : State} (hs : TableSized s) (hf : s.fault = false)
    (h : ¬ FourFieldsWritten fw (walkedIndices fw s)) :
    ∃ t, (randInt fw s).answer = .next t ∧ t.fault = true ∧ t.fcode = 5 ∧ t.dout = 0 ∧ t.res = s.res := by
  cases hr : randInt fw s with
  | ok v t => exact absurd (fourFieldsWritten_of_randInt hs hr) h
  | raised c u =>
    obtain ⟨rfl, rfl⟩ := randInt_eq_raised hr
    exact answer_uninit hf (walkIndices_frame fw s).record

/-- Settles O48, by whether the four fields are written after the walk. -/
theorem randintCombinesFourFields : Obligations.RandintCombinesFourFields := by
  refine ⟨fun n => encodedWordIsTheRulesWord (.randint n), fun n s hf hs => ⟨exec_randint_rejected hf, ?_⟩⟩
  rintro hn hx u f rfl rfl
  rw [exec_randint hf hn hx]
  refine ⟨?_, randInt_of_unwritten hs hf, fun hfull => ?_⟩
  · rintro hw t rfl
    rw [randInt_of_written hs (by omega) hw]
    rfl
  · exact fourFieldsWritten_of_full (walkedIndices_sized hs n.toNat) (walkedIndices_full hfull n.toNat) n.toNat

/-! NRV (45_bootstrap_draw.md R154, R157). The lemmas hold for every width. -/

theorem exec_nrv_rejected {i : BitVec 8} {b : BitVec 12} {s : State} (hf : s.fault = false)
    (hbad : s.params.nmax ≤ i.toNat ∨ b = 0) :
    exec (.nrv i b) s = .next (faultedWith FaultCode.operand.code s) := by
  rw [exec, execNrv, unlessFaulted_ready hf, ← ite_or, if_pos hbad, raiseFault_eq hf]

/-- With its checks passed `NRV` ends as its rounds end. -/
theorem exec_nrv {i : BitVec 8} {b : BitVec 12} {s : State} (hf : s.fault = false) (hi : i.toNat < s.params.nmax)
    (hb : b ≠ 0) : exec (.nrv i b) s = (nrvRounds i.toNat b.toNat s.paranoia s.din 0 s).answer := by
  rw [exec, execNrv, unlessFaulted_ready hf, if_neg (Nat.not_le.2 hi), if_neg hb, nextRandomValue]

/-- The rounds raise `E_UNINIT` alone and leave the fault record and the latch to the end of the command. -/
theorem nrvRounds_raised {i w k e r : Nat} {c : FaultCode} {s t : State} (h : nrvRounds i w k e r s = .raised c t) :
    c = .uninit ∧ SameRecord s t := by
  rcases nrvRounds_end (i := i) (width := w) (rounds := k) (e := e) (r := r) (s := s) with
    ⟨v, g, hend⟩ | ⟨g, hend⟩ | ⟨v, hend⟩ | hend
  · cases h.symm.trans hend
  · cases h.symm.trans hend
    exact ⟨rfl, setHash_record i g s⟩
  · cases h.symm.trans hend
  · cases h.symm.trans hend
    exact ⟨rfl, .refl s⟩

/-- Hash instance `i` fed the bytes of a field `v` of `w` bits (R154). -/
def fedField (i w v : Nat) (s : State) : Hash := consumedBytes s.w s.hdepth ((w + 7) / 8) v (hashAt s i)

/-- A first round and the rounds after it (R154). -/
theorem nrvRounds_cons_iff {i w d e : Nat} {ds : List Nat} {s t : State} :
    NrvRounds i w (d :: ds) e s t ↔
      ∃ v, bitRead s (e % bitSize s) w = some v ∧ d = hashDigest s.hdepth (fedField i w v s) % 2 ^ w ∧
        NrvRounds i w ds (e ^^^ d) (setHash i (fedField i w v s) s) t := Iff.rfl

/-- In a full table any number of rounds goes through. -/
theorem exists_rounds_of_full (i w : Nat) : ∀ (k e : Nat) (s : State), TableSized s → TableFull s →
    ∃ ds t, ds.length = k ∧ NrvRounds i w ds e s t
  | 0, _, s, _, _ => ⟨[], s, rfl, rfl⟩
  | k + 1, e, s, hs, hfull => by
    obtain ⟨v, hv⟩ := bitRead_isSome hs (fieldWritten_of_full hs hfull (e % bitSize s) w)
    obtain ⟨ds, t, hl, hrest⟩ := exists_rounds_of_full i w k (e ^^^ hashDigest s.hdepth (fedField i w v s) % 2 ^ w)
      (setHash i (fedField i w v s) s) hs hfull
    exact ⟨_ :: ds, t, congrArg (· + 1) hl, nrvRounds_cons_iff.2 ⟨v, hv, rfl, hrest⟩⟩

section

variable {i : BitVec 8} {b : BitVec 12} {s : State}

/-- Rounds that go through give `NRV` its value, the XOR of their digests. -/
theorem exec_nrv_of_rounds (hf : s.fault = false) (hs : TableSized s) (hi : i.toNat < s.params.nmax) (hb : b ≠ 0)
    {ds : List Nat} {t : State} (hl : ds.length = s.paranoia) (h : NrvRounds i.toNat b.toNat ds s.din s t) :
    exec (.nrv i b) s = .next (returnValue (ds.foldl (· ^^^ ·) 0) t) ∧ ds.foldl (· ^^^ ·) 0 < 2 ^ b.toNat := by
  have hrounds := nrvRounds_of_rounds ds s.din 0 s t hs h
  rw [exec_nrv hf hi hb, ← hl, hrounds]
  exact ⟨rfl, nrvRounds_lt (Nat.two_pow_pos _) hrounds⟩

/-- Rounds that do not go through end `NRV` in `E_UNINIT`. -/
theorem exec_nrv_of_no_rounds (hf : s.fault = false) (hs : TableSized s) (hi : i.toNat < s.params.nmax) (hb : b ≠ 0)
    (h : ¬ ∃ ds t, ds.length = s.paranoia ∧ NrvRounds i.toNat b.toNat ds s.din s t) :
    ∃ t, exec (.nrv i b) s = .next t ∧ t.fault = true ∧ t.fcode = 5 ∧ t.dout = 0 ∧ t.res = s.res := by
  rw [exec_nrv hf hi hb]
  cases hr : nrvRounds i.toNat b.toNat s.paranoia s.din 0 s with
  | ok v t =>
    obtain ⟨ds, hl, hrounds⟩ := rounds_of_nrvRounds _ _ _ _ _ _ hs hr
    exact absurd ⟨ds, t, hl, hrounds⟩ h
  | raised c u =>
    obtain ⟨rfl, hrecord⟩ := nrvRounds_raised hr
    exact answer_uninit hf hrecord

end

/-- Settles O49: the field of a width up to `XW`, then the rounds, by whether they go through. -/
theorem nrvXorsTheRoundDigests : Obligations.NrvXorsTheRoundDigests := by
  refine ⟨fun i b => encodedWordIsTheRulesWord (.nrv i b), fun i b s hf hs => ⟨exec_nrv_rejected hf, ?_⟩⟩
  intro hi hb hx
  refine ⟨fun e => ⟨fun hw => bitRead_eq_fieldValue hs hw hx, bitRead_eq_none hs⟩, ?_, ?_, ?_⟩
  · exact fun ds t hl h => exec_nrv_of_rounds hf hs hi hb hl h
  · exact exec_nrv_of_no_rounds hf hs hi hb
  · exact exists_rounds_of_full i.toNat b.toNat s.paranoia s.din s hs

end Sys2Proof.Machine

/-! PROOFS of the family 46_system.md: NOP, RESET, RDSTAT, RDRES, WRCFG and RDCFG. -/

namespace Sys2Proof

/-! Words and commands (30_encoding.md R76, R77). -/

/-- Exactly the word of a command decodes to it. -/
theorem decode_eq_ok_iff {c : CmdWord} {i : Instr} (hw : i.wellFormed = true) : decode c = .ok i ↔ c = encode i := by
  constructor
  · intro h
    obtain ⟨hc, -⟩ := encodeOfDecode c i h
    exact hc.symm
  · rintro rfl
    exact decodeOfEncode i hw

/-- The number a command rule writes is the word of the command. -/
theorem ofNat_ruleWord (i : Instr) : BitVec.ofNat 32 (Machine.ruleWord i) = encode i := by
  rw [← Machine.encodedWordIsTheRulesWord i, BitVec.ofNat_toNat, BitVec.setWidth_eq]

/-! The registers (10_state.md R30, R31). -/

/-- The registers in the order of their numbers. -/
def cfgRegs : List CfgReg :=
  [.w, .depth, .hdepth, .n, .mode, .paranoia, .retryMax, .cchk, .foldSel, .cidx, .whS1, .whS2, .whS3, .rhash, .rtog,
    .idx0, .idx1, .idx2, .idx3, .tbytes, .bitSize, .bitIndexMask, .wmax, .dmax, .hdmax, .nmax, .tmaxBytes, .xw]

theorem mem_cfgRegs (r : CfgReg) : r ∈ cfgRegs := by cases r <;> decide

/-- The writable numbers are 0 to 0x0E and 0x10 to 0x13 (10_state.md R30). -/
theorem CfgReg.number_of_writable {r : CfgReg} (hw : r.writable = true) : r.number ≠ 0x0F ∧ r.number.toNat < 0x14 := by
  have hall : ∀ q ∈ cfgRegs, q.writable = true → q.number ≠ 0x0F ∧ q.number.toNat < 0x14 := by decide
  exact hall r (mem_cfgRegs r) hw

/-- A word of `WRCFG` or `RDCFG` that decodes names a register, and decodes to what that register gives (30_encoding.md
R76). -/
theorem register_of_decodeCfg {opc k : BitVec 8} {j : CfgReg → Decoded} {i : Instr}
    (h : decodeCfg (wordR opc 0 k 0) j = .ok i) : ∃ r : CfgReg, r.number = k ∧ j r = .ok i := by
  obtain ⟨r, hword, hj⟩ := decodeCfg_eq_ok.1 h
  rw [opcOf_wordR] at hword
  obtain ⟨-, hk, -⟩ := wordR_inj.1 hword
  exact ⟨r, hk.symm, hj⟩

/-- The number R165 writes for the word of `RDCFG`, as a word of format R (R73). -/
theorem ofNat_eq_wordR_rdcfg {k : Nat} (hk : k < 256) :
    BitVec.ofNat 32 (0x05000000 + 256 * k) = wordR 0x05 0 (BitVec.ofNat 8 k) 0 := by
  apply BitVec.eq_of_toNat_eq
  rw [wordR_toNat, BitVec.toNat_ofNat, BitVec.toNat_ofNat, Nat.mod_eq_of_lt hk, Nat.mod_eq_of_lt (by omega)]
  simp [Nat.mul_comm]

end Sys2Proof

namespace Sys2Proof.Machine

/-- A word that decodes to no command raises `E_ILLEGAL` (30_encoding.md R77). -/
theorem raisesIllegal_of_no_command {c : CmdWord} (h : ∀ i, decode c ≠ .ok i) : RaisesIllegal c := by
  cases hd : decode c with
  | ok i => exact absurd hd (h i)
  | error e => exact raisesIllegal_of_error hd

/-! NOP, RESET, RDSTAT and RDRES (46_system.md R160 to R163). -/

/-- Settles O1: executed or refused, `NOP` drives 0. -/
theorem nopChangesNothing : Obligations.NopChangesNothing :=
  ⟨fun _ => decode_eq_ok_iff rfl, fun _ => ite_self _⟩

/-- What the host drives and sees is no part of the table of R37. -/
theorem ResetValues.ports {t : State} (h : ResetValues t) (p : List (CmdWord × Nat)) (c : CmdWord) (d o : Nat) :
    ResetValues { t with pending := p, cmd := c, din := d, dout := o } :=
  { h with }

/-- `RESET` gives every piece of state its reset value (46_system.md R161). -/
theorem resetBlock_resetValues (s : State) : ResetValues (noValue (resetBlock s)) :=
  (resetStateHasTheResetValues s.params).ports s.pending s.cmd s.din 0

/-- Settles O2. -/
theorem resetRestoresEveryResetValue : Obligations.ResetRestoresEveryResetValue :=
  ⟨fun _ => decode_eq_ok_iff rfl, fun s => ⟨_, rfl, resetBlock_resetValues s, rfl, rfl⟩⟩

/-- The fields of `STATUS` at their places (10_state.md R23). -/
theorem statusWord_toNat (s : State) :
    (statusWord s).toNat = s.fault.toNat + 16 * s.fcode.toNat + 256 * s.fopc.toNat + 65536 * s.rcnt.toNat := by
  simp only [statusWord, toNat_append_eq, BitVec.toNat_ofBool, BitVec.ofNat_eq_ofNat, BitVec.toNat_zero]
  omega

/-- Settles O5. -/
theorem rdstatDrivesTheStatusWord : Obligations.RdstatDrivesTheStatusWord := by
  refine ⟨fun _ => decode_eq_ok_iff rfl, fun s => ?_⟩
  rw [← statusWord_toNat]
  rfl

/-- Settles O6, by whether the block is faulted. -/
theorem rdresReturnsTheLatch : Obligations.RdresReturnsTheLatch :=
  ⟨encodedWordIsTheRulesWord .rdres, fun _ => ⟨fun hf => unlessFaulted_ready hf _, fun hf => unlessFaulted_faulted hf _⟩⟩

/-! RDCFG (46_system.md R165). -/

/-- The register file lists every register under its number with the value it reads as. -/
theorem cfgFile_eq (s : State) : cfgFile s = cfgRegs.map fun r => (r.number.toNat, readCfg r s) := by
  have hmode : (if s.mode = .hashes then 1 else 0) = s.mode.number := by cases s.mode <;> rfl
  have hbit (b : Bool) : (if b = true then 1 else 0) = b.toNat := by cases b <;> rfl
  rw [cfgFile, hmode, hbit, hbit]
  rfl

theorem mem_cfgFile {s : State} {row : Nat × Nat} :
    row ∈ cfgFile s ↔ ∃ r : CfgReg, (r.number.toNat, readCfg r s) = row := by
  rw [cfgFile_eq, List.mem_map]
  exact exists_congr fun r => and_iff_right (mem_cfgRegs r)

theorem exec_rdcfg {r : CfgReg} {s : State} (hf : s.fault = false) :
    exec (.rdcfg r) s = .next (returnValue (readCfg r s) s) := unlessFaulted_ready hf _

/-- Settles O8: the numbers of the register file are the numbers of the registers. -/
theorem rdcfgReturnsTheRegister : Obligations.RdcfgReturnsTheRegister := by
  constructor
  · intro s row hrow
    obtain ⟨r, rfl⟩ := mem_cfgFile.1 hrow
    exact ⟨r, (decode_eq_ok_iff rfl).2 (ofNat_ruleWord (.rdcfg r)), exec_rdcfg⟩
  · intro s k hk hnone
    rw [ofNat_eq_wordR_rdcfg hk]
    refine raisesIllegal_of_no_command fun i hi => ?_
    rw [decode, opcOf_wordR] at hi
    obtain ⟨r, hr, -⟩ := register_of_decodeCfg hi
    refine hnone _ (mem_cfgFile.2 ⟨r, rfl⟩) ?_
    rw [hr, BitVec.toNat_ofNat, Nat.mod_eq_of_lt hk]

/-! The checks of a register write (46_system.md R164), one shape of legal range after the other. -/

theorem outside_range_iff {lo hi v : Nat} : (decide (v < lo) || decide (hi < v)) = true ↔ ¬ (lo ≤ v ∧ v ≤ hi) := by
  simp only [Bool.or_eq_true, decide_eq_true_eq]
  omega

theorem above_iff {hi v : Nat} : decide (hi < v) = true ↔ ¬ v ≤ hi := by
  rw [decide_eq_true_eq, Nat.not_le]

theorem not_below_iff {bound v : Nat} : decide (bound ≤ v) = true ↔ ¬ v < bound := by
  rw [decide_eq_true_eq, Nat.not_lt]

/-- A write of `v` to register `r` goes through because the operand is legal, or raises the fault of the register with
nothing written because it is not. -/
def CfgVerdict (r : CfgReg) (v : Nat) (s : State) (a : Sub Unit) : Prop :=
  (CfgOperandLegal r v s ∧ ∃ t, a = .ok () t) ∨
    (¬ CfgOperandLegal r v s ∧ ∃ c : FaultCode, c.code = cfgFaultCode r ∧ a = .raised c s)

theorem checkedWrite_verdict {r : CfgReg} {v : Nat} {bad : Bool} {c : FaultCode} {s t : State}
    (hbad : bad = true ↔ ¬ CfgOperandLegal r v s) (hc : c.code = cfgFaultCode r) :
    CfgVerdict r v s (checkedWrite bad c s t) := by
  by_cases h : CfgOperandLegal r v s
  · have hok : bad = false := Bool.eq_false_iff.2 fun hb => hbad.1 hb h
    exact .inl ⟨h, t, checkedWrite_of_ok hok⟩
  · exact .inr ⟨h, c, hc, checkedWrite_of_bad (hbad.2 h)⟩

/-- The check of every register is the column "legal" of R30 with its fault. -/
theorem writeCfg_verdict (r : CfgReg) (v : Nat) (s : State) : CfgVerdict r v s (writeCfg r v s) := by
  cases r with
  | w | depth | hdepth | n | paranoia | whS1 | whS2 | whS3 => exact checkedWrite_verdict outside_range_iff rfl
  | mode | retryMax | cchk | foldSel | cidx | rtog => exact checkedWrite_verdict above_iff rfl
  | rhash | idx0 | idx1 | idx2 | idx3 => exact checkedWrite_verdict not_below_iff rfl
  | tbytes | bitSize | bitIndexMask | wmax | dmax | hdmax | nmax | tmaxBytes | xw =>
    exact .inr ⟨id, .illegal, rfl, rfl⟩

/-! What a register write leaves (46_system.md R164, 10_state.md R32). The frame is `writeCfg_frame` and the pieces of
`commandsWriteOnlyTheirPieces`. -/

theorem Mode.number_ofNumber {v : Nat} (h : v ≤ 1) : (Mode.ofNumber v).number = v := by
  obtain rfl | rfl := Nat.le_one_iff_eq_zero_or_eq_one.1 h
  · rfl
  · rfl

theorem toNat_beq_one {v : Nat} (h : v ≤ 1) : (v == 1).toNat = v := by
  obtain rfl | rfl := Nat.le_one_iff_eq_zero_or_eq_one.1 h
  · rfl
  · rfl

theorem toNat_ofNat_of_lt {n v : Nat} (h : v < 2 ^ n) : (BitVec.ofNat n v).toNat = v := by
  rw [BitVec.toNat_ofNat, Nat.mod_eq_of_lt h]

/-- A legal operand fits its register, so it is read back. -/
theorem readCfg_of_writeCfg {r : CfgReg} {v : Nat} {s t : State} {x : Unit} (hv : CfgOperandLegal r v s)
    (h : writeCfg r v s = .ok x t) : readCfg r t = v := by
  cases r with
  | w | depth | hdepth | n | paranoia | cidx | whS1 | whS2 | whS3 =>
    obtain ⟨-, rfl⟩ := checkedWrite_eq_ok.1 h
    rfl
  | mode =>
    obtain ⟨-, rfl⟩ := checkedWrite_eq_ok.1 h
    exact Mode.number_ofNumber hv
  | cchk | rtog =>
    obtain ⟨-, rfl⟩ := checkedWrite_eq_ok.1 h
    exact toNat_beq_one hv
  | retryMax | foldSel =>
    obtain ⟨-, rfl⟩ := checkedWrite_eq_ok.1 h
    exact toNat_ofNat_of_lt (Nat.lt_succ_of_le hv)
  | rhash | idx0 | idx1 | idx2 | idx3 =>
    obtain ⟨-, rfl⟩ := checkedWrite_eq_ok.1 h
    exact toNat_ofNat_of_lt hv
  | tbytes | bitSize | bitIndexMask | wmax | dmax | hdmax | nmax | tmaxBytes | xw => cases h

/-- A structural write ends in `InstanceClear()` (10_state.md R32). -/
theorem writeCfg_clears {r : CfgReg} {v : Nat} {s t : State} {x : Unit} (hr : CfgReg.structural r = true)
    (h : writeCfg r v s = .ok x t) :
    t.cidx = 0 ∧ t.gens = List.replicate s.params.nmax (Gen.cleared s.params.dmax) ∧
      t.hashes = List.replicate s.params.nmax (Hash.cleared s.params.hdmax) := by
  cases r with
  | w | depth | hdepth | n | mode =>
    obtain ⟨-, rfl⟩ := checkedWrite_eq_ok.1 h
    exact ⟨rfl, rfl, rfl⟩
  | _ => cases hr

/-- The registers a write of `r` may change are `r` and, when it is structural, `CIDX`. -/
theorem mayWrite_wrcfg_config {r q : CfgReg} (hq : q ≠ r) (hc : ¬ (CfgReg.structural r = true ∧ q = .cidx)) :
    mayWrite (.wrcfg r) (.config q) = false := by
  simpa [mayWrite, hq] using hc

theorem mayWrite_wrcfg_instances {r : CfgReg} (hr : CfgReg.structural r = false) (i : Nat) :
    mayWrite (.wrcfg r) (.generator i) = false ∧ mayWrite (.wrcfg r) (.hash i) = false := by
  simp [mayWrite, hr]

theorem statusWord_of_frame {s t : State} (h : CfgFrame s t) : statusWord t = statusWord s := by
  obtain ⟨-, -, -, -, -, hfault, hfcode, hfopc, hrcnt, -⟩ := h
  rw [statusWord, statusWord, hfault, hfcode, hfopc, hrcnt]

/-- WRCFG in a block without a fault (46_system.md R164). -/
theorem exec_wrcfg {r : CfgReg} {s : State} (hf : s.fault = false) :
    exec (.wrcfg r) s = (writeCfg r s.din s).finish := unlessFaulted_ready hf _

theorem exec_wrcfg_ok {r : CfgReg} {s t : State} (hf : s.fault = false) (hw : writeCfg r s.din s = .ok () t) :
    exec (.wrcfg r) s = .next (noValue t) := by
  rw [exec_wrcfg hf, hw, Sub.finish_ok]

theorem exec_wrcfg_raised {r : CfgReg} {c : FaultCode} {s : State} (hf : s.fault = false)
    (hw : writeCfg r s.din s = .raised c s) : exec (.wrcfg r) s = .next (faultedWith c.code s) := by
  rw [exec_wrcfg hf, hw, Sub.finish_raised, raiseFault_eq hf]

/-- A write that passed its check leaves what R164 and R32 say. -/
theorem cfgWritten_of_writeCfg {r : CfgReg} {s t : State} (hf : s.fault = false) (hv : CfgOperandLegal r s.din s)
    (hw : writeCfg r s.din s = .ok () t) : CfgWritten r s (noValue t) := by
  have hstatus := statusWord_of_frame (writeCfg_frame hw)
  have same {p : Piece} (hp : mayWrite (.wrcfg r) p = false) : p.Same s (noValue t) :=
    commandsWriteOnlyTheirPieces _ _ _ p (exec_wrcfg_ok hf hw) hp
  obtain ⟨hpending, hcmd, hdin, -, hres, -, -, -, -, -, htable, -⟩ := writeCfg_frame hw
  exact
    { written := (noValue_same (.config r) t).symm.trans (readCfg_of_writeCfg hv hw)
      others := fun _ hq hc => (same (mayWrite_wrcfg_config hq hc)).symm
      clears := fun hr => (writeCfg_clears hr hw :)
      keeps := fun hr =>
        ⟨List.ext_getElem? fun i => (same (mayWrite_wrcfg_instances hr i).1).symm,
          List.ext_getElem? fun i => (same (mayWrite_wrcfg_instances hr i).2).symm⟩
      ports := ⟨rfl, hpending, hcmd, hdin⟩
      rest := ⟨hres, hstatus, htable⟩ }

/-- Settles O7: the words, then the two verdicts of the check. -/
theorem wrcfgWritesTheRegisterOrFaults : Obligations.WrcfgWritesTheRegisterOrFaults := by
  refine ⟨fun r => encodedWordIsTheRulesWord (.wrcfg r), fun k hk => raisesIllegal_of_no_command fun i hi => ?_,
    fun r s hf => ?_⟩
  · rw [decode, opcOf_wordR] at hi
    obtain ⟨r, rfl, hneed⟩ := register_of_decodeCfg hi
    obtain ⟨hw, -⟩ := need_eq_ok.1 hneed
    obtain ⟨hgap, hlast⟩ := CfgReg.number_of_writable hw
    exact hk.elim hgap (Nat.not_le.2 hlast)
  · rcases writeCfg_verdict r s.din s with ⟨hv, t, hw⟩ | ⟨hv, c, hc, hw⟩
    · exact ⟨fun _ _ => ⟨noValue t, exec_wrcfg_ok hf hw, cfgWritten_of_writeCfg hf hv hw⟩, fun _ hbad => absurd hv hbad⟩
    · exact ⟨fun hok => absurd hok hv, fun _ _ => hc ▸ exec_wrcfg_raised hf hw⟩

end Sys2Proof.Machine

/-! PROOFS of the family 60_exceptions.md: taking a fault, the faulted block, and the model's choices. -/

namespace Sys2Proof.Machine

/-! The faulted block (60_exceptions.md R174, R178). -/

theorem exec_faulted {i : Instr} {s : State} (hf : s.fault = true) (hr : i ≠ .reset) (hd : i ≠ .rdstat) :
    exec i s = .next (refuseCommand s) := by
  rw [exec_eq_body hr hd, unlessFaulted_faulted hf]

/-- Decoded or not, every word but the two exact ones is refused. -/
theorem runWord_faulted {s : State} (hf : s.fault = true) (hr : s.cmd ≠ encode .reset) (hd : s.cmd ≠ encode .rdstat) :
    runWord s = .next (refuseCommand s) := by
  cases hdec : decode s.cmd with
  | ok i =>
    obtain ⟨hword, -⟩ := encodeOfDecode s.cmd i hdec
    rw [runWord_of_decode hdec]
    refine exec_faulted hf ?_ ?_
    · rintro rfl
      exact hr hword.symm
    · rintro rfl
      exact hd hword.symm
  | error e => rw [runWord_of_error hdec, illegalWord, unlessFaulted_faulted hf]

section

variable {c : CmdWord} {d : Nat} {s : State}

theorem command_refused (hf : s.fault = true) (hd : d < 2 ^ xw s) (hr : c ≠ encode .reset) (hstat : c ≠ encode .rdstat) :
    command c d s = .next (refuseCommand (present c d s)) := by
  rw [command_of_lt hd]
  exact runWord_faulted hf hr hstat

theorem command_reset (hd : d < 2 ^ xw s) :
    command (encode .reset) d s = .next (noValue (resetBlock (present (encode .reset) d s))) :=
  command_eq_exec (decodeOfEncode .reset rfl) hd

theorem command_rdstat (hd : d < 2 ^ xw s) :
    command (encode .rdstat) d s = .next (driveOnly (statusWord s).toNat (present (encode .rdstat) d s)) :=
  command_eq_exec (decodeOfEncode .rdstat rfl) hd

/-- An operand the port cannot carry (60_exceptions.md R175, log entry 2). -/
theorem command_beyondPort (hd : 2 ^ xw s ≤ d) : command c d s = .refused .dinBeyondPort := if_pos hd

end

/-! No program tells two faulted blocks with the same `STATUS` apart. -/

theorem statusWord_of_sameFaultView {s t : State} (h : SameFaultView s t) : statusWord s = statusWord t := by
  obtain ⟨-, -, -, -, hfault, hfcode, hfopc, hrcnt, -⟩ := h
  rw [statusWord, statusWord, hfault, hfcode, hfopc, hrcnt]

/-- What the host sees of a faulted block is part of what the two share. -/
theorem observed_of_sameFaultView {s t : State} (h : SameFaultView s t) : observed s = observed t := by
  have hstatus := statusWord_of_sameFaultView h
  obtain ⟨-, -, -, hdout, -⟩ := h
  rw [observed, observed, hdout, hstatus]

theorem xw_of_sameFaultView {s t : State} (h : SameFaultView s t) : xw s = xw t := by
  obtain ⟨-, -, -, -, -, -, -, -, hparams⟩ := h
  rw [xw, xw, hparams]

/-- Driving the ports of both alike. -/
theorem SameFaultView.drive {s t : State} (h : SameFaultView s t) (c : CmdWord) (d v : Nat) :
    SameFaultView (driveOnly v (present c d s)) (driveOnly v (present c d t)) := by
  obtain ⟨hpending, -, -, -, hrest⟩ := h
  exact ⟨hpending, rfl, rfl, rfl, hrest⟩

/-- `RESET` leaves nothing of what the two do not share (60_exceptions.md R178). -/
theorem resetBlock_of_sameFaultView {s t : State} (h : SameFaultView s t) (c : CmdWord) (d : Nat) :
    resetBlock (present c d s) = resetBlock (present c d t) := by
  obtain ⟨hpending, -, -, -, -, -, -, -, hparams⟩ := h
  simp only [resetBlock, present_pending, present_cmd, present_din, present_params, hpending, hparams]

/-- A command leaves the two equal, when it is `RESET`, or as alike as they were. -/
theorem command_sameFaultView {s t : State} {d : Nat} (c : CmdWord) (hf : s.fault = true) (h : SameFaultView s t)
    (hd : d < 2 ^ xw s) :
    ∃ s' t', command c d s = .next s' ∧ command c d t = .next t' ∧
      (s' = t' ∨ s'.fault = true ∧ SameFaultView s' t') := by
  have hft : t.fault = true := by
    obtain ⟨-, -, -, -, hfault, -⟩ := h
    exact hfault.symm.trans hf
  have hdt : d < 2 ^ xw t := xw_of_sameFaultView h ▸ hd
  by_cases hr : c = encode .reset
  · subst hr
    exact ⟨_, _, command_reset hd, command_reset hdt, .inl (congrArg noValue (resetBlock_of_sameFaultView h _ d))⟩
  by_cases hstat : c = encode .rdstat
  · subst hstat
    refine ⟨_, _, command_rdstat hd, command_rdstat hdt, .inr ⟨hf, ?_⟩⟩
    rw [statusWord_of_sameFaultView h]
    exact h.drive _ d _
  · exact ⟨_, _, command_refused hf hd hr hstat, command_refused hft hdt hr hstat, .inr ⟨hf, h.drive c d 0⟩⟩

/-- The pairs a run observes: that of its first command, then those of the rest. -/
theorem observations_cons {c : CmdWord} {d : Nat} {s u : State} (rest : List (CmdWord × Nat))
    (h : command c d s = .next u) :
    (runProgram ((c, d) :: rest) s).map Prod.fst = ((runProgram rest u).map Prod.fst).map (observed u :: ·) := by
  rw [runProgram, h]
  cases hrest : runProgram rest u with
  | none => simp [hrest]
  | some pair => simp [hrest]

theorem runProgram_beyondPort {c : CmdWord} {d : Nat} {s : State} (rest : List (CmdWord × Nat)) (hd : 2 ^ xw s ≤ d) :
    runProgram ((c, d) :: rest) s = none := by
  rw [runProgram, command_beyondPort hd]

/-- Settles O53, by induction on the program: after a `RESET` the two blocks are one, before it they stay alike. -/
theorem faultedBlocksLookAlike : Obligations.FaultedBlocksLookAlike := by
  intro program
  induction program with
  | nil => exact fun _ _ _ _ => rfl
  | cons pair rest ih =>
    obtain ⟨c, d⟩ := pair
    intro s t hf h
    rcases Nat.lt_or_ge d (2 ^ xw s) with hd | hd
    · obtain ⟨s', t', hs, ht, rfl | ⟨hf', h'⟩⟩ := command_sameFaultView c hf h hd
      · rw [observations_cons rest hs, observations_cons rest ht]
      · rw [observations_cons rest hs, observations_cons rest ht, ih s' t' hf' h', observed_of_sameFaultView h']
    · rw [runProgram_beyondPort rest hd, runProgram_beyondPort rest (xw_of_sameFaultView h ▸ hd)]

/-- Settles O10. -/
theorem faultedBlockRefusesEveryOtherWord : Obligations.FaultedBlockRefusesEveryOtherWord :=
  fun _ _ _ hf hd hr hstat => command_refused hf hd hr hstat

/-- Settles O11: `RDSTAT` and the refusal keep the record, `RESET` clears it with everything else. -/
theorem onlyResetLeavesTheFaultedState : Obligations.OnlyResetLeavesTheFaultedState := by
  refine ⟨fun c d s t hf hr ht => ?_, fun d s hd => ⟨_, command_reset hd, rfl, rfl, rfl, resetBlock_resetValues _⟩⟩
  have hd := lt_of_command_next ht
  by_cases hstat : c = encode .rdstat
  · subst hstat
    cases (command_rdstat hd).symm.trans ht
    exact ⟨hf, rfl, rfl⟩
  · cases (command_refused hf hd hr hstat).symm.trans ht
    exact ⟨hf, rfl, rfl⟩

/-! Taking a fault (60_exceptions.md R171 to R173). -/

/-- A command that leaves a faulted block of one without a fault raised the fault in its body. -/
theorem exec_fault {i : Instr} {s t : State} (hf : s.fault = false) (he : exec i s = .next t) (ht : t.fault = true) :
    ∃ c u, execBody i s = .raised c u ∧ SameRecord s u ∧ t = faultedWith c.code u := by
  have hrecord := execBody_record i s
  have kept : (execBody i s).state.fault = false := by
    obtain ⟨-, -, -, -, -, hfault, -⟩ := hrecord
    exact hfault.trans hf
  cases commandEnd_of_exec he with
  | reset => cases ht
  | status | refused => cases hf.symm.trans ht
  | returned v u _ hb | completed u _ hb =>
    rw [hb] at kept
    cases kept.symm.trans ht
  | raised c u _ hb =>
    rw [hb] at kept hrecord
    exact ⟨c, u, hb, hrecord, enterFault_eq kept c⟩

/-- However a word raises its fault, it is recorded over a state in which the latch and the ports are as before. -/
theorem runWord_fault {s t : State} (hf : s.fault = false) (hw : runWord s = .next t) (ht : t.fault = true) :
    ∃ (c : FaultCode) (u : State), SameRecord s u ∧ t = faultedWith c.code u := by
  cases hdec : decode s.cmd with
  | ok i =>
    obtain ⟨c, u, -, hrecord, rfl⟩ := exec_fault hf ((runWord_of_decode hdec).symm.trans hw) ht
    exact ⟨c, u, hrecord, rfl⟩
  | error e =>
    cases (runWord_illegal hdec hf).symm.trans hw
    exact ⟨.illegal, s, .refl s, rfl⟩

/-- The codes of 60_exceptions.md R171. -/
theorem FaultCode.code_range (c : FaultCode) : 1 ≤ c.code.toNat ∧ c.code.toNat ≤ 5 := by cases c <;> decide

/-- Settles O12. -/
theorem faultEntryRecordsTheCommand : Obligations.FaultEntryRecordsTheCommand := by
  intro c d s t hf he ht
  have hw : runWord (present c d s) = .next t := (command_of_lt (lt_of_command_next he)).symm.trans he
  obtain ⟨code, u, ⟨-, hcmd, -, -, hres, -⟩, rfl⟩ := runWord_fault (s := present c d s) hf hw ht
  obtain ⟨hlow, hhigh⟩ := code.code_range
  exact ⟨congrArg (BitVec.extractLsb' 24 8) hcmd, hlow, hhigh, rfl, hres⟩

/-- Settles O13: the body raised a checked fault from the state it was given (`execBody_raised`). -/
theorem checkedFaultsChangeNothingElse : Obligations.CheckedFaultsChangeNothingElse := by
  intro i s t hf he ht hcode
  obtain ⟨c, u, hb, -, rfl⟩ := exec_fault hf he ht
  obtain ⟨-, hchecked⟩ := execBody_raised hb
  obtain rfl := hchecked hcode
  rfl

/-- Settles O14: of a well-formed command, the code its body raises is one its rule lists (`execBody_raised`). -/
theorem commandsRaiseOnlyTheirFaults : Obligations.CommandsRaiseOnlyTheirFaults := by
  intro i s t hwf hf he ht
  obtain ⟨c, u, hb, -, rfl⟩ := exec_fault hf he ht
  obtain ⟨⟨-, hill⟩ | ⟨-, hlisted⟩, -⟩ := execBody_raised hb
  · cases hwf.symm.trans hill
  · exact hlisted

/-! The choices of the model (log entries 1, 2, 9, 15). -/

/-- A legal operand is written, whatever its size (46_system.md R164). -/
theorem exec_wrcfg_written {r : CfgReg} {s : State} (hf : s.fault = false) (hv : CfgOperandLegal r s.din s) :
    ∃ t, exec (.wrcfg r) s = .next t ∧ CfgWritten r s t := by
  rcases writeCfg_verdict r s.din s with ⟨-, t, hw⟩ | ⟨hbad, -⟩
  · exact ⟨noValue t, exec_wrcfg_ok hf hw, cfgWritten_of_writeCfg hf hv hw⟩
  · exact absurd hv hbad

/-- Whatever its width, a field has no value exactly when a word it touches is unwritten (20_memory.md R59). -/
theorem bitRead_eq_none_iff {s : State} (hs : TableSized s) {b n : Nat} :
    bitRead s b n = none ↔ ¬ FieldWritten s b n := by
  refine ⟨fun h hw => ?_, bitRead_eq_none hs⟩
  obtain ⟨v, hv⟩ := bitRead_isSome hs hw
  cases h.symm.trans hv

/-- Whatever its width, a written field is some value of `BITSTR`. -/
theorem exec_bitstr_written {n : BitVec 12} {s : State} (hf : s.fault = false) (hs : TableSized s) (hn : n ≠ 0)
    (hw : FieldWritten s s.din n.toNat) : ∃ v, exec (.bitstr n) s = .next (returnValue v s) := by
  obtain ⟨v, hv⟩ := bitRead_isSome hs hw
  exact ⟨v, by rw [exec_bitstr_pos hf hn, readField_eq_ok.2 ⟨hv, rfl⟩, Sub.answer_ok]⟩

/-- Settles O51, one choice after the other; the lemmas about fields and rounds hold for every width. -/
theorem choicesOfTheModel : Obligations.ChoicesOfTheModel := by
  refine fun s => ⟨step_nil, fun c d rest hp hd => (step_cons hp).trans (command_beyondPort hd),
    fun hf hlow hhigh => exec_wrcfg_written hf ⟨by omega, hhigh⟩, fun n hf hs hn => ?_⟩
  have hpos : n ≠ 0 := by
    rintro rfl
    exact Nat.not_lt_zero _ hn
  refine ⟨exec_bitstr_written hf hs hpos, fun e => bitRead_eq_none_iff hs, fun i hi => ⟨?_, ?_, ?_⟩⟩
  · exact fun ds t hl h => exec_nrv_of_rounds hf hs hi hpos hl h
  · exact exec_nrv_of_no_rounds hf hs hi hpos
  · exact exists_rounds_of_full i.toNat n.toNat s.paranoia s.din s hs

end Sys2Proof.Machine

/-! PROOFS of the family 70_reset_and_hazards.md: what a block just reset refuses to draw, and runs of a program. -/

namespace Sys2Proof.Machine

/-! A run of a program (70_reset_and_hazards.md R210). -/

/-- A run observes a pair per command, and the steps with the program as the host's list reach its final state: a command
runs with the rest of the program pending as it does with nothing pending (`command_pending`). -/
theorem runs_of_runProgram (program : List (CmdWord × Nat)) :
    ∀ {s t : State} {obs : List (Nat × BitVec 32)}, s.pending = [] → runProgram program s = some (obs, t) →
      obs.length = program.length ∧ Runs program.length (withPending program s) t := by
  induction program with
  | nil =>
    intro s t obs hp h
    cases h
    exact ⟨rfl, congrArg (fun p => ({ s with pending := p } : State)) hp.symm⟩
  | cons pair rest ih =>
    intro s t obs hp h
    obtain ⟨c, d⟩ := pair
    obtain ⟨u, obs', hcommand, hrest, rfl⟩ := runProgram_cons_iff.1 h
    obtain ⟨hcommand', hpending⟩ := command_pending rest hcommand
    obtain ⟨hlength, hruns⟩ := ih (hpending.trans hp) hrest
    have hstep : step (withPending ((c, d) :: rest) s) = .next (withPending rest u) := hcommand'
    exact ⟨congrArg (· + 1) hlength, withPending rest u, hstep, hruns⟩

/-- Settles O52, by induction on the program (`runs_of_runProgram`). -/
theorem runOfAProgramIsOneStepPerCommand : Obligations.RunOfAProgramIsOneStepPerCommand :=
  fun program _ _ _ => runs_of_runProgram program

/-! Draws from an instance whose raw step answers 0 and leaves it as it is. -/

section

variable {ι : Type} {raw : ι → Nat × ι} {x : ι}

theorem accumulate_of_fixed (h : raw x = (0, x)) (w : Nat) : ∀ k, accumulate raw w k 0 x = (0, x)
  | 0 => rfl
  | k + 1 => by
    rw [accumulate, h, Nat.zero_shiftLeft, Nat.zero_or]
    exact accumulate_of_fixed h w k

theorem drawOnce_of_fixed (h : raw x = (0, x)) (w bw steps : Nat) (sel : BitVec 2) :
    drawOnce raw w bw steps x sel = { value := 0, inst := x, sel := sel } := by
  rw [drawOnce, accumulate_of_fixed h, fold_of_lt (Nat.two_pow_pos bw)]

/-- 0 is degenerate, so no draw is accepted (43_generators.md R132). -/
theorem drawLoop_of_fixed (h : raw x = (0, x)) (w bw steps : Nat) (sel : BitVec 2) :
    ∀ left k, (drawLoop raw w bw steps left k x sel).value = none
  | 0, k => by
    rw [drawLoop, drawOnce_of_fixed h]
    rfl
  | left + 1, k => by
    rw [drawLoop, drawOnce_of_fixed h]
    exact drawLoop_of_fixed h w bw steps sel left (k + 1)

end

/-- With one slot in use, as after reset, a cleared generator answers 0 and stays as it is. -/
theorem genStep_cleared (w n : Nat) : genStep w 1 (Gen.cleared n) = (0, Gen.cleared n) := by
  rw [genStep_of_recurrence (recurrence_lcg rfl)]
  simp [Gen.cleared]

/-- With one slot in use, as after reset, a cleared hash stays as it is when it is fed back, and its digest is 0. -/
theorem hashStep_cleared (w n : Nat) : hashStep w 1 (Hash.cleared n) = (0, Hash.cleared n) := by
  obtain ⟨hdigest, hvec⟩ := fedBack_zero (w := w) (hdepth := 1) (h := Hash.cleared n)
    fun _ hx => List.eq_of_mem_replicate hx
  have hidx : (fedBack w 1 (Hash.cleared n)).idx = 0 := Nat.mod_one _
  have hfed : fedBack w 1 (Hash.cleared n) = Hash.cleared n := Hash.mk.injEq .. ▸ ⟨hvec, hidx, rfl⟩
  rw [hashStep_eq, hdigest, hfed]

/-! Draws on a block just reset (70_reset_and_hazards.md R191). -/

/-- The state after reset with a command and its operand on the ports. -/
def justReset (p : Params) (c : CmdWord) (d : Nat) : State := present c d (State.resetOf p)

/-- In state `s` the command `i` ends in a fault with this code. -/
def EndsInFault (i : Instr) (s : State) (code : BitVec 4) : Prop :=
  ∃ t, exec i s = .next t ∧ t.fault = true ∧ t.fcode = code

theorem endsInFault_of_raised {i : Instr} {s u : State} {r : Sub Nat} {c : FaultCode} (he : exec i s = r.answer)
    (hr : r = .raised c u) (hu : u.fault = false) : EndsInFault i s c.code :=
  ⟨_, by rw [he, hr, Sub.answer_raised, raiseFault_eq hu], rfl, rfl⟩

/-- A `next` without an accepted draw leaves the fault record to the end of the command. -/
theorem endNext_none (top : Bool) (k : Nat) {s : State} (hf : s.fault = false) :
    ∃ u, endNext top none k s = .raised .integrity u ∧ u.fault = false := by
  cases top with
  | true => exact ⟨_, rfl, hf⟩
  | false => exact ⟨_, rfl, hf⟩

theorem genNext_of_fixed {i bw steps : Nat} {top : Bool} {s : State} (hf : s.fault = false)
    (h : genStep s.w s.depth (genAt s i) = (0, genAt s i)) :
    ∃ u, genNext i bw steps top s = .raised .integrity u ∧ u.fault = false := by
  rw [genNext, drawLoop_of_fixed h]
  exact endNext_none top _ hf

theorem hashNext_of_fixed {i bw steps : Nat} {top : Bool} {s : State} (hf : s.fault = false)
    (h : hashStep s.w s.hdepth (hashAt s i) = (0, hashAt s i)) :
    ∃ u, hashNext i bw steps top s = .raised .integrity u ∧ u.fault = false := by
  rw [hashNext, drawLoop_of_fixed h]
  exact endNext_none top _ hf

section

variable (p : Params) (c : CmdWord) (d : Nat)

theorem genAt_justReset (i : Nat) : genAt (justReset p c d) i = Gen.cleared p.dmax := by
  simp [genAt, justReset, State.resetOf]

theorem hashAt_justReset (i : Nat) : hashAt (justReset p c d) i = Hash.cleared p.hdmax := by
  simp [hashAt, justReset, State.resetOf]

theorem genNext_justReset (i bw steps : Nat) (top : Bool) :
    ∃ u, genNext i bw steps top (justReset p c d) = .raised .integrity u ∧ u.fault = false := by
  refine genNext_of_fixed rfl ?_
  rw [genAt_justReset]
  exact genStep_cleared 64 p.dmax

theorem hashNext_justReset (i bw steps : Nat) (top : Bool) :
    ∃ u, hashNext i bw steps top (justReset p c d) = .raised .integrity u ∧ u.fault = false := by
  refine hashNext_of_fixed rfl ?_
  rw [hashAt_justReset]
  exact hashStep_cleared 64 p.hdmax

/-- The composite draws from the generators after reset, and none of them answers. -/
theorem subNext_justReset (i bw v : Nat) (t : State) : subNext i bw (justReset p c d) ≠ .ok v t := by
  obtain ⟨u, hu, -⟩ := genNext_justReset p c d i bw 1 false
  rw [subNext_of_generators rfl, hu]
  nofun

end

/-! The composite (44_composite.md R142): without a selector there is no attempt, and without an attempt no value. -/

theorem not_attempt_of_no_selector {bw steps r : Nat} {s t : State} (hpos : 0 < steps * bw)
    (h : ∀ v u, subNext (s.n - 1) bw s ≠ .ok v u) : ¬ Attempt bw steps s r t := by
  rintro ⟨bits, u, hlength, hbits, -⟩
  cases bits with
  | nil => exact hpos.ne hlength
  | cons b bits =>
    obtain ⟨selector, s1, -, -, hselector, -⟩ := hbits
    exact h selector s1 hselector

theorem not_compositeDraws_of_no_attempt {bw steps k r : Nat} {s t : State} (h : ∀ r u, ¬ Attempt bw steps s r u) :
    ¬ CompositeDraws bw steps s k r t := by
  rintro ⟨u, hrejected, haccepted, -⟩
  cases k with
  | zero =>
    cases hrejected
    exact h r t haccepted
  | succ k =>
    obtain ⟨r', u', hfirst, -⟩ := hrejected
    exact h r' u' hfirst

/-- Whatever the command does with the keystream, on a block just reset there is none. -/
theorem answerOfNext_justReset {bw steps : Nat} (hb : ∃ k, bw = 2 ^ k) (hsteps : 0 < steps) (f : Nat → Nat) (p : Params)
    (c : CmdWord) (d : Nat) :
    ∃ t, answerOfNext bw steps f (justReset p c d) = .next t ∧ t.fault = true ∧ t.fcode = 4 := by
  have hpos : 0 < steps * bw := by
    obtain ⟨k, rfl⟩ := hb
    exact Nat.mul_pos hsteps (Nat.two_pow_pos k)
  have hnone : ¬ ∃ k r t, k ≤ (justReset p c d).retryMax.toNat ∧ CompositeDraws bw steps (justReset p c d) k r t :=
    fun ⟨_, _, _, _, hdraws⟩ => not_compositeDraws_of_no_attempt
      (fun _ _ => not_attempt_of_no_selector hpos (subNext_justReset p c d _ bw)) hdraws
  obtain ⟨t, hanswer, hfault, hfcode, -⟩ := answerOfNext_of_no_draw (f := f) hb rfl hnone
  exact ⟨t, hanswer, hfault, hfcode⟩

/-! The empty table (20_memory.md R59). -/

theorem not_fieldWritten_of_empty {s : State} (ht : s.table = []) (b : Nat) {n : Nat} (hn : 0 < n) :
    ¬ FieldWritten s b n := by
  intro hw
  have hword := hw 0 (by omega)
  rw [ht] at hword
  cases hword

theorem justReset_sized (p : Params) (c : CmdWord) (d : Nat) : TableSized (justReset p c d) := ⟨12, le_rfl, rfl⟩

theorem not_nrvRounds_of_empty {i w e : Nat} {ds : List Nat} {s t : State} (hs : TableSized s) (ht : s.table = [])
    (hw : 0 < w) (hds : ds ≠ []) : ¬ NrvRounds i w ds e s t := by
  intro h
  obtain ⟨d, rest, rfl⟩ := List.exists_cons_of_ne_nil hds
  obtain ⟨v, hv, -⟩ := nrvRounds_cons_iff.1 h
  exact not_fieldWritten_of_empty ht _ hw (fieldWritten_of_bitRead hs hv)

/-! The commands of R191, one after the other. -/

theorem toNat_pos_of_ne_zero {w : Nat} {x : BitVec w} (hx : x ≠ 0) : 0 < x.toNat :=
  Nat.pos_of_ne_zero fun h => hx (BitVec.eq_of_toNat_eq (h.trans BitVec.toNat_zero.symm))

section

variable {p : Params} {c : CmdWord} {d : Nat} {i : BitVec 8} {n : BitVec 4} {b : BitVec 12}

theorem gnext_justReset (hn : n ≠ 0) (hi : i.toNat < p.nmax) (hb : 2 ≤ b.toNat) :
    EndsInFault (.gnext i n b) (justReset p c d) 4 := by
  obtain ⟨u, hu, hf⟩ := genNext_justReset p c d i.toNat b.toNat n.toNat true
  exact endsInFault_of_raised (exec_gnext rfl hn hi hb) hu hf

theorem hnext_justReset (hn : n ≠ 0) (hi : i.toNat < p.nmax) (hb : 2 ≤ b.toNat) :
    EndsInFault (.hnext i n b) (justReset p c d) 4 := by
  obtain ⟨u, hu, hf⟩ := hashNext_justReset p c d i.toNat b.toNat n.toNat true
  exact endsInFault_of_raised (exec_hnext rfl hn hi hb) hu hf

theorem cnext_justReset (hn : n ≠ 0) (h2 : 2 ≤ b.toNat) (hpow : ∃ k, b.toNat = 2 ^ k)
    (hx : n.toNat * b.toNat ≤ xw (justReset p c d)) : EndsInFault (.cnext n b) (justReset p c d) 4 := by
  rw [EndsInFault, exec_cnext rfl hn ⟨h2, hpow, hx⟩]
  exact answerOfNext_justReset hpow (toNat_pos_of_ne_zero hn) id p c d

theorem cipher_justReset {j : Instr} (hj : j = .enc n ∨ j = .dec n) (hn : n ≠ 0) (hd : d < 256) :
    EndsInFault j (justReset p c d) 4 := by
  rw [EndsInFault, exec_cipher hj rfl hn (Nat.le_of_lt_succ hd)]
  exact answerOfNext_justReset ⟨3, rfl⟩ (toNat_pos_of_ne_zero hn) _ p c d

theorem bitstr_justReset (hb : b ≠ 0) : EndsInFault (.bitstr b) (justReset p c d) 5 := by
  have hunwritten : ¬ FieldWritten (justReset p c d) d b.toNat := not_fieldWritten_of_empty rfl d (toNat_pos_of_ne_zero hb)
  have hread : bitRead (justReset p c d) d b.toNat = none := bitRead_eq_none (justReset_sized p c d) hunwritten
  exact endsInFault_of_raised (exec_bitstr_pos rfl hb) (readField_eq_raised.2 ⟨hread, rfl, rfl⟩) rfl

theorem randint_justReset (hb : b ≠ 0) (hx : 2 * b.toNat + 1 ≤ xw (justReset p c d)) :
    EndsInFault (.randint b) (justReset p c d) 5 := by
  have hunwritten : ¬ FourFieldsWritten b.toNat (walkedIndices b.toNat (justReset p c d)) := fun ⟨hfirst, _⟩ =>
    not_fieldWritten_of_empty (walkedIndices_table _ _) _ (toNat_pos_of_ne_zero hb) hfirst
  obtain ⟨t, hanswer, hfault, hfcode, -⟩ := randInt_of_unwritten (justReset_sized p c d) rfl hunwritten
  exact ⟨t, (exec_randint rfl hb hx).trans hanswer, hfault, hfcode⟩

theorem nrv_justReset (hi : i.toNat < p.nmax) (hb : b ≠ 0) : EndsInFault (.nrv i b) (justReset p c d) 5 := by
  have hnone : ¬ ∃ ds t, ds.length = (justReset p c d).paranoia ∧
      NrvRounds i.toNat b.toNat ds (justReset p c d).din (justReset p c d) t := by
    rintro ⟨ds, t, hlength, hrounds⟩
    have hds : ds ≠ [] := List.ne_nil_of_length_eq_add_one hlength
    exact not_nrvRounds_of_empty (justReset_sized p c d) rfl (toNat_pos_of_ne_zero hb) hds hrounds
  obtain ⟨t, hexec, hfault, hfcode, -⟩ := exec_nrv_of_no_rounds rfl (justReset_sized p c d) hi hb hnone
  exact ⟨t, hexec, hfault, hfcode⟩

end

/-- Settles O40: no instance answers but with degenerate draws, and no word of the table is written. -/
theorem resetBlockCannotDraw : Obligations.ResetBlockCannotDraw := by
  rintro p c d i n b - hn hb s rfl
  refine ⟨?_, cnext_justReset hn, fun hd j hj => cipher_justReset hj hn hd, bitstr_justReset hb,
    randint_justReset hb, fun hi => nrv_justReset hi hb⟩
  rintro hi h2 j (rfl | rfl)
  · exact gnext_justReset hn hi h2
  · exact hnext_justReset hn hi h2

end Sys2Proof.Machine
